-- ==== Sys2Proof/Word.lean ====
section
/-! DEFINITION. The byte of the serial port, the text made of such bytes, and the small containers that
hold two or four like things. Numbers that the manual never masks or shifts are `Nat`; bytes, tags and
line masks are bit vectors. -/
namespace Sys2Proof

/-- One byte of the serial port (R174). -/
abbrev Byte := BitVec 8

/-- A mask of the 32 general lines: L0 is bit 0 (R187). -/
abbrev LineMask := BitVec 32

/-- Text as its characters, one ASCII byte each (R187). -/
abbrev Text := List Byte

/-- The ASCII bytes of a list of characters. -/
def ascii (cs : List Char) : Text := cs.map fun c => BitVec.ofNat 8 c.toNat

/-- The side of the cradle, its page and its camera. -/
inductive Side where
  | left
  | right
  deriving DecidableEq, Repr, Inhabited

/-- The four flash banks: A and B on the left, C and D on the right (R69). -/
inductive Bank where
  | a
  | b
  | c
  | d
  deriving DecidableEq, Repr, Inhabited

/-- One value for the left and one for the right. -/
structure Pair (α : Type) where
  l : α
  r : α
  deriving DecidableEq, Repr, Inhabited

/-- One value for each of the four flash banks. -/
structure Quad (α : Type) where
  a : α
  b : α
  c : α
  d : α
  deriving DecidableEq, Repr, Inhabited

/-- The value of one side. -/
def Pair.get {α : Type} (p : Pair α) : Side → α
  | .left => p.l
  | .right => p.r

/-- `p` with the value of one side replaced. -/
def Pair.set {α : Type} (p : Pair α) (x : Side) (v : α) : Pair α :=
  match x with
  | .left => { p with l := v }
  | .right => { p with r := v }

/-- The value of one bank. -/
def Quad.get {α : Type} (q : Quad α) : Bank → α
  | .a => q.a
  | .b => q.b
  | .c => q.c
  | .d => q.d

/-- `q` with the value of one bank replaced. -/
def Quad.set {α : Type} (q : Quad α) (x : Bank) (v : α) : Quad α :=
  match x with
  | .a => { q with a := v }
  | .b => { q with b := v }
  | .c => { q with c := v }
  | .d => { q with d := v }

/-- The four values, A first. -/
def Quad.toList {α : Type} (q : Quad α) : List α := [q.a, q.b, q.c, q.d]

/-- The two values, left first. -/
def Pair.toList {α : Type} (p : Pair α) : List α := [p.l, p.r]

/-- The four banks, in the order A, B, C, D. -/
def allBanks : List Bank := [.a, .b, .c, .d]

/-- The two sides, left first. -/
def allSides : List Side := [.left, .right]

/-- The opposite side. -/
def Side.other : Side → Side
  | .left => .right
  | .right => .left

/-- The side a bank stands on and lights (R69). -/
def Bank.side : Bank → Side
  | .a => .left
  | .b => .left
  | .c => .right
  | .d => .right

end Sys2Proof
end

