-- ==== Sys2Proof/Config.lean ====
section
/-! DEFINITION. What the manual fixes for the part as a whole (its capacities, R178) and the free values:
constants without a body, of which nothing can be proved but their range. -/
namespace Sys2Proof.Config

/-- Reports the queue holds (R181). -/
def queueCapacity : Nat := 64

/-- Occupied and reserved slots below which a minor report is admitted (R182). -/
def minorThreshold : Nat := 48

/-- Capture orders that can wait (R110). -/
def orderCapacity : Nat := 4

/-- Most leaf records (R20). -/
def leafCapacity : Nat := 2048

/-- Most plan segments (R35). -/
def planCapacity : Nat := 24

/-- Fault records kept (R163). -/
def faultCapacity : Nat := 8

/-- General lines (R146). -/
def lineCount : Nat := 32

/-- Light recipes (R87). -/
def recipeCount : Nat := 8

/-- Most payload bytes of a frame (R174). -/
def payloadMax : Nat := 240

/-- FREE VALUE. The position in µm, 0..60,000, that the drive port of a plate reports at a clock value
while the plate is not known to stand at its target (R67, R68; log 5). -/
opaque platePort (sd : Side) (clock : Nat) : Fin 60001

end Sys2Proof.Config
end

