-- ==== Sys2Proof/Names.lean ====
section
/-! DEFINITION. The names of the manual that both the commands and the state use: line functions, line
settings, leaf marks, numbering schemes, capture orders and light sources. -/
namespace Sys2Proof

/-- The functions that can be bound to a line (R155), in the order of their codes (R187). -/
inductive Fn where
  | camLSync | camRSync | camLStored | camRStored
  | platenTop | platenContact
  | armHome | armLeft | armRight
  | vacuumOk
  | leafSeenL | leafSeenR
  | doubleLeaf
  | keyShoot | keyTurn | keyBack
  | camLTrigger | camRTrigger
  | attention
  | readyLamp
  deriving DecidableEq, Repr, Inhabited

/-- Direction of a line (R146). -/
inductive LineDir where
  | inp
  | out
  deriving DecidableEq, Repr, Inhabited

/-- Pull of a line (R146). -/
inductive Pull where
  | none
  | down
  | up
  deriving DecidableEq, Repr, Inhabited

/-- How the staged value is driven while OUT (R151). -/
inductive Drive where
  | pushPull
  | openLow
  | openHigh
  deriving DecidableEq, Repr, Inhabited

/-- How the raw event status of a line is set (R149). -/
inductive Sense where
  | edge
  | level
  deriving DecidableEq, Repr, Inhabited

/-- Which level of a line is its active one (R146). -/
inductive Polarity where
  | risingHigh
  | fallingLow
  deriving DecidableEq, Repr, Inhabited

/-- Why a face is set aside (R22). -/
inductive SkipReason where
  | blank
  | missing
  | restricted
  deriving DecidableEq, Repr, Inhabited

/-- The actions of LEAF_MARK (R29). -/
inductive LeafAction where
  | skip
  | unskip
  | want
  | unwant
  | manualOn
  | manualOff
  deriving DecidableEq, Repr, Inhabited

/-- Numbering scheme of a plan segment (R35). -/
inductive Scheme where
  | foliated
  | paginated
  | roman
  | unnumbered
  | plate
  deriving DecidableEq, Repr, Inhabited

/-- The pages a capture order asks for (R110). -/
inductive Sides where
  | left
  | right
  | both
  deriving DecidableEq, Repr, Inhabited

/-- The purpose of a capture order (R110). -/
inductive Purpose where
  | normal
  | reshoot
  deriving DecidableEq, Repr, Inhabited

/-- Where a turn or a capture order came from (R52, R110). -/
inductive Origin where
  | link
  | key
  deriving DecidableEq, Repr, Inhabited

/-- Direction of a turn (R52). -/
inductive Direction where
  | forward
  | backward
  deriving DecidableEq, Repr, Inhabited

/-- The six calibrated light sources (R91); an aim lamp is named by its side. -/
inductive Source where
  | bank (bk : Bank)
  | aim (sd : Side)
  deriving DecidableEq, Repr, Inhabited

/-- The six hoods (R82); an aim lamp's hood is named by its side. -/
inductive HoodId where
  | bank (bk : Bank)
  | aim (sd : Side)
  deriving DecidableEq, Repr, Inhabited

/-- A segment as PLAN_SET carries it (R36); `scheme` is `none` for a code that is none of the five. -/
structure SegmentField where
  first : Nat
  last : Nat
  scheme : Option Scheme
  start : Nat
  pfx : Text
  deriving DecidableEq, Repr, Inhabited

/-- The functions in the order of their codes, CAM_L_SYNC first (R187). -/
def allFns : List Fn :=
  [.camLSync, .camRSync, .camLStored, .camRStored, .platenTop, .platenContact, .armHome, .armLeft,
   .armRight, .vacuumOk, .leafSeenL, .leafSeenR, .doubleLeaf, .keyShoot, .keyTurn, .keyBack,
   .camLTrigger, .camRTrigger, .attention, .readyLamp]

end Sys2Proof
end

