-- ==== Sys2Proof/Syntax.lean ====
section
/-! DEFINITION. The commands the block takes: one constructor for each row of spec/opcode_table.json, in
the table's order. A request carries the tag of its frame first and then its fields as R-rules name
them. A coded field is an `Option`: `none` is a byte whose code is not in the field's list. A field with
a presence bit is an `Option` too: `none` is absent. An event carries what tells its occurrences apart
(a line, a bank, a hood, a side) and what comes in with it (a byte, a level, a reading). -/
namespace Sys2Proof

inductive Instr where
  /-- Power-on reset (R145 and the reset rule of every chapter). -/
  | powerOnReset
  /-- The soft reset that follows the RESET reply (R180). -/
  | softReset
  /-- A character of the serial port; `badStop` is a bad stop bit (R174). -/
  | byteReceived (byte : Byte) (badStop : Bool)
  /-- 2 ms have passed without a further byte of a frame in assembly (R174). -/
  | gapError
  /-- The last byte of a reply has been sent (R176). -/
  | replySent
  | ident (tag : Byte)
  | status (tag : Byte)
  | time (tag : Byte)
  | fetch (tag : Byte)
  | linkSet (tag : Byte) (enable tap clearCount : Nat)
  | reset (tag : Byte)
  | safe (tag : Byte)
  | clearSafe (tag : Byte)
  | idleSet (tag : Byte) (seconds : Nat)
  | volumeLoad (tag : Byte) (shelfMark : Text) (part leaves thickness leafCeiling volumeCeiling handlingLimit reserve : Nat)
  | volumeOpen (tag : Byte) (k : Nat)
  | volumeSet (tag : Byte) (leafCeiling volumeCeiling handlingLimit reserve thickness : Option Nat)
  | volumeClose (tag : Byte) (force : Bool)
  | volumeDiscard (tag : Byte)
  | volumeQuery (tag : Byte)
  | reseat (tag : Byte) (k : Nat) (manualLeaf : Option Nat)
  | leafMark (tag : Byte) (leaf : Nat) (recto verso : Bool) (action : Option LeafAction) (reason : Option (Option SkipReason))
  | leafQuery (tag : Byte) (first count : Nat)
  | gapsQuery (tag : Byte) (first : Nat)
  | planSet (tag : Byte) (segments : List SegmentField)
  | planQuery (tag : Byte) (position : Nat)
  | lower (tag : Byte)
  | raise (tag : Byte)
  | turn (tag : Byte) (override : Bool)
  | turnBack (tag : Byte) (override : Bool)
  | turnResume (tag : Byte)
  | turnAbandon (tag : Byte)
  | motionSet (tag : Byte) (target tolerance limit dwellMax plateBase airTime gripRetries : Option Nat)
  | motionQuery (tag : Byte)
  | bankPower (tag : Byte) (mask : Quad Bool) (command : Option Bool)
  | bankSet (tag : Byte) (mask : Quad Bool) (recharge : Nat)
  | aimSet (tag : Byte) (mask : Pair Bool) (requested guard : Option Nat)
  | recipeSet (tag : Byte) (recipe : Nat) (levels : Quad Nat) (duration : Nat)
  | recipeQuery (tag : Byte) (recipe : Nat)
  | lampQuery (tag : Byte)
  | lampCal (tag : Byte) (source : Option Source) (points : List Nat) (spill : Nat)
  | calQuery (tag : Byte) (source : Option Source)
  | doseQuery (tag : Byte)
  | shoot (tag : Byte) (orderTag : Nat) (sides : Option Sides) (recipe : Nat) (purpose : Option Purpose) (notBefore : Option Nat)
  | cameraSet (tag : Byte) (mask : Pair Bool) (pulse delay window stored lateLimit : Option Nat)
  | captureQuery (tag : Byte)
  | lineConfig (tag : Byte) (line : Nat) (dir : Option LineDir) (pull : Option Pull) (drive : Option Drive) (sense : Option Sense) (polarity : Option Polarity) (bothEdges : Bool) (debounce : Nat) (event wake hold : Bool)
  | lineWrite (tag : Byte) (mask values : LineMask)
  | lineRead (tag : Byte)
  | lineCounts (tag : Byte) (clear : LineMask)
  | lineQuery (tag : Byte) (line : Nat)
  | lineClear (tag : Byte) (mask : LineMask)
  | lineBind (tag : Byte) (fn : Option Fn) (line : Option Nat)
  /-- The level at the pin of a line becomes `high` (R147). -/
  | pinLevelChange (line : Nat) (high : Bool)
  /-- The pending change of a line has stood for its debounce time (R148). -/
  | acceptedEdge (line : Nat)
  /-- The charge-good input of a bank becomes `good` (R72). -/
  | chargeGood (bank : Bank) (good : Bool)
  /-- The 1 ms tick, with the pressure reading in dN that the converter gives at it (R134, R45). -/
  | tick1ms (reading : Nat)
  /-- The eighth counted boundary of the silence timer (R139). -/
  | linkSilent
  /-- The 10 ms tick start (R103). -/
  | aimTick
  | idleTimerExpiry
  | loweringTimeout
  | pressingTimeout
  | raiseTimeout
  | dwellExpiry
  /-- Both plate drive ports report their plates at target (R50). -/
  | platesAtTarget
  | plateTimeout
  | airTimeEnd
  | armTimeout
  | gripTimeout
  | releaseTimeout
  | verifyTimeout
  | bankChargeTimeout (bank : Bank)
  | conditioningFlash (bank : Bank)
  | conditioningComplete (bank : Bank)
  | captureFiring (bank : Bank)
  | flashEnd (bank : Bank)
  | recoveryEnd (bank : Bank)
  | topUpStart (bank : Bank)
  | topUpEnd (bank : Bank)
  | wakingEnd (bank : Bank)
  | hoodTravelEnd (hood : HoodId)
  | notBeforeTime
  | armingTimeout
  | triggerPulseEnd (side : Side)
  | syncWindowClose (side : Side)
  | storedTimeout (side : Side)
  | conditioningFlashDue (bank : Bank)
  deriving DecidableEq, Repr, Inhabited

end Sys2Proof
end

