-- ==== Sys2Proof/Machine/Records.lean ====
section
/-! DEFINITION. The records each block of the GD-440 holds, as plain data. A stored time is a value of the
microsecond clock since power-on (`Timebase.clock`), which never wraps; the 48-bit timebase value that the
manual prints for it is that number modulo 2^48 (`stamp`). A timer is held as the clock value at which it
expires. A wrapping or saturating count is a `Nat` kept in its range by the operations that change it. -/
namespace Sys2Proof.Machine

/-! ### The volume record and the leaf table -/

/-- Volume state (R1). -/
inductive VolState where
  | empty
  | loaded
  | opened
  | closed
  deriving DecidableEq, Repr, Inhabited

/-- Close status (R1). -/
inductive CloseStatus where
  | complete
  | incomplete
  deriving DecidableEq, Repr, Inhabited

/-- The volume record (R1). Absent fields are `none`. -/
structure Volume where
  state : VolState
  shelfMark : Option Text
  part : Nat
  leafCount : Nat
  thickness : Nat
  leafCeiling : Nat
  volumeCeiling : Nat
  handlingLimit : Nat
  reserve : Nat
  closeStatus : Option CloseStatus
  k : Nat
  known : Bool
  platesPending : Bool
  captureSeq : Nat
  turnSeq : Nat
  capturesIssued : Nat
  facesConfirmed : Nat
  sidesFailed : Nat
  turnsDone : Nat
  gripRetries : Nat
  doublePicks : Nat
  manualTurns : Nat
  totalDose : Nat
  loadTime : Option Nat
  openTime : Option Nat
  closeTime : Option Nat
  deriving DecidableEq, Repr, Inhabited

/-- Face state; the skip reason is present only in SKIPPED (R22). -/
inductive FaceState where
  | opened
  | shot
  | wanted
  | skipped (reason : SkipReason)
  | external
  deriving DecidableEq, Repr, Inhabited

/-- A face record (R22). -/
structure Face where
  state : FaceState
  takes : Nat
  lastSeq : Option Nat
  deriving DecidableEq, Repr, Inhabited

/-- A leaf record (R21). Its index is its place in the table and its kind follows from the index (R20). -/
structure Leaf where
  manual : Bool
  dose : Nat
  handled : Nat
  recto : Face
  verso : Face
  deriving DecidableEq, Repr, Inhabited

/-- Kind of a leaf record (R20). -/
inductive LeafKind where
  | frontBoard
  | leaf
  | backBoard
  deriving DecidableEq, Repr, Inhabited

/-- A segment of the foliation plan in force (R35). -/
structure Segment where
  first : Nat
  last : Nat
  scheme : Scheme
  start : Nat
  pfx : Text
  deriving DecidableEq, Repr, Inhabited

/-! ### Motion -/

/-- Platen state (R43). -/
inductive Platen where
  | raised
  | lowering
  | pressing
  | down
  | raising
  | stopped
  deriving DecidableEq, Repr, Inhabited

/-- Plate state (R50). -/
inductive PlateState where
  | settled
  | moving
  | unsettled
  deriving DecidableEq, Repr, Inhabited

/-- The ten stages of a turn, in order (R53 to R57). -/
inductive Stage where
  | raise
  | air
  | reach
  | grip
  | sweep
  | release
  | verify
  | park
  | adjust
  | lower
  deriving DecidableEq, Repr, Inhabited

/-- The turn record (R52). `recovery` is SWEEP's double-pick return, `regripAir` the air burst of a
regrip before the suction is on again (R54), `noted` a LEAF_SEEN edge since RELEASE began (R56), and
`deadline` the running stage timeout or air time. -/
structure Turn where
  seq : Nat
  direction : Direction
  origin : Origin
  override : Bool
  leaf : Nat
  oldOpening : Nat
  held : Bool
  stage : Stage
  recovery : Bool
  retries : Nat
  attempts : Nat
  doublePicks : Nat
  limits : Pair Bool
  start : Nat
  deadline : Option Nat
  regripAir : Bool
  noted : Bool
  deriving DecidableEq, Repr, Inhabited

/-- The motion profile (R66). -/
structure Profile where
  target : Nat
  tolerance : Nat
  limit : Nat
  dwellMax : Nat
  plateBase : Nat
  airTime : Nat
  gripRetries : Nat
  deriving DecidableEq, Repr, Inhabited

/-- A running dwell: its expiry and the dwell maximum, in s, in force at its start (R48). -/
structure Dwell where
  expiry : Nat
  maximum : Nat
  deriving DecidableEq, Repr, Inhabited

/-- What the motion controller holds. `pressureHigh` says that PRESSURE_HIGH has been raised since the
reading last stood at or below the limit (R46); `safeRaise` that the raise in progress is the one the
safe state started (R63); `dwellDeferred` that a dwell expiry waits for the end of a capture (R48). -/
structure Motion where
  platen : Platen
  platenDeadline : Option Nat
  raisePending : Bool
  safeRaise : Bool
  dwell : Option Dwell
  dwellDeferred : Bool
  pressure : Nat
  pressureHigh : Bool
  platePositions : Pair Nat
  plateTargets : Pair Nat
  plateLimits : Pair Bool
  plateState : PlateState
  plateDeadline : Option Nat
  armPowered : Bool
  suction : Bool
  keptOn : Bool
  air : Bool
  turn : Option Turn
  profile : Profile
  deriving DecidableEq, Repr, Inhabited

/-! ### Lamps -/

/-- Flash bank state (R70). -/
inductive BankState where
  | off
  | charging
  | conditioning
  | ready
  | recovering
  | topping
  | standby
  | waking
  | fault
  deriving DecidableEq, Repr, Inhabited

/-- Hood state (R82). -/
inductive HoodState where
  | closed
  | opening
  | opened
  | closing
  deriving DecidableEq, Repr, Inhabited

/-- A hood, with the end of its travel while it travels (R82). -/
structure Hood where
  state : HoodState
  deadline : Option Nat
  deriving DecidableEq, Repr, Inhabited

/-- A flash that is lit: its level, its end, and the capture it belongs to, or none for a conditioning
flash (R75, R73). -/
structure Flash where
  level : Nat
  ends : Nat
  capture : Option Nat
  deriving DecidableEq, Repr, Inhabited

/-- A flash bank record (R69). `latest` is the time of the latest firing made or granted (R74),
`deadline` the end of CHARGING's timeout, of TOPPING or of WAKING. -/
structure BankRec where
  state : BankState
  count : Nat
  conditioned : Bool
  recharge : Nat
  lastFiring : Option Nat
  readySince : Option Nat
  standbySince : Option Nat
  hoodRequest : Option Nat
  hood : Hood
  deadline : Option Nat
  flash : Option Flash
  latest : Option Nat
  deriving DecidableEq, Repr, Inhabited

/-- An aim lamp record (R85). -/
structure Aim where
  requested : Nat
  guard : Nat
  applied : Nat
  lit : Bool
  hood : Hood
  deriving DecidableEq, Repr, Inhabited

/-- A firing granted and not yet made: for `capture = some c` a firing of capture `c`, otherwise a
conditioning flash (R74). -/
structure Grant where
  bank : Bank
  time : Nat
  level : Nat
  duration : Nat
  capture : Option Nat
  deriving DecidableEq, Repr, Inhabited

/-- A light recipe (R87). -/
structure Recipe where
  levels : Quad Nat
  duration : Nat
  deriving DecidableEq, Repr, Inhabited

/-- What the lamp controller holds. `closePending` is the close of the hoods that a hold or the safe
state commanded during a lighting interval (R84). -/
structure Lamps where
  banks : Quad BankRec
  aims : Pair Aim
  grants : List Grant
  interval : Option Nat
  closePending : Bool
  recipes : List Recipe
  deriving DecidableEq, Repr, Inhabited

/-! ### Dose -/

/-- A calibration record: eleven points and the spill factor (R91). -/
structure Cal where
  points : List Nat
  spill : Nat
  deriving DecidableEq, Repr, Inhabited

/-- A prediction entry (R97). -/
structure Entry where
  bank : Bank
  level : Nat
  duration : Nat
  lux : Nat
  ownLeaf : Nat
  ownAmount : Nat
  spillLeaf : Nat
  spillAmount : Nat
  credited : Bool
  deriving DecidableEq, Repr, Inhabited

/-- The prediction record of the capture in flight (R97, R99). -/
structure Prediction where
  seq : Nat
  k : Nat
  entries : List Entry
  deriving DecidableEq, Repr, Inhabited

/-- Aim guard outcome (R107). -/
inductive AimOutcome where
  | requested
  | guard
  | dark
  deriving DecidableEq, Repr, Inhabited

/-- A dose constraint: a leaf's ceiling or the volume's (R104). -/
inductive Constraint where
  | leaf (i : Nat)
  | volume
  deriving DecidableEq, Repr, Inhabited

/-- What the dose meter holds (R90). `tickLevel` is each lamp's applied level at the last tick start
(R108). -/
structure Dose where
  banks : Quad Cal
  aims : Pair Cal
  prediction : Option Prediction
  credit : Pair Nat
  outcome : Pair AimOutcome
  note : Pair (Option Constraint)
  tickLevel : Pair Nat
  deriving DecidableEq, Repr, Inhabited

/-! ### Captures -/

/-- A capture order (R110). -/
structure Order where
  tag : Nat
  origin : Origin
  sides : Sides
  recipe : Nat
  purpose : Purpose
  notBefore : Option Nat
  accepted : Nat
  deriving DecidableEq, Repr, Inhabited

/-- The outcome of a requested side (R124). -/
inductive SideOutcome where
  | confirmed
  | earlySync
  | noSync
  | unlit
  | notStored
  | notReady
  | recipeDark
  | notEquipped
  | doseCeiling
  | notCalibrated
  | abortedHold
  | abortedSafe
  deriving DecidableEq, Repr, Inhabited

/-- The overall result of a capture (R124). -/
inductive Overall where
  | shared (o : SideOutcome)
  | mixed
  deriving DecidableEq, Repr, Inhabited

/-- Where a requested side stands; `arming` until T0 (R119). -/
inductive SideStage where
  | arming
  | waiting
  | firing
  | storing
  | ended (o : SideOutcome)
  deriving DecidableEq, Repr, Inhabited

/-- The lamp controller's answer to an ask (R121). -/
inductive Answer where
  | fired (time : Nat)
  | withdrawn
  deriving DecidableEq, Repr, Inhabited

/-- A firing a side asked for, with its granted time and its answer (R121). -/
structure Ask where
  bank : Bank
  granted : Nat
  answer : Option Answer
  deriving DecidableEq, Repr, Inhabited

/-- A camera profile (R130): µs, µs, µs, ms. -/
structure Camera where
  pulse : Nat
  delay : Nat
  window : Nat
  stored : Nat
  deriving DecidableEq, Repr, Inhabited

/-- What the leaf table returns for a confirmed take (R24). -/
structure Take where
  leaf : Nat
  verso : Bool
  label : Text
  number : Nat
  deriving DecidableEq, Repr, Inhabited

/-- One requested side of the capture in flight; `camera` is fixed at T0 (R119). -/
structure SideRec where
  stage : SideStage
  camera : Camera
  syncTime : Option Nat
  asks : List Ask
  storedNoted : Bool
  storedDeadline : Option Nat
  take : Option Take
  deriving DecidableEq, Repr, Inhabited

/-- The unmet mask of a NOT_READY capture (R117). -/
structure Unmet where
  opening : Bool
  platen : Bool
  banks : Quad Bool
  hoods : Quad Bool
  deriving DecidableEq, Repr, Inhabited

/-- The figures of a failed precheck (R98, R125): the first of leaf k, leaf k+1 and VOLUME that failed
with what was compared, or the first uncalibrated bank. -/
inductive Figures where
  | leftLeaf (compared increment ceiling : Nat)
  | rightLeaf (compared increment ceiling : Nat)
  | volume (compared increment ceiling : Nat)
  | uncalibrated (bk : Bank)
  deriving DecidableEq, Repr, Inhabited

/-- The capture in flight (R116 to R123). In ARMING `t0` is absent; a side not requested is `none`. -/
structure Capture where
  seq : Nat
  order : Order
  levels : Quad Nat
  duration : Nat
  armedAt : Nat
  deadline : Option Nat
  opening : Option (Nat × Bool)
  t0 : Option Nat
  sides : Pair (Option SideRec)
  unmet : Option Unmet
  figures : Option Figures
  deriving DecidableEq, Repr, Inhabited

/-- What the capture sequencer holds. `pulses` are the ends of the trigger pulses in progress (R119). -/
structure Sequencer where
  orders : List Order
  capture : Option Capture
  cameras : Pair Camera
  lateLimit : Nat
  lateCount : Nat
  pulses : Pair (Option Nat)
  deriving DecidableEq, Repr, Inhabited

/-! ### Timebase, lines and safe state -/

/-- What the timebase holds. `clock` counts the microseconds since power-on without wrapping, and the
48-bit count is `clock` modulo 2^48 (R133). `phase` is 1,000 between the completion of a millisecond and
its tick; `tenth` counts the 1 ms ticks modulo ten and `aimDue` says that a 10 ms tick start has come and
is not yet taken (R134). `idleStart` is the last restart of a running idle timer. -/
structure Timebase where
  clock : Nat
  phase : Nat
  ms : Nat
  tenth : Nat
  aimDue : Bool
  tap : Nat
  pendingTap : Option Nat
  idleSetting : Nat
  idleStart : Option Nat
  idle : Bool
  idleSince : Option Nat
  deriving DecidableEq, Repr, Inhabited

/-- A line record (R146). `pin` is the level that the outside drives on the pin, `none` while nothing outside drives
it. -/
structure Line where
  dir : LineDir
  pull : Pull
  drive : Drive
  sense : Sense
  polarity : Polarity
  bothEdges : Bool
  debounce : Nat
  event : Bool
  wake : Bool
  hold : Bool
  level : Bool
  change : Option (Bool × Nat)
  staged : Bool
  raw : Bool
  latch : Bool
  count : Nat
  pin : Option Bool
  deriving DecidableEq, Repr, Inhabited

/-- A hold in force: the holding line and the start time (R158). -/
structure Hold where
  line : Nat
  since : Nat
  deriving DecidableEq, Repr, Inhabited

/-- What the line block holds. `binding` gives, for each function in the order of its code, its line. -/
structure Lines where
  records : List Line
  binding : List (Option Nat)
  hold : Option Hold
  ready : Bool
  deriving DecidableEq, Repr, Inhabited

/-- The twelve kinds of fault (R162). -/
inductive FaultKind where
  | noContact
  | pressureNotReached
  | pressureHigh
  | raiseTimeout
  | plateTimeout
  | armTimeout
  | gripFailed
  | doublePick
  | leafLost
  | bankCharge
  | linkSilent
  | operator
  deriving DecidableEq, Repr, Inhabited

/-- A fault record (R163); the turn stage is its stage and whether it is SWEEP in recovery. -/
structure FaultRec where
  kind : FaultKind
  time : Nat
  bank : Option Bank
  stage : Option (Stage × Bool)
  k : Nat
  known : Bool
  deriving DecidableEq, Repr, Inhabited

/-- The body of a FAULT report (R165). -/
structure FaultReport where
  record : FaultRec
  position : Nat
  further : Nat
  first : Bool
  deriving DecidableEq, Repr, Inhabited

/-- What the safe-state controller holds. -/
structure Safe where
  flag : Bool
  faults : List FaultRec
  further : Nat
  episodeStart : Option Nat
  pendingFirst : Option FaultReport
  deriving DecidableEq, Repr, Inhabited

/-! ### Results, reports and replies -/

/-- The result codes, in the order of R189. -/
inductive Result where
  | accepted | badKind | badLength | badField | wrongState | noVolume | volumeOpen | safeState | held
  | busyMotion | busyCapture | queueFull | openingUnknown | atEnd | atStart | manualLeaf | facesOpen
  | handlingLimit | notEquipped | notHeld | gaps | ceilingBelowDose | seqExhausted | notCalibrated
  | notMonotonic | boundElsewhere | lineInUse | directionMismatch | conditionPersists
  deriving DecidableEq, Repr, Inhabited

/-- The outcome of a turn (R58). -/
inductive TurnOutcome where
  | done
  | abandoned
  | abandonedSafe
  deriving DecidableEq, Repr, Inhabited

/-- The TURN report (R58). -/
structure TurnReport where
  seq : Nat
  direction : Direction
  origin : Origin
  outcome : TurnOutcome
  stage : Option (Stage × Bool)
  fault : Option FaultKind
  oldOpening : Nat
  k : Nat
  known : Bool
  leaf : Nat
  handled : Nat
  attempts : Nat
  doublePicks : Nat
  limits : Pair Bool
  keptOn : Bool
  start : Nat
  finish : Nat
  deriving DecidableEq, Repr, Inhabited

/-- One requested side in a CAPTURE record (R125); `page` is the leaf and whether the face is the verso. -/
structure SideReport where
  side : Side
  outcome : SideOutcome
  syncTime : Option Nat
  asks : List Ask
  page : Option (Nat × Bool)
  take : Option (Nat × Text)
  deriving DecidableEq, Repr, Inhabited

/-- The CAPTURE record (R125). -/
structure CaptureReport where
  seq : Option Nat
  order : Order
  recipe : Option (Quad Nat × Nat)
  overall : Overall
  opening : Option (Nat × Bool)
  armedAt : Option Nat
  t0 : Option Nat
  ended : Option Nat
  unmet : Option Unmet
  figures : Option Figures
  credit : Pair Nat
  sides : List SideReport
  deriving DecidableEq, Repr, Inhabited

/-- The face census of a volume (R16). -/
structure Census where
  shot : Nat
  wanted : Nat
  openFaces : Nat
  blank : Nat
  missing : Nat
  restricted : Nat
  deriving DecidableEq, Repr, Inhabited

/-- The VOLUME_SUMMARY report (R16): the record as closed and the figures computed at the close. -/
structure Summary where
  volume : Volume
  highestDose : Nat × Nat
  census : Census
  gaps : Nat
  firstRun : Option (Nat × Nat)
  manualLeaves : Nat
  highestHandled : Nat × Nat
  overLimit : Nat
  deriving DecidableEq, Repr, Inhabited

/-- Why a LINE_EVENT was offered (R149). -/
inductive EventCause where
  | edge
  | level
  | enable
  deriving DecidableEq, Repr, Inhabited

/-- What a dwell raise waits for (R48). -/
inductive Deferral where
  | none
  | capture
  | hold
  deriving DecidableEq, Repr, Inhabited

/-- Why a BANK_STATE was queued (R81). -/
inductive BankCause where
  | power
  | charged
  | chargeTimeout
  | conditioned
  | idle
  | wake
  deriving DecidableEq, Repr, Inhabited

/-- What woke the part, with the request kind, line or order tag (R144). -/
inductive WakeCause where
  | request (kind : Byte)
  | line (i : Nat)
  | arming (tag : Nat)
  deriving DecidableEq, Repr, Inhabited

/-- The body of a report (R190). Times in it are clock values, printed modulo 2^48. -/
inductive Body where
  | turn (t : TurnReport)
  | capture (c : CaptureReport)
  | late (o : Order) (test past : Nat)
  | fault (f : FaultReport)
  | holdOn (line time : Nat)
  | holdOff (line time lasted : Nat)
  | dwellExpired (k : Nat) (known : Bool) (maximum expiry : Nat) (deferral : Deferral)
  | volumeSummary (v : Summary)
  | lineEvent (line : Nat) (fn : Option Fn) (sense : Sense) (cause : EventCause) (level : Bool) (count time : Nat)
  | aimGuard (lamp : Side) (left entered : AimOutcome) (requested guard applied k : Nat) (constraint : Option (Constraint × Nat)) (time : Nat)
  | bankState (bk : Bank) (left entered : BankState) (time : Nat) (cause : BankCause)
  | idle (since setting : Nat)
  | wake (cause : WakeCause) (time spent : Nat)
  | keyRefused (key : Fn) (refusal : Result)
  deriving DecidableEq, Repr, Inhabited

/-- A report in the queue: its header and its body (R181). -/
structure Report where
  seq : Nat
  time : Nat
  missed : Nat
  body : Body
  deriving DecidableEq, Repr, Inhabited

/-- What the report queue holds. -/
structure Queue where
  reports : List Report
  reserved : Nat
  lastSeq : Nat
  missed : Nat
  deriving DecidableEq, Repr, Inhabited

/-- The field a BAD_FIELD reply names (R187). -/
inductive FieldName where
  | shelfMark | part | leaves | thickness | leafCeiling | volumeCeiling | handlingLimit | reserve
  | opening | manualLeaf | leafIndex | action | skipReason | startFace | count | position
  | command | recipe | source | point (i : Nat) | spill | sides | purpose
  | enable | tap | clearCount
  | line | direction | pull | drive | sense | polarity | bothEdges | function
  deriving DecidableEq, Repr, Inhabited

/-- The failure kind of a refused PLAN_SET (R36). -/
inductive PlanFailure where
  | count
  | scheme
  | start
  | pfx
  | bounds
  | order
  | overlap
  deriving DecidableEq, Repr, Inhabited

/-- State of the silence timer (R138). -/
inductive Silence where
  | off
  | armed
  | waiting
  deriving DecidableEq, Repr, Inhabited

/-! ### What the replies carry

A reply is built at its decision (R176), so the times in it are 48-bit timebase values (R133). -/

/-- The fields of a STATUS reply (R172, R178): the safe flag, the episode start, the fault records in position order
from 1, the further-fault count, whether a pending first report waits, and the other blocks' fields. -/
structure StatusView where
  safe : Bool
  episodeStart : Option Nat
  faults : List FaultRec
  further : Nat
  pendingFirst : Bool
  volume : VolState
  k : Nat
  known : Bool
  platen : Platen
  turnHeld : Option Bool
  capture : Bool
  waiting : Nat
  occupied : Nat
  reserved : Nat
  missed : Nat
  lastSeq : Nat
  errorCount : Nat
  supervision : Bool
  silence : Silence
  deriving DecidableEq, Repr, Inhabited

/-- The fields of a TIME reply (R135). -/
structure TimeView where
  count : Nat
  idle : Bool
  setting : Nat
  remaining : Option Nat
  idleSince : Option Nat
  silence : Silence
  boundaries : Nat
  tap : Nat
  pendingTap : Option Nat
  phase : Nat
  deriving DecidableEq, Repr, Inhabited

/-- The arm position that MOTION_QUERY gives (R67). -/
inductive ArmPosition where
  | home
  | left
  | right
  | between
  deriving DecidableEq, Repr, Inhabited

/-- The turn record that MOTION_QUERY gives (R52, R67). -/
structure TurnView where
  seq : Nat
  direction : Direction
  origin : Origin
  override : Bool
  leaf : Nat
  oldOpening : Nat
  held : Bool
  stage : Stage
  recovery : Bool
  retries : Nat
  attempts : Nat
  doublePicks : Nat
  limits : Pair Bool
  start : Nat
  deriving DecidableEq, Repr, Inhabited

/-- The fields of a MOTION_QUERY reply (R67); `dwellLeft` is the dwell timer's remaining time. -/
structure MotionView where
  platen : Platen
  raisePending : Bool
  pressure : Nat
  dwellLeft : Option Nat
  positions : Pair Nat
  targets : Pair Nat
  limits : Pair Bool
  plateState : PlateState
  arm : ArmPosition
  armPowered : Bool
  suction : Bool
  keptOn : Bool
  air : Bool
  turn : Option TurnView
  profile : Profile
  deriving DecidableEq, Repr, Inhabited

/-- A flash bank in a LAMP_QUERY reply (R88); the standby-since time is present in STANDBY alone. -/
structure BankView where
  state : BankState
  hood : HoodState
  count : Nat
  conditioned : Bool
  recharge : Nat
  lastFiring : Option Nat
  hoodRequest : Option Nat
  standbySince : Option Nat
  deriving DecidableEq, Repr, Inhabited

/-- An aim lamp record as AIM_SET and LAMP_QUERY give it (R85, R88). -/
structure AimView where
  requested : Nat
  guard : Nat
  applied : Nat
  lit : Bool
  hood : HoodState
  deriving DecidableEq, Repr, Inhabited

/-- The fields of a LAMP_QUERY reply (R88); `granted` are the granted times of the firings not yet made. -/
structure LampView where
  banks : Quad BankView
  aims : Pair AimView
  interval : Option Nat
  granted : List Nat
  deriving DecidableEq, Repr, Inhabited

/-- An aim lamp in a DOSE_QUERY reply: its outcome, its limit note, its level at the last tick start (R108). -/
structure GuardView where
  outcome : AimOutcome
  note : Option Constraint
  level : Nat
  deriving DecidableEq, Repr, Inhabited

/-- The fields of a DOSE_QUERY reply (R108); `outstanding` are the outstanding predictions of leaf k and leaf k+1. -/
structure DoseView where
  total : Nat
  leafCeiling : Nat
  volumeCeiling : Nat
  reserve : Nat
  calibrated : List Bool
  prediction : Option Prediction
  outstanding : Pair Nat
  outstandingTotal : Nat
  credit : Pair Nat
  aims : Pair GuardView
  deriving DecidableEq, Repr, Inhabited

/-- A requested side in a CAPTURE_QUERY reply (R131); its outcome stands in its stage. -/
structure SideView where
  stage : SideStage
  syncTime : Option Nat
  asks : List Ask
  deriving DecidableEq, Repr, Inhabited

/-- The capture in flight in a CAPTURE_QUERY reply (R131), in ARMING or in TRIGGERED. -/
structure CaptureView where
  seq : Nat
  order : Order
  triggered : Bool
  opening : Option (Nat × Bool)
  levels : Quad Nat
  duration : Nat
  t0 : Option Nat
  sides : Pair (Option SideView)
  deriving DecidableEq, Repr, Inhabited

/-- The fields of a CAPTURE_QUERY reply (R131). -/
structure SequencerView where
  orders : List Order
  capture : Option CaptureView
  cameras : Pair Camera
  lateLimit : Nat
  lateCount : Nat
  deriving DecidableEq, Repr, Inhabited

/-- A line record as LINE_CONFIG and LINE_QUERY give it (R146). -/
structure LineRecord where
  dir : LineDir
  pull : Pull
  drive : Drive
  sense : Sense
  polarity : Polarity
  bothEdges : Bool
  debounce : Nat
  event : Bool
  wake : Bool
  hold : Bool
  level : Bool
  change : Option (Bool × Nat)
  staged : Bool
  raw : Bool
  latch : Bool
  count : Nat
  deriving DecidableEq, Repr, Inhabited

/-- The fields of a LEAF_QUERY record (R34). -/
structure LeafView where
  index : Nat
  kind : LeafKind
  leaf : Leaf
  deriving DecidableEq, Repr, Inhabited

/-- One line in a LINE_READ reply (R154). -/
structure LineView where
  dir : LineDir
  value : Bool
  raw : Bool
  masked : Bool
  deriving DecidableEq, Repr, Inhabited

/-- What IDENT returns (R178), in the order of its table. -/
structure Identity where
  vendor : Text
  part : Text
  revision : Text
  capacities : List Nat
  deriving DecidableEq, Repr, Inhabited

/-- The reply fields each request returns. A clamp list says, field by field in the request's order,
whether the value was clamped. -/
inductive Fields where
  | none
  | badField (f : FieldName)
  | planFailure (f : PlanFailure) (position : Nat)
  | gapsFound (count first last : Nat)
  | ceilingBelow (leaf : Option Nat) (sum : Nat)
  | notMonotonic (point : Nat)
  | conditions (reading limit : Nat) (pressure : Bool) (banks : Quad Bool)
  | ident (v : Identity)
  | status (v : StatusView)
  | time (v : TimeView)
  | fetch (waiting : Nat) (reports : List Report)
  | linkSet (supervision : Bool) (tap : Nat) (pendingTap : Option Nat) (errors : Nat)
  | safe (entered : Bool) (position further : Nat)
  | clearSafe (cleared further lasted : Nat) (discarded adjusting : Bool)
  | idleSet (setting : Nat) (clamped : Bool)
  | volumeLoad (records faces : Nat)
  | volumeOpen (k : Nat) (targets : Pair Nat) (limits : Pair Bool)
  | volumeSet (leafCeiling volumeCeiling handlingLimit reserve thickness : Nat)
  | volumeClose (status : CloseStatus) (gaps seq : Nat)
  | volumeQuery (v : Volume)
  | reseat (k : Nat) (targets : Pair Nat) (limits : Pair Bool) (handled : Option Nat) (platesPending : Bool)
  | leafMark (unchangedRecto unchangedVerso : Bool) (recto verso : FaceState) (manual : Bool)
  | leafQuery (records : List LeafView)
  | gapsQuery (count : Nat) (runs : List (Nat × Nat)) (clipped more : Bool)
  | planSet (count : Nat)
  | planQuery (count : Nat) (segments : List Segment)
  | turn (seq : Nat) (direction : Direction) (leaf handled : Nat)
  | turnResume (seq : Nat) (stage : Stage) (recovery : Bool)
  | turnAbandon (seq : Nat) (known : Bool)
  | motionSet (profile : Profile) (clamped : List Bool)
  | motionQuery (v : MotionView)
  | bankPower (banks : Quad (BankState × HoodState))
  | bankSet (recharge : Quad Nat) (clamped : Bool)
  | aimSet (aims : Pair AimView) (clamped : List Bool)
  | recipeSet (recipe : Recipe) (clamped : List Bool)
  | recipeQuery (recipe : Recipe)
  | lampQuery (v : LampView)
  | lampCal (source : Source) (calibrated : Bool)
  | calQuery (cal : Cal) (calibrated : Bool)
  | doseQuery (v : DoseView)
  | shoot (tag ahead : Nat)
  | cameraSet (cameras : Pair Camera) (lateLimit : Nat) (clamped : List Bool)
  | captureQuery (v : SequencerView)
  | lineConfig (line : LineRecord) (clamped : Bool)
  | lineWrite (ignored : List Bool) (staged : List Bool)
  | lineRead (lines : List LineView)
  | lineCounts (counts : List Nat)
  | lineQuery (line : LineRecord) (fn : Option Fn)
  | lineClear (raw masked : List Bool)
  | lineBind (fn : Fn) (line : Option Nat) (value : Bool)
  deriving DecidableEq, Repr, Inhabited

/-! ### The link -/

/-- Receiver state (R174). -/
inductive Receiver where
  | hunt
  | header
  | body
  | check
  deriving DecidableEq, Repr, Inhabited

/-- A frame in assembly: the bytes after the start byte, oldest first, and the time of the last (R174). -/
structure Assembly where
  bytes : List Byte
  last : Nat
  deriving DecidableEq, Repr, Inhabited

/-- A request frame that has passed its checks (R186). -/
structure Frame where
  kind : Byte
  tag : Byte
  payload : List Byte
  deriving DecidableEq, Repr, Inhabited

/-- A reply: its kind, which is its request's with the high bit set, the request's tag, its result, its status summary
and its fields (R176). -/
structure Reply where
  kind : Byte
  tag : Byte
  result : Result
  summary : Byte
  fields : Fields
  deriving DecidableEq, Repr, Inhabited

/-- What the link interface holds. `deciding` is the request taken up for decision, `reply` the reply
being sent (R176); `boundaryDue` says that the eighth boundary has come and is not yet counted (R139). -/
structure Link where
  receiver : Receiver
  assembly : Option Assembly
  buffer : List Frame
  deciding : Option Frame
  reply : Option Reply
  errorFlag : Bool
  errorCount : Nat
  supervision : Bool
  silence : Silence
  boundaries : Nat
  boundaryDue : Bool
  deriving DecidableEq, Repr, Inhabited

end Sys2Proof.Machine
end

