-- ==== Sys2Proof/Machine/Timing.lean ====
section
/-! DEFINITION. The times of the manual, in microseconds, and the modulus of the timebase. -/
namespace Sys2Proof.Machine

/-- The timebase count wraps at 2^48 (R133). -/
def timebaseModulus : Nat := 2 ^ 48

/-- The 48-bit timebase value of a clock value (R133). -/
def stamp (t : Nat) : Nat := t % timebaseModulus

/-- Milliseconds as microseconds. -/
def ms (n : Nat) : Nat := n * 1000

/-- Seconds as microseconds. -/
def sec (n : Nat) : Nat := n * 1000000

/-- Gap that drops a frame in assembly (R174). -/
def gapTime : Nat := ms 2

/-- LOWERING timeout (R45). -/
def loweringTime : Nat := ms 3000

/-- PRESSING timeout (R45). -/
def pressingTime : Nat := ms 1000

/-- Timeout of a raise (R47). -/
def raiseTime : Nat := ms 3000

/-- Timeout of a plate adjustment (R50). -/
def plateTime : Nat := ms 3000

/-- Timeout of REACH, SWEEP, the double-pick return and PARK (R53, R55, R57). -/
def armTime : Nat := ms 2000

/-- Grip timeout (R54). -/
def gripTime : Nat := ms 800

/-- RELEASE timeout (R56). -/
def releaseTime : Nat := ms 500

/-- VERIFY timeout (R56). -/
def verifyTime : Nat := ms 500

/-- Charge timeout (R72). -/
def chargeTime : Nat := ms 4000

/-- Level and duration of a conditioning flash (R73). -/
def conditioningLevel : Nat := 100
def conditioningDuration : Nat := 200

/-- Spacing of firings of different banks, and of the two asks of a side (R74, R121). -/
def spacing : Nat := 1500

/-- READY time before a top-up (R77). -/
def topUpAfter : Nat := sec 30

/-- Length of a top-up (R77). -/
def topUpTime : Nat := ms 200

/-- Length of WAKING (R79). -/
def wakingTime : Nat := ms 400

/-- Standby beyond which a bank conditions again (R79). -/
def standbyLimit : Nat := sec 1800

/-- Hood travel (R82). -/
def hoodTime : Nat := ms 150

/-- Arming timeout (R116). -/
def armingTime : Nat := ms 5000

/-- Period of the silence timer's divider, in ms, for a tap (R136). -/
def period (tap : Nat) : Nat := 64 * 2 ^ tap

end Sys2Proof.Machine
end

