-- ==== Sys2Proof/Machine/PowerOn.lean ====
section
/-! DEFINITION. The value of every block right after power-on reset, as the reset rule of its chapter gives
it (R19, R42, R68, R89, R109, R132, R145, R160, R173, R185). Inputs are arguments. -/
namespace Sys2Proof.Machine

/-- The volume record in EMPTY (R1). -/
def emptyVolume : Volume :=
  { state := .empty, shelfMark := none, part := 0, leafCount := 0, thickness := 0, leafCeiling := 0
    volumeCeiling := 0, handlingLimit := 0, reserve := 0, closeStatus := none, k := 0, known := false
    platesPending := false, captureSeq := 0, turnSeq := 0, capturesIssued := 0, facesConfirmed := 0
    sidesFailed := 0, turnsDone := 0, gripRetries := 0, doublePicks := 0, manualTurns := 0, totalDose := 0
    loadTime := none, openTime := none, closeTime := none }

/-- The power-on motion profile (R66). -/
def powerOnProfile : Profile :=
  { target := 30, tolerance := 5, limit := 80, dwellMax := 120, plateBase := 40000, airTime := 300
    gripRetries := 2 }

/-- The motion controller after power-on reset (R68); the pressure reading before the first tick is a
named value (log 4). -/
def powerOnMotion (top : Bool) (positions : Pair Nat) : Motion :=
  { platen := if top then .raised else .stopped, platenDeadline := none, raisePending := false
    safeRaise := false, dwell := none, dwellDeferred := false, pressure := 0, pressureHigh := false
    platePositions := positions, plateTargets := ⟨0, 0⟩, plateLimits := ⟨false, false⟩
    plateState := .unsettled, plateDeadline := none, armPowered := true, suction := false, keptOn := false
    air := false, turn := none, profile := powerOnProfile }

/-- A closed hood. -/
def closedHood : Hood := ⟨.closed, none⟩

/-- A flash bank after power-on reset (R89). -/
def powerOnBank : BankRec :=
  { state := .off, count := 0, conditioned := false, recharge := 600, lastFiring := none, readySince := none
    standbySince := none, hoodRequest := none, hood := closedHood, deadline := none, flash := none
    latest := none }

/-- An aim lamp after power-on reset (R85, R89). -/
def powerOnAim : Aim :=
  { requested := 0, guard := 100, applied := 0, lit := false, hood := closedHood }

/-- A recipe after power-on reset (R89). -/
def powerOnRecipe : Recipe := ⟨⟨500, 500, 500, 500⟩, 1000⟩

/-- The lamp controller after power-on reset (R89). -/
def powerOnLamps : Lamps :=
  { banks := ⟨powerOnBank, powerOnBank, powerOnBank, powerOnBank⟩, aims := ⟨powerOnAim, powerOnAim⟩
    grants := [], interval := none, closePending := false
    recipes := List.replicate Config.recipeCount powerOnRecipe }

/-- A calibration record after power-on reset (R91). -/
def powerOnCal : Cal := ⟨List.replicate 11 0, 0⟩

/-- The dose meter after power-on reset (R109). -/
def powerOnDose : Dose :=
  { banks := ⟨powerOnCal, powerOnCal, powerOnCal, powerOnCal⟩, aims := ⟨powerOnCal, powerOnCal⟩
    prediction := none, credit := ⟨0, 0⟩, outcome := ⟨.requested, .requested⟩, note := ⟨none, none⟩
    tickLevel := ⟨0, 0⟩ }

/-- A camera profile after power-on reset (R130). -/
def powerOnCamera : Camera := ⟨100, 2000, 40000, 3000⟩

/-- The capture sequencer after power-on reset (R132). -/
def powerOnSequencer : Sequencer :=
  { orders := [], capture := none, cameras := ⟨powerOnCamera, powerOnCamera⟩, lateLimit := 100000
    lateCount := 0, pulses := ⟨none, none⟩ }

/-- The timebase after power-on reset (R145). -/
def powerOnTime : Timebase :=
  { clock := 0, phase := 0, ms := 0, tenth := 0, aimDue := false, tap := 3, pendingTap := none
    idleSetting := 300, idleStart := some 0, idle := false, idleSince := none }

/-- The link interface after power-on reset (R145, R185). -/
def powerOnLink : Link :=
  { receiver := .hunt, assembly := none, buffer := [], deciding := none, reply := none, errorFlag := false
    errorCount := 0, supervision := false, silence := .off, boundaries := 0, boundaryDue := false }

/-- The report queue after power-on reset (R185). -/
def powerOnQueue : Queue := ⟨[], 0, 0, 0⟩

/-- The safe-state controller after power-on reset (R173). -/
def powerOnSafe : Safe := ⟨false, [], 0, none, none⟩

/-- The level driven on the pin of an OUT line, `none` where the line is released or IN (R151). -/
def drivenPin (l : Line) : Option Bool :=
  match l.dir, l.drive, l.staged with
  | .inp, _, _ => none
  | .out, .pushPull, v => some v
  | .out, .openLow, false => some false
  | .out, .openLow, true => none
  | .out, .openHigh, true => some true
  | .out, .openHigh, false => none

/-- The level to which its pull brings a pin that nothing drives: a pull-up acts in either direction, a pull-down while
the line is IN alone (R146, R151). -/
def pulledPin (l : Line) : Option Bool :=
  match l.pull, l.dir with
  | .up, _ => some true
  | .down, .inp => some false
  | .down, .out => none
  | .none, _ => none

/-- The level at the pin of a line: what the line itself drives, else what the outside drives, else its pull; a pin that
nothing drives or pulls reads low (R146, R151; log 3). -/
def pinLevel (l : Line) : Bool := (((drivenPin l).or l.pin).or (pulledPin l)).getD false

/-- The configuration of line `i` in R160's table, its staged value, and `pin` on its pin. -/
def tableLine (i : Nat) (pin : Option Bool) : Line :=
  let input : Line :=
    { dir := .inp, pull := .up, drive := .pushPull, sense := .edge, polarity := .fallingLow, bothEdges := false
      debounce := 0, event := false, wake := false, hold := false, level := false, change := none, staged := false
      raw := false, latch := false, count := 0, pin := pin }
  if i < 13 then input
  else if i < 16 then { input with debounce := 20, event := true, wake := true }
  else if i = 18 then { input with dir := .out, pull := .none, drive := .openLow, staged := true }
  else if i < 20 then { input with dir := .out, pull := .none, polarity := .risingHigh }
  else if i < 24 then { input with sense := .level, hold := true }
  else { input with pull := .down, polarity := .risingHigh }

/-- The power-on record of line `i` with `pin` on its pin: the configuration of R160's table, the accepted level sampled,
and a LEVEL line found active with its raw status set; every LEVEL line of the table is FALLING_LOW. -/
def powerOnLine (i : Nat) (pin : Option Bool) : Line :=
  let l := tableLine i pin
  { l with level := pinLevel l, raw := decide (l.sense = .level) && !pinLevel l }

/-- The power-on binding: the function of code `c` is bound to line `c` (R160). -/
def powerOnBinding : List (Option Nat) := (List.range 20).map some

/-- The records of the 32 lines after power-on reset, with what the outside drives on their pins. -/
def powerOnRecords (pin : Nat → Option Bool) : List Line :=
  (List.range Config.lineCount).map fun i => powerOnLine i (pin i)

end Sys2Proof.Machine
end

