-- ==== Sys2Proof/Machine/State.lean ====
section
/-! DEFINITION. The state of the GD-440: what each of its eleven blocks holds, the charge-good inputs of the
flash bank ports, and the queue of commands that wait. It is plain data. -/
namespace Sys2Proof.Machine

structure State where
  /-- The timebase (R133, R145). -/
  time : Timebase
  /-- The link interface (R174 to R180). -/
  link : Link
  /-- The report queue (R181 to R185). -/
  queue : Queue
  /-- The volume record (R1). -/
  volume : Volume
  /-- The leaf table, leaf 0 first (R20). -/
  leaves : List Leaf
  /-- The foliation plan in force (R35). -/
  plan : List Segment
  /-- The motion controller (R43 to R68). -/
  motion : Motion
  /-- The lamp controller (R69 to R89). -/
  lamps : Lamps
  /-- The dose meter (R90). -/
  dose : Dose
  /-- The capture sequencer (R110 to R132). -/
  seq : Sequencer
  /-- The line block (R146 to R161). -/
  lines : Lines
  /-- The safe-state controller (R162 to R173). -/
  safe : Safe
  /-- The levels of the charge-good inputs (R72). -/
  chargeGood : Quad Bool
  /-- The commands that wait, the next one first. -/
  pending : List Instr
  deriving DecidableEq, Repr, Inhabited

/-- No step of this block stops with a fault: what the manual calls a fault is recorded in the fault list
and enters the safe state (R162 to R166), a next state. The type has no constructor, so none is ever
raised (safe). -/
inductive Fault where
  deriving DecidableEq, Repr

/-- Why a command is turned away without a next state. A request that the manual refuses is not here: it
is answered with its refusal, a next state. -/
inductive Refusal where
  /-- Raised by `exec` for a command that has no meaning yet (safe: it stops). No arm of the model raises
  it. -/
  | notModelled (mnemonic : String)
  deriving DecidableEq, Repr

/-- The part right after power-on reset with nothing driving its pins (log 3) and no commands waiting. -/
def State.reset : State :=
  { time := powerOnTime
    link := powerOnLink
    queue := powerOnQueue
    volume := emptyVolume
    leaves := []
    plan := []
    motion := powerOnMotion false ⟨0, 0⟩
    lamps := powerOnLamps
    dose := powerOnDose
    seq := powerOnSequencer
    lines := { records := powerOnRecords fun _ => none, binding := powerOnBinding, hold := none, ready := false }
    safe := powerOnSafe
    chargeGood := ⟨false, false, false, false⟩
    pending := [] }

end Sys2Proof.Machine
end

