-- ==== Sys2Proof/Machine/Ops.lean ====
section
/-! DEFINITION. The named operations over the state that every block uses: the clock and the idle timer,
lines and functions, the report queue, and the leaf table. -/
namespace Sys2Proof.Machine

/-! ### Clock and idle timer -/

/-- The clock value of the present moment. -/
def now (s : State) : Nat := s.time.clock

/-- The 48-bit timebase count (R133). -/
def count (s : State) : Nat := stamp s.time.clock

/-- A timer that expires at a clock value has expired. -/
def reached (s : State) (deadline : Option Nat) : Bool :=
  match deadline with
  | none => false
  | some t => decide (t ≤ s.time.clock)

/-- The idle timer is restarted while ACTIVE; with a setting of 0 it does not run (R141, R142). -/
def restartIdle (s : State) : State :=
  if s.time.idle then s
  else { s with time.idleStart := if s.time.idleSetting = 0 then none else some s.time.clock }

/-- A count that saturates at `top` rises by one. -/
def satSucc (top n : Nat) : Nat := if n < top then n + 1 else top

/-- The greatest value of the 32-bit saturating counters of R1. -/
def counterMax : Nat := 4294967295

/-! ### Lines and functions -/

/-- The code of a function: its place in the power-on line table (R187). -/
def fnCode : Fn → Nat
  | .camLSync => 0
  | .camRSync => 1
  | .camLStored => 2
  | .camRStored => 3
  | .platenTop => 4
  | .platenContact => 5
  | .armHome => 6
  | .armLeft => 7
  | .armRight => 8
  | .vacuumOk => 9
  | .leafSeenL => 10
  | .leafSeenR => 11
  | .doubleLeaf => 12
  | .keyShoot => 13
  | .keyTurn => 14
  | .keyBack => 15
  | .camLTrigger => 16
  | .camRTrigger => 17
  | .attention => 18
  | .readyLamp => 19

/-- The output functions (R155). -/
def isOutputFn : Fn → Bool
  | .camLTrigger => true
  | .camRTrigger => true
  | .attention => true
  | .readyLamp => true
  | _ => false

/-- The line a function is bound to (R155). -/
def lineOf (s : State) (f : Fn) : Option Nat := s.lines.binding.getD (fnCode f) none

/-- The function bound to a line (R155). -/
def fnOf (s : State) (i : Nat) : Option Fn := allFns.find? fun f => decide (lineOf s f = some i)

/-- The record of a line. -/
def getLine (s : State) (i : Nat) : Line := s.lines.records.getD i default

/-- The state with the record of a line changed. -/
def modifyLine (s : State) (i : Nat) (f : Line → Line) : State :=
  { s with lines.records := s.lines.records.modify i f }

/-- A line is active while its accepted level is the one its polarity names (R146). -/
def lineActive (l : Line) : Bool :=
  match l.polarity with
  | .risingHigh => l.level
  | .fallingLow => !l.level

/-- The masked status is set while raw status and event enable are set (R149). -/
def lineMasked (l : Line) : Bool := l.raw && l.event

/-- A function is bound to a line. -/
def fnBound (s : State) (f : Fn) : Bool := (lineOf s f).isSome

/-- An input function is active while its line is; unbound it reads inactive (R155). -/
def fnActive (s : State) (f : Fn) : Bool :=
  match lineOf s f with
  | none => false
  | some i => lineActive (getLine s i)

/-- The staged value that stands for a function's state under a polarity (R151). -/
def drivenValue (p : Polarity) (active : Bool) : Bool :=
  match p with
  | .risingHigh => active
  | .fallingLow => !active

/-- The line block drives an output function's state on its line, if it has one (R151, R157). -/
def driveFn (s : State) (f : Fn) (active : Bool) : State :=
  match lineOf s f with
  | none => s
  | some i => modifyLine s i fun l => { l with staged := drivenValue l.polarity active }

/-! ### The report queue -/

/-- Minor reports (R181). -/
def isMinor : Body → Bool
  | .lineEvent .. => true
  | .aimGuard .. => true
  | .bankState .. => true
  | .idle .. => true
  | .wake .. => true
  | .keyRefused .. => true
  | _ => false

/-- A major report without reservation, or a reservation, finds room (R182). -/
def hasRoom (s : State) : Bool :=
  decide (s.queue.reports.length + s.queue.reserved < Config.queueCapacity)

/-- A minor report finds room (R182). -/
def hasMinorRoom (s : State) : Bool :=
  decide (s.queue.reports.length + s.queue.reserved < Config.minorThreshold)

/-- The report's header: the next sequence number, wrapping after 65,535, and the timebase at admission;
it carries `missed` (R181). ATTENTION becomes active (R157). -/
def enqueue (s : State) (body : Body) (missed : Nat) : State :=
  let seq := (s.queue.lastSeq + 1) % 65536
  driveFn
    { s with
      queue.reports := s.queue.reports ++ [⟨seq, count s, missed, body⟩]
      queue.lastSeq := seq }
    .attention true

/-- A minor report is offered: admitted it carries the miss count and clears it, otherwise the miss count
rises, saturating at 255 (R182, R183). -/
def offerMinor (s : State) (body : Body) : State :=
  if hasMinorRoom s then enqueue { s with queue.missed := 0 } body s.queue.missed
  else { s with queue.missed := satSucc 255 s.queue.missed }

/-- A major report without a reservation is offered: admitted, or dropped (R182). -/
def offerMajor (s : State) (body : Body) : State :=
  if hasRoom s then enqueue s body 0 else s

/-- A slot is reserved (R182). -/
def reserve (s : State) : State := { s with queue.reserved := s.queue.reserved + 1 }

/-- A report enters its reserved slot (R182). -/
def enterReserved (s : State) (body : Body) : State :=
  enqueue { s with queue.reserved := s.queue.reserved - 1 } body 0

/-! ### The leaf table -/

/-- The record of a leaf. -/
def getLeaf (s : State) (i : Nat) : Leaf := s.leaves.getD i default

/-- The state with a leaf record changed. -/
def modifyLeaf (s : State) (i : Nat) (f : Leaf → Leaf) : State :=
  { s with leaves := s.leaves.modify i f }

/-- The kind of leaf `i` of a volume of `n` leaves (R20). -/
def leafKind (n i : Nat) : LeafKind :=
  if i = 0 then .frontBoard else if i = n + 1 then .backBoard else .leaf

/-- A face of a new table that belongs to the capture (R20). -/
def openFace : Face := ⟨.opened, 0, none⟩

/-- An outer face of a board (R20). -/
def externalFace : Face := ⟨.external, 0, none⟩

/-- Leaf `i` of the fresh table for `n` leaves (R20). -/
def freshLeaf (n i : Nat) : Leaf :=
  { manual := false, dose := 0, handled := 0
    recto := if i = 0 then externalFace else openFace
    verso := if i = n + 1 then externalFace else openFace }

/-- The fresh leaf table for `n` leaves: N+2 records (R20). -/
def freshTable (n : Nat) : List Leaf := (List.range (n + 2)).map (freshLeaf n)

/-- The face records in the order of their face indices (R22). -/
def faceList (leaves : List Leaf) : List Face := leaves.flatMap fun l => [l.recto, l.verso]

/-- A gap face is OPEN or WANTED (R32). -/
def isGap (f : Face) : Bool :=
  match f.state with
  | .opened => true
  | .wanted => true
  | _ => false

/-- Face `f` of the table is a gap face (R32); outside the table there is none. -/
def gapAt (s : State) (f : Nat) : Bool :=
  match (faceList s.leaves)[f]? with
  | some x => isGap x
  | none => false

/-- The gap-face count (R32). -/
def gapCount (s : State) : Nat := (faceList s.leaves).countP isGap

/-- The gap runs of a list of faces whose first face has index `at_`; `run` is the first face of a run
in progress (R32). -/
def gapRuns : List Face → Nat → Option Nat → List (Nat × Nat)
  | [], _, none => []
  | [], at_, some b => [(b, at_ - 1)]
  | f :: fs, at_, run =>
    if isGap f then gapRuns fs (at_ + 1) (some (run.getD at_))
    else
      match run with
      | none => gapRuns fs (at_ + 1) none
      | some b => (b, at_ - 1) :: gapRuns fs (at_ + 1) none

/-- The gap runs of the faces from `f` on (R33). -/
def gapRunsFrom (s : State) (f : Nat) : List (Nat × Nat) := gapRuns ((faceList s.leaves).drop f) f none

/-- A leaf's handled count rises by one, saturating at 255 (R26). -/
def countHandling (s : State) (i : Nat) : State :=
  modifyLeaf s i fun l => { l with handled := satSucc 255 l.handled }

/-! ### What a request is decided to -/

/-- The state after a request, its result and its reply fields. -/
abbrev Decision := State × Result × Fields

/-- The request is taken. -/
def accept (s : State) (f : Fields) : Decision := (s, .accepted, f)

/-- The request is refused and changes no state. -/
def refuse (s : State) (r : Result) : Decision := (s, r, .none)

/-- The request is refused BAD_FIELD, naming the field, and changes no state. -/
def refuseField (s : State) (f : FieldName) : Decision := (s, .badField, .badField f)

end Sys2Proof.Machine
end

