-- ==== Sys2Proof/Machine/Operands.lean ====
section
/-! DEFINITION. The checks and clamps of request fields, and the parts of a request's operands that several
requests use. -/
namespace Sys2Proof.Machine

/-- `clamp(x, a, b)` of the manual's conventions. -/
def clamp (x a b : Nat) : Nat := if x < a then a else if b < x then b else x

/-- A value lies in `a..b`. -/
def inRange (x a b : Nat) : Bool := decide (a ≤ x) && decide (x ≤ b)

/-- An absent field, or one that lies in `a..b`. -/
def optInRange (x : Option Nat) (a b : Nat) : Bool :=
  match x with
  | none => true
  | some v => inRange v a b

/-- A present value clamped, or the value in force where the field is absent. -/
def clampOr (x : Option Nat) (old a b : Nat) : Nat :=
  match x with
  | none => old
  | some v => clamp v a b

/-- A present value was clamped. -/
def wasClamped (x : Option Nat) (a b : Nat) : Bool :=
  match x with
  | none => false
  | some v => !inRange v a b

/-- The shelf-mark character set: letters, digits, space and . , : / - ( ) (manual, Terms). -/
def isMarkChar (b : Byte) : Bool :=
  let n := b.toNat
  inRange n 65 90 || inRange n 97 122 || inRange n 48 57 || n == 32 || n == 46 || n == 44 || n == 58
    || n == 47 || n == 45 || n == 40 || n == 41

/-- A shelf mark of 1 to 40 characters of the set, not all spaces (R2 check 2). -/
def validShelfMark (t : Text) : Bool :=
  inRange t.length 1 40 && t.all isMarkChar && !t.all fun b => b == 32#8

/-- A segment prefix of 0 to 4 characters of the set (R36 check 5). -/
def validPfx (t : Text) : Bool := decide (t.length ≤ 4) && t.all isMarkChar

/-- The greatest per-leaf ceiling and aim reserve (R1). -/
def leafDoseMax : Nat := 4000000000

/-- The greatest volume ceiling (R1). -/
def volumeDoseMax : Nat := 2 ^ 48 - 1

/-- A side is requested (R110). -/
def wants (x : Sides) (sd : Side) : Bool :=
  match x, sd with
  | .both, _ => true
  | .left, .left => true
  | .right, .right => true
  | _, _ => false

/-- The banks of the requested sides whose level is above 0, in the order A, B, C, D (R116). -/
def neededBanks (x : Sides) (levels : Quad Nat) : List Bank :=
  allBanks.filter fun bk => wants x bk.side && decide (0 < levels.get bk)

/-- The needed banks of one side (R121). -/
def sideBanks (sd : Side) (levels : Quad Nat) : List Bank :=
  allBanks.filter fun bk => decide (bk.side = sd) && decide (0 < levels.get bk)

/-- A requested side has no bank with a level above 0 (R111 check 8, R116). -/
def darkSide (x : Sides) (levels : Quad Nat) : Bool :=
  allSides.any fun sd => wants x sd && (sideBanks sd levels).isEmpty

/-- The three camera functions of a side are bound (R111 check 7, R118). -/
def cameraEquipped (s : State) (sd : Side) : Bool :=
  match sd with
  | .left => fnBound s .camLTrigger && fnBound s .camLSync && fnBound s .camLStored
  | .right => fnBound s .camRTrigger && fnBound s .camRSync && fnBound s .camRStored

/-- Every requested side has its camera functions bound. -/
def camerasEquipped (s : State) (x : Sides) : Bool :=
  allSides.all fun sd => !wants x sd || cameraEquipped s sd

/-- The recipe of a number (R87). -/
def getRecipe (s : State) (n : Nat) : Recipe := s.lamps.recipes.getD n default

end Sys2Proof.Machine
end

