-- ==== Sys2Proof/Machine/Flags.lean ====
section
/-! DEFINITION. The conditions the part computes from its state: the status summary, whether the silence
timer is called for, the aim lamps' lit condition and the READY_LAMP condition. -/
namespace Sys2Proof.Machine

/-- A hold is in force (R158). -/
def held (s : State) : Bool := s.lines.hold.isSome

/-- The volume is OPEN. -/
def volumeOpened (s : State) : Bool := decide (s.volume.state = .opened)

/-- A turn is in flight, running or HELD (R52). -/
def turnInFlight (s : State) : Bool := s.motion.turn.isSome

/-- A capture is in flight (R116). -/
def captureInFlight (s : State) : Bool := s.seq.capture.isSome

/-- A plate adjustment is in progress (R50). -/
def adjusting (s : State) : Bool := decide (s.motion.plateState = .moving)

/-- One bit of a byte, or nothing. -/
def bit (b : Bool) (n : Nat) : Nat := if b then 2 ^ n else 0

/-- The status summary byte (R177, R189). -/
def statusSummary (s : State) : Byte :=
  BitVec.ofNat 8
    (bit (volumeOpened s) 0 + bit (held s) 1 + bit s.safe.flag 2 + bit (!s.queue.reports.isEmpty) 3
      + bit s.link.errorFlag 4 + bit s.time.idle 5)

/-- The silence timer is called for while supervision is enabled and the volume is OPEN (R138). -/
def calledFor (s : State) : Bool := s.link.supervision && volumeOpened s

/-- The aim lamps' lit condition (R86). -/
def litCondition (s : State) : Bool :=
  volumeOpened s && s.volume.known && decide (s.motion.platen = .down) && !held s && !s.safe.flag
    && !s.time.idle && s.lamps.interval.isNone

/-- The READY_LAMP condition (R157). -/
def readyCondition (s : State) : Bool :=
  volumeOpened s && s.volume.known && !s.safe.flag && !held s && !s.time.idle && !turnInFlight s
    && !captureInFlight s && decide (s.seq.orders.length < Config.orderCapacity)

/-- The drive of the platen motor is energised: always while ACTIVE, in IDLE for a raise alone (R65). -/
def platenEnergised (s : State) : Bool := !s.time.idle || decide (s.motion.platen = .raising)

/-- The drives of the plate motors are energised: in IDLE for an adjustment alone (R65). -/
def platesEnergised (s : State) : Bool :=
  !s.time.idle || (adjusting s && s.motion.plateDeadline.isSome)

/-- The drive of the arm motor is energised: while ACTIVE, unless it was left unpowered (R64, R65, R68). A wake or a soft reset
in IDLE does not energise an arm drive left unpowered, though R65 and R145 speak of the drives as a whole (DESIGN CHOICE, log
54). -/
def armEnergised (s : State) : Bool := !s.time.idle && s.motion.armPowered

/-- The pressure reading stands in the band (R45). -/
def inBand (p : Profile) (reading : Nat) : Bool :=
  decide (p.target ≤ reading + p.tolerance) && decide (reading ≤ p.target + p.tolerance)

/-- The drive brings the force of a DOWN platen back into the band: the reading has left the band and stands at or below
the limit, no hold is in force and the part is ACTIVE (R46, R59, R65). -/
def retrimming (s : State) : Bool :=
  decide (s.motion.platen = .down) && !held s && !s.time.idle
    && !inBand s.motion.profile s.motion.pressure && decide (s.motion.pressure ≤ s.motion.profile.limit)

/-- The silence timer follows whether it is called for; WAITING is left by a valid frame alone (R138). -/
def judgeSilence (s : State) : State :=
  match s.link.silence with
  | .off =>
    if calledFor s then { s with link.silence := .armed, link.boundaries := 0, link.boundaryDue := false } else s
  | .armed =>
    if calledFor s then s
    else { s with link.silence := .off, link.boundaries := 0, link.boundaryDue := false }
  | .waiting => s

end Sys2Proof.Machine
end

