-- ==== Sys2Proof/Machine/Frames.lean ====
section
/-! DEFINITION. The byte layouts of the link that the manual gives: the frame and its check (R186), the field
encodings (R187), the result codes (R189), the reports (R190), the leaf record and the plan segment. -/
namespace Sys2Proof.Machine

/-! ### Fields -/

/-- A number of `n` bytes, least significant byte first (R187). -/
def le : Nat → Nat → List Byte
  | 0, _ => []
  | n + 1, v => BitVec.ofNat 8 (v % 256) :: le n (v / 256)

/-- The number that bytes carry, least significant byte first (R187). -/
def ofLe : List Byte → Nat
  | [] => 0
  | b :: bs => b.toNat + 256 * ofLe bs

/-- An absent number occupies its bytes with 0 (R187). -/
def leOpt (n : Nat) (v : Option Nat) : List Byte := le n (v.getD 0)

/-- A timebase value takes 6 bytes (R187). -/
def leTime (t : Nat) : List Byte := le 6 (stamp t)

/-- An absent or present timebase value. -/
def leTimeOpt (t : Option Nat) : List Byte := leTime (t.getD 0)

/-- Text in a fixed field of `n` characters after its length byte; unused bytes are 0 (R187). -/
def textField (n : Nat) (t : Text) : List Byte :=
  le 1 t.length ++ t.take n ++ List.replicate (n - t.length) 0#8

/-- A flag byte. -/
def flagByte (b : Bool) : List Byte := le 1 (bit b 0)

/-- Bits of a mask, member 0 in bit 0 (R187). -/
def maskNat : List Bool → Nat
  | [] => 0
  | b :: bs => bit b 0 + 2 * maskNat bs

/-! ### The check -/

/-- One bit of the CRC-16 with generator x^16 + x^12 + x^5 + 1, most significant bit first (R186). -/
def crcBit (r : BitVec 16) : BitVec 16 :=
  if r.msb then (r <<< 1) ^^^ 0x1021#16 else r <<< 1

/-- `n` bits of the CRC-16. -/
def crcBits : Nat → BitVec 16 → BitVec 16
  | 0, r => r
  | n + 1, r => crcBits n (crcBit r)

/-- One byte entering the CRC-16 (R186). -/
def crcByte (r : BitVec 16) (b : Byte) : BitVec 16 :=
  crcBits 8 (r ^^^ (b.zeroExtend 16 <<< 8))

/-- The frame check of the bytes from the length byte through the last payload byte (R186). -/
def crc16 (bs : List Byte) : BitVec 16 := bs.foldl crcByte 0xFFFF#16

/-- The start byte (R186). -/
def startByte : Byte := 0xA5#8

/-- A check as its two bytes, high byte first (R186). -/
def checkBytes (c : BitVec 16) : List Byte := [c.extractLsb' 8 8, c.extractLsb' 0 8]

/-- The bytes that the check covers. -/
def frameBody (f : Frame) : List Byte :=
  BitVec.ofNat 8 f.payload.length :: f.kind :: f.tag :: f.payload

/-- A frame as its bytes (R186). -/
def frameBytes (f : Frame) : List Byte :=
  startByte :: (frameBody f ++ checkBytes (crc16 (frameBody f)))

/-! ### Codes -/

/-- The result code (R189). -/
def resultCode (r : Result) : Nat :=
  match r with
  | .accepted => 0x00
  | .badKind => 0x01
  | .badLength => 0x02
  | .badField => 0x03
  | .wrongState => 0x04
  | .noVolume => 0x05
  | .volumeOpen => 0x06
  | .safeState => 0x07
  | .held => 0x08
  | .busyMotion => 0x09
  | .busyCapture => 0x0A
  | .queueFull => 0x0B
  | .openingUnknown => 0x0C
  | .atEnd => 0x0D
  | .atStart => 0x0E
  | .manualLeaf => 0x0F
  | .facesOpen => 0x10
  | .handlingLimit => 0x11
  | .notEquipped => 0x12
  | .notHeld => 0x13
  | .gaps => 0x14
  | .ceilingBelowDose => 0x15
  | .seqExhausted => 0x16
  | .notCalibrated => 0x17
  | .notMonotonic => 0x18
  | .boundElsewhere => 0x19
  | .lineInUse => 0x1A
  | .directionMismatch => 0x1B
  | .conditionPersists => 0x1C

/-- The code of a face state (R187). -/
def faceCode : FaceState → Nat
  | .opened => 0
  | .shot => 1
  | .wanted => 2
  | .skipped _ => 3
  | .external => 4

/-- The code of a skip reason (R187). -/
def reasonCode : SkipReason → Nat
  | .blank => 1
  | .missing => 2
  | .restricted => 3

/-- The skip-reason byte of a face, 0 when absent (R187). -/
def faceReason : FaceState → Nat
  | .skipped r => reasonCode r
  | _ => 0

/-- The code of a turn stage; 11 is SWEEP in recovery (R187). -/
def stageCode : Stage × Bool → Nat
  | (.raise, _) => 1
  | (.air, _) => 2
  | (.reach, _) => 3
  | (.grip, _) => 4
  | (.sweep, false) => 5
  | (.sweep, true) => 11
  | (.release, _) => 6
  | (.verify, _) => 7
  | (.park, _) => 8
  | (.adjust, _) => 9
  | (.lower, _) => 10

/-- The code of a fault kind: its place in the table of R162 (R187). -/
def faultCode : FaultKind → Nat
  | .noContact => 1
  | .pressureNotReached => 2
  | .pressureHigh => 3
  | .raiseTimeout => 4
  | .plateTimeout => 5
  | .armTimeout => 6
  | .gripFailed => 7
  | .doublePick => 8
  | .leafLost => 9
  | .bankCharge => 10
  | .linkSilent => 11
  | .operator => 12

/-- The code of an origin (R187). -/
def originCode : Origin → Nat
  | .link => 0
  | .key => 1

/-- The code of the sides of an order (R187). -/
def sidesCode : Sides → Nat
  | .left => 1
  | .right => 2
  | .both => 3

/-- The code of a side (R190). -/
def sideCode : Side → Nat
  | .left => 1
  | .right => 2

/-- The code of an aim lamp (R190). -/
def lampCode : Side → Nat
  | .left => 0
  | .right => 1

/-- The code of a bank (R190). -/
def bankCode : Bank → Nat
  | .a => 0
  | .b => 1
  | .c => 2
  | .d => 3

/-- The code of a purpose (R190). -/
def purposeCode : Purpose → Nat
  | .normal => 0
  | .reshoot => 1

/-- The code of a direction of a turn (R190). -/
def directionCode : Direction → Nat
  | .forward => 0
  | .backward => 1

/-- The code of a turn outcome (R190). -/
def turnOutcomeCode : TurnOutcome → Nat
  | .done => 1
  | .abandoned => 2
  | .abandonedSafe => 3

/-- The code of a side outcome (R190). -/
def outcomeCode : SideOutcome → Nat
  | .confirmed => 1
  | .earlySync => 2
  | .noSync => 3
  | .unlit => 4
  | .notStored => 5
  | .notReady => 6
  | .recipeDark => 7
  | .notEquipped => 8
  | .doseCeiling => 9
  | .notCalibrated => 10
  | .abortedHold => 11
  | .abortedSafe => 12

/-- The code of an overall result; 13 is MIXED (R190). -/
def overallCode : Overall → Nat
  | .shared o => outcomeCode o
  | .mixed => 13

/-- The code of a bank state (R190). -/
def bankStateCode : BankState → Nat
  | .off => 0
  | .charging => 1
  | .conditioning => 2
  | .ready => 3
  | .recovering => 4
  | .topping => 5
  | .standby => 6
  | .waking => 7
  | .fault => 8

/-- The code of a BANK_STATE cause (R190). -/
def bankCauseCode : BankCause → Nat
  | .power => 1
  | .charged => 2
  | .chargeTimeout => 3
  | .conditioned => 4
  | .idle => 5
  | .wake => 6

/-- The code of an aim guard outcome (R190). -/
def aimOutcomeCode : AimOutcome → Nat
  | .requested => 0
  | .guard => 1
  | .dark => 2

/-- The code of a close status (R190). -/
def closeStatusCode : CloseStatus → Nat
  | .complete => 1
  | .incomplete => 2

/-- The code of a LINE_EVENT cause (R190). -/
def eventCauseCode : EventCause → Nat
  | .edge => 1
  | .level => 2
  | .enable => 3

/-- The code of a sense (R190). -/
def senseCode : Sense → Nat
  | .edge => 0
  | .level => 1

/-- The code of a dwell deferral (R190). -/
def deferralCode : Deferral → Nat
  | .none => 0
  | .capture => 1
  | .hold => 2

/-- The function code, 0xFF for none (R187). -/
def fnByte (f : Option Fn) : List Byte :=
  match f with
  | none => [0xFF#8]
  | some f => le 1 (fnCode f)

/-! ### Reports -/

/-- The report kind (R190). -/
def reportKind : Body → Nat
  | .turn .. => 0x01
  | .capture .. => 0x02
  | .late .. => 0x03
  | .fault .. => 0x04
  | .holdOn .. => 0x05
  | .holdOff .. => 0x06
  | .dwellExpired .. => 0x07
  | .volumeSummary .. => 0x08
  | .lineEvent .. => 0x10
  | .aimGuard .. => 0x11
  | .bankState .. => 0x12
  | .idle .. => 0x13
  | .wake .. => 0x14
  | .keyRefused .. => 0x15

/-- The opening and its flag (R190). -/
def openingBytes (k : Nat) (known : Bool) : List Byte := le 2 k ++ flagByte known

/-- An ask in a side block: bank, granted time, answer; all 0 when absent (R190). -/
def askBytes (a : Option Ask) : List Byte :=
  match a with
  | none => List.replicate 8 0#8
  | some a =>
    le 1 (bankCode a.bank) ++ leTime a.granted ++
      le 1 (match a.answer with
        | none => 0
        | some (.fired _) => 1
        | some .withdrawn => 2)

/-- The side block of a CAPTURE record, 55 bytes (R190). -/
def sideBlock (r : SideReport) : List Byte :=
  le 1 (sideCode r.side) ++ le 1 (outcomeCode r.outcome)
    ++ le 1 (bit r.syncTime.isSome 0 + bit r.asks[0]?.isSome 1 + bit r.asks[1]?.isSome 2
        + bit r.page.isSome 3 + bit r.take.isSome 4)
    ++ leTimeOpt r.syncTime ++ askBytes r.asks[0]? ++ askBytes r.asks[1]?
    ++ (match r.page with
        | none => le 3 0
        | some (i, v) => le 2 i ++ flagByte v)
    ++ (match r.take with
        | none => le 2 0 ++ textField 24 []
        | some (n, t) => le 2 n ++ textField 24 t)

/-- The unmet mask of a CAPTURE record (R190). -/
def unmetNat (u : Option Unmet) : Nat :=
  match u with
  | none => 0
  | some u =>
    maskNat ([u.opening, u.platen, u.banks.toList.any id, u.hoods.toList.any id] ++ u.banks.toList
      ++ u.hoods.toList)

/-- The precheck figures of a CAPTURE record: constraint, compared, increment, ceiling (R190). -/
def figureBytes (f : Option Figures) : List Byte :=
  match f with
  | none => le 17 0
  | some (.leftLeaf c i m) => le 1 1 ++ le 6 c ++ le 4 i ++ le 6 m
  | some (.rightLeaf c i m) => le 1 2 ++ le 6 c ++ le 4 i ++ le 6 m
  | some (.volume c i m) => le 1 3 ++ le 6 c ++ le 4 i ++ le 6 m
  | some (.uncalibrated bk) => le 1 (4 + bankCode bk) ++ le 16 0

/-- The body of a CAPTURE record (R190). -/
def captureBytes (c : CaptureReport) : List Byte :=
  le 1 (bit c.seq.isSome 0 + bit c.recipe.isSome 1 + bit c.opening.isSome 2 + bit c.armedAt.isSome 3
      + bit c.t0.isSome 4 + bit c.ended.isSome 5 + bit c.unmet.isSome 6 + bit c.figures.isSome 7)
    ++ leOpt 2 c.seq ++ le 2 c.order.tag ++ le 1 (originCode c.order.origin)
    ++ le 1 (sidesCode c.order.sides) ++ le 1 (purposeCode c.order.purpose) ++ le 1 c.order.recipe
    ++ (match c.recipe with
        | none => le 10 0
        | some (q, d) => le 2 q.a ++ le 2 q.b ++ le 2 q.c ++ le 2 q.d ++ le 2 d)
    ++ le 1 (overallCode c.overall)
    ++ (match c.opening with
        | none => le 3 0
        | some (k, f) => openingBytes k f)
    ++ leTime c.order.accepted ++ leTimeOpt c.armedAt ++ leTimeOpt c.t0 ++ leTimeOpt c.ended
    ++ le 2 (unmetNat c.unmet) ++ figureBytes c.figures ++ le 4 c.credit.l ++ le 4 c.credit.r
    ++ c.sides.flatMap sideBlock

/-- The body of a TURN report (R190). -/
def turnBytes (t : TurnReport) : List Byte :=
  le 1 (bit t.stage.isSome 0 + bit t.fault.isSome 1) ++ le 2 t.seq ++ le 1 (directionCode t.direction)
    ++ le 1 (originCode t.origin) ++ le 1 (turnOutcomeCode t.outcome)
    ++ le 1 ((t.stage.map stageCode).getD 0) ++ le 1 ((t.fault.map faultCode).getD 0)
    ++ le 2 t.oldOpening ++ openingBytes t.k t.known ++ le 2 t.leaf ++ le 1 t.handled
    ++ le 1 t.attempts ++ le 1 t.doublePicks
    ++ le 1 (maskNat [t.limits.l, t.limits.r, t.keptOn]) ++ leTime t.start ++ leTime t.finish

/-- The body of a FAULT report (R190). -/
def faultBytes (f : FaultReport) : List Byte :=
  le 1 (bit f.record.bank.isSome 0 + bit f.record.stage.isSome 1) ++ le 1 (faultCode f.record.kind)
    ++ leTime f.record.time ++ le 1 ((f.record.bank.map bankCode).getD 0)
    ++ le 1 ((f.record.stage.map stageCode).getD 0) ++ openingBytes f.record.k f.record.known
    ++ le 1 f.position ++ le 1 f.further ++ flagByte f.first

/-- The body of a VOLUME_SUMMARY report (R190). -/
def summaryBytes (v : Summary) : List Byte :=
  let r := v.volume
  flagByte v.firstRun.isSome ++ textField 40 (r.shelfMark.getD []) ++ le 1 r.part ++ le 2 r.leafCount
    ++ le 1 ((r.closeStatus.map closeStatusCode).getD 0)
    ++ leTimeOpt r.loadTime ++ leTimeOpt r.openTime ++ leTimeOpt r.closeTime ++ openingBytes r.k r.known
    ++ le 2 r.captureSeq ++ le 2 r.turnSeq ++ le 2 r.capturesIssued
    ++ le 4 r.facesConfirmed ++ le 4 r.sidesFailed ++ le 4 r.turnsDone ++ le 4 r.gripRetries
    ++ le 4 r.doublePicks ++ le 4 r.manualTurns ++ le 6 r.totalDose ++ le 4 r.leafCeiling
    ++ le 6 r.volumeCeiling ++ le 4 v.highestDose.1 ++ le 2 v.highestDose.2
    ++ le 2 v.census.shot ++ le 2 v.census.wanted ++ le 2 v.census.openFaces ++ le 2 v.census.blank
    ++ le 2 v.census.missing ++ le 2 v.census.restricted ++ le 2 v.gaps
    ++ le 2 (v.firstRun.getD (0, 0)).1 ++ le 2 (v.firstRun.getD (0, 0)).2 ++ le 2 v.manualLeaves
    ++ le 1 v.highestHandled.1 ++ le 2 v.highestHandled.2 ++ le 2 v.overLimit

/-- The constraint of an AIM_GUARD report at opening `k` (R190). -/
def constraintCode (k : Nat) : Constraint → Nat
  | .leaf i => if i = k then 1 else 2
  | .volume => 3

/-- The body of a report (R190). -/
def bodyBytes : Body → List Byte
  | .turn t => turnBytes t
  | .capture c => captureBytes c
  | .late o test past =>
    le 2 o.tag ++ le 1 (originCode o.origin) ++ le 1 (sidesCode o.sides) ++ le 1 o.recipe
      ++ le 1 (purposeCode o.purpose) ++ le 6 (o.notBefore.getD 0) ++ leTime test ++ le 6 past
  | .fault f => faultBytes f
  | .holdOn i t => le 1 i ++ leTime t
  | .holdOff i t lasted => le 1 i ++ leTime t ++ le 6 lasted
  | .dwellExpired k known m t d => openingBytes k known ++ le 2 m ++ leTime t ++ le 1 (deferralCode d)
  | .volumeSummary v => summaryBytes v
  | .lineEvent i f sense cause level n t =>
    le 1 i ++ fnByte f ++ le 1 (senseCode sense) ++ le 1 (eventCauseCode cause) ++ flagByte level
      ++ le 2 n ++ leTime t
  | .aimGuard lamp left entered requested guard applied k c t =>
    flagByte c.isSome ++ le 1 (lampCode lamp) ++ le 1 (aimOutcomeCode left)
      ++ le 1 (aimOutcomeCode entered) ++ le 2 requested ++ le 2 guard ++ le 2 applied ++ le 2 k
      ++ (match c with
          | none => le 7 0
          | some (c, room) => le 1 (constraintCode k c) ++ le 6 room)
      ++ leTime t
  | .bankState bk left entered t cause =>
    le 1 (bankCode bk) ++ le 1 (bankStateCode left) ++ le 1 (bankStateCode entered) ++ leTime t
      ++ le 1 (bankCauseCode cause)
  | .idle since setting => leTime since ++ le 2 setting
  | .wake cause t spent =>
    (match cause with
      | .request k => le 1 1 ++ le 2 k.toNat
      | .line i => le 1 2 ++ le 2 i
      | .arming tag => le 1 3 ++ le 2 tag)
      ++ leTime t ++ le 6 spent
  | .keyRefused f r => fnByte (some f) ++ le 1 (resultCode r)

/-- The length of a report's body (R190). -/
def bodyLength : Body → Nat
  | .turn _ => 31
  | .capture c => 74 + 55 * c.sides.length
  | .late .. => 24
  | .fault _ => 16
  | .holdOn .. => 7
  | .holdOff .. => 13
  | .dwellExpired .. => 12
  | .volumeSummary _ => 144
  | .lineEvent .. => 13
  | .aimGuard .. => 25
  | .bankState .. => 10
  | .idle .. => 8
  | .wake .. => 15
  | .keyRefused .. => 2

/-- The length of a report: an 11-byte header and its body (R190). -/
def reportLength (r : Report) : Nat := 11 + bodyLength r.body

/-- A report as its bytes (R190). -/
def reportBytes (r : Report) : List Byte :=
  le 2 r.seq ++ leTime r.time ++ le 1 (reportKind r.body) ++ le 1 r.missed ++ le 1 (bodyLength r.body)
    ++ bodyBytes r.body

/-- The number of reports a FETCH removes: from the head, for as long as the next one fits in the space
left (R184). -/
def fetchCount : List Report → Nat → Nat
  | [], _ => 0
  | r :: rs, space => if reportLength r ≤ space then fetchCount rs (space - reportLength r) + 1 else 0

/-! ### Other layouts -/

/-- The bytes of a face in a leaf record (R190). -/
def faceBytes (f : Face) : List Byte :=
  le 1 (faceCode f.state) ++ le 1 (faceReason f.state) ++ le 2 f.takes ++ leOpt 2 f.lastSeq

/-- A leaf record as LEAF_QUERY returns it, 21 bytes (R190). -/
def leafBytes (v : LeafView) : List Byte :=
  le 2 v.index
    ++ le 1 (match v.kind with
        | .frontBoard => 0
        | .leaf => 1
        | .backBoard => 2)
    ++ flagByte v.leaf.manual ++ le 4 v.leaf.dose ++ le 1 v.leaf.handled ++ faceBytes v.leaf.recto
    ++ faceBytes v.leaf.verso

/-- The code of a scheme (R188). -/
def schemeCode : Scheme → Nat
  | .foliated => 0
  | .paginated => 1
  | .roman => 2
  | .unnumbered => 3
  | .plate => 4

/-- A plan segment in 10 bytes (R188). -/
def segmentBytes (g : Segment) : List Byte :=
  le 2 g.first ++ le 2 (g.last + 4096 * schemeCode g.scheme) ++ le 2 g.start ++ g.pfx.take 4
    ++ List.replicate (4 - g.pfx.length) 0#8

end Sys2Proof.Machine
end

