-- ==== Sys2Proof/Machine/Replies.lean ====
section
/-! DEFINITION. A reply as its frame (R176, R186, R189) and the bytes of its fields. The manual gives the layout of the
FETCH, LEAF_QUERY and PLAN_QUERY replies (R188, R190); of the others it gives the fields and the encoding of each kind of
field (R187), and the order and the widths are the model's (log 23). -/
namespace Sys2Proof.Machine

/-! ### Codes that the manual leaves to the order of a rule's list (log 23) -/

/-- The code of a volume state (R1). -/
def volStateCode : VolState → Nat
  | .empty => 0
  | .loaded => 1
  | .opened => 2
  | .closed => 3

/-- The code of a platen state (R43). -/
def platenCode : Platen → Nat
  | .raised => 0
  | .lowering => 1
  | .pressing => 2
  | .down => 3
  | .raising => 4
  | .stopped => 5

/-- The code of a plate state (R50). -/
def plateStateCode : PlateState → Nat
  | .settled => 0
  | .moving => 1
  | .unsettled => 2

/-- The code of an arm position (R67). -/
def armCode : ArmPosition → Nat
  | .home => 0
  | .left => 1
  | .right => 2
  | .between => 3

/-- The code of a hood state (R82). -/
def hoodCode : HoodState → Nat
  | .closed => 0
  | .opening => 1
  | .opened => 2
  | .closing => 3

/-- The code of a silence timer state (R135). -/
def silenceCode : Silence → Nat
  | .off => 0
  | .armed => 1
  | .waiting => 2

/-- The code of a line direction (R146). -/
def dirCode : LineDir → Nat
  | .inp => 0
  | .out => 1

/-- The code of a pull (R146). -/
def pullCode : Pull → Nat
  | .none => 0
  | .down => 1
  | .up => 2

/-- The code of a drive (R146). -/
def driveCode : Drive → Nat
  | .pushPull => 0
  | .openLow => 1
  | .openHigh => 2

/-- The code of a polarity (R146). -/
def polarityCode : Polarity → Nat
  | .risingHigh => 0
  | .fallingLow => 1

/-- The code of a source (R91). -/
def sourceCode : Source → Nat
  | .bank bk => bankCode bk
  | .aim lamp => 4 + lampCode lamp

/-- The code of where a requested side stands (R119). -/
def sideStageCode : SideStage → Nat
  | .arming => 0
  | .waiting => 1
  | .firing => 2
  | .storing => 3
  | .ended _ => 4

/-- The outcome byte of a side, 0 while it has none. -/
def stageOutcome : SideStage → Nat
  | .ended o => outcomeCode o
  | _ => 0

/-- The code of the field that a BAD_FIELD reply names (R187); calibration point `i` is 64 + i. -/
def fieldCode : FieldName → Nat
  | .shelfMark => 1
  | .part => 2
  | .leaves => 3
  | .thickness => 4
  | .leafCeiling => 5
  | .volumeCeiling => 6
  | .handlingLimit => 7
  | .reserve => 8
  | .opening => 9
  | .manualLeaf => 10
  | .leafIndex => 11
  | .action => 12
  | .skipReason => 13
  | .startFace => 14
  | .count => 15
  | .position => 16
  | .command => 17
  | .recipe => 18
  | .source => 19
  | .spill => 20
  | .sides => 21
  | .purpose => 22
  | .enable => 23
  | .tap => 24
  | .clearCount => 25
  | .line => 26
  | .direction => 27
  | .pull => 28
  | .drive => 29
  | .sense => 30
  | .polarity => 31
  | .bothEdges => 32
  | .function => 33
  | .point i => 64 + i

/-- The code of a failure kind of a plan (R36). -/
def planFailureCode : PlanFailure → Nat
  | .count => 1
  | .scheme => 2
  | .start => 3
  | .pfx => 4
  | .bounds => 5
  | .order => 6
  | .overlap => 7

/-! ### Parts of replies -/

/-- A mask of up to eight members in one byte (R187). -/
def maskByte (bs : List Bool) : List Byte := le 1 (maskNat bs)

/-- A mask of the 32 lines in four bytes (R187). -/
def lineMaskBytes (bs : List Bool) : List Byte := le 4 (maskNat bs)

/-- Text after its length byte (R187). -/
def textBytes (t : Text) : List Byte := le 1 t.length ++ t

/-- Two numbers of `n` bytes each, left first. -/
def pairBytes (n : Nat) (v : Pair Nat) : List Byte := le n v.l ++ le n v.r

/-- Four numbers of `n` bytes each, A first. -/
def quadBytes (n : Nat) (v : Quad Nat) : List Byte := v.toList.flatMap (le n)

/-- A field or group of `n` bytes that is 0 throughout when absent (R187). -/
def optBytes {α : Type} (n : Nat) (f : α → List Byte) (x : Option α) : List Byte :=
  match x with
  | none => le n 0
  | some v => f v

/-- The plate targets or positions and the PLATE_LIMIT flags (R4, R10). -/
def plateBytes (targets : Pair Nat) (limits : Pair Bool) : List Byte := pairBytes 2 targets ++ maskByte limits.toList

/-- A fault record of a STATUS reply with its position (R163, R172). -/
def faultRecordBytes (x : FaultRec × Nat) : List Byte :=
  maskByte [x.1.bank.isSome, x.1.stage.isSome] ++ le 1 x.2 ++ le 1 (faultCode x.1.kind) ++ leTime x.1.time
    ++ optBytes 1 (fun bk => le 1 (bankCode bk)) x.1.bank ++ optBytes 1 (fun g => le 1 (stageCode g)) x.1.stage
    ++ openingBytes x.1.k x.1.known

/-- The fields of a STATUS reply (R172, R178). -/
def statusBytes (v : StatusView) : List Byte :=
  maskByte [v.episodeStart.isSome, v.turnHeld.isSome] ++ flagByte v.safe ++ leTimeOpt v.episodeStart
    ++ le 1 v.faults.length ++ (v.faults.zipIdx 1).flatMap faultRecordBytes ++ le 1 v.further
    ++ flagByte v.pendingFirst ++ le 1 (volStateCode v.volume) ++ openingBytes v.k v.known
    ++ le 1 (platenCode v.platen) ++ flagByte (v.turnHeld.getD false) ++ flagByte v.capture ++ le 1 v.waiting
    ++ le 1 v.occupied ++ le 1 v.reserved ++ le 1 v.missed ++ le 2 v.lastSeq ++ le 2 v.errorCount
    ++ flagByte v.supervision ++ le 1 (silenceCode v.silence)

/-- The fields of a TIME reply (R135). -/
def timeBytes (v : TimeView) : List Byte :=
  maskByte [v.remaining.isSome, v.idleSince.isSome, v.pendingTap.isSome] ++ leTime v.count ++ flagByte v.idle
    ++ le 2 v.setting ++ leOpt 4 v.remaining ++ leTimeOpt v.idleSince ++ le 1 (silenceCode v.silence)
    ++ le 1 v.boundaries ++ le 1 v.tap ++ leOpt 1 v.pendingTap ++ le 2 v.phase

/-- The volume record (R1, R18). -/
def volumeBytes (v : Volume) : List Byte :=
  maskByte [v.loadTime.isSome, v.openTime.isSome, v.closeTime.isSome] ++ le 1 (volStateCode v.state)
    ++ textField 40 (v.shelfMark.getD []) ++ le 1 v.part ++ le 2 v.leafCount ++ le 2 v.thickness
    ++ le 4 v.leafCeiling ++ le 6 v.volumeCeiling ++ le 1 v.handlingLimit ++ le 4 v.reserve
    ++ leOpt 1 (v.closeStatus.map closeStatusCode) ++ openingBytes v.k v.known ++ flagByte v.platesPending
    ++ le 2 v.captureSeq ++ le 2 v.turnSeq ++ le 2 v.capturesIssued ++ le 4 v.facesConfirmed ++ le 4 v.sidesFailed
    ++ le 4 v.turnsDone ++ le 4 v.gripRetries ++ le 4 v.doublePicks ++ le 4 v.manualTurns ++ le 6 v.totalDose
    ++ leTimeOpt v.loadTime ++ leTimeOpt v.openTime ++ leTimeOpt v.closeTime

/-- The state and the skip reason of a face (R30). -/
def faceStateBytes (x : FaceState) : List Byte := le 1 (faceCode x) ++ le 1 (faceReason x)

/-- The turn record (R52, R67). -/
def turnRecordBytes (t : TurnView) : List Byte :=
  le 2 t.seq ++ le 1 (directionCode t.direction) ++ le 1 (originCode t.origin) ++ flagByte t.override ++ le 2 t.leaf
    ++ le 2 t.oldOpening ++ flagByte t.held ++ le 1 (stageCode (t.stage, t.recovery)) ++ le 1 t.retries
    ++ le 1 t.attempts ++ le 1 t.doublePicks ++ maskByte t.limits.toList ++ leTime t.start

/-- The motion profile (R66). -/
def profileBytes (p : Profile) : List Byte :=
  le 2 p.target ++ le 2 p.tolerance ++ le 2 p.limit ++ le 2 p.dwellMax ++ le 2 p.plateBase ++ le 2 p.airTime
    ++ le 1 p.gripRetries

/-- The fields of a MOTION_QUERY reply (R67). -/
def motionBytes (v : MotionView) : List Byte :=
  maskByte [v.dwellLeft.isSome, v.turn.isSome] ++ le 1 (platenCode v.platen) ++ flagByte v.raisePending
    ++ le 2 v.pressure ++ leOpt 4 v.dwellLeft ++ pairBytes 2 v.positions ++ plateBytes v.targets v.limits
    ++ le 1 (plateStateCode v.plateState) ++ le 1 (armCode v.arm) ++ flagByte v.armPowered ++ flagByte v.suction
    ++ flagByte v.keptOn ++ flagByte v.air ++ optBytes 21 turnRecordBytes v.turn ++ profileBytes v.profile

/-- A flash bank of a LAMP_QUERY reply (R88). -/
def bankBytes (v : BankView) : List Byte :=
  maskByte [v.lastFiring.isSome, v.standbySince.isSome] ++ le 1 (bankStateCode v.state) ++ le 1 (hoodCode v.hood)
    ++ le 1 v.count ++ flagByte v.conditioned ++ le 2 v.recharge ++ leTimeOpt v.lastFiring ++ leOpt 2 v.hoodRequest
    ++ leTimeOpt v.standbySince

/-- An aim lamp record (R85). -/
def aimBytes (v : AimView) : List Byte :=
  le 2 v.requested ++ le 2 v.guard ++ le 2 v.applied ++ flagByte v.lit ++ le 1 (hoodCode v.hood)

/-- The fields of a LAMP_QUERY reply (R88). -/
def lampBytes (v : LampView) : List Byte :=
  v.banks.toList.flatMap bankBytes ++ v.aims.toList.flatMap aimBytes ++ leOpt 2 v.interval ++ le 1 v.granted.length
    ++ v.granted.flatMap leTime

/-- A light recipe (R87). -/
def recipeBytes (r : Recipe) : List Byte := quadBytes 2 r.levels ++ le 2 r.duration

/-- A prediction entry (R97). -/
def entryBytes (e : Entry) : List Byte :=
  le 1 (bankCode e.bank) ++ le 2 e.level ++ le 2 e.duration ++ le 4 e.lux ++ le 2 e.ownLeaf ++ le 4 e.ownAmount
    ++ le 2 e.spillLeaf ++ le 4 e.spillAmount ++ flagByte e.credited

/-- The prediction record (R99). -/
def predictionBytes (p : Prediction) : List Byte :=
  le 2 p.seq ++ le 2 p.k ++ le 1 p.entries.length ++ p.entries.flatMap entryBytes

/-- An aim lamp of a DOSE_QUERY reply (R108): the note is 0 when absent, 1 with a leaf index, 2 for VOLUME. -/
def guardBytes (v : GuardView) : List Byte :=
  le 1 (aimOutcomeCode v.outcome)
    ++ (match v.note with
        | none => le 3 0
        | some (.leaf i) => le 1 1 ++ le 2 i
        | some .volume => le 1 2 ++ le 2 0)
    ++ le 2 v.level

/-- The fields of a DOSE_QUERY reply (R108). -/
def doseBytes (v : DoseView) : List Byte :=
  maskByte [v.prediction.isSome] ++ le 6 v.total ++ le 4 v.leafCeiling ++ le 6 v.volumeCeiling ++ le 4 v.reserve
    ++ maskByte v.calibrated ++ optBytes 5 predictionBytes v.prediction ++ pairBytes 4 v.outstanding
    ++ le 4 v.outstandingTotal ++ pairBytes 4 v.credit ++ v.aims.toList.flatMap guardBytes

/-- A camera profile (R130). -/
def cameraBytes (c : Camera) : List Byte := le 2 c.pulse ++ le 4 c.delay ++ le 4 c.window ++ le 2 c.stored

/-- A capture order (R110). -/
def orderBytes (o : Order) : List Byte :=
  maskByte [o.notBefore.isSome] ++ le 2 o.tag ++ le 1 (originCode o.origin) ++ le 1 (sidesCode o.sides)
    ++ le 1 o.recipe ++ le 1 (purposeCode o.purpose) ++ leOpt 6 o.notBefore ++ leTime o.accepted

/-- A requested side of the capture in flight (R131). -/
def sideBytes (v : SideView) : List Byte :=
  maskByte [v.syncTime.isSome, v.asks[0]?.isSome, v.asks[1]?.isSome] ++ le 1 (sideStageCode v.stage)
    ++ le 1 (stageOutcome v.stage) ++ leTimeOpt v.syncTime ++ askBytes v.asks[0]? ++ askBytes v.asks[1]?

/-- The capture in flight (R131). -/
def captureViewBytes (c : CaptureView) : List Byte :=
  maskByte [c.opening.isSome, c.t0.isSome, c.sides.l.isSome, c.sides.r.isSome] ++ le 2 c.seq ++ orderBytes c.order
    ++ flagByte c.triggered ++ optBytes 3 (fun o => openingBytes o.1 o.2) c.opening
    ++ quadBytes 2 c.levels ++ le 2 c.duration ++ leTimeOpt c.t0
    ++ c.sides.toList.flatMap (optBytes 25 sideBytes)

/-- The fields of a CAPTURE_QUERY reply (R131). -/
def sequencerBytes (v : SequencerView) : List Byte :=
  maskByte [v.capture.isSome] ++ le 1 v.orders.length ++ v.orders.flatMap orderBytes
    ++ optBytes 92 captureViewBytes v.capture ++ v.cameras.toList.flatMap cameraBytes ++ le 4 v.lateLimit
    ++ le 2 v.lateCount

/-- A line record (R146). -/
def lineBytes (l : LineRecord) : List Byte :=
  maskByte [l.change.isSome] ++ le 1 (dirCode l.dir) ++ le 1 (pullCode l.pull) ++ le 1 (driveCode l.drive)
    ++ le 1 (senseCode l.sense) ++ le 1 (polarityCode l.polarity) ++ flagByte l.bothEdges ++ le 1 l.debounce
    ++ flagByte l.event ++ flagByte l.wake ++ flagByte l.hold ++ flagByte l.level
    ++ optBytes 7 (fun x => flagByte x.1 ++ leTime x.2) l.change ++ flagByte l.staged ++ flagByte l.raw
    ++ flagByte l.latch ++ le 2 l.count

/-! ### The reply -/

/-- The reply fields as their bytes (R187; log 23). -/
def fieldBytes : Fields → List Byte
  | .none => []
  | .badField f => le 1 (fieldCode f)
  | .planFailure f position => le 1 (planFailureCode f) ++ le 1 position
  | .gapsFound n first last => le 2 n ++ le 2 first ++ le 2 last
  | .ceilingBelow leaf sum => maskByte [leaf.isSome] ++ leOpt 2 leaf ++ le 6 sum
  | .notMonotonic point => le 1 point
  | .conditions reading limit pressure banks => le 2 reading ++ le 2 limit ++ flagByte pressure ++ maskByte banks.toList
  | .ident v => textBytes v.vendor ++ textBytes v.part ++ textBytes v.revision ++ v.capacities.flatMap (le 2)
  | .status v => statusBytes v
  | .time v => timeBytes v
  | .fetch waiting rs => le 1 rs.length ++ le 1 waiting ++ rs.flatMap reportBytes
  | .linkSet supervision tap pending errors =>
    maskByte [pending.isSome] ++ flagByte supervision ++ le 1 tap ++ leOpt 1 pending ++ le 2 errors
  | .safe entered position further => flagByte (!entered) ++ le 1 position ++ le 1 further
  | .clearSafe cleared further lasted discarded adjusting =>
    le 1 cleared ++ le 1 further ++ le 6 lasted ++ flagByte discarded ++ flagByte adjusting
  | .idleSet setting clamped => le 2 setting ++ flagByte clamped
  | .volumeLoad records faces => le 2 records ++ le 2 faces
  | .volumeOpen k targets limits => le 2 k ++ plateBytes targets limits
  | .volumeSet leafCeiling volumeCeiling handlingLimit reserve thickness =>
    le 4 leafCeiling ++ le 6 volumeCeiling ++ le 1 handlingLimit ++ le 4 reserve ++ le 2 thickness
  | .volumeClose status gaps seq => le 1 (closeStatusCode status) ++ le 2 gaps ++ le 2 seq
  | .volumeQuery v => volumeBytes v
  | .reseat k targets limits handled pending =>
    le 2 k ++ plateBytes targets limits ++ leOpt 1 handled ++ flagByte pending
  | .leafMark unchangedRecto unchangedVerso recto verso manual =>
    maskByte [unchangedRecto, unchangedVerso] ++ faceStateBytes recto ++ faceStateBytes verso ++ flagByte manual
  | .leafQuery vs => le 1 vs.length ++ vs.flatMap leafBytes
  | .gapsQuery n runs clipped more =>
    le 2 n ++ le 1 runs.length ++ (runs.flatMap fun x => le 2 x.1 ++ le 2 x.2) ++ flagByte clipped ++ flagByte more
  | .planSet n => le 1 n
  | .planQuery n gs => le 1 n ++ le 1 gs.length ++ gs.flatMap segmentBytes
  | .turn seq direction leaf handled => le 2 seq ++ le 1 (directionCode direction) ++ le 2 leaf ++ le 1 handled
  | .turnResume seq stage recovery => le 2 seq ++ le 1 (stageCode (stage, recovery))
  | .turnAbandon seq known => le 2 seq ++ flagByte known
  | .motionSet p clamped => profileBytes p ++ maskByte clamped
  | .motionQuery v => motionBytes v
  | .bankPower banks => banks.toList.flatMap fun x => le 1 (bankStateCode x.1) ++ le 1 (hoodCode x.2)
  | .bankSet recharge clamped => quadBytes 2 recharge ++ flagByte clamped
  | .aimSet aims clamped => aims.toList.flatMap aimBytes ++ maskByte clamped
  | .recipeSet r clamped => recipeBytes r ++ maskByte clamped
  | .recipeQuery r => recipeBytes r
  | .lampQuery v => lampBytes v
  | .lampCal source calibrated => le 1 (sourceCode source) ++ flagByte calibrated
  | .calQuery c calibrated => c.points.flatMap (le 4) ++ le 2 c.spill ++ flagByte calibrated
  | .doseQuery v => doseBytes v
  | .shoot tag ahead => le 2 tag ++ le 1 ahead
  | .cameraSet cameras lateLimit clamped => cameras.toList.flatMap cameraBytes ++ le 4 lateLimit ++ maskByte clamped
  | .captureQuery v => sequencerBytes v
  | .lineConfig l clamped => lineBytes l ++ flagByte clamped
  | .lineWrite ignored staged => lineMaskBytes ignored ++ lineMaskBytes staged
  | .lineRead vs =>
    lineMaskBytes (vs.map fun v => decide (v.dir = .out)) ++ lineMaskBytes (vs.map LineView.value)
      ++ lineMaskBytes (vs.map LineView.raw) ++ lineMaskBytes (vs.map LineView.masked)
  | .lineCounts counts => counts.flatMap (le 2)
  | .lineQuery l f => lineBytes l ++ fnByte f
  | .lineClear raw masked => lineMaskBytes raw ++ lineMaskBytes masked
  | .lineBind f line value => fnByte (some f) ++ le 1 (line.getD 0xFF) ++ flagByte value

/-- A reply as its frame: its kind, its tag, and a payload that begins with the result code and the status summary
(R176, R189). -/
def replyFrame (r : Reply) : Frame :=
  ⟨r.kind, r.tag, BitVec.ofNat 8 (resultCode r.result) :: r.summary :: fieldBytes r.fields⟩

/-- The bytes of a reply as the serial port sends them (R186). -/
def replyBytes (r : Reply) : List Byte := frameBytes (replyFrame r)

end Sys2Proof.Machine
end

