-- ==== Sys2Proof/Machine/Labels.lean ====
section
/-! DEFINITION. The label of a face, computed from the foliation plan (R39 to R41). -/
namespace Sys2Proof.Machine

/-- The decimal digits of `n`, at most `fuel` of them, before the digits in `acc`. -/
def decimalDigits : Nat → Nat → Text → Text
  | 0, _, acc => acc
  | fuel + 1, n, acc =>
    let acc := BitVec.ofNat 8 (48 + n % 10) :: acc
    if n < 10 then acc else decimalDigits fuel (n / 10) acc

/-- The decimal form: no leading zeros, no sign, no separators (R41). -/
def decimal (n : Nat) : Text := decimalDigits (n + 1) n []

/-- The values and letters of the roman form, largest first (R41). -/
def romanTable : List (Nat × Text) :=
  [(1000, ascii ['m']), (900, ascii ['c', 'm']), (500, ascii ['d']), (400, ascii ['c', 'd']),
   (100, ascii ['c']), (90, ascii ['x', 'c']), (50, ascii ['l']), (40, ascii ['x', 'l']),
   (10, ascii ['x']), (9, ascii ['i', 'x']), (5, ascii ['v']), (4, ascii ['i', 'v']), (1, ascii ['i'])]

/-- `n` letters of one value after another: the largest value not above what remains, then again. -/
def romanLetters : List (Nat × Text) → Nat → Text
  | [], _ => []
  | (v, t) :: rest, n => (List.replicate (n / v) t).flatten ++ romanLetters rest (n % v)

/-- The roman form of a number of 1 to 3,999, and above it the number in brackets (R41). -/
def roman (n : Nat) : Text :=
  if n ≤ 3999 then romanLetters romanTable n else ascii ['['] ++ decimal n ++ ascii [']']

/-- The body of a label in a segment, with `d` the leaf's distance from the first leaf (R40). -/
def labelBody (scheme : Scheme) (start d : Nat) (verso : Bool) : Text :=
  match scheme, verso with
  | .foliated, false => decimal (start + d) ++ ascii ['r']
  | .foliated, true => decimal (start + d) ++ ascii ['v']
  | .paginated, false => ascii ['p', '.', ' '] ++ decimal (start + 2 * d)
  | .paginated, true => ascii ['p', '.', ' '] ++ decimal (start + 2 * d + 1)
  | .roman, false => roman (start + 2 * d)
  | .roman, true => roman (start + 2 * d + 1)
  | .unnumbered, false => ascii ['['] ++ decimal (start + d) ++ ascii [']', 'r']
  | .unnumbered, true => ascii ['['] ++ decimal (start + d) ++ ascii [']', 'v']
  | .plate, false => ascii ['p', 'l', '.', ' '] ++ decimal (start + d)
  | .plate, true => ascii ['p', 'l', '.', ' '] ++ decimal (start + d) ++ ascii [' ', 'v', 'e', 'r', 's', 'o']

/-- The segment a leaf lies in (R39). -/
def segmentOf (plan : List Segment) (i : Nat) : Option Segment :=
  plan.find? fun g => decide (g.first ≤ i) && decide (i ≤ g.last)

/-- "front pastedown" (R39). -/
def frontPastedown : Text :=
  ascii ['f', 'r', 'o', 'n', 't', ' ', 'p', 'a', 's', 't', 'e', 'd', 'o', 'w', 'n']

/-- "back pastedown" (R39). -/
def backPastedown : Text :=
  ascii ['b', 'a', 'c', 'k', ' ', 'p', 'a', 's', 't', 'e', 'd', 'o', 'w', 'n']

/-- The label of a face of leaf `i` of a volume of `n` leaves (R39). -/
def faceLabel (plan : List Segment) (n i : Nat) (verso : Bool) : Text :=
  if i = 0 ∧ verso = true then frontPastedown
  else if i = n + 1 ∧ verso = false then backPastedown
  else
    match segmentOf plan i with
    | some g => g.pfx ++ labelBody g.scheme g.start (i - g.first) verso
    | none => ascii ['['] ++ decimal i ++ (if verso then ascii [']', 'v'] else ascii [']', 'r'])

end Sys2Proof.Machine
end

