-- ==== Sys2Proof/Machine/LampOps.lean ====
section
/-! DEFINITION. The lamp controller's operations: hoods (R82 to R84), the states of a flash bank (R70 to R81)
and the flash spacing (R74). -/
namespace Sys2Proof.Machine

/-- A command to open a hood, taken at clock value `t` (R82). -/
def openHood (t : Nat) (h : Hood) : Hood :=
  match h.state with
  | .closed => ⟨.opening, some (t + hoodTime)⟩
  | .closing => ⟨.opening, some (t + hoodTime)⟩
  | .opening => h
  | .opened => h

/-- A command to close a hood, taken at clock value `t` (R82). -/
def closeHood (t : Nat) (h : Hood) : Hood :=
  match h.state with
  | .opened => ⟨.closing, some (t + hoodTime)⟩
  | .opening => ⟨.closing, some (t + hoodTime)⟩
  | .closing => h
  | .closed => h

/-- The end of a hood's travel (R82). -/
def endTravel (h : Hood) : Hood :=
  match h.state with
  | .opening => ⟨.opened, none⟩
  | .closing => ⟨.closed, none⟩
  | .opened => h
  | .closed => h

/-- The record of a bank. -/
def getBank (s : State) (bk : Bank) : BankRec := s.lamps.banks.get bk

/-- The state with a bank record replaced. -/
def setBank (s : State) (bk : Bank) (r : BankRec) : State :=
  { s with lamps.banks := s.lamps.banks.set bk r }

/-- The state with a bank record changed. -/
def modifyBank (s : State) (bk : Bank) (f : BankRec → BankRec) : State := setBank s bk (f (getBank s bk))

/-- An operation made for each bank, A first. Where it offers BANK_STATE reports (R71, R78, R79), they are so offered A to D
(DESIGN CHOICE, log 17). -/
def forBanks (f : State → Bank → State) (s : State) : State := allBanks.foldl f s

/-- A BANK_STATE report (R81). -/
def reportBank (s : State) (bk : Bank) (left entered : BankState) (cause : BankCause) : State :=
  offerMinor s (.bankState bk left entered (now s) cause)

/-- The conditioning flash a bank was granted and has not made is dropped when the bank leaves
CONDITIONING (R71, R73, R78). -/
def dropConditioning (s : State) (bk : Bank) : State :=
  { s with lamps.grants := s.lamps.grants.filter fun g => !(decide (g.bank = bk) && g.capture.isNone) }

/-- A bank enters READY, with a report where a cause is given; a standing hood request opens its hood
(R70, R81, R83). -/
def enterReady (s : State) (bk : Bank) (cause : Option BankCause) : State :=
  let r := getBank s bk
  let s1 := setBank s bk
    { r with
      state := .ready, readySince := some (now s), deadline := none
      hood := if r.hoodRequest.isSome then openHood (now s) r.hood else r.hood }
  match cause with
  | none => s1
  | some c => reportBank s1 bk r.state .ready c

/-- A bank enters STANDBY; a conditioning that this breaks off loses its count (R69, R78). -/
def enterStandby (s : State) (bk : Bank) (cause : BankCause) : State :=
  let r := getBank s bk
  reportBank
    (setBank (dropConditioning s bk) bk
      { r with
        state := .standby, count := if r.state = .conditioning then 0 else r.count
        standbySince := some (now s), deadline := none })
    bk r.state .standby cause

/-- A bank enters CONDITIONING with a count of 0; its hood closes and its hood request is held (R73, R83,
R84). -/
def enterConditioning (s : State) (bk : Bank) (cause : BankCause) : State :=
  let r := getBank s bk
  reportBank
    (setBank s bk
      { r with
        state := .conditioning, count := 0, conditioned := false, deadline := none
        hood := closeHood (now s) r.hood })
    bk r.state .conditioning cause

/-- The charge of a CHARGING bank has ended (R72). -/
def endCharge (s : State) (bk : Bank) : State :=
  if s.time.idle then enterStandby s bk .charged else enterConditioning s bk .charged

/-- BANK_POWER ON in OFF: the bank charges, and a charge-good input already active ends the charge at
once (R71, R72). -/
def startCharging (s : State) (bk : Bank) : State :=
  let r := getBank s bk
  let s1 := reportBank
    (setBank s bk
      { r with state := .charging, count := 0, conditioned := false, deadline := some (now s + chargeTime) })
    bk r.state .charging .power
  if s.chargeGood.get bk then endCharge s1 bk else s1

/-- A bank record in OFF: unpowered, timers stopped, hood commanded to close (R71, R89). A flash that is lit runs to its
end (log 33). -/
def offRecord (t : Nat) (r : BankRec) : BankRec :=
  { r with
    state := .off, count := 0, conditioned := false, readySince := none, standbySince := none
    hoodRequest := none, deadline := none, hood := closeHood t r.hood }

/-- BANK_POWER OFF: the bank enters OFF from any state, OFF itself among them, and each entry is reported (R71, R81). -/
def powerOff (s : State) (bk : Bank) : State :=
  let r := getBank s bk
  reportBank (setBank (dropConditioning s bk) bk (offRecord (now s) r)) bk r.state .off .power

/-- A bank's part in a wake: STANDBY becomes WAKING, with its report in the banks' order of log 17 (R79, R81). -/
def wakeBank (s : State) (bk : Bank) : State :=
  let r := getBank s bk
  if r.state = .standby then
    reportBank (setBank s bk { r with state := .waking, deadline := some (now s + wakingTime) }) bk .standby
      .waking .wake
  else s

/-- A bank's part in an IDLE entry, with its report in the banks' order of log 17 (R78, R81). -/
def idleBank (s : State) (bk : Bank) : State :=
  match (getBank s bk).state with
  | .ready => enterStandby s bk .idle
  | .conditioning => enterStandby s bk .idle
  | .waking => enterStandby s bk .idle
  | .recovering => s
  | .topping => s
  | .charging => s
  | .off => s
  | .fault => s
  | .standby => s

/-- The end of a recovery or a top-up: READY, or STANDBY while IDLE (R75, R77, R78). -/
def returnReady (s : State) (bk : Bank) : State :=
  if s.time.idle then enterStandby s bk .idle else enterReady s bk none

/-- The recharge time of a bank has passed since its last firing, where there is one (R73, R75). -/
def recharged (s : State) (bk : Bank) : Bool :=
  match (getBank s bk).lastFiring with
  | none => true
  | some t => decide (t + ms (getBank s bk).recharge ≤ now s)

/-- A bank has stood READY for 30 s (R77). -/
def topUpDue (s : State) (bk : Bank) : Bool :=
  match (getBank s bk).readySince with
  | none => false
  | some t => decide ((getBank s bk).state = .ready) && decide (t + topUpAfter ≤ now s)

/-- A bank that is due and READY enters TOPPING, unless a lighting interval is in force (R77). -/
def topUp (s : State) (bk : Bank) : State :=
  if topUpDue s bk && s.lamps.interval.isNone then
    modifyBank s bk fun r => { r with state := .topping, deadline := some (now s + topUpTime) }
  else s

/-- The hoods of the four banks are commanded to close (R84). -/
def closeBankHoods (s : State) : State :=
  forBanks (fun s bk => modifyBank s bk fun r => { r with hood := closeHood (now s) r.hood }) s

/-- The hood requests of the four banks are cleared (R83). -/
def clearHoodRequests (s : State) : State :=
  forBanks (fun s bk => modifyBank s bk fun r => { r with hoodRequest := none }) s

/-- A hold or the safe state: the hoods close, at once or at the end of the lighting interval (R84). -/
def stopHoods (s : State) : State :=
  let s1 := clearHoodRequests s
  if s.lamps.interval.isSome then { s1 with lamps.closePending := true } else closeBankHoods s1

/-- A capture asks for the hood of a bank (R83). -/
def requestHood (seq : Nat) (s : State) (bk : Bank) : State :=
  modifyBank s bk fun r =>
    { r with
      hoodRequest := some seq
      hood :=
        match r.state with
        | .ready => openHood (now s) r.hood
        | .recovering => openHood (now s) r.hood
        | .topping => openHood (now s) r.hood
        | _ => r.hood }

/-- The later of two times, either of which may be absent. -/
def later : Option Nat → Option Nat → Option Nat
  | none, y => y
  | x, none => x
  | some x, some y => some (max x y)

/-- The latest firing made or granted of any bank but `bk` (R74). -/
def latestOther (s : State) (bk : Bank) : Option Nat :=
  (allBanks.filter fun x => decide (x ≠ bk)).foldl (fun t x => later t (getBank s x).latest) none

/-- The time the flash spacing grants: the later of the requested time and 1,500 µs after the latest
firing of another bank (R74). -/
def grantTime (s : State) (bk : Bank) (requested : Nat) : Nat :=
  match latestOther s bk with
  | none => requested
  | some t => max requested (t + spacing)

/-- A firing is asked for: its granted time is entered in the firing schedule (R74). -/
def askFiring (s : State) (bk : Bank) (requested level duration : Nat) (capture : Option Nat) : State :=
  let t := grantTime s bk requested
  let s1 := modifyBank s bk fun r => { r with latest := later r.latest (some t) }
  { s1 with lamps.grants := s.lamps.grants ++ [⟨bk, t, level, duration, capture⟩] }

/-- The firing granted to a bank and not yet made. -/
def grantOf (s : State) (bk : Bank) : Option Grant := s.lamps.grants.find? fun g => decide (g.bank = bk)

/-- The grant of a bank is taken out of the schedule; its time stays as the bank's latest (R74). -/
def removeGrant (s : State) (bk : Bank) : State :=
  { s with lamps.grants := s.lamps.grants.filter fun g => decide (g.bank ≠ bk) }

/-- A conditioning flash of a bank is granted and not yet made. -/
def conditioningGranted (s : State) (bk : Bank) : Bool :=
  match grantOf s bk with
  | some g => g.capture.isNone
  | none => false

/-- A conditioning flash of a bank falls due: hood CLOSED and recharge time passed (R73). -/
def conditioningDue (s : State) (bk : Bank) : Bool :=
  let r := getBank s bk
  decide (r.state = .conditioning) && decide (r.count < 2) && !conditioningGranted s bk
    && decide (r.hood.state = .closed) && recharged s bk

/-- The wait after the second conditioning flash is over (R73). -/
def conditioningDone (s : State) (bk : Bank) : Bool :=
  let r := getBank s bk
  decide (r.state = .conditioning) && decide (r.count = 2) && recharged s bk

/-- A firing of capture `seq` is granted and not yet made. -/
def captureGranted (s : State) (seq : Nat) : Bool :=
  s.lamps.grants.any fun g => decide (g.capture = some seq)

/-- A flash of capture `seq` is lit. -/
def captureFlashing (s : State) (seq : Nat) : Bool :=
  allBanks.any fun bk =>
    match (getBank s bk).flash with
    | none => false
    | some f => decide (f.capture = some seq)

/-- The two aim lamps' hoods and levels when the lit condition becomes met or ceases to be met (R86). -/
def relight (t : Nat) (met : Bool) (a : Aim) : Aim :=
  if met then (if a.lit then a else { a with lit := true, hood := openHood t a.hood })
  else if a.lit then { a with lit := false, applied := 0, hood := closeHood t a.hood } else a

/-- The lit condition is judged afresh (R86). -/
def judgeLit (s : State) : State :=
  let met := litCondition s
  { s with lamps.aims := ⟨relight (now s) met s.lamps.aims.l, relight (now s) met s.lamps.aims.r⟩ }

/-- READY_LAMP's condition is judged afresh and driven (R157). -/
def judgeReady (s : State) : State :=
  let met := readyCondition s
  driveFn { s with lines.ready := met } .readyLamp met

end Sys2Proof.Machine
end

