-- ==== Sys2Proof/Machine/DoseOps.lean ====
section
/-! DEFINITION. The dose meter's operations: illuminance and dose (R94 to R96), the precheck (R97, R98),
crediting (R99 to R101) and the aim tick (R103 to R107). -/
namespace Sys2Proof.Machine

/-- `ceil(x / y)`. -/
def ceilDiv (x y : Nat) : Nat := (x + (y - 1)) / y

/-- Point `j` of a calibration record. -/
def calPoint (c : Cal) (j : Nat) : Nat := c.points.getD j 0

/-- The illuminance of a source at a level (R94). -/
def illuminance (c : Cal) (level : Nat) : Nat :=
  if level = 1000 then calPoint c 10
  else
    let j := level / 100
    calPoint c j + (calPoint c (j + 1) - calPoint c j) * (level - 100 * j) / 100

/-- A source is calibrated unless all its points are 0 (R91). -/
def calibrated (c : Cal) : Bool := c.points.any fun p => decide (p ≠ 0)

/-- The own dose of a flash (R95). -/
def ownDose (lux duration : Nat) : Nat := ceilDiv (lux * duration) 1000

/-- The spill of an own amount by a spill factor (R95, R103). -/
def spillDose (own spill : Nat) : Nat := ceilDiv (own * spill) 256

/-- The leaf on the page of a side at opening `k` (R96). -/
def pageLeaf (k : Nat) : Side → Nat
  | .left => k
  | .right => k + 1

/-- The prediction entry of a bank (R97). -/
def makeEntry (s : State) (k : Nat) (levels : Quad Nat) (duration : Nat) (bk : Bank) : Entry :=
  let c := s.dose.banks.get bk
  let lux := illuminance c (levels.get bk)
  let own := ownDose lux duration
  { bank := bk, level := levels.get bk, duration := duration, lux := lux
    ownLeaf := pageLeaf k bk.side, ownAmount := own
    spillLeaf := pageLeaf k bk.side.other, spillAmount := spillDose own c.spill
    credited := false }

/-- What entries credit to a leaf, own or spill (R97). -/
def entriesFor (es : List Entry) (leaf : Nat) : Nat :=
  (es.map fun e =>
    (if e.ownLeaf = leaf then e.ownAmount else 0) + (if e.spillLeaf = leaf then e.spillAmount else 0)).sum

/-- What entries credit in all. -/
def entriesTotal (es : List Entry) : Nat := (es.map fun e => e.ownAmount + e.spillAmount).sum

/-- The entries that are still PENDING (R99). -/
def pendingEntries (s : State) : List Entry :=
  match s.dose.prediction with
  | none => []
  | some p => p.entries.filter fun e => !e.credited

/-- The outstanding prediction of a leaf (R99). -/
def outstanding (s : State) (leaf : Nat) : Nat := entriesFor (pendingEntries s) leaf

/-- The outstanding total (R99). -/
def outstandingTotal (s : State) : Nat := entriesTotal (pendingEntries s)

/-- The first uncalibrated bank of a list (R98). -/
def firstUncalibrated (s : State) (bs : List Bank) : Option Bank :=
  bs.find? fun bk => !calibrated (s.dose.banks.get bk)

/-- The flash precheck: the prediction of a capture that passes, or the figures of the first test that
fails (R97, R98). -/
def precheck (s : State) (seq k : Nat) (x : Sides) (levels : Quad Nat) (duration : Nat) :
    Except Figures Prediction :=
  let bs := neededBanks x levels
  let es := bs.map (makeEntry s k levels duration)
  let left := entriesFor es k
  let right := entriesFor es (k + 1)
  let doseL := (getLeaf s k).dose
  let doseR := (getLeaf s (k + 1)).dose
  match firstUncalibrated s bs with
  | some bk => .error (.uncalibrated bk)
  | none =>
    if s.volume.leafCeiling < doseL + left then .error (.leftLeaf doseL left s.volume.leafCeiling)
    else if s.volume.leafCeiling < doseR + right then .error (.rightLeaf doseR right s.volume.leafCeiling)
    else if s.volume.volumeCeiling < s.volume.totalDose + (left + right) then
      .error (.volume s.volume.totalDose (left + right) s.volume.volumeCeiling)
    else .ok ⟨seq, k, es⟩

/-- Light is credited to a leaf and to the volume total (R100, R106). -/
def creditLeaf (s : State) (leaf amount : Nat) : State :=
  { modifyLeaf s leaf fun l => { l with dose := l.dose + amount } with
    volume.totalDose := s.volume.totalDose + amount }

/-- The entry of a bank becomes CREDITED. -/
def markCredited (bk : Bank) (es : List Entry) : List Entry :=
  es.map fun e => if e.bank = bk then { e with credited := true } else e

/-- A firing made is credited from the bank's PENDING entry: both leaves, the total, the capture credit
(R100). -/
def creditFiring (s : State) (bk : Bank) : State :=
  match s.dose.prediction with
  | none => s
  | some p =>
    match p.entries.find? fun e => decide (e.bank = bk) && !e.credited with
    | none => s
    | some e =>
      let s1 := creditLeaf (creditLeaf s e.ownLeaf e.ownAmount) e.spillLeaf e.spillAmount
      { s1 with
        dose.prediction := some { p with entries := markCredited bk p.entries }
        dose.credit :=
          ⟨s.dose.credit.l + entriesFor [e] p.k, s.dose.credit.r + entriesFor [e] (p.k + 1)⟩ }

/-- The prediction record is removed with its capture; the capture credit exists with it alone (R90, R99). -/
def removePrediction (s : State) : State := { s with dose.prediction := none, dose.credit := ⟨0, 0⟩ }

/-! ### The aim tick -/

/-- The own credit of an aim lamp for one tick at a level (R103). -/
def aimOwn (s : State) (sd : Side) (level : Nat) : Nat :=
  if level = 0 then 0 else illuminance (s.dose.aims.get sd) level * 10

/-- The spill credit of an aim lamp for one tick at a level (R103). -/
def aimSpill (s : State) (sd : Side) (level : Nat) : Nat :=
  spillDose (aimOwn s sd level) (s.dose.aims.get sd).spill

/-- What lamp `lamp` at its candidate level credits to the leaf of page `page` (R103). -/
def aimCredit (s : State) (v : Pair Nat) (lamp page : Side) : Nat :=
  if lamp = page then aimOwn s lamp (v.get lamp) else aimSpill s lamp (v.get lamp)

/-- What both lamps credit to the leaf of a page: c(leaf) (R104). -/
def pageCredit (s : State) (v : Pair Nat) (page : Side) : Nat :=
  aimCredit s v .left page + aimCredit s v .right page

/-- c_total (R104). -/
def tickCredit (s : State) (v : Pair Nat) : Nat := pageCredit s v .left + pageCredit s v .right

/-- The dose and outstanding prediction of the leaf of a page. -/
def pageUsed (s : State) (page : Side) : Nat :=
  let i := pageLeaf s.volume.k page
  (getLeaf s i).dose + outstanding s i

/-- The leaf constraint of a page fails: it receives credit that would leave less than G (R104). -/
def pageFails (s : State) (v : Pair Nat) (page : Side) : Bool :=
  let c := pageCredit s v page
  decide (0 < c) && decide (s.volume.leafCeiling < pageUsed s page + c + s.volume.reserve)

/-- The volume constraint fails (R104). -/
def volumeFails (s : State) (v : Pair Nat) : Bool :=
  let c := tickCredit s v
  decide (0 < c) && decide (s.volume.volumeCeiling < s.volume.totalDose + outstandingTotal s + c)

/-- The candidate levels fit (R104). -/
def aimFits (s : State) (v : Pair Nat) : Bool :=
  !pageFails s v .left && !pageFails s v .right && !volumeFails s v

/-- A lamp contributes to the leaf constraint of a page (R104). -/
def contributes (s : State) (v : Pair Nat) (lamp page : Side) : Bool := decide (0 < aimCredit s v lamp page)

/-- A lamp contributes to the volume constraint (R104). -/
def contributesAny (s : State) (v : Pair Nat) (lamp : Side) : Bool :=
  contributes s v lamp .left || contributes s v lamp .right

/-- The first failing constraint to which a lamp contributes, in the order leaf k, leaf k+1, VOLUME
(R107). -/
def blamed (s : State) (v : Pair Nat) (lamp : Side) : Option Constraint :=
  if pageFails s v .left && contributes s v lamp .left then some (.leaf s.volume.k)
  else if pageFails s v .right && contributes s v lamp .right then some (.leaf (s.volume.k + 1))
  else if volumeFails s v && contributesAny s v lamp then some .volume
  else none

/-- Pass 2: the guard (R105). -/
def passGuard (s : State) (v : Pair Nat) (lamp : Side) : Nat :=
  if (blamed s v lamp).isSome then
    min (s.lamps.aims.get lamp).requested (s.lamps.aims.get lamp).guard
  else v.get lamp

/-- Pass 3: the lamp that lights the leaf at risk, and every lamp for the volume (R105). -/
def passOwn (s : State) (v : Pair Nat) (lamp : Side) : Nat :=
  if (pageFails s v lamp && contributes s v lamp lamp) || (volumeFails s v && contributesAny s v lamp) then 0
  else v.get lamp

/-- Pass 4: a lamp whose light reaches the leaf at risk as spill (R105). -/
def passSpill (s : State) (v : Pair Nat) (lamp : Side) : Nat :=
  if allSides.any fun page => pageFails s v page && contributes s v lamp page then 0 else v.get lamp

/-- The candidates after a pass, and for each lamp the constraint that last lowered it (R107). -/
def aimPass (s : State) (pass : State → Pair Nat → Side → Nat)
    (x : Pair Nat × Pair (Option Constraint)) : Pair Nat × Pair (Option Constraint) :=
  let v := x.1
  let w : Pair Nat := ⟨pass s v .left, pass s v .right⟩
  (w,
    ⟨if w.l < v.l then blamed s v .left else x.2.l, if w.r < v.r then blamed s v .right else x.2.r⟩)

/-- The applied levels: up to four passes, stopping at the first after which the candidates fit (R105). -/
def chooseLevels (s : State) (v : Pair Nat) : Pair Nat × Pair (Option Constraint) :=
  let x1 : Pair Nat × Pair (Option Constraint) := (v, ⟨none, none⟩)
  if aimFits s x1.1 then x1
  else
    let x2 := aimPass s passGuard x1
    if aimFits s x2.1 then x2
    else
      let x3 := aimPass s passOwn x2
      if aimFits s x3.1 then x3 else aimPass s passSpill x3

/-- An aim lamp is evaluated at a tick: lit condition met and hood OPEN (R86, R103). -/
def evaluated (s : State) (sd : Side) : Bool :=
  let a := s.lamps.aims.get sd
  a.lit && decide (a.hood.state = .opened)

/-- The aim guard outcome of an applied level (R107). -/
def classify (requested applied : Nat) : AimOutcome :=
  if applied = requested then .requested else if applied = 0 then .dark else .guard

/-- The remaining of a constraint's leaf, or the volume's room (R107). -/
def constraintRoom (s : State) : Constraint → Nat
  | .leaf i => s.volume.leafCeiling - (getLeaf s i).dose - outstanding s i
  | .volume => s.volume.volumeCeiling - s.volume.totalDose - outstandingTotal s

/-- One lamp's aim guard outcome, limit note and AIM_GUARD report; `t0` is the state at the tick start
(R107, log 20). -/
def guardLamp (t0 : State) (applied : Pair Nat) (notes : Pair (Option Constraint)) (s : State) (sd : Side) :
    State :=
  if evaluated t0 sd then
    let a := t0.lamps.aims.get sd
    let left := t0.dose.outcome.get sd
    let entered := classify a.requested (applied.get sd)
    let s1 :=
      match notes.get sd with
      | none => s
      | some c => { s with dose.note := s.dose.note.set sd (some c) }
    if entered = left then s1
    else
      offerMinor { s1 with dose.outcome := s1.dose.outcome.set sd entered }
        (.aimGuard sd left entered a.requested a.guard (applied.get sd) t0.volume.k
          (if entered = .requested then none else (notes.get sd).map fun c => (c, constraintRoom t0 c))
          (now t0))
  else s

/-- A 10 ms tick start: the applied levels are chosen, the whole tick is credited, and changed outcomes
are reported, AIM_L's before AIM_R's (R103 to R107; log 42). -/
def aimTickStart (s : State) : State :=
  let ask (sd : Side) : Nat := if evaluated s sd then (s.lamps.aims.get sd).requested else 0
  let x := chooseLevels s ⟨ask .left, ask .right⟩
  let s1 : State :=
    { s with
      lamps.aims := ⟨{ s.lamps.aims.l with applied := x.1.l }, { s.lamps.aims.r with applied := x.1.r }⟩
      dose.tickLevel := x.1 }
  let s2 := creditLeaf (creditLeaf s1 s.volume.k (pageCredit s x.1 .left)) (s.volume.k + 1)
    (pageCredit s x.1 .right)
  allSides.foldl (guardLamp s x.1 x.2) s2

end Sys2Proof.Machine
end

