-- ==== Sys2Proof/Machine/MotionOps.lean ====
section
/-! DEFINITION. The motion controller's operations outside the turn cycle: the platen (R43 to R48), the plates
(R49, R50) and the hold (R59, R60). -/
namespace Sys2Proof.Machine

/-! ### The platen -/

/-- A raise: it ends a lowering, stops the dwell timer, carries out a deferred raise, and enters RAISING, or
RAISED at once with PLATEN_TOP active (R47, R48). `safe` marks the raise of the safe state (R63). -/
def startRaise (s : State) (safe : Bool) : State :=
  let top := fnActive s .platenTop
  { s with
    motion.platen := if top then .raised else .raising
    motion.platenDeadline := if top then none else some (now s + raiseTime)
    motion.raisePending := false
    motion.safeRaise := safe && !top
    motion.dwell := none
    motion.dwellDeferred := false }

/-- A lowering: LOWERING, or PRESSING at once with PLATEN_CONTACT active (R45). -/
def startLowering (s : State) : State :=
  if fnActive s .platenContact then
    { s with motion.platen := .pressing, motion.platenDeadline := some (now s + pressingTime) }
  else { s with motion.platen := .lowering, motion.platenDeadline := some (now s + loweringTime) }

/-- The platen follows PLATEN_TOP in RAISING and PLATEN_CONTACT in LOWERING (R43, R45, R47). -/
def followPlaten (s : State) : State :=
  match s.motion.platen with
  | .raising =>
    if fnActive s .platenTop then
      { s with motion.platen := .raised, motion.platenDeadline := none, motion.safeRaise := false }
    else s
  | .lowering =>
    if fnActive s .platenContact then
      { s with motion.platen := .pressing, motion.platenDeadline := some (now s + pressingTime) }
    else s
  | .raised => s
  | .pressing => s
  | .down => s
  | .stopped => s

/-- The platen comes to rest between positions. -/
def stopPlaten (s : State) : State :=
  { s with motion.platen := .stopped, motion.platenDeadline := none, motion.safeRaise := false }

/-- Entry to DOWN: the dwell timer starts at the dwell maximum in force (R45, R48). -/
def enterDown (s : State) : State :=
  { s with
    motion.platen := .down
    motion.platenDeadline := none
    motion.dwell := some ⟨now s + sec s.motion.profile.dwellMax, s.motion.profile.dwellMax⟩ }

/-- A dwell raise that waited for the capture which has now ended (R48). -/
def carryOutDwell (s : State) : State :=
  if s.motion.dwellDeferred then
    if held s then { s with motion.dwellDeferred := false, motion.raisePending := true }
    else startRaise s false
  else s

/-! ### The plates -/

/-- One plate's target and its PLATE_LIMIT flag: `clamp(B - d, 0, 60,000)` for the product `d` (R49). -/
def plateTarget (base d : Nat) : Nat × Bool := (clamp (base - d) 0 60000, decide (base < d))

/-- The plate targets of opening `k` (R49). -/
def plateTargets (s : State) (k : Nat) : Pair Nat :=
  ⟨(plateTarget s.motion.profile.plateBase (k * s.volume.thickness)).1,
   (plateTarget s.motion.profile.plateBase ((s.volume.leafCount - k) * s.volume.thickness)).1⟩

/-- The PLATE_LIMIT flags of opening `k` (R49). -/
def plateLimits (s : State) (k : Nat) : Pair Bool :=
  ⟨(plateTarget s.motion.profile.plateBase (k * s.volume.thickness)).2,
   (plateTarget s.motion.profile.plateBase ((s.volume.leafCount - k) * s.volume.thickness)).2⟩

/-- A plate adjustment to the targets of opening `k` starts; it replaces one in progress and clears the
plates-pending flag (R11, R50). -/
def startAdjust (s : State) (k : Nat) : State :=
  { s with
    motion.plateTargets := plateTargets s k
    motion.plateLimits := plateLimits s k
    motion.plateState := .moving
    motion.plateDeadline := some (now s + plateTime)
    volume.platesPending := false }

/-- The plate positions: the targets once SETTLED, and what the drive ports report otherwise (R67; log 5). -/
def platePositions (s : State) : Pair Nat :=
  if s.motion.plateState = .settled then s.motion.platePositions
  else ⟨(Config.platePort .left (now s)).val, (Config.platePort .right (now s)).val⟩

/-- The arm position: the one arm function that is active, BETWEEN for none or more than one (R67). -/
def armPosition (s : State) : ArmPosition :=
  match fnActive s .armHome, fnActive s .armLeft, fnActive s .armRight with
  | true, false, false => .home
  | false, true, false => .left
  | false, false, true => .right
  | _, _, _ => .between

/-! ### Turns, as far as a hold touches them -/

/-- The state with the turn record changed. -/
def modifyTurn (s : State) (f : Turn → Turn) : State :=
  { s with motion.turn := s.motion.turn.map f }

/-- A turn in flight is in the given stage. -/
def turnStage (s : State) (g : Stage) : Bool :=
  match s.motion.turn with
  | none => false
  | some t => decide (t.stage = g)

/-- A hold comes into force (R59). -/
def holdMotion (s : State) : State :=
  let s1 := modifyTurn s fun t => { t with held := true, deadline := none }
  let s2 : State := { s1 with motion.air := false, motion.plateDeadline := none }
  match s.motion.platen with
  | .lowering => stopPlaten s2
  | .pressing => stopPlaten s2
  | .raising =>
    if s.motion.safeRaise then s2
    else { stopPlaten s2 with motion.raisePending := true }
  | .raised => s2
  | .down => s2
  | .stopped => s2

/-- A hold is released: a standalone adjustment resumes, and a pending raise starts (R60). -/
def releaseMotion (s : State) : State :=
  let s1 : State :=
    if adjusting s && !turnStage s .adjust then { s with motion.plateDeadline := some (now s + plateTime) }
    else s
  if s1.motion.raisePending then startRaise s1 false else s1

end Sys2Proof.Machine
end

