-- ==== Sys2Proof/Machine/PowerOps.lean ====
section
/-! DEFINITION. Wake and entry to IDLE (R143, R144). -/
namespace Sys2Proof.Machine

/-- Whole milliseconds between two clock values (log 18). -/
def elapsedMs (since t : Nat) : Nat := (t - since) / 1000

/-- A wake: the power state, the WAKE report, and the blocks that act on it, in the order of R144.
The BANK_STATE reports of several banks come A to D (log 17). -/
def wake (s : State) (cause : WakeCause) : State :=
  let s1 := restartIdle { s with time.idle := false, time.idleSince := none }
  let s2 := offerMinor s1 (.wake cause (now s) (elapsedMs (s.time.idleSince.getD (now s)) (now s)))
  judgeReady (judgeLit (forBanks wakeBank s2))

/-- A waking event wakes the part if it is IDLE (R144). -/
def wakeIfIdle (s : State) (cause : WakeCause) : State := if s.time.idle then wake s cause else s

/-- Entry to IDLE (R143): the report first, then the banks (R78), the hoods (R84) and the lamps (R86).
The BANK_STATE reports of several banks come A to D (log 17). -/
def enterIdle (s : State) : State :=
  let s1 : State := { s with time.idle := true, time.idleSince := some (now s), time.idleStart := none }
  let s2 := offerMinor s1 (.idle (now s) s.time.idleSetting)
  let s3 := closeBankHoods (clearHoodRequests (forBanks idleBank s2))
  judgeReady (judgeLit s3)

end Sys2Proof.Machine
end

