-- ==== Sys2Proof/Machine/SequencerOps.lean ====
section
/-! DEFINITION. The capture sequencer's operations: the head of the queue (R113 to R115), arming and its
test (R116 to R118), triggering (R119), confirmation (R122, R24), the end of a capture (R123) and the hold
(R126); and the settling that every event ends with. -/
namespace Sys2Proof.Machine

/-! ### Sides -/

/-- A side of a new capture (R116). -/
def freshSide (s : State) (sd : Side) : SideRec :=
  { stage := .arming, camera := s.seq.cameras.get sd, syncTime := none, asks := [], storedNoted := false
    storedDeadline := none, take := none }

/-- Every requested side of a capture changed. -/
def mapSides (f : SideRec → SideRec) (c : Capture) : Capture :=
  { c with sides := ⟨c.sides.l.map f, c.sides.r.map f⟩ }

/-- The state with one requested side of the capture in flight changed. -/
def modifySide (s : State) (sd : Side) (f : SideRec → SideRec) : State :=
  { s with
    seq.capture := s.seq.capture.map fun c => { c with sides := c.sides.set sd ((c.sides.get sd).map f) } }

/-- The record of a requested side of the capture in flight. -/
def getSide (s : State) (sd : Side) : Option SideRec :=
  match s.seq.capture with
  | none => none
  | some c => c.sides.get sd

/-- A side has an outcome. -/
def sideEnded (x : SideRec) : Bool :=
  match x.stage with
  | .ended _ => true
  | _ => false

/-- A side in ARMING ends with an outcome (R117, R118, R126, R127). -/
def endArming (o : SideOutcome) (x : SideRec) : SideRec :=
  match x.stage with
  | .arming => { x with stage := .ended o }
  | _ => x

/-- A side in ARMING or WAITING ends with an outcome (R126, R127). -/
def endUnsynced (o : SideOutcome) (x : SideRec) : SideRec :=
  match x.stage with
  | .arming => { x with stage := .ended o }
  | .waiting => { x with stage := .ended o }
  | _ => x

/-- Every requested side of a capture has an outcome. -/
def allEnded (c : Capture) : Bool := c.sides.l.all sideEnded && c.sides.r.all sideEnded

/-- A side of the capture is WAITING. -/
def anyWaiting (c : Capture) : Bool :=
  (c.sides.l.any fun x => decide (x.stage = .waiting)) || (c.sides.r.any fun x => decide (x.stage = .waiting))

/-- A capture ends in ARMING, or at its test, with one outcome for every requested side. -/
def endCaptureArming (o : SideOutcome) (c : Capture) : Capture :=
  { mapSides (endArming o) c with deadline := none }

/-! ### The head of the queue -/

/-- How far the timebase is past a not-before time, modulo 2^48 (R113). -/
def pastTime (s : State) (t : Nat) : Nat :=
  (count s + (timebaseModulus - t % timebaseModulus)) % timebaseModulus

/-- The order's not-before time has come (R113). -/
def hasCome (s : State) (o : Order) : Bool :=
  match o.notBefore with
  | none => true
  | some t => decide (pastTime s t < 2 ^ 47)

/-- An order that comes to go is more than the late limit past its not-before time (R115). -/
def isLate (s : State) (o : Order) : Bool :=
  match o.notBefore with
  | none => false
  | some t => decide (s.seq.lateLimit < pastTime s t)

/-- The head order may come to go (R114). -/
def headMayGo (s : State) (o : Order) : Bool :=
  !captureInFlight s && !turnInFlight s && !held s && hasCome s o

/-- The head order is discarded as late (R115). -/
def discardLate (s : State) (o : Order) (rest : List Order) : State :=
  enterReserved
    { s with seq.orders := rest, seq.lateCount := satSucc 65535 s.seq.lateCount }
    (.late o (now s) (pastTime s (o.notBefore.getD 0)))

/-! ### Arming -/

/-- Entry to ARMING (R116): the wake from IDLE, the number, the recipe, the hoods and the timeout. -/
def enterArming (s : State) (o : Order) : State :=
  let s0 := wakeIfIdle s (.arming o.tag)
  let r := getRecipe s0 o.recipe
  let side (sd : Side) : Option SideRec := if wants o.sides sd then some (freshSide s0 sd) else none
  let c : Capture :=
    { seq := s0.volume.captureSeq + 1, order := o, levels := r.levels, duration := r.duration
      armedAt := now s0, deadline := some (now s0 + armingTime), opening := none, t0 := none
      sides := ⟨side .left, side .right⟩, unmet := none, figures := none }
  let s1 := restartIdle
    { s0 with
      volume.captureSeq := c.seq
      volume.capturesIssued := s0.volume.capturesIssued + 1 }
  if darkSide o.sides r.levels then { s1 with seq.capture := some (endCaptureArming .recipeDark c) }
  else (neededBanks o.sides r.levels).foldl (requestHood c.seq) { s1 with seq.capture := some c }

/-- The needed banks of a capture (R116). -/
def captureBanks (c : Capture) : List Bank := neededBanks c.order.sides c.levels

/-- A needed bank of the capture fails a test. -/
def bankUnmet (s : State) (c : Capture) (test : BankRec → Bool) (bk : Bank) : Bool :=
  (captureBanks c).contains bk && !test (getBank s bk)

/-- What an ARMING capture still waits for (R117): opening, platen, banks not READY, hoods not OPEN. -/
def unmetOf (s : State) (c : Capture) : Unmet :=
  let notReady := bankUnmet s c fun r => decide (r.state = .ready)
  let notOpen := bankUnmet s c fun r => decide (r.hood.state = .opened)
  { opening := !s.volume.known, platen := !decide (s.motion.platen = .down)
    banks := ⟨notReady .a, notReady .b, notReady .c, notReady .d⟩
    hoods := ⟨notOpen .a, notOpen .b, notOpen .c, notOpen .d⟩ }

/-- The four arming conditions all hold (R117). -/
def armingMet (s : State) (c : Capture) : Bool :=
  let u := unmetOf s c
  !u.opening && !u.platen && !u.banks.toList.any id && !u.hoods.toList.any id

/-- A side at T0: its profile fixed, WAITING (R119). -/
def triggerSide (s : State) (sd : Side) (x : SideRec) : SideRec :=
  { x with stage := .waiting, camera := s.seq.cameras.get sd }

/-- The trigger function of a side (R119). -/
def triggerFn : Side → Fn
  | .left => .camLTrigger
  | .right => .camRTrigger

/-- The trigger pulse of a requested side starts (R119). Where a pulse of an earlier capture still runs on that side, the
end of the new pulse replaces the running one's (log 43). -/
def startPulse (c : Capture) (s : State) (sd : Side) : State :=
  if wants c.order.sides sd then
    driveFn { s with seq.pulses := s.seq.pulses.set sd (some (now s + (s.seq.cameras.get sd).pulse)) }
      (triggerFn sd) true
  else s

/-- Entry to TRIGGERED (R119): profiles, pulses, lighting interval; the idle timer restarts (R129). The interval of this
capture takes the place of an earlier one whose last flash is still lit (log 41). -/
def enterTriggered (s : State) (c : Capture) (p : Prediction) : State :=
  let c1 : Capture :=
    { c with
      deadline := none
      t0 := some (now s)
      sides := ⟨c.sides.l.map (triggerSide s .left), c.sides.r.map (triggerSide s .right)⟩ }
  let s1 : State :=
    { s with
      seq.capture := some c1
      dose.prediction := some p
      dose.credit := ⟨0, 0⟩
      lamps.interval := some c.seq }
  restartIdle (allSides.foldl (startPulse c1) s1)

/-- The arming test: equipment, then the precheck (R118). -/
def armTest (s : State) (c : Capture) : State :=
  let c1 : Capture := { c with opening := some (s.volume.k, s.volume.known), deadline := none }
  if !camerasEquipped s c.order.sides then
    { s with seq.capture := some (endCaptureArming .notEquipped c1) }
  else
    match precheck s c.seq s.volume.k c.order.sides c.levels c.duration with
    | .ok p => enterTriggered s c1 p
    | .error (.uncalibrated bk) =>
      { s with
        seq.capture := some { endCaptureArming .notCalibrated c1 with figures := some (.uncalibrated bk) } }
    | .error f =>
      { s with seq.capture := some { endCaptureArming .doseCeiling c1 with figures := some f } }

/-! ### Confirmation and end -/

/-- The leaf and the face (verso or not) of a side at opening `k` (R24). -/
def sidePage (k : Nat) : Side → Nat × Bool
  | .left => (k, true)
  | .right => (k + 1, false)

/-- A face given a take of capture `c` (R24). -/
def takeFace (c : Nat) (f : Face) : Face :=
  { state := if f.state = .external then .external else .shot, takes := f.takes + 1, lastSeq := some c }

/-- A leaf whose face is given a take (R24). -/
def takeLeaf (c : Nat) (verso : Bool) (l : Leaf) : Leaf :=
  if verso then { l with verso := takeFace c l.verso } else { l with recto := takeFace c l.recto }

/-- The face of a leaf. -/
def leafFace (l : Leaf) (verso : Bool) : Face := if verso then l.verso else l.recto

/-- The confirmation of a side: the take, the label, the counter, the outcome (R24, R122). -/
def confirmSide (s : State) (c : Capture) (sd : Side) : State :=
  let k := (c.opening.getD (s.volume.k, false)).1
  let page := sidePage k sd
  let s1 := modifyLeaf s page.1 (takeLeaf c.seq page.2)
  let t : Take :=
    { leaf := page.1, verso := page.2, label := faceLabel s.plan s.volume.leafCount page.1 page.2
      number := (leafFace (getLeaf s1 page.1) page.2).takes }
  modifySide { s1 with volume.facesConfirmed := s.volume.facesConfirmed + 1 } sd fun x =>
    { x with stage := .ended .confirmed, storedDeadline := none, take := some t }

/-- The outcome of an ended side. -/
def outcomeOf (x : SideRec) : Option SideOutcome :=
  match x.stage with
  | .ended o => some o
  | _ => none

/-- The outcomes of the requested sides, left first. -/
def outcomes (c : Capture) : List SideOutcome :=
  c.sides.toList.filterMap fun x => x.bind outcomeOf

/-- The overall result: the shared outcome, or MIXED (R124). -/
def overallOf (os : List SideOutcome) : Overall :=
  match os with
  | [] => .mixed
  | o :: rest => if rest.all fun x => decide (x = o) then .shared o else .mixed

/-- A side's part of the CAPTURE record (R125). -/
def sideReport (c : Capture) (sd : Side) (x : SideRec) : SideReport :=
  { side := sd, outcome := (outcomeOf x).getD .notReady, syncTime := x.syncTime, asks := x.asks
    page := c.opening.map fun o => sidePage o.1 sd
    take := x.take.map fun t => (t.number, t.label) }

/-- The CAPTURE record of a capture that ends (R125). -/
def captureReport (s : State) (c : Capture) : CaptureReport :=
  { seq := some c.seq, order := c.order, recipe := some (c.levels, c.duration)
    overall := overallOf (outcomes c), opening := c.opening, armedAt := some c.armedAt, t0 := c.t0
    ended := some (now s), unmet := c.unmet, figures := c.figures, credit := s.dose.credit
    sides := (c.sides.l.map (sideReport c .left)).toList ++ (c.sides.r.map (sideReport c .right)).toList }

/-- The CAPTURE record of an order the safe state flushes (R125, R127). The order never became a capture, so the times of
ARMING, T0 and end are not reached and absent. -/
def flushedReport (o : Order) : CaptureReport :=
  let side (sd : Side) : SideReport :=
    { side := sd, outcome := .abortedSafe, syncTime := none, asks := [], page := none, take := none }
  { seq := none, order := o, recipe := none, overall := .shared .abortedSafe, opening := none
    armedAt := none, t0 := none, ended := none, unmet := none, figures := none, credit := ⟨0, 0⟩
    sides := (allSides.filter (wants o.sides)).map side }

/-- A capture withdraws its hood request of a bank (R83). -/
def withdrawHood (seq : Nat) (s : State) (bk : Bank) : State :=
  modifyBank s bk fun r => if r.hoodRequest = some seq then { r with hoodRequest := none } else r

/-- A capture can end: every requested side has an outcome and no firing of it is granted (R123). -/
def captureDone (s : State) (c : Capture) : Bool := allEnded c && !captureGranted s c.seq

/-- The end of a capture (R123): credit, counter, record, hood requests, removal; then the dwell raise it
deferred (R48). It restarts the idle timer (R129), where a hold or the safe state has ended the capture too (DESIGN CHOICE,
log 51). -/
def endCapture (s : State) (c : Capture) : State :=
  let report := captureReport s c
  let s1 := removePrediction s
  let failed := ((outcomes c).filter fun o => decide (o ≠ .confirmed)).length
  let s2 := enterReserved { s1 with volume.sidesFailed := s1.volume.sidesFailed + failed } (.capture report)
  let s3 := (captureBanks c).foldl (withdrawHood c.seq) s2
  carryOutDwell (restartIdle { s3 with seq.capture := none })

/-! ### Settling -/

/-- One step of the sequencer that its conditions allow now: the end of the capture in flight (R123), its
arming test (R117, R118), the discard of a late head order (R115), or its entry to ARMING (R114). -/
def advanceOnce (s : State) : Option State :=
  match s.seq.capture with
  | some c =>
    if captureDone s c then some (endCapture s c)
    else if c.t0.isNone && armingMet s c then some (armTest s c)
    else none
  | none =>
    match s.seq.orders with
    | [] => none
    | o :: rest =>
      if headMayGo s o then
        if isLate s o then some (discardLate s o rest)
        else some (enterArming { s with seq.orders := rest } o)
      else none

/-- The sequencer's steps until none is allowed. -/
def advance : Nat → State → State
  | 0, s => s
  | n + 1, s =>
    match advanceOnce s with
    | none => s
    | some s1 => advance n s1

/-- A waiting order takes at most three steps (arming, test, end), the capture in flight two. -/
def advanceFuel (s : State) : Nat := 3 * s.seq.orders.length + 3

/-- The lighting interval of capture `c` is over (R76). -/
def intervalOver (s : State) (c : Nat) : Bool :=
  !captureGranted s c && !captureFlashing s c
    && !(s.seq.capture.any fun x => decide (x.seq = c) && anyWaiting x)

/-- The end of the lighting interval releases deferred hood closes and top-ups (R76, R77, R84). Where a capture has
replaced the interval of the one before, they wait for the new interval's end (log 41). A hood request that a later capture
entered before a deferred close stands after it, and the hood reopens only at its bank's next entry to READY (R83; DESIGN
CHOICE, log 53). -/
def endInterval (s : State) : State :=
  match s.lamps.interval with
  | none => s
  | some c =>
    if intervalOver s c then
      let s1 : State := { s with lamps.interval := none, lamps.closePending := false }
      let s2 := if s.lamps.closePending then closeBankHoods s1 else s1
      forBanks topUp s2
    else s

/-- What every event ends with: the sequencer goes on as far as its conditions allow, the lighting interval
ends if it is over, and the aim lamps and READY_LAMP are judged afresh (R76, R86, R114, R117, R157). -/
def settle (s : State) : State := judgeReady (judgeLit (endInterval (advance (advanceFuel s) s)))

/-! ### Hold -/

/-- A hold comes into force for the capture in flight (R126). -/
def holdCapture (s : State) : State :=
  { s with
    seq.capture := s.seq.capture.map fun c =>
      { mapSides (endUnsynced .abortedHold) c with deadline := none } }

end Sys2Proof.Machine
end

