-- ==== Sys2Proof/Machine/SafeOps.lean ====
section
/-! DEFINITION. Faults and the entry to the safe state (R162 to R166), with the safe behaviour of each block
(R63, R127, R84), and the end of a turn, whose report both use (R58). -/
namespace Sys2Proof.Machine

/-! ### The end of a turn -/

/-- The suction is switched off; a kept-on flag falls with it (log 21). -/
def suctionOff (s : State) : State := { s with motion.suction := false, motion.keptOn := false }

/-- RAISE, AIR and REACH, whose abandonment leaves the opening KNOWN (R62). -/
def beforeGrip : Stage → Bool
  | .raise => true
  | .air => true
  | .reach => true
  | _ => false

/-- GRIP, SWEEP and RELEASE, in which the safe state keeps the suction (R63). -/
def mayGrip : Stage → Bool
  | .grip => true
  | .sweep => true
  | .release => true
  | _ => false

/-- The TURN report of a turn that ends now (R58). -/
def turnReport (s : State) (t : Turn) (o : TurnOutcome) (fault : Option FaultKind) (keptOn : Bool) :
    TurnReport :=
  { seq := t.seq, direction := t.direction, origin := t.origin, outcome := o
    stage := if o = .done then none else some (t.stage, t.recovery), fault := fault
    oldOpening := t.oldOpening, k := s.volume.k, known := s.volume.known, leaf := t.leaf
    handled := (getLeaf s t.leaf).handled, attempts := t.attempts, doublePicks := t.doublePicks
    limits := t.limits, keptOn := keptOn, start := t.start, finish := now s }

/-- The turn record ends and its report enters the reserved slot (R58). The idle timer restarts
(R142), also inside the entry to the safe state, which by R164 leaves it as it is (log 51). -/
def endTurn (s : State) (r : TurnReport) : State :=
  restartIdle (enterReserved { s with motion.turn := none } (.turn r))

/-! ### Safe behaviour of the blocks -/

/-- The safe state abandons a turn in flight (R63). -/
def abandonSafe (s : State) (kind : FaultKind) : State :=
  match s.motion.turn with
  | none => s
  | some t =>
    let keep := s.motion.suction && mayGrip t.stage
    let s1 : State :=
      { s with
        volume.known := s.volume.known && beforeGrip t.stage
        motion.suction := keep
        motion.keptOn := keep
        motion.armPowered := false }
    endTurn s1 (turnReport s1 t .abandonedSafe (some kind) keep)

/-- The motion controller's safe behaviour (R63). -/
def safeMotion (s : State) (kind : FaultKind) : State :=
  let s1 := abandonSafe s kind
  let s2 : State :=
    { s1 with
      motion.air := false
      motion.plateState := if s1.motion.plateState = .moving then .unsettled else s1.motion.plateState
      motion.plateDeadline := none
      motion.raisePending := false }
  match s2.motion.platen with
  | .raised => s2
  | .raising => s2
  | _ => startRaise s2 true

/-- A waiting order is flushed: its CAPTURE record enters its reserved slot (R127). -/
def flushOrder (s : State) (o : Order) : State := enterReserved s (.capture (flushedReport o))

/-- The capture sequencer's safe behaviour; the record of a capture that ends here comes first (R127). -/
def safeSequencer (s : State) : State :=
  let s1 : State :=
    { s with
      seq.capture := s.seq.capture.map fun c =>
        { mapSides (endUnsynced .abortedSafe) c with deadline := none } }
  let s2 :=
    match s1.seq.capture with
    | none => s1
    | some c => if captureDone s1 c then endCapture s1 c else s1
  let s3 := s2.seq.orders.foldl flushOrder s2
  { s3 with seq.orders := [] }

/-- The entry handed to the blocks (R164). -/
def safeEntry (s : State) (kind : FaultKind) : State := stopHoods (safeSequencer (safeMotion s kind))

/-! ### Faults -/

/-- The record of a fault, from the state it finds (R163). -/
def faultRecord (s : State) (kind : FaultKind) (bank : Option Bank) : FaultRec :=
  { kind := kind, time := now s, bank := bank, stage := s.motion.turn.map fun t => (t.stage, t.recovery)
    k := s.volume.k, known := s.volume.known }

/-- The position that the next fault takes: its place in the list, or 0 (R163). -/
def faultPosition (s : State) : Nat :=
  if s.safe.faults.length < Config.faultCapacity then s.safe.faults.length + 1 else 0

/-- A record enters the list, or is counted (R163). -/
def recordFault (s : State) (r : FaultRec) : State :=
  if s.safe.faults.length < Config.faultCapacity then { s with safe.faults := s.safe.faults ++ [r] }
  else { s with safe.further := satSucc 255 s.safe.further }

/-- The FAULT report of a fault (R165). -/
def faultReport (s : State) (r : FaultRec) : FaultReport :=
  { record := r, position := faultPosition s, further := (recordFault s r).safe.further
    first := !s.safe.flag }

/-- The first FAULT report of an episode is admitted, or waits (R165). -/
def offerFirstFault (s : State) (f : FaultReport) : State :=
  if hasRoom s then enqueue s (.fault f) 0 else { s with safe.pendingFirst := some f }

/-- A fault handed to the safe-state controller: the first begins an episode and its entry is handed to the
blocks (R164), a later one is recorded and reported (R166). -/
def raiseFault (s : State) (kind : FaultKind) (bank : Option Bank) : State :=
  let r := faultRecord s kind bank
  let f := faultReport s r
  let s1 := recordFault s r
  if s.safe.flag then offerMajor s1 (.fault f)
  else safeEntry (offerFirstFault { s1 with safe.flag := true, safe.episodeStart := some (now s) } f) kind

end Sys2Proof.Machine
end

