-- ==== Sys2Proof/Machine/TurnOps.lean ====
section
/-! DEFINITION. The turn cycle: the acceptance checks (R51, R52), the ten stages (R53 to R57), and the resume
of a HELD turn (R61). -/
namespace Sys2Proof.Machine

/-! ### Functions of a direction -/

/-- The side of the book the arm picks from. -/
def pickFn : Direction → Fn
  | .forward => .armRight
  | .backward => .armLeft

/-- The side of the book the arm sweeps to. -/
def farFn : Direction → Fn
  | .forward => .armLeft
  | .backward => .armRight

/-- The verify function (R56). -/
def verifyFn : Direction → Fn
  | .forward => .leafSeenL
  | .backward => .leafSeenR

/-- The opening that a turn makes (R56). -/
def turnedOpening (d : Direction) (k : Nat) : Nat :=
  match d with
  | .forward => k + 1
  | .backward => k - 1

/-- The leaf to turn (R52). -/
def leafToTurn (d : Direction) (k : Nat) : Nat :=
  match d with
  | .forward => k + 1
  | .backward => k

/-! ### Stages -/

/-- The turn enters a stage with its timeout; the idle timer restarts (R142). -/
def setStage (s : State) (g : Stage) (deadline : Option Nat) : State :=
  restartIdle (modifyTurn s fun t =>
    { t with stage := g, recovery := false, regripAir := false, deadline := deadline })

/-- The suction goes on for a grip attempt under a fresh timeout (R54). -/
def startGrip (s : State) : State :=
  { modifyTurn s fun t =>
      { t with attempts := t.attempts + 1, regripAir := false, deadline := some (now s + gripTime) } with
    motion.suction := true }

/-- The start of a stage (R53 to R57). -/
def startStage (s : State) (g : Stage) : State :=
  match g with
  | .raise =>
    let s1 := setStage s .raise none
    if s.motion.platen = .raised then s1 else startRaise s1 false
  | .air =>
    { setStage s .air (some (now s + ms s.motion.profile.airTime)) with motion.air := true }
  | .reach => { setStage s .reach (some (now s + armTime)) with motion.armPowered := true }
  | .grip => startGrip (setStage s .grip none)
  | .sweep => setStage s .sweep (some (now s + armTime))
  | .release =>
    modifyTurn (suctionOff (setStage s .release (some (now s + releaseTime)))) fun t =>
      { t with noted := false }
  | .verify => setStage s .verify (some (now s + verifyTime))
  | .park => setStage s .park (some (now s + armTime))
  | .adjust =>
    let s1 := startAdjust (setStage s .adjust none) s.volume.k
    modifyTurn s1 fun t => { t with limits := s1.motion.plateLimits }
  | .lower => startLowering (setStage s .lower none)

/-- A double pick: the return to the pick side starts, or DOUBLE_PICK with no retry remaining (R55). -/
def doublePick (s : State) (t : Turn) : State :=
  if t.retries = 0 then raiseFault s .doublePick none
  else modifyTurn s fun t => { t with recovery := true, deadline := some (now s + armTime) }

/-- The double-pick return has reached the pick side: the leaf is released and the turn returns to AIR
(R55). -/
def returnToAir (s : State) : State :=
  startStage
    { modifyTurn (suctionOff s) fun t =>
        { t with doublePicks := t.doublePicks + 1, retries := t.retries - 1 } with
      volume.doublePicks := satSucc counterMax s.volume.doublePicks }
    .air

/-- A turn ends DONE (R57). -/
def turnDone (s : State) (t : Turn) : State :=
  let s1 : State := { s with volume.turnsDone := satSucc counterMax s.volume.turnsDone }
  endTurn s1 (turnReport s1 t .done none false)

/-- The end of the stage of a RUNNING turn, where its waiting condition holds (R53 to R57). -/
def turnStep (s : State) (t : Turn) : Option State :=
  if t.held then none
  else
    match t.stage with
    | .raise => if s.motion.platen = .raised then some (startStage s .air) else none
    | .air => none
    | .reach => if fnActive s (pickFn t.direction) then some (startStage s .grip) else none
    | .grip =>
      if !t.regripAir && fnActive s .vacuumOk then some (startStage (countHandling s t.leaf) .sweep)
      else none
    | .sweep =>
      if t.recovery then
        if fnActive s (pickFn t.direction) then some (returnToAir s) else none
      else if fnActive s .doubleLeaf then some (doublePick s t)
      else if fnActive s (farFn t.direction) then some (startStage s .release)
      else none
    | .release => if fnActive s .vacuumOk then none else some (startStage s .verify)
    | .verify =>
      if t.noted then
        some (startStage { s with volume.k := turnedOpening t.direction s.volume.k } .park)
      else none
    | .park => if fnActive s .armHome then some (startStage s .adjust) else none
    | .adjust => if s.motion.plateState = .settled then some (startStage s .lower) else none
    | .lower => if s.motion.platen = .down then some (turnDone s t) else none

/-- The turn in flight goes on until its stage has to wait. -/
def runTurn : Nat → State → State
  | 0, s => s
  | n + 1, s =>
    match s.motion.turn with
    | none => s
    | some t =>
      match turnStep s t with
      | none => s
      | some s1 => runTurn n s1

/-- The motion controller acts on the levels of its functions: the platen, then the turn in flight. No turn
passes through more than sixteen stages without waiting, since AIR waits for its time. -/
def runMotion (s : State) : State := runTurn 16 (followPlaten s)

/-! ### Acceptance -/

/-- The functions a turn needs (R51 check 7). -/
def turnFunctions : List Fn :=
  [.armHome, .armLeft, .armRight, .vacuumOk, .leafSeenL, .leafSeenR, .platenTop]

/-- A turn request's checks in their order: the first refusal, or none (R51). -/
def turnCheck (s : State) (d : Direction) (override : Bool) : Option Result :=
  let leaf := leafToTurn d s.volume.k
  if !volumeOpened s then some .noVolume
  else if !s.volume.known then some .openingUnknown
  else if s.safe.flag then some .safeState
  else if held s then some .held
  else if turnInFlight s || decide (s.motion.platen = .lowering) || decide (s.motion.platen = .raising)
      || adjusting s then some .busyMotion
  else if captureInFlight s then some .busyCapture
  else if !turnFunctions.all (fnBound s) then some .notEquipped
  else if !fnActive s .armHome then some .wrongState
  else if d = .forward ∧ s.volume.k = s.volume.leafCount then some .atEnd
  else if d = .backward ∧ s.volume.k = 0 then some .atStart
  else if (getLeaf s leaf).manual then some .manualLeaf
  else if d = .forward ∧ (gapAt s (2 * s.volume.k + 1) || gapAt s (2 * s.volume.k + 2)) = true
      ∧ override = false then some .facesOpen
  else if s.volume.handlingLimit < (getLeaf s leaf).handled + 1 ∧ override = false then
    some .handlingLimit
  else if !hasRoom s then some .queueFull
  else none

/-- The number a turn takes: after 65,535 comes 1 (R12). -/
def nextTurnSeq (n : Nat) : Nat := if n < 65535 then n + 1 else 1

/-- A turn that is accepted: its number, its reservation, its record, and its RAISE stage (R52, R53). -/
def acceptTurn (s : State) (d : Direction) (origin : Origin) (override : Bool) : State :=
  let n := nextTurnSeq s.volume.turnSeq
  let t : Turn :=
    { seq := n, direction := d, origin := origin, override := override
      leaf := leafToTurn d s.volume.k, oldOpening := s.volume.k, held := false, stage := .raise
      recovery := false, retries := s.motion.profile.gripRetries, attempts := 0, doublePicks := 0
      limits := ⟨false, false⟩, start := now s, deadline := none, regripAir := false, noted := false }
  let s1 := reserve { s with volume.turnSeq := n }
  settle (runMotion (startStage { s1 with motion.turn := some t } .raise))

/-! ### Resume -/

/-- The remembered stage of a HELD turn starts again (R61). -/
def resumeStage (s : State) (t : Turn) : State :=
  match t.stage with
  | .grip =>
    if t.regripAir then
      { modifyTurn s fun t => { t with deadline := some (now s + ms s.motion.profile.airTime) } with
        motion.air := true }
    else
      { modifyTurn s fun t => { t with deadline := some (now s + gripTime) } with motion.suction := true }
  | .sweep => modifyTurn s fun t => { t with deadline := some (now s + armTime) }
  | .release => modifyTurn (suctionOff s) fun t => { t with deadline := some (now s + releaseTime) }
  | .adjust =>
    { s with motion.plateState := .moving, motion.plateDeadline := some (now s + plateTime) }
  | g => startStage s g

/-- A HELD turn is resumed (R61). -/
def resumeTurn (s : State) (t : Turn) : State :=
  settle (runMotion (restartIdle (resumeStage (modifyTurn s fun t => { t with held := false }) t)))

end Sys2Proof.Machine
end

