-- ==== Sys2Proof/Machine/OrderOps.lean ====
section
/-! DEFINITION. The acceptance of capture orders (R111, R112), and what the camera edges do to the capture in
flight (R120 to R122). -/
namespace Sys2Proof.Machine

/-! ### Orders -/

/-- The checks of a capture order from check 2 of R111 on: the first refusal, or none. Check 8 is refused
BAD_FIELD, naming the recipe. -/
def orderCheck (s : State) (x : Sides) (recipe : Nat) : Option Result :=
  let r := getRecipe s recipe
  if !volumeOpened s then some .noVolume
  else if s.safe.flag then some .safeState
  else if Config.orderCapacity ≤ s.seq.orders.length then some .queueFull
  else if !hasRoom s then some .queueFull
  else if 65535 < s.volume.captureSeq + s.seq.orders.length + 1 then some .seqExhausted
  else if !camerasEquipped s x then some .notEquipped
  else if darkSide x r.levels then some .badField
  else if (firstUncalibrated s (neededBanks x r.levels)).isSome then some .notCalibrated
  else none

/-- The orders ahead of a new order: those waiting, and the capture in flight (R112). -/
def ordersAhead (s : State) : Nat := s.seq.orders.length + (if captureInFlight s then 1 else 0)

/-- An order is accepted: its slot is reserved and it enters the queue; it may come to go at once (R112,
R114). -/
def acceptOrder (s : State) (o : Order) : State :=
  settle { reserve s with seq.orders := s.seq.orders ++ [o] }

/-- The order a KEY_SHOOT edge asks for (R112). -/
def keyOrder (s : State) : Order :=
  { tag := 0, origin := .key, sides := .both, recipe := 0, purpose := .normal, notBefore := none
    accepted := now s }

/-- An accepted active edge of KEY_SHOOT on an ACTIVE part (R112). -/
def keyShoot (s : State) : State :=
  let s1 := restartIdle s
  match orderCheck s1 .both 0 with
  | some r => offerMinor s1 (.keyRefused .keyShoot r)
  | none => acceptOrder s1 (keyOrder s1)

/-- An accepted active edge of KEY_TURN or KEY_BACK on an ACTIVE part (R51). -/
def keyTurn (s : State) (key : Fn) (d : Direction) : State :=
  let s1 := restartIdle s
  match turnCheck s1 d false with
  | some r => offerMinor s1 (.keyRefused key r)
  | none => acceptTurn s1 d .key false

/-! ### Camera edges -/

/-- One ask of a side for a firing, entered in its record with the granted time (R121). -/
def askOne (s : State) (c : Capture) (sd : Side) (bk : Bank) (requested : Nat) : State :=
  let granted := grantTime s bk requested
  modifySide (askFiring s bk requested (c.levels.get bk) c.duration (some c.seq)) sd fun x =>
    { x with asks := x.asks ++ [⟨bk, granted, none⟩] }

/-- The asks of a side: its first needed bank at the sync time, its second 1,500 µs after it (R121). -/
def askBanks (c : Capture) (sd : Side) : List Bank → Nat → State → State
  | [], _, s => s
  | bk :: rest, t, s => askBanks c sd rest (t + spacing) (askOne s c sd bk t)

/-- An accepted active sync edge with timestamp `t` (R120, R121). -/
def syncEdge (s : State) (sd : Side) (t : Nat) : State :=
  match s.seq.capture with
  | none => s
  | some c =>
    match c.t0, c.sides.get sd with
    | some t0, some x =>
      let opens := t0 + x.camera.delay
      if x.stage = .waiting then
        if t0 ≤ t ∧ t < opens then
          modifySide s sd fun x => { x with stage := .ended .earlySync }
        else if opens ≤ t ∧ t < opens + x.camera.window then
          askBanks c sd (sideBanks sd c.levels) t
            (restartIdle (modifySide s sd fun x => { x with stage := .firing, syncTime := some t }))
        else s
      else s
    | _, _ => s

/-- An accepted active stored edge (R122). -/
def storedEdge (s : State) (sd : Side) : State :=
  match s.seq.capture with
  | none => s
  | some c =>
    match c.sides.get sd with
    | none => s
    | some x =>
      match x.stage with
      | .firing => modifySide s sd fun x => { x with storedNoted := true }
      | .storing => confirmSide s c sd
      | _ => s

/-! ### Answers -/

/-- An ask has been answered. -/
def isAnswered (a : Ask) : Bool := a.answer.isSome

/-- An ask has been answered FIRED. -/
def isFired (a : Ask) : Bool :=
  match a.answer with
  | some (.fired _) => true
  | _ => false

/-- A side whose every ask is answered leaves FIRING: for STORING with a firing made, otherwise UNLIT; a
stored edge noted in FIRING confirms it at once (R121, R122). -/
def leaveFiring (s : State) (sd : Side) : State :=
  match s.seq.capture with
  | none => s
  | some c =>
    match c.sides.get sd with
    | none => s
    | some x =>
      if x.stage = .firing ∧ x.asks.all isAnswered = true then
        if x.asks.any isFired then
          let s1 := restartIdle (modifySide s sd fun x =>
            { x with stage := .storing, storedDeadline := some (now s + ms x.camera.stored) })
          if x.storedNoted then confirmSide s1 c sd else s1
        else modifySide s sd fun x => { x with stage := .ended .unlit }
      else s

/-- The lamp controller answers the ask of a bank (R121). -/
def answerAsk (s : State) (bk : Bank) (a : Answer) : State :=
  leaveFiring
    (modifySide s bk.side fun x =>
      { x with asks := x.asks.map fun k => if k.bank = bk then { k with answer := some a } else k })
    bk.side

end Sys2Proof.Machine
end

