-- ==== Sys2Proof/Machine/LineOps.lean ====
section
/-! DEFINITION. The line block's operations: event status (R149), the hold group (R158), accepted edges (R148),
samples (R147) and the configuration of a line (R152). -/
namespace Sys2Proof.Machine

/-! ### Event status -/

/-- A LINE_EVENT is offered where the masked status is set and not yet latched, and the latch is set (R149). -/
def offerEvent (s : State) (i : Nat) (cause : EventCause) (t : Nat) : State :=
  let l := getLine s i
  if lineMasked l && !l.latch then
    offerMinor (modifyLine s i fun l => { l with latch := true })
      (.lineEvent i (fnOf s i) l.sense cause l.level l.count t)
  else s

/-- Line `l` is an IN line of LEVEL sense at its active level, which sets its raw status whenever it is found
so (R149). -/
def levelActive (l : Line) : Bool :=
  decide (l.dir = .inp) && decide (l.sense = .level) && lineActive l

/-- Line `l` with its raw status, and with it its masked status and latch, cleared; a LEVEL line found active
sets it again (R149, R150). -/
def clearStatus (l : Line) : Line := { l with raw := levelActive l, latch := false }

/-- LINE_CLEAR on one line (R150). -/
def clearLine (s : State) (i : Nat) : State := offerEvent (modifyLine s i clearStatus) i .level (now s)

/-- An IN line is sampled: its level becomes the pin's and a pending change is dropped (R147). -/
def sampleLine (l : Line) : Line :=
  match l.dir with
  | .inp => { l with level := pinLevel l, change := none }
  | .out => { l with change := none }

/-! ### The hold group -/

/-- A line holds: it is IN, carries the hold flag and is active (R158). -/
def lineHolds (l : Line) : Bool := decide (l.dir = .inp) && l.hold && lineActive l

/-- A line of the hold group is active (R158). -/
def groupActive (s : State) : Bool := s.lines.records.any lineHolds

/-- The hold comes into force: its record, its report, and the blocks that act on it (R158). -/
def holdOn (s : State) (i t : Nat) : State :=
  stopHoods (holdCapture (holdMotion (offerMajor { s with lines.hold := some ⟨i, t⟩ } (.holdOn i t))))

/-- The hold is released (R158). -/
def holdOff (s : State) (i t : Nat) (h : Hold) : State :=
  releaseMotion (offerMajor { s with lines.hold := none } (.holdOff i t (elapsedMs h.since t)))

/-- The hold group is re-evaluated after a change of line `i` at time `t` (R158). -/
def evalHold (s : State) (i t : Nat) : State :=
  match s.lines.hold with
  | none => if groupActive s then holdOn s i t else s
  | some h => if groupActive s then s else holdOff s i t h

/-- The lines that hold, in line order. -/
def holdingLines (s : State) : List Nat :=
  (List.range Config.lineCount).filter fun i => lineHolds (getLine s i)

/-- At a reset the hold state and its holding line are set afresh (R160, R161): the holding line is the first active
line of the group in line order, at power-on too (log 47). -/
def holdAfresh (s : State) : State :=
  let s1 : State := { s with lines.hold := none }
  match holdingLines s1 with
  | [] => s1
  | i :: _ => holdOn s1 i (now s1)

/-! ### Accepted edges -/

/-- An edge to level `high` is the active edge of a line (R146). -/
def activeEdge (l : Line) (high : Bool) : Bool :=
  match l.polarity with
  | .risingHigh => high
  | .fallingLow => !high

/-- An accepted edge is an event edge (R148). -/
def eventEdge (l : Line) (high : Bool) : Bool := activeEdge l high || l.bothEdges

/-- The line record after an accepted edge: level, count and raw status (R147 to R149). -/
def takeEdge (high : Bool) (l : Line) : Line :=
  let ev := eventEdge l high
  let l1 : Line := { l with level := high, change := none }
  { l1 with
    count := if ev then (l.count + 1) % 65536 else l.count
    raw :=
      match l.sense with
      | .edge => l.raw || ev
      | .level => l.raw || lineActive l1 }

/-- A LEAF_SEEN edge is noted for a turn that verifies by it, from the start of RELEASE on (R56, R59). -/
def noteLeaf (s : State) (f : Fn) : State :=
  modifyTurn s fun t =>
    if verifyFn t.direction = f ∧ (t.stage = .release ∨ t.stage = .verify) then { t with noted := true }
    else t

/-- An accepted active edge handed to the owner of its function. Keys are acted upon by an ACTIVE part alone
(R148, R144); levels are read by the owners themselves. -/
def handEdge (s : State) (f : Fn) (t : Nat) : State :=
  match f with
  | .camLSync => syncEdge s .left t
  | .camRSync => syncEdge s .right t
  | .camLStored => storedEdge s .left
  | .camRStored => storedEdge s .right
  | .leafSeenL => noteLeaf s f
  | .leafSeenR => noteLeaf s f
  | .keyShoot => if s.time.idle then s else keyShoot s
  | .keyTurn => if s.time.idle then s else keyTurn s f .forward
  | .keyBack => if s.time.idle then s else keyTurn s f .backward
  | _ => s

/-- The edge handed to the owner of the function bound to line `i`, if it is the active edge (R148). -/
def handLine (s : State) (i : Nat) (active : Bool) (t : Nat) : State :=
  match fnOf s i with
  | none => s
  | some f => if active then handEdge s f t else s

/-- An accepted edge of line `i` to level `high` with timestamp `t`, in the order of R148. -/
def acceptEdge (s : State) (i : Nat) (high : Bool) (t : Nat) : State :=
  let l := getLine s i
  let s1 := offerEvent (modifyLine s i (takeEdge high)) i .edge t
  let s2 := if l.hold then evalHold s1 i t else s1
  let s3 := if eventEdge l high && l.wake then wakeIfIdle s2 (.line i) else s2
  settle (runMotion (handLine s3 i (activeEdge l high) t))

/-- A pending change of a line has stood for its debounce time: its level and acceptance time (R147). -/
def dueChange (s : State) (l : Line) : Option (Bool × Nat) :=
  match l.dir, l.change with
  | .inp, some (high, t) => if t + ms l.debounce ≤ now s then some (high, t + ms l.debounce) else none
  | _, _ => none

/-- The pending change of line `i` is accepted if it is due. -/
def acceptDue (s : State) (i : Nat) : State :=
  match dueChange s (getLine s i) with
  | none => s
  | some x => acceptEdge s i x.1 x.2

/-- The pin of an IN line is compared with its accepted level: a pending change starts, goes on or is dropped
(R147). -/
def comparePin (t : Nat) (l : Line) : Line :=
  match l.dir with
  | .out => l
  | .inp =>
    if pinLevel l = l.level then { l with change := none }
    else
      match l.change with
      | some _ => l
      | none => { l with change := some (pinLevel l, t) }

/-! ### Configuration -/

/-- The configuration that LINE_CONFIG carries, its debounce clamped (R152). -/
structure LineSettings where
  dir : LineDir
  pull : Pull
  drive : Drive
  sense : Sense
  polarity : Polarity
  bothEdges : Bool
  debounce : Nat
  event : Bool
  wake : Bool
  hold : Bool
  deriving DecidableEq, Repr, Inhabited

/-- Line `l` with its configuration replaced whole (R152). -/
def setConfig (l : Line) (c : LineSettings) : Line :=
  { l with
    dir := c.dir, pull := c.pull, drive := c.drive, sense := c.sense, polarity := c.polarity
    bothEdges := c.bothEdges, debounce := c.debounce, event := c.event, wake := c.wake, hold := c.hold }

/-- LINE_CONFIG drops the status that line `l` held: it becomes OUT, or changes its polarity or sense
(R152). -/
def dropsStatus (l : Line) (c : LineSettings) : Bool :=
  decide (c.dir = .out) || decide (l.polarity ≠ c.polarity) || decide (l.sense ≠ c.sense)

/-- The record of a line after a LINE_CONFIG at clock value `t`, before any report (R152): a line that becomes IN is
sampled, a line that becomes OUT drops its pending change, a line that stays IN has its pin compared, which a new pull
may have changed (R146, R147), and a disabled event clears the latch. -/
def configured (t : Nat) (l : Line) (c : LineSettings) : Line :=
  let l1 := setConfig l c
  let l2 := if l.dir = .out ∨ c.dir = .out then sampleLine l1 else comparePin t l1
  let raw := (l.raw && !dropsStatus l c) || levelActive l2
  { l2 with raw := raw, latch := l.latch && !dropsStatus l c && c.event }

/-- The cause of the LINE_EVENT that a LINE_CONFIG offers: ENABLE over a raw status already set, else LEVEL
(R149). -/
def configCause (l : Line) (c : LineSettings) : EventCause :=
  if l.raw && !dropsStatus l c then .enable else .level

/-- The state of an output function, kept by its owner whether or not a line carries it (R155, R157). -/
def outputState (s : State) (f : Fn) : Bool :=
  match f with
  | .camLTrigger => s.seq.pulses.l.isSome
  | .camRTrigger => s.seq.pulses.r.isSome
  | .attention => !s.queue.reports.isEmpty
  | .readyLamp => s.lines.ready
  | _ => false

/-- A line bound to an output function shows the function's present state (R151, R152). -/
def restage (s : State) (i : Nat) : State :=
  match fnOf s i with
  | none => s
  | some f => if isOutputFn f then driveFn s f (outputState s f) else s

/-- LINE_CONFIG on line `i` (R152). The bullets of the rule are taken in this order: the configuration with its samples
and status, the staged value, the LINE_EVENT, the hold group, a pending change that a new debounce time or a new pull
has made due, and last the owners' view of the levels (log 45). -/
def configureLine (s : State) (i : Nat) (c : LineSettings) : State :=
  let l := getLine s i
  let s1 := modifyLine s i fun l => configured (now s) l c
  let s2 := if l.polarity = c.polarity then s1 else restage s1 i
  let s3 := offerEvent s2 i (configCause l c) (now s)
  let s4 :=
    if l.hold ≠ c.hold ∨ (c.hold = true ∧ l.polarity ≠ c.polarity) then evalHold s3 i (now s) else s3
  let s5 :=
    if l.debounce = c.debounce ∧ pinLevel l = pinLevel (setConfig l c) then s4
    else
      match dueChange s4 (getLine s4 i) with
      | none => s4
      | some x => acceptEdge s4 i x.1 (now s)
  settle (runMotion s5)

/-! ### Masks and binding -/

/-- Every line record changed, with its index; the first record of the list is line `i`. -/
def mapLinesFrom (f : Nat → Line → Line) : Nat → List Line → List Line
  | _, [] => []
  | i, l :: ls => f i l :: mapLinesFrom f (i + 1) ls

/-- A line is bound to an output function. -/
def boundOutput (s : State) (i : Nat) : Bool := (fnOf s i).any isOutputFn

/-- The binding table with a function bound to a line, or to none (R156). -/
def setBinding (s : State) (f : Fn) (x : Option Nat) : State :=
  { s with lines.binding := s.lines.binding.set (fnCode f) x }

/-- A function is bound to a line (R156). An output function's present state is driven on it at once, so that a trigger
pulse in progress goes on there to its end (log 46). -/
def bindFn (s : State) (f : Fn) (i : Nat) : State :=
  let s1 := setBinding s f (some i)
  if isOutputFn f then driveFn s1 f (outputState s1 f) else s1

/-- A function is unbound: an output function leaves its inactive value on the line (R156). -/
def unbindFn (s : State) (f : Fn) : State :=
  setBinding (if isOutputFn f then driveFn s f false else s) f none

/-- The level or staged value a line shows (R154, R156). -/
def lineValue (l : Line) : Bool :=
  match l.dir with
  | .inp => l.level
  | .out => l.staged

end Sys2Proof.Machine
end

