-- ==== Sys2Proof/Machine/ResetOps.lean ====
section
/-! DEFINITION. Power-on reset and soft reset, block by block (R19, R42, R68, R89, R109, R128, R132, R145, R160,
R161, R173, R180, R185). -/
namespace Sys2Proof.Machine

/-! ### Power-on reset -/

/-- Power-on reset: every block at its power-on values, the lines sampled, the hold group evaluated. What the
outside holds stays: the pins, the charge-good inputs, and the commands that wait. -/
def powerOn (s : State) : State :=
  let lines : Lines :=
    { records := powerOnRecords fun i => (getLine s i).pin, binding := powerOnBinding, hold := none
      ready := false }
  let s1 : State := { State.reset with lines := lines, chargeGood := s.chargeGood, pending := s.pending }
  holdAfresh { s1 with motion := powerOnMotion (fnActive s1 .platenTop) ⟨0, 0⟩ }

/-! ### Soft reset -/

/-- The volume record at soft reset: kept, with the opening UNKNOWN where a turn stands at or past GRIP
(R19). -/
def resetVolume (s : State) : Volume :=
  { s.volume with
    known := s.volume.known && !s.motion.turn.any fun t => !beforeGrip t.stage
    platesPending := false }

/-- The motion controller at soft reset, `top` the sampled level of PLATEN_TOP (R68, R173). The arm drive is left unpowered
as R68 says, also in a part that was IDLE, of which R145 says that its motor drives are energised (DESIGN CHOICE, log 54). -/
def resetMotion (m : Motion) (top : Bool) : Motion :=
  { m with
    platen := if top then .raised else .stopped, platenDeadline := none, raisePending := false
    safeRaise := false, dwell := none, dwellDeferred := false, pressureHigh := false
    plateState := .unsettled, plateDeadline := none, armPowered := false, suction := false
    keptOn := false, air := false, turn := none }

/-- An aim lamp at soft reset: darkened, its hood commanded to close (R89). -/
def resetAim (t : Nat) (a : Aim) : Aim := { a with applied := 0, lit := false, hood := closeHood t a.hood }

/-- The lamp controller at soft reset (R89). -/
def resetLamps (t : Nat) (l : Lamps) : Lamps :=
  { l with
    banks := ⟨offRecord t l.banks.a, offRecord t l.banks.b, offRecord t l.banks.c, offRecord t l.banks.d⟩
    aims := ⟨resetAim t l.aims.l, resetAim t l.aims.r⟩
    grants := [], interval := none, closePending := false }

/-- The dose meter at soft reset (R109). -/
def resetDose (d : Dose) : Dose :=
  { d with
    prediction := none, credit := ⟨0, 0⟩, outcome := ⟨.requested, .requested⟩, note := ⟨none, none⟩ }

/-- The capture sequencer at soft reset (R128). -/
def resetSequencer (q : Sequencer) : Sequencer :=
  { q with orders := [], capture := none, pulses := ⟨none, none⟩ }

/-- The timebase at soft reset (R145). -/
def resetTime (t : Timebase) : Timebase :=
  { t with
    idle := false, idleSince := none
    idleStart := if t.idleSetting = 0 then none else some t.clock }

/-- The link interface at soft reset (R145, R180). -/
def resetLink (l : Link) : Link :=
  { powerOnLink with supervision := l.supervision, silence := .waiting }

/-- A line at soft reset: sampled, its status cleared and set again where it is an active LEVEL line (R161). -/
def resetLine (l : Line) : Line := clearStatus (sampleLine l)

/-- The blocks other than the line block at soft reset; the output functions take their inactive states. -/
def resetBlocks (s : State) : State :=
  let s1 : State := { s with lines.records := s.lines.records.map resetLine, lines.hold := none }
  let s2 : State :=
    { s1 with
      time := resetTime s.time
      link := resetLink s.link
      queue := powerOnQueue
      volume := resetVolume s
      motion := resetMotion s.motion (fnActive s1 .platenTop)
      lamps := resetLamps (now s) s.lamps
      dose := resetDose s.dose
      seq := resetSequencer s.seq
      safe := powerOnSafe }
  driveFn (driveFn (driveFn s2 .camLTrigger false) .camRTrigger false) .attention false

/-- The LINE_EVENT reports that active LEVEL lines offer at soft reset (R161), in line order and before the HOLD_ON, an
order that the manual leaves open (log 50). -/
def resetEvents (s : State) : State :=
  (List.range Config.lineCount).foldl (fun s i => offerEvent s i .level (now s)) s

/-- The soft reset (R180). -/
def softReset (s : State) : State := judgeReady (judgeLit (holdAfresh (resetEvents (resetBlocks s))))

end Sys2Proof.Machine
end

