-- ==== Sys2Proof/Machine/LinkOps.lean ====
section
/-! DEFINITION. The link interface: the receiver (R174, R175), the valid frame (R138), the taking up of requests
(R176, R188), and the reply that every request is answered with (R176, R142, R144). -/
namespace Sys2Proof.Machine

/-! ### Kinds and lengths -/

/-- The payload length that a kind asks for, given its payload; `none` is no request kind (R188). -/
def requestLength (kind : Nat) (payload : List Byte) : Option Nat :=
  match kind with
  | 0x01 => some 0
  | 0x02 => some 0
  | 0x03 => some 0
  | 0x04 => some 0
  | 0x05 => some 3
  | 0x06 => some 0
  | 0x07 => some 0
  | 0x08 => some 0
  | 0x09 => some 2
  | 0x10 => some (21 + (payload.headD 0#8).toNat)
  | 0x11 => some 2
  | 0x12 => some 18
  | 0x13 => some 1
  | 0x14 => some 0
  | 0x15 => some 0
  | 0x16 => some 4
  | 0x18 => some 5
  | 0x19 => some 3
  | 0x1A => some 2
  | 0x1B => some (10 * (payload.length / 10))
  | 0x1C => some 1
  | 0x20 => some 0
  | 0x21 => some 0
  | 0x22 => some 1
  | 0x23 => some 1
  | 0x24 => some 0
  | 0x25 => some 0
  | 0x26 => some 14
  | 0x27 => some 0
  | 0x30 => some 2
  | 0x31 => some 3
  | 0x32 => some 6
  | 0x33 => some 11
  | 0x34 => some 1
  | 0x35 => some 0
  | 0x38 => some 47
  | 0x39 => some 1
  | 0x3A => some 0
  | 0x40 => some 12
  | 0x41 => some 18
  | 0x42 => some 0
  | 0x48 => some 8
  | 0x49 => some 8
  | 0x4A => some 0
  | 0x4B => some 4
  | 0x4C => some 1
  | 0x4D => some 4
  | 0x4E => some 2
  | _ => none

/-- The link interface's own refusal of a frame: BAD_KIND or BAD_LENGTH (R176). -/
def frameRefusal (f : Frame) : Option Result :=
  match requestLength f.kind.toNat f.payload with
  | none => some .badKind
  | some n => if f.payload.length = n then none else some .badLength

/-! ### Taking up and answering -/

/-- The kind of the reply to a request: the request's, with the high bit set (R176, R186). -/
def replyKind (kind : Byte) : Byte := kind ||| 0x80#8

/-- The oldest frame is taken up for decision when no request is being decided and no reply is being sent; a
frame of no kind or of a wrong length is answered at once (R176). -/
def takeUp (s : State) : State :=
  match s.link.deciding, s.link.reply, s.link.buffer with
  | none, none, f :: rest =>
    match frameRefusal f with
    | none => { s with link.buffer := rest, link.deciding := some f }
    | some r =>
      { s with link.buffer := rest, link.reply := some ⟨replyKind f.kind, f.tag, r, statusSummary s, .none⟩ }
  | _, _, _ => s

/-- The request being decided is the one of this kind and tag. -/
def decides (kind tag : Byte) (f : Frame) : Bool := f.kind == kind && f.tag == tag

/-- A decided request is answered: its reply is built from the state after it (R176, R177). -/
def answer (kind tag : Byte) (d : Decision) : State :=
  { d.1 with
    link.reply := some ⟨replyKind kind, tag, d.2.1, statusSummary d.1, d.2.2⟩
    link.deciding := d.1.link.deciding.filter fun f => !decides kind tag f }

/-- A request that restarts the idle timer: it wakes an IDLE part, is decided with the part ACTIVE, and is
answered, taken or refused (R142, R144, R176). -/
def serve (kind tag : Byte) (owner : State → Decision) (s : State) : State :=
  answer kind tag (owner (restartIdle (wakeIfIdle s (.request kind))))

/-- A request that neither restarts the idle timer nor wakes the part (R142). -/
def observe (kind tag : Byte) (owner : State → Decision) (s : State) : State := answer kind tag (owner s)

/-! ### The receiver -/

/-- A frame is dropped: the flag is set, the count rises, saturating at 65,535, and the receiver hunts
(R175). -/
def dropFrame (s : State) : State :=
  { s with
    link.receiver := .hunt
    link.assembly := none
    link.errorFlag := true
    link.errorCount := satSucc 65535 s.link.errorCount }

/-- A valid frame as the silence timer sees it at its arrival (R138). A boundary that has come and is not yet
counted is counted after it. -/
def validFrame (s : State) : State :=
  match s.link.silence with
  | .off => s
  | .armed =>
    { s with link.boundaries := if s.link.boundaryDue then 1 else 0, link.boundaryDue := false }
  | .waiting =>
    { s with
      link.silence := if calledFor s then .armed else .off
      link.boundaries := 0
      link.boundaryDue := false }

/-- A good frame enters the buffer of two, or is an overrun (R175). -/
def goodFrame (s : State) (f : Frame) : State :=
  if s.link.buffer.length < 2 then
    takeUp (validFrame { s with link.buffer := s.link.buffer ++ [f] })
  else dropFrame s

/-- The length byte of the bytes after the start byte. -/
def lengthByte (bs : List Byte) : Nat := (bs.headD 0#8).toNat

/-- A whole frame is checked (R175): `bs` are its bytes after the start byte. -/
def checkFrame (s : State) (bs : List Byte) : State :=
  let n := 3 + lengthByte bs
  if bs.drop n = checkBytes (crc16 (bs.take n)) then
    goodFrame { s with link.receiver := .hunt, link.assembly := none }
      ⟨bs.getD 1 0#8, bs.getD 2 0#8, (bs.take n).drop 3⟩
  else dropFrame s

/-- The receiver state that the bytes after the start byte stand for, and whether the frame is whole
(R174). -/
def receiverState (bs : List Byte) : Receiver :=
  if bs.length < 3 then .header else if bs.length < 3 + lengthByte bs then .body else .check

/-- A byte with a good stop bit taken in HEADER, BODY or CHECK (R174). -/
def storeByte (s : State) (a : Assembly) (b : Byte) : State :=
  let bs := a.bytes ++ [b]
  if Config.payloadMax < lengthByte bs then dropFrame s
  else if bs.length = 5 + lengthByte bs then checkFrame s bs
  else { s with link.receiver := receiverState bs, link.assembly := some ⟨bs, now s⟩ }

/-- A byte is taken by the receiver in its current state (R174). -/
def takeByte (s : State) (b : Byte) (badStop : Bool) : State :=
  match s.link.assembly with
  | none =>
    if b == startByte && !badStop then { s with link.receiver := .header, link.assembly := some ⟨[], now s⟩ }
    else s
  | some a => if badStop then dropFrame s else storeByte s a b

/-- The gap of a frame in assembly has reached 2 ms (R174). -/
def gapDue (s : State) : Bool :=
  match s.link.assembly with
  | none => false
  | some a => decide (a.last + gapTime ≤ now s)

/-- The gap of a frame in assembly exceeds 2 ms: a byte that comes now is no longer part of it. -/
def gapPassed (s : State) : Bool :=
  match s.link.assembly with
  | none => false
  | some a => decide (a.last + gapTime < now s)

end Sys2Proof.Machine
end

