-- ==== Sys2Proof/Machine/Captures.lean ====
section
/-! DEFINITION. The capture requests (R111, R112, R130, R131) and the timed events of orders and captures (R114,
R117, R119, R120, R122). -/
namespace Sys2Proof.Machine

/-! ### Requests -/

/-- The first field of SHOOT outside its list or range (R111 check 1). -/
def shootField (sides : Option Sides) (recipe : Nat) (purpose : Option Purpose) : Option FieldName :=
  if sides.isNone then some .sides
  else if purpose.isNone then some .purpose
  else if Config.recipeCount ≤ recipe then some .recipe
  else none

/-- SHOOT as the capture sequencer decides it (R111, R112). -/
def decideShoot (orderTag : Nat) (sides : Option Sides) (recipe : Nat) (purpose : Option Purpose)
    (notBefore : Option Nat) (s : State) : Decision :=
  match shootField sides recipe purpose with
  | some f => refuseField s f
  | none =>
    let x := sides.getD .both
    match orderCheck s x recipe with
    | some .badField => refuseField s .recipe
    | some r => refuse s r
    | none =>
      accept
        (acceptOrder s
          { tag := orderTag, origin := .link, sides := x, recipe := recipe
            purpose := purpose.getD .normal, notBefore := notBefore, accepted := now s })
        (.shoot orderTag (ordersAhead s))

/-- SHOOT (R111, R112). -/
def execShoot (tag : Byte) (orderTag : Nat) (sides : Option Sides) (recipe : Nat) (purpose : Option Purpose)
    (notBefore : Option Nat) (s : State) : Host.Outcome State Fault Refusal :=
  .next (serve 0x40#8 tag (decideShoot orderTag sides recipe purpose notBefore) s)

/-- A camera profile after a CAMERA_SET (R130). -/
def setCamera (masked : Bool) (pulse delay window stored : Option Nat) (c : Camera) : Camera :=
  if masked then
    { pulse := clampOr pulse c.pulse 10 10000, delay := clampOr delay c.delay 0 100000
      window := clampOr window c.window 100 200000, stored := clampOr stored c.stored 100 10000 }
  else c

/-- CAMERA_SET as the capture sequencer decides it (R130). -/
def decideCameraSet (mask : Pair Bool) (pulse delay window stored lateLimit : Option Nat) (s : State) :
    Decision :=
  let cs : Pair Camera :=
    ⟨setCamera mask.l pulse delay window stored s.seq.cameras.l,
     setCamera mask.r pulse delay window stored s.seq.cameras.r⟩
  let late := clampOr lateLimit s.seq.lateLimit 0 1000000
  accept { s with seq.cameras := cs, seq.lateLimit := late }
    (.cameraSet cs late
      [wasClamped pulse 10 10000, wasClamped delay 0 100000, wasClamped window 100 200000,
       wasClamped stored 100 10000, wasClamped lateLimit 0 1000000])

/-- CAMERA_SET (R130). -/
def execCameraSet (tag : Byte) (mask : Pair Bool) (pulse delay window stored lateLimit : Option Nat)
    (s : State) : Host.Outcome State Fault Refusal :=
  .next (serve 0x41#8 tag (decideCameraSet mask pulse delay window stored lateLimit) s)

/-- An order as CAPTURE_QUERY gives it, its acceptance time as a timebase value (R110, R131). -/
def orderView (o : Order) : Order := { o with accepted := stamp o.accepted }

/-- An ask as CAPTURE_QUERY gives it, its times as timebase values (R121, R131). -/
def askView (a : Ask) : Ask :=
  { a with
    granted := stamp a.granted
    answer := a.answer.map fun x =>
      match x with
      | .fired t => .fired (stamp t)
      | .withdrawn => .withdrawn }

/-- A requested side as CAPTURE_QUERY gives it (R131). -/
def sideView (x : SideRec) : SideView :=
  { stage := x.stage, syncTime := x.syncTime.map stamp, asks := x.asks.map askView }

/-- The capture in flight as CAPTURE_QUERY gives it (R131). -/
def captureView (c : Capture) : CaptureView :=
  { seq := c.seq, order := orderView c.order, triggered := c.t0.isSome, opening := c.opening, levels := c.levels
    duration := c.duration, t0 := c.t0.map stamp, sides := ⟨c.sides.l.map sideView, c.sides.r.map sideView⟩ }

/-- The fields of a CAPTURE_QUERY reply (R131). -/
def sequencerView (q : Sequencer) : SequencerView :=
  { orders := q.orders.map orderView, capture := q.capture.map captureView, cameras := q.cameras
    lateLimit := q.lateLimit, lateCount := q.lateCount }

/-- CAPTURE_QUERY (R131). -/
def execCaptureQuery (tag : Byte) (s : State) : Host.Outcome State Fault Refusal :=
  .next (observe 0x42#8 tag (fun s => accept s (.captureQuery (sequencerView s.seq))) s)

/-! ### Events -/

/-- The head order has a not-before time, it has come, and nothing else keeps the order waiting (R114). -/
def notBeforeDue (s : State) : Bool :=
  match s.seq.orders with
  | [] => false
  | o :: _ => o.notBefore.isSome && headMayGo s o

/-- NOT_BEFORE_TIME (R114): the head order may come to go. -/
def execNotBeforeTime (s : State) : Host.Outcome State Fault Refusal :=
  .next (if notBeforeDue s then settle s else s)

/-- The capture in flight whose arming timeout has expired (R117). -/
def expiredArming (s : State) : Option Capture :=
  s.seq.capture.filter fun c => c.t0.isNone && reached s c.deadline

/-- A capture ends NOT_READY with its unmet mask (R117). -/
def endNotReady (s : State) (c : Capture) : State :=
  settle
    { s with seq.capture := some { endCaptureArming .notReady c with unmet := some (unmetOf s c) } }

/-- ARMING_TIMEOUT (R117). -/
def execArmingTimeout (s : State) : Host.Outcome State Fault Refusal :=
  .next
    (match expiredArming s with
    | none => s
    | some c => endNotReady s c)

/-- TRIGGER_PULSE_END (R119). -/
def execTriggerPulseEnd (side : Side) (s : State) : Host.Outcome State Fault Refusal :=
  .next
    (if reached s (s.seq.pulses.get side) then
      driveFn { s with seq.pulses := s.seq.pulses.set side none } (triggerFn side) false
    else s)

/-- The time at which the sync window of a WAITING side closes (R120). -/
def windowEnd (s : State) (sd : Side) : Option Nat :=
  match s.seq.capture, getSide s sd with
  | some c, some x =>
    if x.stage = .waiting then c.t0.map fun t => t + x.camera.delay + x.camera.window else none
  | _, _ => none

/-- SYNC_WINDOW_CLOSE (R120). -/
def execSyncWindowClose (side : Side) (s : State) : Host.Outcome State Fault Refusal :=
  .next
    (if reached s (windowEnd s side) then
      settle (modifySide s side fun x => { x with stage := .ended .noSync })
    else s)

/-- The stored timeout of a STORING side (R122). -/
def storedEnd (s : State) (sd : Side) : Option Nat :=
  match getSide s sd with
  | none => none
  | some x => if x.stage = .storing then x.storedDeadline else none

/-- STORED_TIMEOUT (R122). -/
def execStoredTimeout (side : Side) (s : State) : Host.Outcome State Fault Refusal :=
  .next
    (if reached s (storedEnd s side) then
      settle (modifySide s side fun x => { x with stage := .ended .notStored, storedDeadline := none })
    else s)

end Sys2Proof.Machine
end

