-- ==== Sys2Proof/Machine/Doses.lean ====
section
/-! DEFINITION. The dose requests and the aim tick (R92, R93, R103 to R108). -/
namespace Sys2Proof.Machine

/-- The calibration record of a source (R91). -/
def getCal (s : State) : Source → Cal
  | .bank bk => s.dose.banks.get bk
  | .aim sd => s.dose.aims.get sd

/-- The state with the calibration record of a source replaced. -/
def setCal (s : State) (x : Source) (c : Cal) : State :=
  match x with
  | .bank bk => { s with dose.banks := s.dose.banks.set bk c }
  | .aim sd => { s with dose.aims := s.dose.aims.set sd c }

/-- The greatest point of a source (R91). -/
def pointMax : Source → Nat
  | .bank _ => 200000
  | .aim _ => 5000

/-- The index, from `i`, of the first point above a bound. -/
def firstAbove (bound : Nat) : List Nat → Nat → Option Nat
  | [], _ => none
  | p :: ps, i => if bound < p then some i else firstAbove bound ps (i + 1)

/-- The index, from `i`, of the first point below the point `prev` before it (R92 check 4). -/
def firstFall (prev : Nat) : List Nat → Nat → Option Nat
  | [], _ => none
  | p :: ps, i => if p < prev then some i else firstFall p ps (i + 1)

/-- LAMP_CAL as the dose meter decides it (R92). -/
def decideLampCal (source : Option Source) (points : List Nat) (spill : Nat) (s : State) : Decision :=
  match source with
  | none => refuseField s .source
  | some x =>
    match firstAbove (pointMax x) points 0 with
    | some i => refuseField s (.point i)
    | none =>
      if 255 < spill then refuseField s .spill
      else
        match firstFall 0 points 0 with
        | some i => (s, .notMonotonic, .notMonotonic i)
        | none => accept (setCal s x ⟨points, spill⟩) (.lampCal x (calibrated ⟨points, spill⟩))

/-- LAMP_CAL (R92). -/
def execLampCal (tag : Byte) (source : Option Source) (points : List Nat) (spill : Nat) (s : State) :
    Host.Outcome State Fault Refusal :=
  .next (serve 0x38#8 tag (decideLampCal source points spill) s)

/-- CAL_QUERY as the dose meter decides it (R93). -/
def decideCalQuery (source : Option Source) (s : State) : Decision :=
  match source with
  | none => refuseField s .source
  | some x => accept s (.calQuery (getCal s x) (calibrated (getCal s x)))

/-- CAL_QUERY (R93). -/
def execCalQuery (tag : Byte) (source : Option Source) (s : State) : Host.Outcome State Fault Refusal :=
  .next (serve 0x39#8 tag (decideCalQuery source) s)

/-- The calibrated state of the six sources, A to D, AIM_L, AIM_R (R108). -/
def calibratedStates (d : Dose) : List Bool := (d.banks.toList ++ d.aims.toList).map calibrated

/-- An aim lamp as DOSE_QUERY gives it (R108). -/
def guardView (d : Dose) (lamp : Side) : GuardView :=
  { outcome := d.outcome.get lamp, note := d.note.get lamp, level := d.tickLevel.get lamp }

/-- The fields of a DOSE_QUERY reply (R108). -/
def doseView (s : State) : DoseView :=
  { total := s.volume.totalDose, leafCeiling := s.volume.leafCeiling, volumeCeiling := s.volume.volumeCeiling
    reserve := s.volume.reserve, calibrated := calibratedStates s.dose, prediction := s.dose.prediction
    outstanding := ⟨outstanding s s.volume.k, outstanding s (s.volume.k + 1)⟩
    outstandingTotal := outstandingTotal s, credit := s.dose.credit
    aims := ⟨guardView s.dose .left, guardView s.dose .right⟩ }

/-- DOSE_QUERY as the dose meter decides it (R108). -/
def decideDoseQuery (s : State) : Decision := accept s (.doseQuery (doseView s))

/-- DOSE_QUERY (R108). -/
def execDoseQuery (tag : Byte) (s : State) : Host.Outcome State Fault Refusal :=
  .next (serve 0x3A#8 tag decideDoseQuery s)

/-- AIM_TICK, at a 10 ms tick start (R103 to R107). -/
def execAimTick (s : State) : Host.Outcome State Fault Refusal :=
  .next (if s.time.aimDue then aimTickStart { s with time.aimDue := false } else s)

end Sys2Proof.Machine
end

