-- ==== Sys2Proof/Machine/LampCmds.lean ====
section
/-! DEFINITION. The lamp requests (R71, R80, R85, R87, R88) and the events of banks, flashes and hoods (R72 to
R79, R82). -/
namespace Sys2Proof.Machine

/-! ### Requests -/

/-- A masked bank is in FAULT (R71 check 3). -/
def maskedFault (s : State) (mask : Quad Bool) : Bool :=
  allBanks.any fun bk => mask.get bk && decide ((getBank s bk).state = .fault)

/-- BANK_POWER on one bank (R71). -/
def powerBank (on : Bool) (mask : Quad Bool) (s : State) (bk : Bank) : State :=
  if !mask.get bk then s
  else if on then (if (getBank s bk).state = .off then startCharging s bk else s)
  else powerOff s bk

/-- A value of each of the four banks. -/
def bankView {α : Type} (s : State) (f : BankRec → α) : Quad α :=
  ⟨f (getBank s .a), f (getBank s .b), f (getBank s .c), f (getBank s .d)⟩

/-- BANK_POWER as the lamp controller decides it (R71). -/
def decideBankPower (mask : Quad Bool) (command : Option Bool) (s : State) : Decision :=
  match command with
  | none => refuseField s .command
  | some on =>
    if !on && captureInFlight s then refuse s .busyCapture
    else if on && maskedFault s mask then refuse s .wrongState
    else
      let s1 := forBanks (powerBank on mask) s
      accept s1 (.bankPower (bankView s1 fun r => (r.state, r.hood.state)))

/-- BANK_POWER (R71). -/
def execBankPower (tag : Byte) (mask : Quad Bool) (command : Option Bool) (s : State) :
    Host.Outcome State Fault Refusal :=
  .next (serve 0x30#8 tag (decideBankPower mask command) s)

/-- BANK_SET on one bank: the new recharge time, and the end of a recovery that has already passed it (R80). -/
def setRecharge (v : Nat) (mask : Quad Bool) (s : State) (bk : Bank) : State :=
  if mask.get bk then
    let s1 := modifyBank s bk fun r => { r with recharge := v }
    if (getBank s1 bk).state = .recovering ∧ recharged s1 bk = true then returnReady s1 bk else s1
  else s

/-- BANK_SET as the lamp controller decides it (R80). -/
def decideBankSet (mask : Quad Bool) (recharge : Nat) (s : State) : Decision :=
  let s1 := forBanks (setRecharge (clamp recharge 250 2000) mask) s
  accept (settle s1) (.bankSet (bankView s1 fun r => r.recharge) (!inRange recharge 250 2000))

/-- BANK_SET (R80). -/
def execBankSet (tag : Byte) (mask : Quad Bool) (recharge : Nat) (s : State) :
    Host.Outcome State Fault Refusal :=
  .next (serve 0x31#8 tag (decideBankSet mask recharge) s)

/-- An aim lamp after an AIM_SET (R85). -/
def setAim (masked : Bool) (requested guard : Option Nat) (a : Aim) : Aim :=
  if masked then
    { a with requested := clampOr requested a.requested 0 1000, guard := clampOr guard a.guard 0 1000 }
  else a

/-- An aim lamp record as the replies give it (R85, R88). -/
def aimView (a : Aim) : AimView :=
  { requested := a.requested, guard := a.guard, applied := a.applied, lit := a.lit, hood := a.hood.state }

/-- AIM_SET as the lamp controller decides it (R85). -/
def decideAimSet (mask : Pair Bool) (requested guard : Option Nat) (s : State) : Decision :=
  let aims : Pair Aim :=
    ⟨setAim mask.l requested guard s.lamps.aims.l, setAim mask.r requested guard s.lamps.aims.r⟩
  accept { s with lamps.aims := aims }
    (.aimSet ⟨aimView aims.l, aimView aims.r⟩ [wasClamped requested 0 1000, wasClamped guard 0 1000])

/-- AIM_SET (R85). -/
def execAimSet (tag : Byte) (mask : Pair Bool) (requested guard : Option Nat) (s : State) :
    Host.Outcome State Fault Refusal :=
  .next (serve 0x32#8 tag (decideAimSet mask requested guard) s)

/-- A recipe level as stored (R87). -/
def storedLevel (v : Nat) : Nat := if v = 0 then 0 else clamp v 50 1000

/-- A recipe as stored (R87). -/
def storedRecipe (levels : Quad Nat) (duration : Nat) : Recipe :=
  ⟨⟨storedLevel levels.a, storedLevel levels.b, storedLevel levels.c, storedLevel levels.d⟩,
   clamp duration 100 20000⟩

/-- RECIPE_SET as the lamp controller decides it (R87). -/
def decideRecipeSet (recipe : Nat) (levels : Quad Nat) (duration : Nat) (s : State) : Decision :=
  if Config.recipeCount ≤ recipe then refuseField s .recipe
  else
    let r := storedRecipe levels duration
    accept { s with lamps.recipes := s.lamps.recipes.set recipe r }
      (.recipeSet r
        [decide (r.levels.a ≠ levels.a), decide (r.levels.b ≠ levels.b), decide (r.levels.c ≠ levels.c),
         decide (r.levels.d ≠ levels.d), decide (r.duration ≠ duration)])

/-- RECIPE_SET (R87). -/
def execRecipeSet (tag : Byte) (recipe : Nat) (levels : Quad Nat) (duration : Nat) (s : State) :
    Host.Outcome State Fault Refusal :=
  .next (serve 0x33#8 tag (decideRecipeSet recipe levels duration) s)

/-- RECIPE_QUERY as the lamp controller decides it (R87). -/
def decideRecipeQuery (recipe : Nat) (s : State) : Decision :=
  if Config.recipeCount ≤ recipe then refuseField s .recipe else accept s (.recipeQuery (getRecipe s recipe))

/-- RECIPE_QUERY (R87). -/
def execRecipeQuery (tag : Byte) (recipe : Nat) (s : State) : Host.Outcome State Fault Refusal :=
  .next (serve 0x34#8 tag (decideRecipeQuery recipe) s)

/-- A flash bank as LAMP_QUERY gives it (R88). -/
def bankRecord (r : BankRec) : BankView :=
  { state := r.state, hood := r.hood.state, count := r.count, conditioned := r.conditioned, recharge := r.recharge
    lastFiring := r.lastFiring.map stamp, hoodRequest := r.hoodRequest
    standbySince := if r.state = .standby then r.standbySince.map stamp else none }

/-- The fields of a LAMP_QUERY reply (R88). -/
def lampView (s : State) : LampView :=
  { banks := bankView s bankRecord, aims := ⟨aimView s.lamps.aims.l, aimView s.lamps.aims.r⟩
    interval := s.lamps.interval, granted := s.lamps.grants.map fun g => stamp g.time }

/-- LAMP_QUERY (R88). -/
def execLampQuery (tag : Byte) (s : State) : Host.Outcome State Fault Refusal :=
  .next (observe 0x35#8 tag (fun s => accept s (.lampQuery (lampView s))) s)

/-! ### Charging and conditioning -/

/-- CHARGE_GOOD (R72): the input's level is kept; it is watched in CHARGING alone. -/
def execChargeGood (bank : Bank) (good : Bool) (s : State) : Host.Outcome State Fault Refusal :=
  let s1 : State := { s with chargeGood := s.chargeGood.set bank good }
  .next (if good = true ∧ (getBank s bank).state = .charging then endCharge s1 bank else s1)

/-- A bank in a timed state has reached the end of its time. -/
def bankExpired (s : State) (bk : Bank) (st : BankState) : Bool :=
  decide ((getBank s bk).state = st) && reached s (getBank s bk).deadline

/-- A charge timeout: FAULT, its BANK_STATE report, and BANK_CHARGE (R72, R81). The manual gives no order between the two
reports; the BANK_STATE is offered first, before the FAULT report and the safe entry (DESIGN CHOICE, log 52). -/
def failCharge (s : State) (bk : Bank) : State :=
  let s1 := modifyBank s bk fun r => { r with state := .fault, hoodRequest := none, deadline := none }
  settle (raiseFault (reportBank s1 bk .charging .fault .chargeTimeout) .bankCharge (some bk))

/-- BANK_CHARGE_TIMEOUT (R72). -/
def execBankChargeTimeout (bank : Bank) (s : State) : Host.Outcome State Fault Refusal :=
  .next (if bankExpired s bank .charging then failCharge s bank else s)

/-- CONDITIONING_FLASH_DUE (R73, R74). -/
def execConditioningFlashDue (bank : Bank) (s : State) : Host.Outcome State Fault Refusal :=
  .next
    (if conditioningDue s bank then
      askFiring s bank (now s) conditioningLevel conditioningDuration none
    else s)

/-- The firing granted to a bank whose time has come, of a capture or for conditioning. -/
def dueGrant (s : State) (bk : Bank) (capture : Bool) : Option Grant :=
  (grantOf s bk).filter fun g => decide (g.time ≤ now s) && (g.capture.isSome == capture)

/-- A bank record after a firing made at the granted time (R73, R75). -/
def firedBank (g : Grant) (r : BankRec) : BankRec :=
  { r with lastFiring := some g.time, flash := some ⟨g.level, g.time + g.duration, g.capture⟩ }

/-- A conditioning flash at its granted time: made, or dropped (R73). -/
def conditioningFlash (s : State) (bk : Bank) (g : Grant) : State :=
  let r := getBank s bk
  let s1 := removeGrant s bk
  if r.state = .conditioning ∧ r.hood.state = .closed then
    setBank s1 bk { firedBank g r with count := r.count + 1 }
  else s1

/-- CONDITIONING_FLASH (R73). -/
def execConditioningFlash (bank : Bank) (s : State) : Host.Outcome State Fault Refusal :=
  .next
    (match dueGrant s bank false with
    | none => s
    | some g => conditioningFlash s bank g)

/-- CONDITIONING_COMPLETE (R73). -/
def execConditioningComplete (bank : Bank) (s : State) : Host.Outcome State Fault Refusal :=
  .next
    (if conditioningDone s bank then
      settle (enterReady (modifyBank s bank fun r => { r with conditioned := true }) bank
        (some .conditioned))
    else s)

/-! ### Firings -/

/-- The check of a capture firing at its granted time (R75). -/
def firingHolds (s : State) (bk : Bank) (capture : Nat) : Bool :=
  decide ((getBank s bk).state = .ready) && decide ((getBank s bk).hood.state = .opened)
    && (s.seq.capture.any fun c => decide (c.seq = capture))
    && volumeOpened s && s.volume.known && decide (s.motion.platen = .down)

/-- A capture firing at its granted time: made and credited, or withdrawn (R75, R100). -/
def captureFiring (s : State) (bk : Bank) (g : Grant) : State :=
  let s1 := removeGrant s bk
  let s2 :=
    if firingHolds s bk (g.capture.getD 0) then
      answerAsk
        (creditFiring (modifyBank s1 bk fun r => { firedBank g r with state := .recovering }) bk) bk
        (.fired g.time)
    else answerAsk s1 bk .withdrawn
  settle s2

/-- CAPTURE_FIRING (R75). -/
def execCaptureFiring (bank : Bank) (s : State) : Host.Outcome State Fault Refusal :=
  .next
    (match dueGrant s bank true with
    | none => s
    | some g => captureFiring s bank g)

/-- FLASH_END (R76). -/
def execFlashEnd (bank : Bank) (s : State) : Host.Outcome State Fault Refusal :=
  .next
    (if reached s ((getBank s bank).flash.map fun f => f.ends) then
      settle (modifyBank s bank fun r => { r with flash := none })
    else s)

/-! ### Recovery, top-up and waking -/

/-- RECOVERY_END (R75, R78). -/
def execRecoveryEnd (bank : Bank) (s : State) : Host.Outcome State Fault Refusal :=
  .next
    (if (getBank s bank).state = .recovering ∧ recharged s bank = true then settle (returnReady s bank)
    else s)

/-- TOP_UP_START (R77). -/
def execTopUpStart (bank : Bank) (s : State) : Host.Outcome State Fault Refusal := .next (topUp s bank)

/-- TOP_UP_END (R77, R78). -/
def execTopUpEnd (bank : Bank) (s : State) : Host.Outcome State Fault Refusal :=
  .next (if bankExpired s bank .topping then settle (returnReady s bank) else s)

/-- The time a WAKING bank had stood in STANDBY at the wake (R79). -/
def standbyTime (r : BankRec) : Nat := r.deadline.getD 0 - wakingTime - r.standbySince.getD 0

/-- The end of WAKING: READY, or CONDITIONING after a long standby or without conditioning (R79). -/
def endWaking (s : State) (bk : Bank) : State :=
  let r := getBank s bk
  settle
    (if r.conditioned = true ∧ standbyTime r ≤ standbyLimit then enterReady s bk (some .wake)
    else enterConditioning s bk .wake)

/-- WAKING_END (R79). -/
def execWakingEnd (bank : Bank) (s : State) : Host.Outcome State Fault Refusal :=
  .next (if bankExpired s bank .waking then endWaking s bank else s)

/-! ### Hoods -/

/-- The hood of a source. -/
def getHood (s : State) : HoodId → Hood
  | .bank bk => (getBank s bk).hood
  | .aim sd => (s.lamps.aims.get sd).hood

/-- The state with a hood replaced. -/
def setHood (s : State) (i : HoodId) (h : Hood) : State :=
  match i with
  | .bank bk => modifyBank s bk fun r => { r with hood := h }
  | .aim sd => { s with lamps.aims := s.lamps.aims.set sd { s.lamps.aims.get sd with hood := h } }

/-- HOOD_TRAVEL_END (R82). -/
def execHoodTravelEnd (hood : HoodId) (s : State) : Host.Outcome State Fault Refusal :=
  .next
    (if reached s (getHood s hood).deadline then settle (setHood s hood (endTravel (getHood s hood)))
    else s)

end Sys2Proof.Machine
end

