-- ==== Sys2Proof/Machine/Leaves.lean ====
section
/-! DEFINITION. The leaf table and plan requests (R29 to R38). -/
namespace Sys2Proof.Machine

/-! ### LEAF_MARK -/

/-- An action is MANUAL_ON or MANUAL_OFF. -/
def isManualAction : LeafAction → Bool
  | .manualOn => true
  | .manualOff => true
  | _ => false

/-- The first field of a LEAF_MARK that fails, after the check of the leaf index against 0..N+1 (R29 checks 3
to 6). -/
def markField (n leaf : Nat) (action : Option LeafAction) (reason : Option (Option SkipReason)) :
    Option FieldName :=
  match action with
  | none => some .action
  | some a =>
    if isManualAction a && !inRange leaf 1 n then some .leafIndex
    else
      match a, reason with
      | .skip, some (some _) => none
      | .skip, _ => some .skipReason
      | _, none => none
      | _, some _ => some .skipReason

/-- A face action on a state: the state it leads to, or none where the state does not accept it (R23). -/
def markState (a : LeafAction) (reason : SkipReason) (st : FaceState) : Option FaceState :=
  match a, st with
  | .skip, .opened => some (.skipped reason)
  | .skip, .wanted => some (.skipped reason)
  | .unskip, .skipped _ => some .opened
  | .want, .shot => some .wanted
  | .unwant, .wanted => some .shot
  | _, _ => none

/-- A face after a face action, where its bit of the mask is set (R30). -/
def markFace (a : LeafAction) (reason : SkipReason) (masked : Bool) (f : Face) : Face :=
  if masked then { f with state := (markState a reason f.state).getD f.state } else f

/-- A masked face that does not accept the action (R30). -/
def isUnchanged (a : LeafAction) (reason : SkipReason) (masked : Bool) (f : Face) : Bool :=
  masked && (markState a reason f.state).isNone

/-- A leaf after a LEAF_MARK (R30, R31). -/
def markLeaf (a : LeafAction) (reason : SkipReason) (recto verso : Bool) (l : Leaf) : Leaf :=
  match a with
  | .manualOn => { l with manual := true }
  | .manualOff => { l with manual := false }
  | _ => { l with recto := markFace a reason recto l.recto, verso := markFace a reason verso l.verso }

/-- LEAF_MARK as the volume controller decides it (R29 to R31). The reply to a face action carries the MANUAL flag too,
although only R31 names it (log 19). -/
def decideLeafMark (leaf : Nat) (recto verso : Bool) (action : Option LeafAction)
    (reason : Option (Option SkipReason)) (s : State) : Decision :=
  if s.volume.state = .empty ∨ s.volume.state = .closed then refuse s .wrongState
  else if s.volume.leafCount + 1 < leaf then refuseField s .leafIndex
  else
    match markField s.volume.leafCount leaf action reason with
    | some f => refuseField s f
    | none =>
      let a := action.getD .skip
      let r := (reason.getD none).getD .blank
      let old := getLeaf s leaf
      let new := markLeaf a r recto verso old
      accept (modifyLeaf s leaf (markLeaf a r recto verso))
        (.leafMark (!isManualAction a && isUnchanged a r recto old.recto)
          (!isManualAction a && isUnchanged a r verso old.verso) new.recto.state new.verso.state new.manual)

/-- LEAF_MARK (R29 to R31). -/
def execLeafMark (tag : Byte) (leaf : Nat) (recto verso : Bool) (action : Option LeafAction)
    (reason : Option (Option SkipReason)) (s : State) : Host.Outcome State Fault Refusal :=
  .next (serve 0x18#8 tag (decideLeafMark leaf recto verso action reason) s)

/-! ### LEAF_QUERY, GAPS_QUERY -/

/-- The leaf records of a list whose first has index `i` (R34). -/
def leafViews (n : Nat) : List Leaf → Nat → List LeafView
  | [], _ => []
  | l :: ls, i => ⟨i, leafKind n i, l⟩ :: leafViews n ls (i + 1)

/-- LEAF_QUERY as the volume controller decides it (R34). -/
def decideLeafQuery (first count : Nat) (s : State) : Decision :=
  if s.volume.state = .empty then refuse s .noVolume
  else if s.volume.leafCount + 1 < first then refuseField s .leafIndex
  else if !inRange count 1 8 then refuseField s .count
  else accept s (.leafQuery (leafViews s.volume.leafCount ((s.leaves.drop first).take count) first))

/-- LEAF_QUERY (R34). -/
def execLeafQuery (tag : Byte) (first count : Nat) (s : State) : Host.Outcome State Fault Refusal :=
  .next (serve 0x19#8 tag (decideLeafQuery first count) s)

/-- The most gap runs a GAPS_QUERY returns (R33). -/
def gapRunMax : Nat := 16

/-- GAPS_QUERY as the volume controller decides it (R33). -/
def decideGapsQuery (first : Nat) (s : State) : Decision :=
  if s.volume.state = .empty then refuse s .noVolume
  else if 2 * s.volume.leafCount + 3 < first then refuseField s .startFace
  else
    let runs := gapRunsFrom s first
    accept s
      (.gapsQuery (gapCount s) (runs.take gapRunMax)
        (decide (0 < first) && gapAt s first && gapAt s (first - 1)) (decide (gapRunMax < runs.length)))

/-- GAPS_QUERY (R33). -/
def execGapsQuery (tag : Byte) (first : Nat) (s : State) : Host.Outcome State Fault Refusal :=
  .next (serve 0x1A#8 tag (decideGapsQuery first) s)

/-! ### The plan -/

/-- The first failing check of one segment after the segment `prev` (R36 checks 3 to 8). -/
def segmentFailure (n : Nat) (prev : Option SegmentField) (g : SegmentField) : Option PlanFailure :=
  if g.scheme.isNone then some .scheme
  else if !inRange g.start 1 9999 then some .start
  else if !validPfx g.pfx then some .pfx
  else if g.first < 1 ∨ n < g.last ∨ g.last < g.first then some .bounds
  else
    match prev with
    | none => none
    | some p => if g.first < p.first then some .order else if g.first ≤ p.last then some .overlap else none

/-- The first failing segment, with its position from `i` (R36). -/
def planFailure (n : Nat) : Option SegmentField → List SegmentField → Nat → Option (PlanFailure × Nat)
  | _, [], _ => none
  | prev, g :: gs, i =>
    match segmentFailure n prev g with
    | some f => some (f, i)
    | none => planFailure n (some g) gs (i + 1)

/-- The segment that a checked field gives. -/
def toSegment (g : SegmentField) : Segment := ⟨g.first, g.last, g.scheme.getD .foliated, g.start, g.pfx⟩

/-- PLAN_SET as the volume controller decides it (R36, R37). -/
def decidePlanSet (segments : List SegmentField) (s : State) : Decision :=
  if s.volume.state = .empty ∨ s.volume.state = .closed then refuse s .wrongState
  else if Config.planCapacity < segments.length then (s, .badField, .planFailure .count 25)
  else
    match planFailure s.volume.leafCount none segments 1 with
    | some x => (s, .badField, .planFailure x.1 x.2)
    | none => accept { s with plan := segments.map toSegment } (.planSet segments.length)

/-- PLAN_SET (R36, R37). -/
def execPlanSet (tag : Byte) (segments : List SegmentField) (s : State) :
    Host.Outcome State Fault Refusal :=
  .next (serve 0x1B#8 tag (decidePlanSet segments) s)

/-- PLAN_QUERY as the volume controller decides it (R38). -/
def decidePlanQuery (position : Nat) (s : State) : Decision :=
  if s.volume.state = .empty then refuse s .noVolume
  else if !inRange position 1 Config.planCapacity then refuseField s .position
  else accept s (.planQuery s.plan.length ((s.plan.drop (position - 1)).take 23))

/-- PLAN_QUERY (R38). -/
def execPlanQuery (tag : Byte) (position : Nat) (s : State) : Host.Outcome State Fault Refusal :=
  .next (serve 0x1C#8 tag (decidePlanQuery position) s)

end Sys2Proof.Machine
end

