-- ==== Sys2Proof/Machine/LineCmds.lean ====
section
/-! DEFINITION. The line requests (R150, R152 to R154, R156) and the pins (R147, R148). -/
namespace Sys2Proof.Machine

/-! ### LINE_CONFIG -/

/-- The refusal of a LINE_CONFIG by its direction (R152 checks 4 and 5). -/
def directionRefusal (s : State) (i : Nat) (c : LineSettings) : Bool :=
  match c.dir with
  | .out => c.hold || (fnOf s i).any fun f => !isOutputFn f
  | .inp => (fnOf s i).any isOutputFn

/-- The settings of a LINE_CONFIG whose codes all stand in their lists; the debounce is clamped (R152). -/
def lineSettings (dir : Option LineDir) (pull : Option Pull) (drive : Option Drive) (sense : Option Sense)
    (polarity : Option Polarity) (bothEdges : Bool) (debounce : Nat) (event wake hold : Bool) : LineSettings :=
  { dir := dir.getD .inp, pull := pull.getD .none, drive := drive.getD .pushPull
    sense := sense.getD .edge, polarity := polarity.getD .risingHigh, bothEdges := bothEdges
    debounce := clamp debounce 0 50, event := event, wake := wake, hold := hold }

/-- The first field of a LINE_CONFIG with a code outside its list (R152 check 2). -/
def lineField (dir : Option LineDir) (pull : Option Pull) (drive : Option Drive) (sense : Option Sense)
    (polarity : Option Polarity) : Option FieldName :=
  if dir.isNone then some .direction
  else if pull.isNone then some .pull
  else if drive.isNone then some .drive
  else if sense.isNone then some .sense
  else if polarity.isNone then some .polarity
  else none

/-- A line record as the replies give it, a pending change with the timebase value at which it appeared (R146). -/
def lineRecord (l : Line) : LineRecord :=
  { dir := l.dir, pull := l.pull, drive := l.drive, sense := l.sense, polarity := l.polarity
    bothEdges := l.bothEdges, debounce := l.debounce, event := l.event, wake := l.wake, hold := l.hold
    level := l.level, change := l.change.map fun x => (x.1, stamp x.2), staged := l.staged, raw := l.raw
    latch := l.latch, count := l.count }

/-- LINE_CONFIG as the line block decides it (R152). -/
def decideLineConfig (line : Nat) (dir : Option LineDir) (pull : Option Pull) (drive : Option Drive)
    (sense : Option Sense) (polarity : Option Polarity) (bothEdges : Bool) (debounce : Nat)
    (event wake hold : Bool) (s : State) : Decision :=
  if Config.lineCount ≤ line then refuseField s .line
  else
    match lineField dir pull drive sense polarity with
    | some f => refuseField s f
    | none =>
      let c := lineSettings dir pull drive sense polarity bothEdges debounce event wake hold
      if bothEdges = true ∧ c.sense = .level then refuseField s .bothEdges
      else if directionRefusal s line c then refuse s .directionMismatch
      else
        let s1 := configureLine s line c
        accept s1 (.lineConfig (lineRecord (getLine s1 line)) (!inRange debounce 0 50))

/-- LINE_CONFIG (R152). -/
def execLineConfig (tag : Byte) (line : Nat) (dir : Option LineDir) (pull : Option Pull)
    (drive : Option Drive) (sense : Option Sense) (polarity : Option Polarity) (bothEdges : Bool)
    (debounce : Nat) (event wake hold : Bool) (s : State) : Host.Outcome State Fault Refusal :=
  .next (serve 0x48#8 tag
    (decideLineConfig line dir pull drive sense polarity bothEdges debounce event wake hold) s)

/-! ### Masks -/

/-- A line after a LINE_WRITE (R153). -/
def writeLine (s : State) (mask values : LineMask) (i : Nat) (l : Line) : Line :=
  if mask.getLsbD i && !boundOutput s i then { l with staged := values.getLsbD i } else l

/-- LINE_WRITE as the line block decides it (R153). -/
def decideLineWrite (mask values : LineMask) (s : State) : Decision :=
  let s1 : State := { s with lines.records := mapLinesFrom (writeLine s mask values) 0 s.lines.records }
  accept s1
    (.lineWrite ((List.range Config.lineCount).map fun i => mask.getLsbD i && boundOutput s i)
      (s1.lines.records.map fun l => l.staged))

/-- LINE_WRITE (R153). -/
def execLineWrite (tag : Byte) (mask values : LineMask) (s : State) : Host.Outcome State Fault Refusal :=
  .next (serve 0x49#8 tag (decideLineWrite mask values) s)

/-- One line of a LINE_READ reply (R154). -/
def lineView (l : Line) : LineView := ⟨l.dir, lineValue l, l.raw, lineMasked l⟩

/-- LINE_READ (R154). -/
def execLineRead (tag : Byte) (s : State) : Host.Outcome State Fault Refusal :=
  .next (serve 0x4A#8 tag (fun s => accept s (.lineRead (s.lines.records.map lineView))) s)

/-- A line after a LINE_COUNTS (R154). -/
def clearCount (mask : LineMask) (i : Nat) (l : Line) : Line :=
  if mask.getLsbD i then { l with count := 0 } else l

/-- LINE_COUNTS as the line block decides it (R154). -/
def decideLineCounts (clear : LineMask) (s : State) : Decision :=
  accept { s with lines.records := mapLinesFrom (clearCount clear) 0 s.lines.records }
    (.lineCounts (s.lines.records.map fun l => l.count))

/-- LINE_COUNTS (R154). -/
def execLineCounts (tag : Byte) (clear : LineMask) (s : State) : Host.Outcome State Fault Refusal :=
  .next (serve 0x4B#8 tag (decideLineCounts clear) s)

/-- LINE_QUERY as the line block decides it (R154). -/
def decideLineQuery (line : Nat) (s : State) : Decision :=
  if Config.lineCount ≤ line then refuseField s .line
  else accept s (.lineQuery (lineRecord (getLine s line)) (fnOf s line))

/-- LINE_QUERY (R154). -/
def execLineQuery (tag : Byte) (line : Nat) (s : State) : Host.Outcome State Fault Refusal :=
  .next (serve 0x4C#8 tag (decideLineQuery line) s)

/-- The lines of a mask, in line order. R150 gives no order; in this one their LINE_EVENTs are offered (log 49). -/
def maskedLines (mask : LineMask) : List Nat := (List.range Config.lineCount).filter mask.getLsbD

/-- LINE_CLEAR as the line block decides it (R150). -/
def decideLineClear (mask : LineMask) (s : State) : Decision :=
  let s1 := (maskedLines mask).foldl clearLine s
  accept s1 (.lineClear (s1.lines.records.map fun l => l.raw) (s1.lines.records.map lineMasked))

/-- LINE_CLEAR (R150). -/
def execLineClear (tag : Byte) (mask : LineMask) (s : State) : Host.Outcome State Fault Refusal :=
  .next (serve 0x4D#8 tag (decideLineClear mask) s)

/-! ### LINE_BIND -/

/-- The checks of a LINE_BIND that gives a line (R156 checks 2 to 4). -/
def bindRefusal (s : State) (f : Fn) (i : Nat) : Option Result :=
  if (lineOf s f).any fun j => decide (j ≠ i) then some .boundElsewhere
  else if (fnOf s i).any fun g => decide (g ≠ f) then some .lineInUse
  else if isOutputFn f ≠ decide ((getLine s i).dir = .out) then some .directionMismatch
  else none

/-- LINE_BIND that is taken; one that names the line the function has changes nothing (R156). -/
def rebind (s : State) (f : Fn) (line : Option Nat) : State :=
  match line with
  | none => settle (runMotion (unbindFn s f))
  | some i => if lineOf s f = some i then s else settle (runMotion (bindFn s f i))

/-- LINE_BIND as the line block decides it (R156). The value that the reply to a NONE carries is that of the line the
function has just left, low where it had none (log 44). -/
def decideLineBind (fn : Option Fn) (line : Option Nat) (s : State) : Decision :=
  match fn with
  | none => refuseField s .function
  | some f =>
    match line with
    | none =>
      let s1 := rebind s f none
      accept s1 (.lineBind f none ((lineOf s f).any fun i => lineValue (getLine s1 i)))
    | some i =>
      if Config.lineCount ≤ i then refuseField s .line
      else
        match bindRefusal s f i with
        | some r => refuse s r
        | none =>
          let s1 := rebind s f (some i)
          accept s1 (.lineBind f (some i) (lineValue (getLine s1 i)))

/-- LINE_BIND (R156). -/
def execLineBind (tag : Byte) (fn : Option Fn) (line : Option Nat) (s : State) :
    Host.Outcome State Fault Refusal :=
  .next (serve 0x4E#8 tag (decideLineBind fn line) s)

/-! ### Pins -/

/-- The outside drives the pin of a line to a level (R147). -/
def drivePin (s : State) (i : Nat) (high : Bool) : State :=
  modifyLine s i fun l => comparePin (now s) { l with pin := some high }

/-- PIN_LEVEL_CHANGE (R147): a change that is already due is accepted first, and with debounce 0 the new change is
accepted at the moment it appears. -/
def execPinLevelChange (line : Nat) (high : Bool) (s : State) : Host.Outcome State Fault Refusal :=
  .next (acceptDue (drivePin (acceptDue s line) line high) line)

/-- ACCEPTED_EDGE (R148). -/
def execAcceptedEdge (line : Nat) (s : State) : Host.Outcome State Fault Refusal :=
  .next (acceptDue s line)

end Sys2Proof.Machine
end

