-- ==== Sys2Proof/Machine/Link.lean ====
section
/-! DEFINITION. The commands of the serial port and the link, safe-state and idle requests (R135, R141, R167 to
R170, R174 to R180, R184). -/
namespace Sys2Proof.Machine

/-! ### The serial port -/

/-- BYTE_RECEIVED (R174): a frame whose gap has passed 2 ms is dropped before the byte is taken. -/
def execByteReceived (byte : Byte) (badStop : Bool) (s : State) : Host.Outcome State Fault Refusal :=
  .next (takeByte (if gapPassed s then dropFrame s else s) byte badStop)

/-- GAP_ERROR (R174). -/
def execGapError (s : State) : Host.Outcome State Fault Refusal :=
  .next (if gapDue s then dropFrame s else s)

/-- The reply being sent is the ACCEPTED reply to RESET, request kind 0x06 (R176, R180, R188). -/
def isResetReply (r : Reply) : Bool := r.kind == replyKind 0x06#8 && decide (r.result = .accepted)

/-- REPLY_SENT (R176): the next frame is taken up, or the soft reset of a RESET takes effect (R180). -/
def execReplySent (s : State) : Host.Outcome State Fault Refusal :=
  .next
    (match s.link.reply with
    | none => s
    | some r => if isResetReply r then softReset s else takeUp { s with link.reply := none })

/-! ### Link requests -/

/-- What IDENT returns (R178). -/
def identity : Identity :=
  { vendor := ascii ['H', 'E', 'S', 'T', 'R', 'E', 'L'], part := ascii ['G', 'D', '-', '4', '4', '0']
    revision := ascii ['C']
    capacities :=
      [Config.queueCapacity, Config.minorThreshold, Config.orderCapacity, Config.leafCapacity,
       Config.planCapacity, Config.faultCapacity, Config.lineCount, Config.recipeCount, Config.payloadMax] }

/-- IDENT (R178). -/
def execIdent (tag : Byte) (s : State) : Host.Outcome State Fault Refusal :=
  .next (observe 0x01#8 tag (fun s => accept s (.ident identity)) s)

/-- The fields of a STATUS reply (R172, R178). -/
def statusView (s : State) : StatusView :=
  { safe := s.safe.flag, episodeStart := s.safe.episodeStart.map stamp
    faults := s.safe.faults.map fun f => { f with time := stamp f.time }
    further := s.safe.further, pendingFirst := s.safe.pendingFirst.isSome
    volume := s.volume.state, k := s.volume.k, known := s.volume.known
    platen := s.motion.platen, turnHeld := s.motion.turn.map fun t => t.held
    capture := captureInFlight s, waiting := s.seq.orders.length, occupied := s.queue.reports.length
    reserved := s.queue.reserved, missed := s.queue.missed, lastSeq := s.queue.lastSeq
    errorCount := s.link.errorCount, supervision := s.link.supervision, silence := s.link.silence }

/-- STATUS (R172, R178). -/
def execStatus (tag : Byte) (s : State) : Host.Outcome State Fault Refusal :=
  .next (observe 0x02#8 tag (fun s => accept s (.status (statusView s))) s)

/-- The time until the idle timer expires, in ms rounded up; absent when it does not run (R135). -/
def idleRemaining (s : State) : Option Nat :=
  match s.time.idleStart with
  | none => none
  | some t => if s.time.idle then none else some (ceilDiv (t + sec s.time.idleSetting - now s) 1000)

/-- The fields of a TIME reply (R135). -/
def timeView (s : State) : TimeView :=
  { count := count s, idle := s.time.idle, setting := s.time.idleSetting, remaining := idleRemaining s
    idleSince := s.time.idleSince.map stamp, silence := s.link.silence, boundaries := s.link.boundaries
    tap := s.time.tap, pendingTap := s.time.pendingTap, phase := s.time.ms % 512 }

/-- TIME (R135). -/
def execTime (tag : Byte) (s : State) : Host.Outcome State Fault Refusal :=
  .next (observe 0x03#8 tag (fun s => accept s (.time (timeView s))) s)

/-- The bytes a FETCH reply has for reports (R184). -/
def fetchSpace : Nat := 236

/-- The pending first FAULT report is offered again (R165). -/
def reofferFirst (s : State) : State :=
  match s.safe.pendingFirst with
  | none => s
  | some f => if hasRoom s then enqueue { s with safe.pendingFirst := none } (.fault f) 0 else s

/-- FETCH as the report queue decides it (R184). -/
def decideFetch (s : State) : Decision :=
  let n := fetchCount s.queue.reports fetchSpace
  let s1 : State := { s with queue.reports := s.queue.reports.drop n }
  let s2 := reofferFirst (driveFn s1 .attention (!s1.queue.reports.isEmpty))
  accept s2 (.fetch s2.queue.reports.length (s.queue.reports.take n))

/-- FETCH (R184). -/
def execFetch (tag : Byte) (s : State) : Host.Outcome State Fault Refusal :=
  .next (observe 0x04#8 tag decideFetch s)

/-- LINK_SET as the link interface decides it (R179, R137). -/
def decideLinkSet (enable tap clearCount : Nat) (s : State) : Decision :=
  if 1 < enable then refuseField s .enable
  else if 3 < tap then refuseField s .tap
  else if 1 < clearCount then refuseField s .clearCount
  else
    let s1 := judgeSilence
      { s with
        link.supervision := decide (enable = 1)
        time.pendingTap := some tap
        link.errorFlag := false
        link.errorCount := if clearCount = 1 then 0 else s.link.errorCount }
    accept s1 (.linkSet s1.link.supervision s1.time.tap s1.time.pendingTap s.link.errorCount)

/-- LINK_SET (R179). -/
def execLinkSet (tag : Byte) (enable tap clearCount : Nat) (s : State) : Host.Outcome State Fault Refusal :=
  .next (serve 0x05#8 tag (decideLinkSet enable tap clearCount) s)

/-- RESET: answered ACCEPTED; the soft reset follows at REPLY_SENT (R180). -/
def execReset (tag : Byte) (s : State) : Host.Outcome State Fault Refusal :=
  .next (serve 0x06#8 tag (fun s => accept s .none) s)

/-! ### The safe state -/

/-- SAFE as the safe-state controller decides it (R167). -/
def decideSafe (s : State) : Decision :=
  let s1 := raiseFault s .operator none
  accept (settle s1) (.safe (!s.safe.flag) (faultPosition s) s1.safe.further)

/-- SAFE (R167). -/
def execSafe (tag : Byte) (s : State) : Host.Outcome State Fault Refusal :=
  .next (serve 0x07#8 tag decideSafe s)

/-- The pressure reading stands above the limit in force (R46, R168). -/
def pressureAbove (s : State) : Bool := decide (s.motion.profile.limit < s.motion.pressure)

/-- The banks in FAULT. -/
def faultBanks (s : State) : Quad Bool :=
  let f (bk : Bank) : Bool := decide ((getBank s bk).state = .fault)
  ⟨f .a, f .b, f .c, f .d⟩

/-- CLEAR_SAFE as the safe-state controller decides it (R168 to R170). -/
def decideClearSafe (s : State) : Decision :=
  if !s.safe.flag then refuse s .wrongState
  else if held s then refuse s .held
  else if pressureAbove s || (faultBanks s).toList.any id then
    (s, .conditionPersists,
      .conditions s.motion.pressure s.motion.profile.limit (pressureAbove s) (faultBanks s))
  else
    let s1 : State := { s with safe := powerOnSafe }
    let s2 := if s.volume.platesPending then startAdjust s1 s.volume.k else s1
    accept (settle s2)
      (.clearSafe s.safe.faults.length s.safe.further
        (elapsedMs (s.safe.episodeStart.getD (now s)) (now s)) s.safe.pendingFirst.isSome
        s.volume.platesPending)

/-- CLEAR_SAFE (R168). -/
def execClearSafe (tag : Byte) (s : State) : Host.Outcome State Fault Refusal :=
  .next (serve 0x08#8 tag decideClearSafe s)

/-! ### The idle setting -/

/-- The setting that an idle time gives (R141). -/
def idleValue (n : Nat) : Nat := if n = 0 then 0 else clamp n 10 3600

/-- IDLE_SET as the timebase decides it (R141). -/
def decideIdleSet (seconds : Nat) (s : State) : Decision :=
  accept (restartIdle { s with time.idleSetting := idleValue seconds })
    (.idleSet (idleValue seconds) (decide (idleValue seconds ≠ seconds)))

/-- IDLE_SET (R141). -/
def execIdleSet (tag : Byte) (seconds : Nat) (s : State) : Host.Outcome State Fault Refusal :=
  .next (serve 0x09#8 tag (decideIdleSet seconds) s)

end Sys2Proof.Machine
end

