-- ==== Sys2Proof/Machine/Motions.lean ====
section
/-! DEFINITION. The motion requests (R44, R47, R51, R61, R62, R66, R67) and the events of the platen, the plates
and the turn cycle (R45 to R57). -/
namespace Sys2Proof.Machine

/-! ### Requests -/

/-- The checks of LOWER in their order (R44). -/
def lowerCheck (s : State) : Option Result :=
  if !volumeOpened s then some .noVolume
  else if !s.volume.known then some .openingUnknown
  else if s.safe.flag then some .safeState
  else if held s then some .held
  else if turnInFlight s || decide (s.motion.platen = .lowering) || decide (s.motion.platen = .raising)
      || adjusting s then some .busyMotion
  else if s.motion.platen ≠ .raised then some .wrongState
  else if s.motion.plateState = .unsettled ∨ fnActive s .armHome = false then some .wrongState
  else none

/-- LOWER as the motion controller decides it (R44, R45). -/
def decideLower (s : State) : Decision :=
  match lowerCheck s with
  | some r => refuse s r
  | none => accept (startLowering s) .none

/-- LOWER (R44). -/
def execLower (tag : Byte) (s : State) : Host.Outcome State Fault Refusal :=
  .next (serve 0x20#8 tag decideLower s)

/-- The checks of RAISE in their order (R47). -/
def raiseCheck (s : State) : Option Result :=
  if turnInFlight s then some .busyMotion
  else if captureInFlight s && !s.safe.flag then some .busyCapture
  else if held s then some .held
  else none

/-- RAISE as the motion controller decides it (R47). -/
def decideRaise (s : State) : Decision :=
  match raiseCheck s with
  | some r => refuse s r
  | none =>
    match s.motion.platen with
    | .raised => accept s .none
    | .raising => accept s .none
    | _ => accept (settle (startRaise s false)) .none

/-- RAISE (R47). -/
def execRaise (tag : Byte) (s : State) : Host.Outcome State Fault Refusal :=
  .next (serve 0x21#8 tag decideRaise s)

/-- A turn request of the link as the motion controller decides it (R51, R52). -/
def decideTurn (d : Direction) (override : Bool) (s : State) : Decision :=
  match turnCheck s d override with
  | some r => refuse s r
  | none =>
    accept (acceptTurn s d .link override)
      (.turn (nextTurnSeq s.volume.turnSeq) d (leafToTurn d s.volume.k)
        (getLeaf s (leafToTurn d s.volume.k)).handled)

/-- TURN (R51). -/
def execTurn (tag : Byte) (override : Bool) (s : State) : Host.Outcome State Fault Refusal :=
  .next (serve 0x22#8 tag (decideTurn .forward override) s)

/-- TURN_BACK (R51). -/
def execTurnBack (tag : Byte) (override : Bool) (s : State) : Host.Outcome State Fault Refusal :=
  .next (serve 0x23#8 tag (decideTurn .backward override) s)

/-- The HELD turn in flight. -/
def heldTurn (s : State) : Option Turn := s.motion.turn.filter fun t => t.held

/-- TURN_RESUME as the motion controller decides it (R61). -/
def decideTurnResume (s : State) : Decision :=
  match heldTurn s with
  | none => refuse s .notHeld
  | some t =>
    if held s then refuse s .held else accept (resumeTurn s t) (.turnResume t.seq t.stage t.recovery)

/-- TURN_RESUME (R61). -/
def execTurnResume (tag : Byte) (s : State) : Host.Outcome State Fault Refusal :=
  .next (serve 0x24#8 tag decideTurnResume s)

/-- A HELD turn is abandoned (R62). -/
def abandonTurn (s : State) (t : Turn) : State :=
  let s1 := suctionOff
    { s with
      motion.armPowered := false
      volume.known := s.volume.known && beforeGrip t.stage
      motion.plateState := if t.stage = .adjust then .unsettled else s.motion.plateState
      motion.plateDeadline := if t.stage = .adjust then none else s.motion.plateDeadline }
  settle (endTurn s1 (turnReport s1 t .abandoned none false))

/-- TURN_ABANDON as the motion controller decides it (R62). -/
def decideTurnAbandon (s : State) : Decision :=
  match heldTurn s with
  | none => refuse s .notHeld
  | some t => accept (abandonTurn s t) (.turnAbandon t.seq (s.volume.known && beforeGrip t.stage))

/-- TURN_ABANDON (R62). -/
def execTurnAbandon (tag : Byte) (s : State) : Host.Outcome State Fault Refusal :=
  .next (serve 0x25#8 tag decideTurnAbandon s)

/-- The pressure limit after a MOTION_SET: the present value clamped against the target in force, or the
old limit raised above it (R66). -/
def newLimit (limit : Option Nat) (old target : Nat) : Nat :=
  match limit with
  | none => if old ≤ target then target + 1 else old
  | some v => clamp v (target + 1) 200

/-- The profile after a MOTION_SET (R66). -/
def newProfile (p : Profile) (target tolerance limit dwellMax plateBase airTime gripRetries : Option Nat) :
    Profile :=
  let t := clampOr target p.target 5 150
  { target := t
    tolerance := clampOr tolerance p.tolerance 1 50
    limit := newLimit limit p.limit t
    dwellMax := clampOr dwellMax p.dwellMax 10 600
    plateBase := clampOr plateBase p.plateBase 0 60000
    airTime := clampOr airTime p.airTime 100 2000
    gripRetries := clampOr gripRetries p.gripRetries 0 5 }

/-- MOTION_SET as the motion controller decides it (R66). -/
def decideMotionSet (target tolerance limit dwellMax plateBase airTime gripRetries : Option Nat) (s : State) :
    Decision :=
  let p := newProfile s.motion.profile target tolerance limit dwellMax plateBase airTime gripRetries
  accept { s with motion.profile := p }
    (.motionSet p
      [wasClamped target 5 150, wasClamped tolerance 1 50,
       decide (p.limit ≠ limit.getD s.motion.profile.limit), wasClamped dwellMax 10 600,
       wasClamped plateBase 0 60000, wasClamped airTime 100 2000, wasClamped gripRetries 0 5])

/-- MOTION_SET (R66). -/
def execMotionSet (tag : Byte)
    (target tolerance limit dwellMax plateBase airTime gripRetries : Option Nat) (s : State) :
    Host.Outcome State Fault Refusal :=
  .next (serve 0x26#8 tag
    (decideMotionSet target tolerance limit dwellMax plateBase airTime gripRetries) s)

/-- The turn record as MOTION_QUERY gives it (R52, R67). -/
def turnView (t : Turn) : TurnView :=
  { seq := t.seq, direction := t.direction, origin := t.origin, override := t.override, leaf := t.leaf
    oldOpening := t.oldOpening, held := t.held, stage := t.stage, recovery := t.recovery, retries := t.retries
    attempts := t.attempts, doublePicks := t.doublePicks, limits := t.limits, start := stamp t.start }

/-- The fields of a MOTION_QUERY reply (R67). -/
def motionView (s : State) : MotionView :=
  { platen := s.motion.platen, raisePending := s.motion.raisePending, pressure := s.motion.pressure
    dwellLeft := s.motion.dwell.map fun d => d.expiry - now s
    positions := platePositions s, targets := s.motion.plateTargets, limits := s.motion.plateLimits
    plateState := s.motion.plateState, arm := armPosition s, armPowered := s.motion.armPowered
    suction := s.motion.suction, keptOn := s.motion.keptOn, air := s.motion.air
    turn := s.motion.turn.map turnView, profile := s.motion.profile }

/-- MOTION_QUERY as the motion controller decides it (R67). In IDLE the arm drive state reads as it stood at the entry,
although R65 de-energises the drive (log 40). -/
def decideMotionQuery (s : State) : Decision := accept s (.motionQuery (motionView s))

/-- MOTION_QUERY (R67). -/
def execMotionQuery (tag : Byte) (s : State) : Host.Outcome State Fault Refusal :=
  .next (observe 0x27#8 tag decideMotionQuery s)

/-! ### The platen -/

/-- The timeout of the platen state `p` has expired (R45, R47). -/
def platenExpired (s : State) (p : Platen) : Bool :=
  decide (s.motion.platen = p) && reached s s.motion.platenDeadline

/-- A lowering that timed out: its fault, and the safe state's raise (R45, R63). -/
def loweringFault (s : State) (kind : FaultKind) : State :=
  settle (raiseFault { s with motion.platenDeadline := none } kind none)

/-- LOWERING_TIMEOUT (R45). -/
def execLoweringTimeout (s : State) : Host.Outcome State Fault Refusal :=
  .next (if platenExpired s .lowering then loweringFault s .noContact else s)

/-- PRESSING_TIMEOUT (R45). -/
def execPressingTimeout (s : State) : Host.Outcome State Fault Refusal :=
  .next (if platenExpired s .pressing then loweringFault s .pressureNotReached else s)

/-- RAISE_TIMEOUT (R47): the platen is STOPPED, and the fault raised. -/
def execRaiseTimeout (s : State) : Host.Outcome State Fault Refusal :=
  .next (if platenExpired s .raising then settle (raiseFault (stopPlaten s) .raiseTimeout none) else s)

/-- What the dwell raise waits for (R48). -/
def dwellDeferral (s : State) : Deferral :=
  if captureInFlight s then .capture else if held s then .hold else .none

/-- The dwell timer expires: the report, and the raise or its deferral (R48). -/
def expireDwell (s : State) (d : Dwell) : State :=
  let s1 := offerMajor { s with motion.dwell := none }
    (.dwellExpired s.volume.k s.volume.known d.maximum d.expiry (dwellDeferral s))
  match dwellDeferral s with
  | .none => settle (startRaise s1 false)
  | .capture => { s1 with motion.dwellDeferred := true }
  | .hold => { s1 with motion.raisePending := true }

/-- DWELL_EXPIRY (R48). -/
def execDwellExpiry (s : State) : Host.Outcome State Fault Refusal :=
  .next
    (match s.motion.dwell with
    | none => s
    | some d => if d.expiry ≤ now s then expireDwell s d else s)

/-! ### The plates -/

/-- PLATES_AT_TARGET (R50), for an adjustment that is not stopped by a hold. -/
def execPlatesAtTarget (s : State) : Host.Outcome State Fault Refusal :=
  .next
    (if adjusting s && s.motion.plateDeadline.isSome then
      settle (runMotion
        { s with
          motion.plateState := .settled
          motion.plateDeadline := none
          motion.platePositions := s.motion.plateTargets })
    else s)

/-- PLATE_TIMEOUT (R50). -/
def execPlateTimeout (s : State) : Host.Outcome State Fault Refusal :=
  .next
    (if adjusting s && reached s s.motion.plateDeadline then
      settle (raiseFault { s with motion.plateState := .unsettled, motion.plateDeadline := none }
        .plateTimeout none)
    else s)

/-! ### The turn -/

/-- The running turn whose stage timeout or air time has ended. -/
def expiredTurn (s : State) : Option Turn :=
  s.motion.turn.filter fun t => !t.held && reached s t.deadline

/-- The air time of a turn ends: AIR ends, or a regrip switches the suction on again (R53, R54). -/
def endAir (s : State) (t : Turn) : State :=
  let s1 : State := { s with motion.air := false }
  settle (runMotion (if t.stage = .air then startStage s1 .reach else startGrip s1))

/-- An air burst of a turn is running: the AIR stage or a regrip. -/
def inAir (t : Turn) : Bool := decide (t.stage = .air) || (decide (t.stage = .grip) && t.regripAir)

/-- AIR_TIME_END (R53, R54). -/
def execAirTimeEnd (s : State) : Host.Outcome State Fault Refusal :=
  .next
    (match expiredTurn s with
    | none => s
    | some t => if inAir t then endAir s t else s)

/-- A stage timeout raises its fault (R53 to R57). -/
def stageFault (s : State) (kind : FaultKind) : State := settle (raiseFault s kind none)

/-- The stages whose timeout is ARM_TIMEOUT (R53, R55, R57). -/
def movesArm : Stage → Bool
  | .reach => true
  | .sweep => true
  | .park => true
  | _ => false

/-- ARM_TIMEOUT (R53, R55, R57). -/
def execArmTimeout (s : State) : Host.Outcome State Fault Refusal :=
  .next
    (match expiredTurn s with
    | none => s
    | some t => if movesArm t.stage then stageFault s .armTimeout else s)

/-- A regrip starts: a retry is used, the suction goes off and the air valve opens (R54). -/
def startRegrip (s : State) : State :=
  restartIdle
    { modifyTurn (suctionOff s) fun t =>
        { t with
          retries := t.retries - 1, regripAir := true
          deadline := some (now s + ms s.motion.profile.airTime) } with
      motion.air := true
      volume.gripRetries := satSucc counterMax s.volume.gripRetries }

/-- A failed grip attempt: a regrip, or GRIP_FAILED with no retry remaining (R54). -/
def failGrip (s : State) (t : Turn) : State :=
  if t.retries = 0 then stageFault s .gripFailed else startRegrip s

/-- GRIP_TIMEOUT (R54). -/
def execGripTimeout (s : State) : Host.Outcome State Fault Refusal :=
  .next
    (match expiredTurn s with
    | none => s
    | some t => if t.stage = .grip ∧ t.regripAir = false then failGrip s t else s)

/-- RELEASE_TIMEOUT (R56). -/
def execReleaseTimeout (s : State) : Host.Outcome State Fault Refusal :=
  .next
    (match expiredTurn s with
    | none => s
    | some t => if t.stage = .release then stageFault s .leafLost else s)

/-- VERIFY_TIMEOUT (R56). -/
def execVerifyTimeout (s : State) : Host.Outcome State Fault Refusal :=
  .next
    (match expiredTurn s with
    | none => s
    | some t => if t.stage = .verify then stageFault s .leafLost else s)

end Sys2Proof.Machine
end

