-- ==== Sys2Proof/Machine/Times.lean ====
section
/-! DEFINITION. The resets (R145, R180), the 1 ms tick with its pressure reading and period boundary (R134, R136
to R139, R45, R46), and the expiry of the silence timer and of the idle timer (R139, R143). -/
namespace Sys2Proof.Machine

/-- POWER_ON_RESET (R145). -/
def execPowerOnReset (s : State) : Host.Outcome State Fault Refusal := .next (powerOn s)

/-- SOFT_RESET (R180). -/
def execSoftReset (s : State) : Host.Outcome State Fault Refusal := .next (softReset s)

/-! ### The tick -/

/-- The millisecond count after a tick wraps at 2^32 (R134). -/
def nextMs (n : Nat) : Nat := (n + 1) % 4294967296

/-- The tick phase starts again, the millisecond count rises, and every tenth tick is a 10 ms tick start
(R134). -/
def countMs (t : Timebase) : Timebase :=
  { t with
    phase := 0, ms := nextMs t.ms, tenth := (t.tenth + 1) % 10
    aimDue := t.aimDue || decide ((t.tenth + 1) % 10 = 0) }

/-- The count of an ARMED silence timer at a boundary; the eighth waits to be taken by LINK_SILENT (R138,
R139). -/
def countBoundary (l : Link) : Link :=
  match l.silence with
  | .armed =>
    if l.boundaries < 7 then { l with boundaries := l.boundaries + 1 } else { l with boundaryDue := true }
  | .off => l
  | .waiting => l

/-- A period boundary, where the millisecond count is a whole multiple of the period in force: it is counted,
and a pending tap takes effect (R136, R137). -/
def periodBoundary (s : State) : State :=
  if s.time.ms % period s.time.tap = 0 then
    { s with
      link := countBoundary s.link
      time.tap := s.time.pendingTap.getD s.time.tap
      time.pendingTap := none }
  else s

/-- The platen states in which pressure above the limit is a fault (R46). -/
def pressureWatched : Platen → Bool
  | .lowering => true
  | .pressing => true
  | .down => true
  | .stopped => true
  | .raised => false
  | .raising => false

/-- A pressure reading (R45, R46): above the limit it raises PRESSURE_HIGH, once until the reading has fallen
to the limit or below; in the band it brings a PRESSING platen DOWN. -/
def takeReading (s : State) (reading : Nat) : State :=
  let s1 : State := { s with motion.pressure := reading }
  if s.motion.profile.limit < reading then
    if pressureWatched s.motion.platen && !s.motion.pressureHigh then
      raiseFault { s1 with motion.pressureHigh := true } .pressureHigh none
    else s1
  else
    let s2 : State := { s1 with motion.pressureHigh := false }
    if s.motion.platen = .pressing ∧ inBand s.motion.profile reading = true then enterDown s2 else s2

/-- TICK_1MS (R134), at the completion of a millisecond. -/
def execTick1ms (reading : Nat) (s : State) : Host.Outcome State Fault Refusal :=
  .next
    (if s.time.phase = 1000 then
      settle (runMotion (takeReading (periodBoundary { s with time := countMs s.time }) reading))
    else s)

/-! ### Timers -/

/-- The eighth boundary of an ARMED silence timer waits to be counted. -/
def silenceExpired (s : State) : Bool := decide (s.link.silence = .armed) && s.link.boundaryDue

/-- LINK_SILENT (R139). -/
def execLinkSilent (s : State) : Host.Outcome State Fault Refusal :=
  .next
    (if silenceExpired s then
      settle (raiseFault
        { s with link.silence := .waiting, link.boundaries := 0, link.boundaryDue := false } .linkSilent none)
    else s)

/-- The idle timer has run for the idle setting (R141). -/
def idleExpired (s : State) : Bool :=
  !s.time.idle && decide (0 < s.time.idleSetting)
    && reached s (s.time.idleStart.map fun t => t + sec s.time.idleSetting)

/-- IDLE_TIMER_EXPIRY (R143): restarted while a turn or a capture is in flight, otherwise IDLE. -/
def execIdleTimerExpiry (s : State) : Host.Outcome State Fault Refusal :=
  .next
    (if idleExpired s then
      if turnInFlight s || captureInFlight s then restartIdle s else enterIdle s
    else s)

end Sys2Proof.Machine
end

