-- ==== Sys2Proof/Machine/Volumes.lean ====
section
/-! DEFINITION. The volume requests (R2 to R18). -/
namespace Sys2Proof.Machine

/-! ### VOLUME_LOAD -/

/-- The record that a load makes (R3). -/
def loadedVolume (s : State) (mark : Text) (part leaves thickness leafCeiling volumeCeiling limit reserve : Nat) :
    Volume :=
  { emptyVolume with
    state := .loaded, shelfMark := some mark, part := part, leafCount := leaves, thickness := thickness
    leafCeiling := leafCeiling, volumeCeiling := volumeCeiling, handlingLimit := limit, reserve := reserve
    loadTime := some (now s) }

/-- VOLUME_LOAD as the volume controller decides it (R2, R3). -/
def decideVolumeLoad (mark : Text) (part leaves thickness leafCeiling volumeCeiling limit reserve : Nat)
    (s : State) : Decision :=
  if volumeOpened s then refuse s .volumeOpen
  else if !validShelfMark mark then refuseField s .shelfMark
  else if !inRange part 0 99 then refuseField s .part
  else if !inRange leaves 1 2046 then refuseField s .leaves
  else if !inRange thickness 20 2000 then refuseField s .thickness
  else if !inRange leafCeiling 1 leafDoseMax then refuseField s .leafCeiling
  else if !inRange volumeCeiling 1 volumeDoseMax then refuseField s .volumeCeiling
  else if !inRange limit 1 255 then refuseField s .handlingLimit
  else if !inRange reserve 0 leafDoseMax then refuseField s .reserve
  else
    accept
      { s with
        volume := loadedVolume s mark part leaves thickness leafCeiling volumeCeiling limit reserve
        leaves := freshTable leaves
        plan := [] }
      (.volumeLoad (leaves + 2) (2 * leaves + 2))

/-- VOLUME_LOAD (R2, R3). -/
def execVolumeLoad (tag : Byte) (shelfMark : Text)
    (part leaves thickness leafCeiling volumeCeiling handlingLimit reserve : Nat) (s : State) :
    Host.Outcome State Fault Refusal :=
  .next (serve 0x10#8 tag
    (decideVolumeLoad shelfMark part leaves thickness leafCeiling volumeCeiling handlingLimit reserve) s)

/-! ### VOLUME_OPEN -/

/-- The platen's part in the checks of VOLUME_OPEN and RESEAT (R4, R9). -/
def platenRefusal : Platen → Option Result
  | .lowering => some .busyMotion
  | .raising => some .busyMotion
  | .pressing => some .wrongState
  | .down => some .wrongState
  | .stopped => some .wrongState
  | .raised => none

/-- VOLUME_OPEN as the volume controller decides it (R4). -/
def decideVolumeOpen (k : Nat) (s : State) : Decision :=
  if s.volume.state ≠ .loaded then refuse s .wrongState
  else if s.volume.leafCount < k then refuseField s .opening
  else if s.safe.flag then refuse s .safeState
  else if held s then refuse s .held
  else
    match platenRefusal s.motion.platen with
    | some r => refuse s r
    | none =>
      let s1 := startAdjust
        { s with
          volume.state := .opened
          volume.k := k
          volume.known := true
          volume.openTime := some (now s) } k
      accept (settle (judgeSilence s1)) (.volumeOpen k (plateTargets s k) (plateLimits s k))

/-- VOLUME_OPEN (R4). -/
def execVolumeOpen (tag : Byte) (k : Nat) (s : State) : Host.Outcome State Fault Refusal :=
  .next (serve 0x11#8 tag (decideVolumeOpen k) s)

/-! ### VOLUME_SET -/

/-- The first present field of VOLUME_SET outside its range, in the order of the mask (R6). -/
def volumeSetField (leafCeiling volumeCeiling limit reserve thickness : Option Nat) : Option FieldName :=
  if !optInRange leafCeiling 1 leafDoseMax then some .leafCeiling
  else if !optInRange volumeCeiling 1 volumeDoseMax then some .volumeCeiling
  else if !optInRange limit 1 255 then some .handlingLimit
  else if !optInRange reserve 0 leafDoseMax then some .reserve
  else if !optInRange thickness 20 2000 then some .thickness
  else none

/-- The first leaf, from index `i`, whose dose and outstanding prediction exceed a ceiling, with their sum
(R7). -/
def firstOver (s : State) (ceiling : Nat) : List Leaf → Nat → Option (Nat × Nat)
  | [], _ => none
  | l :: ls, i =>
    if ceiling < l.dose + outstanding s i then some (i, l.dose + outstanding s i)
    else firstOver s ceiling ls (i + 1)

/-- The ceiling check: the failing leaf, or none for the volume ceiling, with the sum compared (R7). -/
def ceilingCheck (s : State) (leafCeiling volumeCeiling : Option Nat) : Option (Option Nat × Nat) :=
  match leafCeiling.bind fun c => firstOver s c s.leaves 0 with
  | some x => some (some x.1, x.2)
  | none =>
    match volumeCeiling with
    | none => none
    | some c =>
      let sum := s.volume.totalDose + outstandingTotal s
      if c < sum then some (none, sum) else none

/-- VOLUME_SET as the volume controller decides it (R6, R7). -/
def decideVolumeSet (leafCeiling volumeCeiling limit reserve thickness : Option Nat) (s : State) : Decision :=
  if s.volume.state = .empty ∨ s.volume.state = .closed then refuse s .wrongState
  else
    match volumeSetField leafCeiling volumeCeiling limit reserve thickness with
    | some f => refuseField s f
    | none =>
      match ceilingCheck s leafCeiling volumeCeiling with
      | some x => (s, .ceilingBelowDose, .ceilingBelow x.1 x.2)
      | none =>
        let v : Volume :=
          { s.volume with
            leafCeiling := leafCeiling.getD s.volume.leafCeiling
            volumeCeiling := volumeCeiling.getD s.volume.volumeCeiling
            handlingLimit := limit.getD s.volume.handlingLimit
            reserve := reserve.getD s.volume.reserve
            thickness := thickness.getD s.volume.thickness }
        accept { s with volume := v }
          (.volumeSet v.leafCeiling v.volumeCeiling v.handlingLimit v.reserve v.thickness)

/-- VOLUME_SET (R6 to R8). -/
def execVolumeSet (tag : Byte) (leafCeiling volumeCeiling handlingLimit reserve thickness : Option Nat)
    (s : State) : Host.Outcome State Fault Refusal :=
  .next (serve 0x12#8 tag (decideVolumeSet leafCeiling volumeCeiling handlingLimit reserve thickness) s)

/-! ### VOLUME_CLOSE -/

/-- The greatest value of a list from index `i`, with the lowest index holding it; `best` so far. -/
def highest : List Nat → Nat → Nat × Nat → Nat × Nat
  | [], _, best => best
  | x :: xs, i, best => highest xs (i + 1) (if best.1 < x then (x, i) else best)

/-- The face census (R16). -/
def census (fs : List Face) : Census :=
  let n (st : FaceState) : Nat := fs.countP fun f => decide (f.state = st)
  { shot := n .shot, wanted := n .wanted, openFaces := n .opened, blank := n (.skipped .blank)
    missing := n (.skipped .missing), restricted := n (.skipped .restricted) }

/-- The VOLUME_SUMMARY of a record that closes (R16). -/
def summaryOf (s : State) (v : Volume) : Summary :=
  { volume := v
    highestDose := highest (s.leaves.map fun l => l.dose) 0 (0, 0)
    census := census (faceList s.leaves)
    gaps := gapCount s
    firstRun := (gapRunsFrom s 0).head?
    manualLeaves := s.leaves.countP fun l => l.manual
    highestHandled := highest (s.leaves.map fun l => l.handled) 0 (0, 0)
    overLimit := s.leaves.countP fun l => decide (v.handlingLimit < l.handled) }

/-- The motion that refuses a close (R14 check 2). -/
def closeBusy (s : State) : Bool :=
  turnInFlight s || adjusting s || decide (s.motion.platen = .lowering)
    || decide (s.motion.platen = .pressing) || decide (s.motion.platen = .raising)

/-- The record of a volume that closes now with a gap-face count (R15). -/
def closedVolume (s : State) (gaps : Nat) : Volume :=
  { s.volume with
    state := .closed, closeStatus := some (if gaps = 0 then .complete else .incomplete)
    closeTime := some (now s), platesPending := false }

/-- A close that is taken (R15): the hoods close, the lamps darken, the summary is queued. -/
def closeVolume (s : State) : State :=
  let v := closedVolume s (gapCount s)
  let s1 := closeBankHoods (clearHoodRequests { s with volume := v })
  settle (judgeSilence (enqueue s1 (.volumeSummary (summaryOf s v)) 0))

/-- VOLUME_CLOSE as the volume controller decides it (R14, R15). -/
def decideVolumeClose (force : Bool) (s : State) : Decision :=
  if !volumeOpened s then refuse s .wrongState
  else if closeBusy s then refuse s .busyMotion
  else if captureInFlight s || !s.seq.orders.isEmpty then refuse s .busyCapture
  else if Config.queueCapacity ≤ s.queue.reports.length then refuse s .queueFull
  else if gapCount s ≠ 0 ∧ force = false then
    let run := (gapRunsFrom s 0).headD (0, 0)
    (s, .gaps, .gapsFound (gapCount s) run.1 run.2)
  else
    accept (closeVolume s)
      (.volumeClose (if gapCount s = 0 then .complete else .incomplete) (gapCount s)
        ((s.queue.lastSeq + 1) % 65536))

/-- VOLUME_CLOSE (R14 to R16). -/
def execVolumeClose (tag : Byte) (force : Bool) (s : State) : Host.Outcome State Fault Refusal :=
  .next (serve 0x13#8 tag (decideVolumeClose force) s)

/-! ### VOLUME_DISCARD, VOLUME_QUERY -/

/-- VOLUME_DISCARD as the volume controller decides it (R17): every field returns to its EMPTY value, opening k and its
flag with them, although R5 says that a discard changes neither (log 39). -/
def decideVolumeDiscard (s : State) : Decision :=
  match s.volume.state with
  | .opened => refuse s .volumeOpen
  | .empty => refuse s .noVolume
  | _ => accept { s with volume := emptyVolume, leaves := [], plan := [] } .none

/-- VOLUME_DISCARD (R17). -/
def execVolumeDiscard (tag : Byte) (s : State) : Host.Outcome State Fault Refusal :=
  .next (serve 0x14#8 tag decideVolumeDiscard s)

/-- The volume record as VOLUME_QUERY gives it, its times as timebase values (R18, R133). -/
def volumeView (v : Volume) : Volume :=
  { v with
    loadTime := v.loadTime.map stamp, openTime := v.openTime.map stamp, closeTime := v.closeTime.map stamp }

/-- VOLUME_QUERY (R18). -/
def execVolumeQuery (tag : Byte) (s : State) : Host.Outcome State Fault Refusal :=
  .next (serve 0x15#8 tag (fun s => accept s (.volumeQuery (volumeView s.volume))) s)

/-! ### RESEAT -/

/-- The checks of RESEAT that follow those of its fields (R9). -/
def reseatRefusal (s : State) : Option Result :=
  if turnInFlight s then some .busyMotion
  else if captureInFlight s then some .busyCapture
  else if held s && !s.safe.flag then some .held
  else platenRefusal s.motion.platen

/-- The manual turn of a leaf that a RESEAT names (R10). -/
def countManual (s : State) (leaf : Option Nat) : State :=
  match leaf with
  | none => s
  | some i =>
    { countHandling s i with
      volume.turnsDone := satSucc counterMax s.volume.turnsDone
      volume.manualTurns := satSucc counterMax s.volume.manualTurns }

/-- A RESEAT that is taken (R10, R11, R64). -/
def reseatAt (s : State) (k : Nat) (leaf : Option Nat) : State :=
  let s1 : State := countManual { s with volume.k := k, volume.known := true } leaf
  let s2 := if s.motion.keptOn then suctionOff s1 else s1
  settle (if s.safe.flag then { s2 with volume.platesPending := true } else startAdjust s2 k)

/-- RESEAT as the volume controller decides it (R9 to R11). -/
def decideReseat (k : Nat) (leaf : Option Nat) (s : State) : Decision :=
  if !volumeOpened s then refuse s .noVolume
  else if s.volume.leafCount < k then refuseField s .opening
  else if !optInRange leaf 1 s.volume.leafCount then refuseField s .manualLeaf
  else
    match reseatRefusal s with
    | some r => refuse s r
    | none =>
      accept (reseatAt s k leaf)
        (.reseat k (plateTargets s k) (plateLimits s k)
          (leaf.map fun i => satSucc 255 (getLeaf s i).handled) s.safe.flag)

/-- RESEAT (R9 to R11). -/
def execReseat (tag : Byte) (k : Nat) (manualLeaf : Option Nat) (s : State) :
    Host.Outcome State Fault Refusal :=
  .next (serve 0x16#8 tag (decideReseat k manualLeaf) s)

end Sys2Proof.Machine
end

