-- ==== Sys2Proof/Machine/Dispatch.lean ====
section
/-! DEFINITION. One arm per row of spec/opcode_table.json: the meaning of each command. -/
namespace Sys2Proof.Machine

/-- The effect of a command on everything but the queue. -/
def exec (i : Instr) (s : State) : Host.Outcome State Fault Refusal :=
  match i with
  | .powerOnReset => Sys2Proof.Machine.execPowerOnReset s
  | .softReset => Sys2Proof.Machine.execSoftReset s
  | .byteReceived byte badStop => Sys2Proof.Machine.execByteReceived byte badStop s
  | .gapError => Sys2Proof.Machine.execGapError s
  | .replySent => Sys2Proof.Machine.execReplySent s
  | .ident tag => Sys2Proof.Machine.execIdent tag s
  | .status tag => Sys2Proof.Machine.execStatus tag s
  | .time tag => Sys2Proof.Machine.execTime tag s
  | .fetch tag => Sys2Proof.Machine.execFetch tag s
  | .linkSet tag enable tap clearCount => Sys2Proof.Machine.execLinkSet tag enable tap clearCount s
  | .reset tag => Sys2Proof.Machine.execReset tag s
  | .safe tag => Sys2Proof.Machine.execSafe tag s
  | .clearSafe tag => Sys2Proof.Machine.execClearSafe tag s
  | .idleSet tag seconds => Sys2Proof.Machine.execIdleSet tag seconds s
  | .volumeLoad tag shelfMark part leaves thickness leafCeiling volumeCeiling handlingLimit reserve => Sys2Proof.Machine.execVolumeLoad tag shelfMark part leaves thickness leafCeiling volumeCeiling handlingLimit reserve s
  | .volumeOpen tag k => Sys2Proof.Machine.execVolumeOpen tag k s
  | .volumeSet tag leafCeiling volumeCeiling handlingLimit reserve thickness => Sys2Proof.Machine.execVolumeSet tag leafCeiling volumeCeiling handlingLimit reserve thickness s
  | .volumeClose tag force => Sys2Proof.Machine.execVolumeClose tag force s
  | .volumeDiscard tag => Sys2Proof.Machine.execVolumeDiscard tag s
  | .volumeQuery tag => Sys2Proof.Machine.execVolumeQuery tag s
  | .reseat tag k manualLeaf => Sys2Proof.Machine.execReseat tag k manualLeaf s
  | .leafMark tag leaf recto verso action reason => Sys2Proof.Machine.execLeafMark tag leaf recto verso action reason s
  | .leafQuery tag first count => Sys2Proof.Machine.execLeafQuery tag first count s
  | .gapsQuery tag first => Sys2Proof.Machine.execGapsQuery tag first s
  | .planSet tag segments => Sys2Proof.Machine.execPlanSet tag segments s
  | .planQuery tag position => Sys2Proof.Machine.execPlanQuery tag position s
  | .lower tag => Sys2Proof.Machine.execLower tag s
  | .raise tag => Sys2Proof.Machine.execRaise tag s
  | .turn tag override => Sys2Proof.Machine.execTurn tag override s
  | .turnBack tag override => Sys2Proof.Machine.execTurnBack tag override s
  | .turnResume tag => Sys2Proof.Machine.execTurnResume tag s
  | .turnAbandon tag => Sys2Proof.Machine.execTurnAbandon tag s
  | .motionSet tag target tolerance limit dwellMax plateBase airTime gripRetries => Sys2Proof.Machine.execMotionSet tag target tolerance limit dwellMax plateBase airTime gripRetries s
  | .motionQuery tag => Sys2Proof.Machine.execMotionQuery tag s
  | .bankPower tag mask command => Sys2Proof.Machine.execBankPower tag mask command s
  | .bankSet tag mask recharge => Sys2Proof.Machine.execBankSet tag mask recharge s
  | .aimSet tag mask requested guard => Sys2Proof.Machine.execAimSet tag mask requested guard s
  | .recipeSet tag recipe levels duration => Sys2Proof.Machine.execRecipeSet tag recipe levels duration s
  | .recipeQuery tag recipe => Sys2Proof.Machine.execRecipeQuery tag recipe s
  | .lampQuery tag => Sys2Proof.Machine.execLampQuery tag s
  | .lampCal tag source points spill => Sys2Proof.Machine.execLampCal tag source points spill s
  | .calQuery tag source => Sys2Proof.Machine.execCalQuery tag source s
  | .doseQuery tag => Sys2Proof.Machine.execDoseQuery tag s
  | .shoot tag orderTag sides recipe purpose notBefore => Sys2Proof.Machine.execShoot tag orderTag sides recipe purpose notBefore s
  | .cameraSet tag mask pulse delay window stored lateLimit => Sys2Proof.Machine.execCameraSet tag mask pulse delay window stored lateLimit s
  | .captureQuery tag => Sys2Proof.Machine.execCaptureQuery tag s
  | .lineConfig tag line dir pull drive sense polarity bothEdges debounce event wake hold => Sys2Proof.Machine.execLineConfig tag line dir pull drive sense polarity bothEdges debounce event wake hold s
  | .lineWrite tag mask values => Sys2Proof.Machine.execLineWrite tag mask values s
  | .lineRead tag => Sys2Proof.Machine.execLineRead tag s
  | .lineCounts tag clear => Sys2Proof.Machine.execLineCounts tag clear s
  | .lineQuery tag line => Sys2Proof.Machine.execLineQuery tag line s
  | .lineClear tag mask => Sys2Proof.Machine.execLineClear tag mask s
  | .lineBind tag fn line => Sys2Proof.Machine.execLineBind tag fn line s
  | .pinLevelChange line high => Sys2Proof.Machine.execPinLevelChange line high s
  | .acceptedEdge line => Sys2Proof.Machine.execAcceptedEdge line s
  | .chargeGood bank good => Sys2Proof.Machine.execChargeGood bank good s
  | .tick1ms reading => Sys2Proof.Machine.execTick1ms reading s
  | .linkSilent => Sys2Proof.Machine.execLinkSilent s
  | .aimTick => Sys2Proof.Machine.execAimTick s
  | .idleTimerExpiry => Sys2Proof.Machine.execIdleTimerExpiry s
  | .loweringTimeout => Sys2Proof.Machine.execLoweringTimeout s
  | .pressingTimeout => Sys2Proof.Machine.execPressingTimeout s
  | .raiseTimeout => Sys2Proof.Machine.execRaiseTimeout s
  | .dwellExpiry => Sys2Proof.Machine.execDwellExpiry s
  | .platesAtTarget => Sys2Proof.Machine.execPlatesAtTarget s
  | .plateTimeout => Sys2Proof.Machine.execPlateTimeout s
  | .airTimeEnd => Sys2Proof.Machine.execAirTimeEnd s
  | .armTimeout => Sys2Proof.Machine.execArmTimeout s
  | .gripTimeout => Sys2Proof.Machine.execGripTimeout s
  | .releaseTimeout => Sys2Proof.Machine.execReleaseTimeout s
  | .verifyTimeout => Sys2Proof.Machine.execVerifyTimeout s
  | .bankChargeTimeout bank => Sys2Proof.Machine.execBankChargeTimeout bank s
  | .conditioningFlash bank => Sys2Proof.Machine.execConditioningFlash bank s
  | .conditioningComplete bank => Sys2Proof.Machine.execConditioningComplete bank s
  | .captureFiring bank => Sys2Proof.Machine.execCaptureFiring bank s
  | .flashEnd bank => Sys2Proof.Machine.execFlashEnd bank s
  | .recoveryEnd bank => Sys2Proof.Machine.execRecoveryEnd bank s
  | .topUpStart bank => Sys2Proof.Machine.execTopUpStart bank s
  | .topUpEnd bank => Sys2Proof.Machine.execTopUpEnd bank s
  | .wakingEnd bank => Sys2Proof.Machine.execWakingEnd bank s
  | .hoodTravelEnd hood => Sys2Proof.Machine.execHoodTravelEnd hood s
  | .notBeforeTime => Sys2Proof.Machine.execNotBeforeTime s
  | .armingTimeout => Sys2Proof.Machine.execArmingTimeout s
  | .triggerPulseEnd side => Sys2Proof.Machine.execTriggerPulseEnd side s
  | .syncWindowClose side => Sys2Proof.Machine.execSyncWindowClose side s
  | .storedTimeout side => Sys2Proof.Machine.execStoredTimeout side s
  | .conditioningFlashDue bank => Sys2Proof.Machine.execConditioningFlashDue bank s

end Sys2Proof.Machine
end

