-- ==== Sys2Proof/Decode.lean ====
section
/-! DEFINITION. The commands that words and frames spell. No row of the table gives bits, so no table word
spells a command. A request frame spells its request by the layouts of R187 and R188; where the manual gives a
request's length and not the order of its fields, the order is read from the rules (log 10). -/
namespace Sys2Proof

open Machine

/-- The command that a word spells by the table's bits: none, since no row gives bits (log 2). -/
def decodeTableWord (_nbits _w : Nat) : Option Instr := none

/-! ### Fields of a payload -/

/-- The number in the `n` bytes of a payload from offset `off` (R187). -/
def fieldNum (p : List Byte) (off n : Nat) : Nat := ofLe ((p.drop off).take n)

/-- Bit `i` of the byte at an offset (R187). -/
def fieldBit (p : List Byte) (off i : Nat) : Bool := (p.getD off 0#8).getLsbD i

/-- The four bank bits of a mask byte (R187). -/
def bankMask (p : List Byte) (off : Nat) : Quad Bool :=
  ⟨fieldBit p off 0, fieldBit p off 1, fieldBit p off 2, fieldBit p off 3⟩

/-- The two bits of a lamp or side mask byte (R187). -/
def pairMask (p : List Byte) (off : Nat) : Pair Bool := ⟨fieldBit p off 0, fieldBit p off 1⟩

/-- A field present where its bit of the presence byte at offset `off` is set (R187). -/
def ifBit (p : List Byte) (off i : Nat) (v : Nat) : Option Nat := if fieldBit p off i then some v else none

/-- A field that is absent as 0 (R187). -/
def nonZero (v : Nat) : Option Nat := if v = 0 then none else some v

/-- A coded field: the member of a list at the place of its code. -/
def coded {α : Type} (xs : List α) (code : Nat) : Option α := xs[code]?

/-- A line mask of four bytes (R187). -/
def lineMask (p : List Byte) (off : Nat) : LineMask := BitVec.ofNat 32 (fieldNum p off 4)

/-- The actions of LEAF_MARK in the order of R29 (log 10). -/
def leafActions : List LeafAction := [.skip, .unskip, .want, .unwant, .manualOn, .manualOff]

/-- The skip reason of a LEAF_MARK: 0 is absent (R187). -/
def reasonField (code : Nat) : Option (Option SkipReason) :=
  match code with
  | 0 => none
  | 1 => some (some .blank)
  | 2 => some (some .missing)
  | 3 => some (some .restricted)
  | _ => some none

/-- The sides of an order (R187). -/
def sidesField (code : Nat) : Option Sides :=
  match code with
  | 1 => some .left
  | 2 => some .right
  | 3 => some .both
  | _ => none

/-- The six sources: the banks, then the aim lamps (log 10). -/
def allSources : List Source := [.bank .a, .bank .b, .bank .c, .bank .d, .aim .left, .aim .right]

/-- The schemes in the order of their codes (R188). -/
def allSchemes : List Scheme := [.foliated, .paginated, .roman, .unnumbered, .plate]

/-- The characters of a prefix field up to its padding (R188). -/
def unpad (t : Text) : Text := (t.reverse.dropWhile fun b => b == 0#8).reverse

/-- A segment in its ten bytes (R188). -/
def segmentField (p : List Byte) : SegmentField :=
  let v := fieldNum p 2 2
  { first := fieldNum p 0 2, last := v % 4096, scheme := coded allSchemes (v / 4096)
    start := fieldNum p 4 2, pfx := unpad ((p.drop 6).take 4) }

/-- The segments of a payload, ten bytes each (R188). -/
def segmentFields : Nat → List Byte → List SegmentField
  | 0, _ => []
  | n + 1, p => segmentField p :: segmentFields n (p.drop 10)

/-- `n` numbers of four bytes each. -/
def pointFields : Nat → List Byte → List Nat
  | 0, _ => []
  | n + 1, p => fieldNum p 0 4 :: pointFields n (p.drop 4)

/-! ### Requests -/

/-- The request of a kind with tag `t` and a payload of the kind's length (R188). The presence byte of AIM_SET and of
CAMERA_SET stands at the head, before the lamp or side mask (R187). The eight bytes of LINE_CONFIG are the line, the
direction, the pull, the drive, the sense, the polarity, the debounce, and one byte with the both-edges, event, wake and
hold flags in bits 0 to 3 (log 10). A FORCE or OVERRIDE byte is read by its bit 0 alone (log 48). -/
def requestOf (kind : Nat) (t : Byte) (p : List Byte) : Option Instr :=
  match kind with
  | 0x01 => some (.ident t)
  | 0x02 => some (.status t)
  | 0x03 => some (.time t)
  | 0x04 => some (.fetch t)
  | 0x05 => some (.linkSet t (fieldNum p 0 1) (fieldNum p 1 1) (fieldNum p 2 1))
  | 0x06 => some (.reset t)
  | 0x07 => some (.safe t)
  | 0x08 => some (.clearSafe t)
  | 0x09 => some (.idleSet t (fieldNum p 0 2))
  | 0x10 => some (.volumeLoad t (p.drop 21) (fieldNum p 1 1) (fieldNum p 2 2) (fieldNum p 4 2)
      (fieldNum p 6 4) (fieldNum p 10 6) (fieldNum p 16 1) (fieldNum p 17 4))
  | 0x11 => some (.volumeOpen t (fieldNum p 0 2))
  | 0x12 => some (.volumeSet t (ifBit p 0 0 (fieldNum p 1 4)) (ifBit p 0 1 (fieldNum p 5 6))
      (ifBit p 0 2 (fieldNum p 11 1)) (ifBit p 0 3 (fieldNum p 12 4)) (ifBit p 0 4 (fieldNum p 16 2)))
  | 0x13 => some (.volumeClose t (fieldBit p 0 0))
  | 0x14 => some (.volumeDiscard t)
  | 0x15 => some (.volumeQuery t)
  | 0x16 => some (.reseat t (fieldNum p 0 2) (nonZero (fieldNum p 2 2)))
  | 0x18 => some (.leafMark t (fieldNum p 0 2) (fieldBit p 2 0) (fieldBit p 2 1)
      (coded leafActions (fieldNum p 3 1)) (reasonField (fieldNum p 4 1)))
  | 0x19 => some (.leafQuery t (fieldNum p 0 2) (fieldNum p 2 1))
  | 0x1A => some (.gapsQuery t (fieldNum p 0 2))
  | 0x1B => some (.planSet t (segmentFields (p.length / 10) p))
  | 0x1C => some (.planQuery t (fieldNum p 0 1))
  | 0x20 => some (.lower t)
  | 0x21 => some (.raise t)
  | 0x22 => some (.turn t (fieldBit p 0 0))
  | 0x23 => some (.turnBack t (fieldBit p 0 0))
  | 0x24 => some (.turnResume t)
  | 0x25 => some (.turnAbandon t)
  | 0x26 => some (.motionSet t (ifBit p 0 0 (fieldNum p 1 2)) (ifBit p 0 1 (fieldNum p 3 2))
      (ifBit p 0 2 (fieldNum p 5 2)) (ifBit p 0 3 (fieldNum p 7 2)) (ifBit p 0 4 (fieldNum p 9 2))
      (ifBit p 0 5 (fieldNum p 11 2)) (ifBit p 0 6 (fieldNum p 13 1)))
  | 0x27 => some (.motionQuery t)
  | 0x30 => some (.bankPower t (bankMask p 0) (coded [false, true] (fieldNum p 1 1)))
  | 0x31 => some (.bankSet t (bankMask p 0) (fieldNum p 1 2))
  | 0x32 => some (.aimSet t (pairMask p 1) (ifBit p 0 0 (fieldNum p 2 2)) (ifBit p 0 1 (fieldNum p 4 2)))
  | 0x33 => some (.recipeSet t (fieldNum p 0 1)
      ⟨fieldNum p 1 2, fieldNum p 3 2, fieldNum p 5 2, fieldNum p 7 2⟩ (fieldNum p 9 2))
  | 0x34 => some (.recipeQuery t (fieldNum p 0 1))
  | 0x35 => some (.lampQuery t)
  | 0x38 => some (.lampCal t (coded allSources (fieldNum p 0 1)) (pointFields 11 (p.drop 1))
      (fieldNum p 45 2))
  | 0x39 => some (.calQuery t (coded allSources (fieldNum p 0 1)))
  | 0x3A => some (.doseQuery t)
  | 0x40 => some (.shoot t (fieldNum p 1 2) (sidesField (fieldNum p 3 1)) (fieldNum p 4 1)
      (coded [.normal, .reshoot] (fieldNum p 5 1)) (ifBit p 0 0 (fieldNum p 6 6)))
  | 0x41 => some (.cameraSet t (pairMask p 1) (ifBit p 0 0 (fieldNum p 2 2)) (ifBit p 0 1 (fieldNum p 4 4))
      (ifBit p 0 2 (fieldNum p 8 4)) (ifBit p 0 3 (fieldNum p 12 2)) (ifBit p 0 4 (fieldNum p 14 4)))
  | 0x42 => some (.captureQuery t)
  | 0x48 => some (.lineConfig t (fieldNum p 0 1) (coded [.inp, .out] (fieldNum p 1 1))
      (coded [.none, .down, .up] (fieldNum p 2 1))
      (coded [.pushPull, .openLow, .openHigh] (fieldNum p 3 1)) (coded [.edge, .level] (fieldNum p 4 1))
      (coded [.risingHigh, .fallingLow] (fieldNum p 5 1)) (fieldBit p 7 0) (fieldNum p 6 1)
      (fieldBit p 7 1) (fieldBit p 7 2) (fieldBit p 7 3))
  | 0x49 => some (.lineWrite t (lineMask p 0) (lineMask p 4))
  | 0x4A => some (.lineRead t)
  | 0x4B => some (.lineCounts t (lineMask p 0))
  | 0x4C => some (.lineQuery t (fieldNum p 0 1))
  | 0x4D => some (.lineClear t (lineMask p 0))
  | 0x4E => some (.lineBind t (coded allFns (fieldNum p 0 1))
      (if fieldNum p 1 1 = 255 then none else some (fieldNum p 1 1)))
  | _ => none

/-- The request that a frame spells, where its kind and length pass (R176). -/
def decodeRequest (f : Frame) : Option Instr :=
  match frameRefusal f with
  | some _ => none
  | none => requestOf f.kind.toNat f.tag f.payload

end Sys2Proof
end

