-- ==== Sys2Proof/Machine/Due.lean ====
section
/-! DEFINITION. What the part does when no command waits: the events that its own timers have made due become
its next commands, and where none is due a microsecond passes (log 1). -/
namespace Sys2Proof.Machine

/-- A command that is due under a condition. -/
def whenDue (c : Bool) (i : Instr) : List Instr := if c then [i] else []

/-- The accepted edges that are due, in line order (R147). -/
def dueEdges (s : State) : List Instr :=
  ((List.range Config.lineCount).filter fun i => (dueChange s (getLine s i)).isSome).map Instr.acceptedEdge

/-- The request that has been taken up for decision (R176). -/
def dueRequest (s : State) : List Instr := (s.link.deciding.bind decodeRequest).toList

/-- The due events of the link and the timebase. -/
def dueTimes (s : State) : List Instr :=
  whenDue (gapDue s) .gapError ++ whenDue (silenceExpired s) .linkSilent ++ whenDue s.time.aimDue .aimTick

/-- The due events of the platen and the plates. -/
def dueMotion (s : State) : List Instr :=
  whenDue (platenExpired s .lowering) .loweringTimeout ++ whenDue (platenExpired s .pressing) .pressingTimeout
    ++ whenDue (platenExpired s .raising) .raiseTimeout
    ++ whenDue (s.motion.dwell.any fun d => decide (d.expiry ≤ now s)) .dwellExpiry
    ++ whenDue (adjusting s && reached s s.motion.plateDeadline) .plateTimeout

/-- The due event of the turn in flight. -/
def dueTurn (s : State) : List Instr :=
  match expiredTurn s with
  | none => []
  | some t =>
    whenDue (inAir t) .airTimeEnd ++ whenDue (movesArm t.stage) .armTimeout
      ++ whenDue (decide (t.stage = .grip) && !t.regripAir) .gripTimeout
      ++ whenDue (decide (t.stage = .release)) .releaseTimeout
      ++ whenDue (decide (t.stage = .verify)) .verifyTimeout

/-- The due events of one flash bank. -/
def dueBank (s : State) (bk : Bank) : List Instr :=
  whenDue (bankExpired s bk .charging) (.bankChargeTimeout bk)
    ++ whenDue (conditioningDue s bk) (.conditioningFlashDue bk)
    ++ whenDue (dueGrant s bk false).isSome (.conditioningFlash bk)
    ++ whenDue (conditioningDone s bk) (.conditioningComplete bk)
    ++ whenDue (dueGrant s bk true).isSome (.captureFiring bk)
    ++ whenDue (reached s ((getBank s bk).flash.map fun f => f.ends)) (.flashEnd bk)
    ++ whenDue (decide ((getBank s bk).state = .recovering) && recharged s bk) (.recoveryEnd bk)
    ++ whenDue (topUpDue s bk && s.lamps.interval.isNone) (.topUpStart bk)
    ++ whenDue (bankExpired s bk .topping) (.topUpEnd bk)
    ++ whenDue (bankExpired s bk .waking) (.wakingEnd bk)

/-- The six hoods. -/
def allHoods : List HoodId := [.bank .a, .bank .b, .bank .c, .bank .d, .aim .left, .aim .right]

/-- The hoods whose travel has ended (R82). -/
def dueHoods (s : State) : List Instr :=
  (allHoods.filter fun i => reached s (getHood s i).deadline).map Instr.hoodTravelEnd

/-- The due events of one side. -/
def dueSide (s : State) (sd : Side) : List Instr :=
  whenDue (reached s (s.seq.pulses.get sd)) (.triggerPulseEnd sd)
    ++ whenDue (reached s (windowEnd s sd)) (.syncWindowClose sd)
    ++ whenDue (reached s (storedEnd s sd)) (.storedTimeout sd)

/-- The due events of orders and captures. -/
def dueCaptures (s : State) : List Instr :=
  whenDue (notBeforeDue s) .notBeforeTime ++ whenDue (expiredArming s).isSome .armingTimeout
    ++ allSides.flatMap (dueSide s)

/-- Every event that is due, in the order in which they are taken; the manual allows either order of events
that come together (log 1). -/
def dueEvents (s : State) : List Instr :=
  dueEdges s ++ dueRequest s ++ dueTimes s ++ dueMotion s ++ dueTurn s ++ allBanks.flatMap (dueBank s)
    ++ dueHoods s ++ dueCaptures s ++ whenDue (idleExpired s) .idleTimerExpiry

/-- A microsecond passes, unless a millisecond is complete and its tick is yet to be given (R133, R134). -/
def passMicrosecond (s : State) : State :=
  if s.time.phase < 1000 then
    { s with time.clock := s.time.clock + 1, time.phase := s.time.phase + 1 }
  else s

/-- A step with no command waiting. -/
def idleStep (s : State) : State :=
  match dueEvents s with
  | [] => passMicrosecond s
  | es => { s with pending := es }

end Sys2Proof.Machine
end

