-- ==== Sys2Proof/Safety.lean ====
section
/-! DEFINITION. What the statements speak of: the state a request is decided in and the reply it leaves, the tables
of checks that a request passes, the receiver fed with bytes, and the invariants that every step keeps. -/
namespace Sys2Proof.Machine

/-! ### Deciding and answering a request -/

/-- The state in which a request that restarts the idle timer is decided: an IDLE part is woken by it, and the timer
starts afresh with the setting in force (R142, R144). -/
def awake (kind : Byte) (s : State) : State :=
  let w := if s.time.idle then wake s (.request kind) else s
  { w with time.idleStart := if w.time.idleSetting = 0 then none else some w.time.clock }

/-- The reply with a result and its fields, built from the state after the request (R176, R177); the request is no
longer being decided. -/
def replied (kind tag : Byte) (r : Result) (f : Fields) (s : State) : State :=
  { s with
    link.reply := some ⟨kind ||| 0x80#8, tag, r, statusSummary s, f⟩
    link.deciding := s.link.deciding.filter fun g => !(g.kind == kind && g.tag == tag) }

/-- A row of a table of checks: the check failed, the refusal, and the fields of its reply. -/
abbrev Check := Bool × Result × Fields

/-- A row of a table of checks whose refusal names nothing. -/
def orElse (failed : Bool) (r : Result) : Check := (failed, r, .none)

/-- A row of a table of checks whose refusal is BAD_FIELD, naming a field. -/
def orField (failed : Bool) (f : FieldName) : Check := (failed, .badField, .badField f)

/-- The state after a request decided in state `a` by a table of checks: refused at the first check that failed,
with nothing else changed, or taken, leading to `u` with the fields `f`. -/
def decided (kind tag : Byte) (checks : List Check) (a u : State) (f : Fields) : State :=
  match checks.find? fun c => c.1 with
  | some c => replied kind tag c.2.1 c.2.2 a
  | none => replied kind tag .accepted f u

/-- The kind of a request that restarts the idle timer (R142, R188); the other commands have none. -/
def restartingKind : Instr → Option Byte
  | .linkSet .. => some 0x05#8
  | .reset .. => some 0x06#8
  | .safe .. => some 0x07#8
  | .clearSafe .. => some 0x08#8
  | .idleSet .. => some 0x09#8
  | .volumeLoad .. => some 0x10#8
  | .volumeOpen .. => some 0x11#8
  | .volumeSet .. => some 0x12#8
  | .volumeClose .. => some 0x13#8
  | .volumeDiscard .. => some 0x14#8
  | .volumeQuery .. => some 0x15#8
  | .reseat .. => some 0x16#8
  | .leafMark .. => some 0x18#8
  | .leafQuery .. => some 0x19#8
  | .gapsQuery .. => some 0x1A#8
  | .planSet .. => some 0x1B#8
  | .planQuery .. => some 0x1C#8
  | .lower .. => some 0x20#8
  | .raise .. => some 0x21#8
  | .turn .. => some 0x22#8
  | .turnBack .. => some 0x23#8
  | .turnResume .. => some 0x24#8
  | .turnAbandon .. => some 0x25#8
  | .motionSet .. => some 0x26#8
  | .bankPower .. => some 0x30#8
  | .bankSet .. => some 0x31#8
  | .aimSet .. => some 0x32#8
  | .recipeSet .. => some 0x33#8
  | .recipeQuery .. => some 0x34#8
  | .lampCal .. => some 0x38#8
  | .calQuery .. => some 0x39#8
  | .doseQuery .. => some 0x3A#8
  | .shoot .. => some 0x40#8
  | .cameraSet .. => some 0x41#8
  | .lineConfig .. => some 0x48#8
  | .lineWrite .. => some 0x49#8
  | .lineRead .. => some 0x4A#8
  | .lineCounts .. => some 0x4B#8
  | .lineQuery .. => some 0x4C#8
  | .lineClear .. => some 0x4D#8
  | .lineBind .. => some 0x4E#8
  | .powerOnReset | .softReset | .byteReceived .. | .gapError | .replySent | .ident .. | .status .. | .time ..
  | .fetch .. | .motionQuery .. | .lampQuery .. | .captureQuery .. | .pinLevelChange .. | .acceptedEdge ..
  | .chargeGood .. | .tick1ms .. | .linkSilent | .aimTick | .idleTimerExpiry | .loweringTimeout
  | .pressingTimeout | .raiseTimeout | .dwellExpiry | .platesAtTarget | .plateTimeout | .airTimeEnd | .armTimeout
  | .gripTimeout | .releaseTimeout | .verifyTimeout | .bankChargeTimeout .. | .conditioningFlash ..
  | .conditioningComplete .. | .captureFiring .. | .flashEnd .. | .recoveryEnd .. | .topUpStart .. | .topUpEnd ..
  | .wakingEnd .. | .hoodTravelEnd .. | .notBeforeTime | .armingTimeout | .triggerPulseEnd ..
  | .syncWindowClose .. | .storedTimeout .. | .conditioningFlashDue .. => none

/-! ### What several statements name -/

/-- The platen is in one of the states of a list. -/
def platenIn (s : State) (ps : List Platen) : Bool := ps.contains s.motion.platen

/-- The silence timer after a request that may change whether it is called for (R138). -/
def silenceJudged (s : State) : State :=
  let called := s.link.supervision && decide (s.volume.state = .opened)
  let after : Silence :=
    if s.link.silence = .waiting then .waiting else if called then .armed else .off
  { s with
    link.silence := after
    link.boundaries := if after = s.link.silence then s.link.boundaries else 0
    link.boundaryDue := s.link.boundaryDue && decide (after = s.link.silence) }

/-- The face state that a face action leaves, by the table of R23. -/
def faceAfterMark : LeafAction → SkipReason → FaceState → FaceState
  | .skip, r, .opened => .skipped r
  | .skip, r, .wanted => .skipped r
  | .unskip, _, .skipped _ => .opened
  | .want, _, .shot => .wanted
  | .unwant, _, .wanted => .shot
  | _, _, st => st

/-- The first check that a segment of PLAN_SET fails, on a volume of `n` leaves and after the segment before it (R36 checks
3 to 8). -/
def segmentFault (n : Nat) (before : Option SegmentField) (g : SegmentField) : Option PlanFailure :=
  [ (g.scheme.isNone, PlanFailure.scheme),
    (decide (g.start < 1 ∨ 9999 < g.start), .start),
    (decide (4 < g.pfx.length) || !g.pfx.all isMarkChar, .pfx),
    (decide (g.first < 1 ∨ n < g.last ∨ g.last < g.first), .bounds),
    (before.any fun p => decide (g.first < p.first), .order),
    (before.any fun p => decide (g.first ≤ p.last), .overlap) ].find? (fun x => x.1) |>.map fun x => x.2

/-- The checks of a turn in direction `d` (R51). -/
def turnChecks (s : State) (d : Direction) (override : Bool) : List Check :=
  let forward := decide (d = .forward)
  let leaf := if forward then s.volume.k + 1 else s.volume.k
  let faces := faceList s.leaves
  let gap (f : Nat) : Bool := (faces[f]?).any fun x => decide (x.state = .opened) || decide (x.state = .wanted)
  [ orElse (decide (s.volume.state ≠ .opened)) .noVolume,
    orElse (!s.volume.known) .openingUnknown,
    orElse s.safe.flag .safeState,
    orElse s.lines.hold.isSome .held,
    orElse (s.motion.turn.isSome || platenIn s [.lowering, .raising] || decide (s.motion.plateState = .moving))
      .busyMotion,
    orElse s.seq.capture.isSome .busyCapture,
    orElse ([Fn.armHome, .armLeft, .armRight, .vacuumOk, .leafSeenL, .leafSeenR, .platenTop].any fun f =>
      (lineOf s f).isNone) .notEquipped,
    orElse (!fnActive s .armHome) .wrongState,
    orElse (forward && decide (s.volume.k = s.volume.leafCount)) .atEnd,
    orElse (!forward && decide (s.volume.k = 0)) .atStart,
    orElse (getLeaf s leaf).manual .manualLeaf,
    orElse (forward && !override && (gap (2 * s.volume.k + 1) || gap (2 * s.volume.k + 2))) .facesOpen,
    orElse (!override && decide (s.volume.handlingLimit < (getLeaf s leaf).handled + 1)) .handlingLimit,
    orElse (decide (64 ≤ s.queue.reports.length + s.queue.reserved)) .queueFull ]

/-- The state after the acceptance of a turn and as far as its first stages go at once: AIR with the platen RAISED
or at its top stop, otherwise RAISE with a raise under way (R12, R52, R53). -/
def turnAccepted (s : State) (d : Direction) (origin : Origin) (override : Bool) : State :=
  let n := if s.volume.turnSeq < 65535 then s.volume.turnSeq + 1 else 1
  let air := decide (s.motion.platen = .raised) || fnActive s .platenTop
  let t : Turn :=
    { seq := n, direction := d, origin := origin, override := override
      leaf := if d = .forward then s.volume.k + 1 else s.volume.k
      oldOpening := s.volume.k, held := false, stage := if air then .air else .raise, recovery := false
      retries := s.motion.profile.gripRetries, attempts := 0, doublePicks := 0, limits := ⟨false, false⟩
      start := now s, deadline := if air then some (now s + ms s.motion.profile.airTime) else none
      regripAir := false, noted := false }
  let s1 : State :=
    if s.motion.platen = .raised then s
    else
      { s with
        motion.platen := if air then .raised else .raising
        motion.platenDeadline := if air then none else some (now s + 3000000)
        motion.raisePending := false
        motion.safeRaise := false
        motion.dwell := none
        motion.dwellDeferred := false }
  { s1 with
    volume.turnSeq := n
    queue.reserved := s.queue.reserved + 1
    motion.turn := some t
    motion.air := s.motion.air || air
    time.idleStart := if s.time.idleSetting = 0 then none else some (now s) }

/-- The checks of a capture order from check 2 of R111 on. -/
def orderChecks (s : State) (x : Sides) (recipe : Nat) : List Check :=
  let r := getRecipe s recipe
  let left := wants x .left
  let right := wants x .right
  let missing (fs : List Fn) : Bool := fs.any fun f => (lineOf s f).isNone
  let uncalibrated (bk : Bank) : Bool :=
    decide (0 < r.levels.get bk) && (s.dose.banks.get bk).points.all fun p => decide (p = 0)
  [ orElse (decide (s.volume.state ≠ .opened)) .noVolume,
    orElse s.safe.flag .safeState,
    orElse (decide (4 ≤ s.seq.orders.length)) .queueFull,
    orElse (decide (64 ≤ s.queue.reports.length + s.queue.reserved)) .queueFull,
    orElse (decide (65535 < s.volume.captureSeq + s.seq.orders.length + 1)) .seqExhausted,
    orElse ((left && missing [.camLTrigger, .camLSync, .camLStored])
      || (right && missing [.camRTrigger, .camRSync, .camRStored])) .notEquipped,
    orField ((left && decide (r.levels.a = 0) && decide (r.levels.b = 0))
      || (right && decide (r.levels.c = 0) && decide (r.levels.d = 0))) .recipe,
    orElse ((left && (uncalibrated .a || uncalibrated .b)) || (right && (uncalibrated .c || uncalibrated .d)))
      .notCalibrated ]

/-- A capture order enters the queue with its reserved slot, and may come to go at once (R112, R114). -/
def orderAccepted (s : State) (o : Order) : State :=
  settle { s with queue.reserved := s.queue.reserved + 1, seq.orders := s.seq.orders ++ [o] }

/-- A bank record that enters READY at a clock value; a standing hood request opens its hood (R70, R77, R83). -/
def readied (t : Nat) (r : BankRec) : BankRec :=
  { r with
    state := .ready, readySince := some t, deadline := none
    hood := if r.hoodRequest.isSome then openHood t r.hood else r.hood }

/-- A bank record that enters STANDBY at a clock value; a conditioning broken off by it loses its count (R69, R78). -/
def stoodBy (t : Nat) (r : BankRec) : BankRec :=
  { r with
    state := .standby, count := if r.state = .conditioning then 0 else r.count, standbySince := some t
    deadline := none }

/-- A bank record that enters CONDITIONING at a clock value (R73, R84). -/
def reconditioned (t : Nat) (r : BankRec) : BankRec :=
  { r with state := .conditioning, count := 0, conditioned := false, deadline := none, hood := closeHood t r.hood }

/-- The recharge time `ms` of a bank record has passed at a clock value, where it has fired at all (R73, R75). -/
def rechargeOver (t ms : Nat) (r : BankRec) : Bool := r.lastFiring.all fun f => decide (f + ms * 1000 ≤ t)

/-- The end of a recovery or a top-up of a bank: READY, or STANDBY with its report in IDLE (R75, R77, R78). -/
def rested (s : State) (bk : Bank) : State :=
  if s.time.idle then
    offerMinor
      { s with
        lamps.banks := s.lamps.banks.set bk (stoodBy s.time.clock (getBank s bk))
        lamps.grants := s.lamps.grants.filter fun g => !(decide (g.bank = bk) && g.capture.isNone) }
      (.bankState bk (getBank s bk).state .standby s.time.clock .idle)
  else { s with lamps.banks := s.lamps.banks.set bk (readied s.time.clock (getBank s bk)) }

/-- The state of an output function (R119, R157). -/
def shownState (s : State) : Fn → Bool
  | .camLTrigger => s.seq.pulses.l.isSome
  | .camRTrigger => s.seq.pulses.r.isSome
  | .attention => !s.queue.reports.isEmpty
  | .readyLamp => s.lines.ready
  | _ => false

/-- An IN line of LEVEL sense at its active level (R149). -/
def activeLevel (l : Line) : Bool :=
  decide (l.dir = .inp) && decide (l.sense = .level) && (if l.polarity = .risingHigh then l.level else !l.level)

/-- The receiver takes bytes that come in together, each with a good stop bit (R174). -/
def receive : List Byte → State → State
  | [], s => s
  | b :: bs, s =>
    match exec (.byteReceived b false) s with
    | .next t => receive bs t
    | .fault _ => s
    | .refused _ => s

/-- Reports that enter the queue one after another at one moment, each with the next number, the timebase and a miss count
of 0 (R181). -/
def entered (s : State) (bodies : List Body) : List Report :=
  bodies.zipIdx.map fun x => ⟨(s.queue.lastSeq + 1 + x.2) % 65536, s.time.clock % 2 ^ 48, 0, x.1⟩

/-- A clock value at which the flash spacing may grant a firing of `bk` asked for at `t`: the earliest, not before `t`, that
keeps 1,500 µs from the latest firing of every other bank (R74). -/
def grantedFor (s : State) (bk : Bank) (t g : Nat) : Prop :=
  t ≤ g
    ∧ (∀ x u, x ≠ bk → (getBank s x).latest = some u → u + 1500 ≤ g)
    ∧ (g = t ∨ ∃ x u, x ≠ bk ∧ (getBank s x).latest = some u ∧ u + 1500 = g)

/-- The state after the flash spacing has granted a firing of capture `n` to a bank: the bank's latest firing and the
schedule have it (R74). -/
def scheduled (s : State) (bk : Bank) (g level duration n : Nat) : State :=
  { s with
    lamps.banks := s.lamps.banks.set bk { getBank s bk with latest := some (max g ((getBank s bk).latest.getD g)) }
    lamps.grants := s.lamps.grants ++ [⟨bk, g, level, duration, some n⟩] }

/-- The start of the idle timer after an event that restarts it in an ACTIVE part (R141, R142). -/
def idleRestarted (s : State) : Option Nat :=
  if s.time.idle then s.time.idleStart else if s.time.idleSetting = 0 then none else some s.time.clock

/-- The outcome of a side that has ended. -/
def sideOutcome (x : SideRec) : Option SideOutcome :=
  match x.stage with
  | .ended o => some o
  | .arming | .waiting | .firing | .storing => none

/-- A capture can end (R123): every requested side has an outcome, and no firing of it is granted and not yet made. -/
def captureOver (s : State) (c : Capture) : Bool :=
  (c.sides.toList.all fun x => x.all fun y => (sideOutcome y).isSome)
    && s.lamps.grants.all fun g => decide (g.capture ≠ some c.seq)

/-- The requested sides of a capture that ended otherwise than CONFIRMED (R123). -/
def failedSides (c : Capture) : Nat :=
  c.sides.toList.countP fun x => x.any fun y => (sideOutcome y).any fun o => decide (o ≠ .confirmed)

/-- A requested side in the CAPTURE record of a capture that ends (R125). -/
def endedSide (c : Capture) (sd : Side) (x : SideRec) : SideReport :=
  { side := sd, outcome := (sideOutcome x).getD .notReady, syncTime := x.syncTime, asks := x.asks
    page := c.opening.map fun o => if sd = .left then (o.1, true) else (o.1 + 1, false)
    take := x.take.map fun t => (t.number, t.label) }

/-- The CAPTURE record of a capture that ends (R124, R125): its overall result is the outcome that all its sides share, and
MIXED otherwise. -/
def endedRecord (s : State) (c : Capture) : CaptureReport :=
  let sides := [Side.left, .right].filterMap fun sd => (c.sides.get sd).map (endedSide c sd)
  { seq := some c.seq, order := c.order, recipe := some (c.levels, c.duration)
    overall :=
      match sides with
      | [] => .mixed
      | x :: rest => if rest.all fun y => decide (y.outcome = x.outcome) then .shared x.outcome else .mixed
    opening := c.opening, armedAt := some c.armedAt, t0 := c.t0, ended := some s.time.clock, unmet := c.unmet
    figures := c.figures, credit := s.dose.credit, sides := sides }

/-- The CAPTURE record of an order that the safe state flushes (R125, R127): no number, levels, opening, asks or takes, and
of the times the acceptance alone, the others not being reached. -/
def flushedRecord (o : Order) : CaptureReport :=
  { seq := none, order := o, recipe := none, overall := .shared .abortedSafe, opening := none, armedAt := none
    t0 := none, ended := none, unmet := none, figures := none, credit := ⟨0, 0⟩
    sides := ([Side.left, .right].filter (wants o.sides)).map fun sd =>
      { side := sd, outcome := .abortedSafe, syncTime := none, asks := [], page := none, take := none } }

/-! ### The events that are due -/

/-- A time that is present has come. -/
def timePast (s : State) (t : Option Nat) : Prop := ∃ x, t = some x ∧ x ≤ s.time.clock

/-- The platen is in a state whose timeout has expired (R45, R47). -/
def platenPast (s : State) (p : Platen) : Prop := s.motion.platen = p ∧ timePast s s.motion.platenDeadline

/-- The timer of a running turn has expired in a stage that meets a test (R53 to R57). -/
def turnPast (s : State) (test : Turn → Prop) : Prop :=
  ∃ t, s.motion.turn = some t ∧ t.held = false ∧ timePast s t.deadline ∧ test t

/-- A bank is in a timed state whose time has passed (R72, R77, R79). -/
def bankPast (s : State) (bk : Bank) (st : BankState) : Prop :=
  (getBank s bk).state = st ∧ timePast s (getBank s bk).deadline

/-- The granted time of a bank's firing has come, of a capture's or of a conditioning flash (R73 to R75). -/
def grantPast (s : State) (bk : Bank) (capture : Bool) : Prop :=
  ∃ g, s.lamps.grants.find? (fun g => decide (g.bank = bk)) = some g ∧ g.time ≤ s.time.clock
    ∧ g.capture.isSome = capture

/-- The recharge time of a bank has passed since its last firing (R73, R75). -/
def bankRecharged (s : State) (bk : Bank) : Prop :=
  rechargeOver s.time.clock (getBank s bk).recharge (getBank s bk) = true

/-- When a command is due as an event of the part itself: each timer at its time, each condition where it holds, a request
where its frame has been taken up for decision. What comes from the outside is never due, nor is the tick, which brings the
pressure reading with it. -/
def dueNow (s : State) (c : Instr) : Prop :=
  match c with
  -- the line changes that have stood for their debounce time (R147)
  | .acceptedEdge i =>
    i < 32 ∧ (getLine s i).dir = .inp
      ∧ ∃ high t, (getLine s i).change = some (high, t) ∧ t + (getLine s i).debounce * 1000 ≤ s.time.clock
  -- the gap in a frame, the silence of the link, the aim tick (R103, R139, R174)
  | .gapError => ∃ a, s.link.assembly = some a ∧ a.last + 2000 ≤ s.time.clock
  | .linkSilent => s.link.silence = .armed ∧ s.link.boundaryDue = true
  | .aimTick => s.time.aimDue = true
  -- the platen, its dwell, the plates (R45, R47, R48, R50)
  | .loweringTimeout => platenPast s .lowering
  | .pressingTimeout => platenPast s .pressing
  | .raiseTimeout => platenPast s .raising
  | .dwellExpiry => timePast s (s.motion.dwell.map fun d => d.expiry)
  | .plateTimeout => s.motion.plateState = .moving ∧ timePast s s.motion.plateDeadline
  -- the timers of a running turn (R53 to R57)
  | .airTimeEnd => turnPast s fun t => t.stage = .air ∨ t.stage = .grip ∧ t.regripAir = true
  | .armTimeout => turnPast s fun t => t.stage = .reach ∨ t.stage = .sweep ∨ t.stage = .park
  | .gripTimeout => turnPast s fun t => t.stage = .grip ∧ t.regripAir = false
  | .releaseTimeout => turnPast s fun t => t.stage = .release
  | .verifyTimeout => turnPast s fun t => t.stage = .verify
  -- the banks (R72 to R79) and the hoods (R82)
  | .bankChargeTimeout bk => bankPast s bk .charging
  | .conditioningFlashDue bk =>
    (getBank s bk).state = .conditioning ∧ (getBank s bk).count < 2 ∧ (getBank s bk).hood.state = .closed
      ∧ bankRecharged s bk
      ∧ ∀ g, s.lamps.grants.find? (fun g => decide (g.bank = bk)) = some g → g.capture ≠ none
  | .conditioningFlash bk => grantPast s bk false
  | .captureFiring bk => grantPast s bk true
  | .conditioningComplete bk =>
    (getBank s bk).state = .conditioning ∧ (getBank s bk).count = 2 ∧ bankRecharged s bk
  | .flashEnd bk => timePast s ((getBank s bk).flash.map fun f => f.ends)
  | .recoveryEnd bk => (getBank s bk).state = .recovering ∧ bankRecharged s bk
  | .topUpStart bk =>
    (getBank s bk).state = .ready ∧ s.lamps.interval = none
      ∧ ∃ t, (getBank s bk).readySince = some t ∧ t + 30000000 ≤ s.time.clock
  | .topUpEnd bk => bankPast s bk .topping
  | .wakingEnd bk => bankPast s bk .waking
  | .hoodTravelEnd h => timePast s (getHood s h).deadline
  -- the capture in flight and the head order (R113, R114, R117, R119, R120, R122)
  | .triggerPulseEnd sd => timePast s (s.seq.pulses.get sd)
  | .syncWindowClose sd =>
    ∃ c x t0, s.seq.capture = some c ∧ c.sides.get sd = some x ∧ x.stage = .waiting ∧ c.t0 = some t0
      ∧ t0 + x.camera.delay + x.camera.window ≤ s.time.clock
  | .storedTimeout sd =>
    ∃ c x, s.seq.capture = some c ∧ c.sides.get sd = some x ∧ x.stage = .storing ∧ timePast s x.storedDeadline
  | .armingTimeout => ∃ c, s.seq.capture = some c ∧ c.t0 = none ∧ timePast s c.deadline
  | .notBeforeTime =>
    s.seq.capture = none ∧ s.motion.turn = none ∧ s.lines.hold = none
      ∧ ∃ o rest t n, s.seq.orders = o :: rest ∧ o.notBefore = some t ∧ n < 2 ^ 47
        ∧ (t + n) % 2 ^ 48 = s.time.clock % 2 ^ 48
  -- the idle timer (R141, R143)
  | .idleTimerExpiry =>
    s.time.idle = false ∧ 0 < s.time.idleSetting
      ∧ ∃ t, s.time.idleStart = some t ∧ t + s.time.idleSetting * 1000000 ≤ s.time.clock
  -- what comes from the outside
  | .powerOnReset | .softReset | .byteReceived .. | .replySent | .pinLevelChange .. | .chargeGood .. | .tick1ms ..
  | .platesAtTarget => False
  -- the requests (R176)
  | .ident .. | .status .. | .time .. | .fetch .. | .linkSet .. | .reset .. | .safe .. | .clearSafe .. | .idleSet ..
  | .volumeLoad .. | .volumeOpen .. | .volumeSet .. | .volumeClose .. | .volumeDiscard .. | .volumeQuery ..
  | .reseat .. | .leafMark .. | .leafQuery .. | .gapsQuery .. | .planSet .. | .planQuery .. | .lower .. | .raise ..
  | .turn .. | .turnBack .. | .turnResume .. | .turnAbandon .. | .motionSet .. | .motionQuery .. | .bankPower ..
  | .bankSet .. | .aimSet .. | .recipeSet .. | .recipeQuery .. | .lampQuery .. | .lampCal .. | .calQuery ..
  | .doseQuery .. | .shoot .. | .cameraSet .. | .captureQuery .. | .lineConfig .. | .lineWrite .. | .lineRead ..
  | .lineCounts .. | .lineQuery .. | .lineClear .. | .lineBind .. =>
    ∃ f, s.link.deciding = some f ∧ decodeRequest f = some c

/-! ### Invariants -/

/-- The stages of a turn in which the arm may be away from HOME or the air is on, from AIR to ADJUST. -/
def armStage : Stage → Bool
  | .air | .reach | .grip | .sweep | .release | .verify | .park | .adjust => true
  | .raise | .lower => false

/-- The stages of a turn before its opening changes (R56). -/
def beforePark : Stage → Bool
  | .raise | .air | .reach | .grip | .sweep | .release | .verify => true
  | .park | .adjust | .lower => false

/-- Report slots (R110, R182): occupied and reserved slots never exceed 64, each waiting order, capture in flight and
turn in flight holds one reservation, and at most four orders wait. -/
def queueInv (s : State) : Prop :=
  s.queue.reports.length + s.queue.reserved ≤ 64
    ∧ s.queue.reserved
        = s.seq.orders.length + (if s.seq.capture.isSome then 1 else 0) + (if s.motion.turn.isSome then 1 else 0)
    ∧ s.seq.orders.length ≤ 4

/-- The volume, its opening and the work on it (R1, R5, R12, R13, R20, R52): captures issued equals the capture
sequence, which leaves a number for every waiting order; a turn and a capture are never both in flight, and only an
OPEN volume is worked; the table has N+2 records, the opening lies in 0..N, and a turn keeps it there and turns a leaf
of the text block; a capture before its test has each side in ARMING or ended, and a firing granted to a capture is granted to the one
in flight, after its test. -/
def volumeInv (s : State) : Prop :=
  s.volume.capturesIssued = s.volume.captureSeq
    ∧ s.volume.captureSeq + s.seq.orders.length ≤ 65535
    ∧ s.volume.turnSeq ≤ 65535
    ∧ (s.motion.turn.isSome = true → s.seq.capture = none)
    ∧ (s.motion.turn.isSome = true ∨ s.seq.capture.isSome = true ∨ s.seq.orders ≠ [] →
        s.volume.state = .opened)
    ∧ s.leaves.length = (if s.volume.state = .empty then 0 else s.volume.leafCount + 2)
    ∧ s.volume.k ≤ s.volume.leafCount
    ∧ (∀ t, s.motion.turn = some t →
        1 ≤ t.leaf ∧ t.leaf ≤ s.volume.leafCount
          ∧ (t.direction = .forward → beforePark t.stage = true → s.volume.k < s.volume.leafCount))
    ∧ (∀ c, s.seq.capture = some c →
        (∀ o, c.opening = some o → o.1 ≤ s.volume.leafCount)
          ∧ (c.t0 = none → ∀ sd x, c.sides.get sd = some x → x.stage = .arming ∨ ∃ o, x.stage = .ended o))
    ∧ (∀ g ∈ s.lamps.grants, ∀ n, g.capture = some n →
        ∃ c, s.seq.capture = some c ∧ c.seq = n ∧ c.t0.isSome = true)

/-- The laws of a face record (R23): SHOT and WANTED have a take, EXTERNAL has none, and the last capture sequence is
absent until the first take. -/
def faceLaw (f : Face) : Prop :=
  ((f.state = .shot ∨ f.state = .wanted) → 1 ≤ f.takes)
    ∧ (f.state = .external → f.takes = 0)
    ∧ (f.lastSeq = none ↔ f.takes = 0)

/-- The leaf table (R20, R22, R23, R26): the EXTERNAL faces are the outer faces of the boards and no others, every
face keeps its laws, no board is handled, and handled counts stay in 0..255. -/
def leafInv (s : State) : Prop :=
  ∀ i, i < s.leaves.length →
    faceLaw (getLeaf s i).recto ∧ faceLaw (getLeaf s i).verso
      ∧ ((getLeaf s i).recto.state = .external ↔ i = 0)
      ∧ ((getLeaf s i).verso.state = .external ↔ i = s.volume.leafCount + 1)
      ∧ (i = 0 ∨ i = s.volume.leafCount + 1 → (getLeaf s i).handled = 0)
      ∧ (getLeaf s i).handled ≤ 255

/-- The prediction record belongs to the capture in flight past its arming test and credits the two leaves of its
opening alone (R96, R97, R99). -/
def predictionInv (s : State) : Prop :=
  ∀ p, s.dose.prediction = some p →
    (∃ c, s.seq.capture = some c ∧ c.t0.isSome = true)
      ∧ p.k ≤ s.volume.leafCount
      ∧ ∀ e ∈ p.entries, (e.ownLeaf = p.k ∨ e.ownLeaf = p.k + 1) ∧ (e.spillLeaf = p.k ∨ e.spillLeaf = p.k + 1)

/-- The account of light and takes (R13, R24, R100): the volume total dose is the sum of the leaf doses; no leaf's dose
with its outstanding prediction exceeds the per-leaf ceiling, nor the total with the outstanding total the volume
ceiling; faces confirmed is the sum of the takes. -/
def accountInv (s : State) : Prop :=
  s.volume.totalDose = (s.leaves.map fun l => l.dose).sum
    ∧ (∀ i, i < s.leaves.length → (getLeaf s i).dose + outstanding s i ≤ s.volume.leafCeiling)
    ∧ s.volume.totalDose + outstandingTotal s ≤ s.volume.volumeCeiling
    ∧ s.volume.facesConfirmed = (s.leaves.map fun l => l.recto.takes + l.verso.takes).sum

/-- An aim lamp agrees with its lit condition: not lit, it is dark and its hood closes or is CLOSED (R86). -/
def aimLaw (met : Bool) (a : Aim) : Prop :=
  a.lit = met
    ∧ (met = true → a.hood.state = .opening ∨ a.hood.state = .opened)
    ∧ (met = false → a.applied = 0 ∧ (a.hood.state = .closing ∨ a.hood.state = .closed))

/-- The aim lamps (R86): each is lit exactly while a volume is OPEN, the opening KNOWN, the platen DOWN, no hold and no
safe state in force, the part ACTIVE and no lighting interval in force. -/
def aimInv (s : State) : Prop :=
  let met := decide (s.volume.state = .opened) && s.volume.known && decide (s.motion.platen = .down)
    && s.lines.hold.isNone && !s.safe.flag && !s.time.idle && s.lamps.interval.isNone
  aimLaw met s.lamps.aims.l ∧ aimLaw met s.lamps.aims.r

/-- The safe state (R63, R127, R162, R163): with the safe flag clear nothing of an episode is held; with it set the
list names at least one and at most eight faults, and no turn and no waiting order is left. -/
def safeInv (s : State) : Prop :=
  (s.safe.flag = false →
      s.safe.faults = [] ∧ s.safe.further = 0 ∧ s.safe.episodeStart = none ∧ s.safe.pendingFirst = none)
    ∧ (s.safe.flag = true →
      s.safe.faults ≠ [] ∧ s.safe.episodeStart.isSome = true ∧ s.motion.turn = none ∧ s.seq.orders = [])
    ∧ s.safe.faults.length ≤ 8 ∧ s.safe.further ≤ 255

/-- The platen and the arm (R47, R48, R53): the dwell timer runs in DOWN alone; a RAISED or RAISING platen waits for no
raise; the platen stays RAISED from AIR to ADJUST, and leaves RAISED during a turn only in its LOWER stage. -/
def platenInv (s : State) : Prop :=
  (s.motion.dwell.isSome = true → s.motion.platen = .down)
    ∧ (s.motion.platen = .raised ∨ s.motion.platen = .raising →
        s.motion.raisePending = false ∧ s.motion.dwellDeferred = false)
    ∧ ∀ t, s.motion.turn = some t →
        (armStage t.stage = true → s.motion.platen = .raised)
          ∧ (t.stage = .lower →
              s.motion.raisePending = false ∧ s.motion.dwellDeferred = false
                ∧ (s.motion.platen = .stopped
                    ∨ t.held = false ∧ (s.motion.platen = .lowering ∨ s.motion.platen = .pressing)))

/-- The lines and the binding table (R146, R155): 32 lines, 20 functions, no line carries two functions. -/
def bindingInv (s : State) : Prop :=
  s.lines.records.length = 32 ∧ s.lines.binding.length = 20
    ∧ (∀ f i, lineOf s f = some i → i < 32)
    ∧ ∀ f g i, lineOf s f = some i → lineOf s g = some i → f = g

/-- A line bound to an output function is OUT and its staged value stands for the function's state: 1 for an active
function under RISING_HIGH, 0 under FALLING_LOW (R151, R157). -/
def outputShown (s : State) (f : Fn) (active : Bool) : Prop :=
  ∀ i, lineOf s f = some i →
    (getLine s i).dir = .out
      ∧ (getLine s i).staged = (if (getLine s i).polarity = .risingHigh then active else !active)

/-- The output functions (R119, R151, R155, R157): the triggers are active while their pulses last, ATTENTION while a
report waits, READY_LAMP while its condition is met; and the lines that carry them show it. -/
def outputInv (s : State) : Prop :=
  bindingInv s
    ∧ outputShown s .camLTrigger s.seq.pulses.l.isSome
    ∧ outputShown s .camRTrigger s.seq.pulses.r.isSome
    ∧ outputShown s .attention (!s.queue.reports.isEmpty)
    ∧ outputShown s .readyLamp s.lines.ready
    ∧ s.lines.ready
        = (decide (s.volume.state = .opened) && s.volume.known && !s.safe.flag && s.lines.hold.isNone
            && !s.time.idle && s.motion.turn.isNone && s.seq.capture.isNone && decide (s.seq.orders.length < 4))

/-- The firings that the spacing looks at: each bank's last firing made, and the firings granted and not yet made. -/
def firings (s : State) : List (Bank × Nat) :=
  (allBanks.filterMap fun bk => ((getBank s bk).lastFiring).map fun t => (bk, t))
    ++ s.lamps.grants.map fun g => (g.bank, g.time)

/-- The flash spacing (R74): firings of two different banks, made last or granted, are never closer than 1,500 µs, and
none lies after its bank's latest time in the firing schedule. -/
def spacingInv (s : State) : Prop :=
  (∀ x ∈ firings s, ∀ y ∈ firings s, x.1 ≠ y.1 → x.2 + 1500 ≤ y.2 ∨ y.2 + 1500 ≤ x.2)
    ∧ ∀ x ∈ firings s, ∃ u, (getBank s x.1).latest = some u ∧ x.2 ≤ u

/-- A value lies in a range. -/
def within (a b x : Nat) : Prop := a ≤ x ∧ x ≤ b

/-- The ranges of the motion profile (R66). -/
def profileLaw (p : Profile) : Prop :=
  within 5 150 p.target ∧ within 1 50 p.tolerance ∧ within (p.target + 1) 200 p.limit
    ∧ within 10 600 p.dwellMax ∧ p.plateBase ≤ 60000 ∧ within 100 2000 p.airTime ∧ p.gripRetries ≤ 5

/-- The ranges of the settings (R66, R69, R80, R85, R87, R130, R137, R141, R146). -/
def settingsInv (s : State) : Prop :=
  profileLaw s.motion.profile
    ∧ (∀ bk, within 250 2000 (getBank s bk).recharge)
    ∧ (∀ sd, (s.lamps.aims.get sd).requested ≤ 1000 ∧ (s.lamps.aims.get sd).guard ≤ 1000
        ∧ (s.lamps.aims.get sd).applied ≤ 1000)
    ∧ s.lamps.recipes.length = 8
    ∧ (∀ r ∈ s.lamps.recipes, within 100 20000 r.duration
        ∧ ∀ bk, r.levels.get bk = 0 ∨ within 50 1000 (r.levels.get bk))
    ∧ (∀ sd, within 10 10000 (s.seq.cameras.get sd).pulse ∧ (s.seq.cameras.get sd).delay ≤ 100000
        ∧ within 100 200000 (s.seq.cameras.get sd).window ∧ within 100 10000 (s.seq.cameras.get sd).stored)
    ∧ s.seq.lateLimit ≤ 1000000
    ∧ (s.time.idleSetting = 0 ∨ within 10 3600 s.time.idleSetting)
    ∧ s.time.tap ≤ 3 ∧ (∀ t, s.time.pendingTap = some t → t ≤ 3)
    ∧ (∀ l ∈ s.lines.records, l.debounce ≤ 50)

/-- The ranges of the counts (R1, R69, R73, R110, R134, R138, R146, R175, R182, R183). -/
def countsInv (s : State) : Prop :=
  s.time.phase ≤ 1000 ∧ s.time.ms < 4294967296 ∧ s.time.tenth < 10
    ∧ s.link.errorCount ≤ 65535 ∧ s.link.buffer.length ≤ 2 ∧ s.link.boundaries ≤ 7
    ∧ (s.link.silence ≠ .armed → s.link.boundaries = 0)
    ∧ s.queue.missed ≤ 255 ∧ s.queue.lastSeq ≤ 65535
    ∧ s.seq.lateCount ≤ 65535
    ∧ s.volume.turnsDone ≤ 4294967295 ∧ s.volume.gripRetries ≤ 4294967295
    ∧ s.volume.doublePicks ≤ 4294967295 ∧ s.volume.manualTurns ≤ 4294967295
    ∧ s.plan.length ≤ 24
    ∧ (∀ l ∈ s.lines.records, l.count ≤ 65535)
    ∧ (∀ bk, (getBank s bk).count ≤ 2)
    ∧ (∀ g ∈ s.lamps.grants, g.capture = none → (getBank s g.bank).count < 2)

end Sys2Proof.Machine
end

