-- ==== Sys2Proof/Certificates/Slice0/Obligations.lean ====
section
/-! DEFINITION. The statements about the model, for the provers. `awake k s` is the state in which a restarting request
of kind `k` is decided, `decided` the state after its table of checks (Sys2Proof/Safety.lean). -/

open Sys2Proof Sys2Proof.Machine

/-! ### The step -/

/-- With a command at the front of the queue, a step is that command's effect on the state with the queue's rest. -/
def Obligations.StepRunsTheFrontCommand : Prop :=
  ∀ (c : Instr) (rest : List Instr) (s : State),
    step { s with pending := c :: rest } = exec c { s with pending := rest }

/-- With no command waiting, a step enters the events that are due in the queue, each once; with none due a microsecond
passes, and a whole millisecond waits for its tick (the model's choice, log 1). An event is due exactly where its timer has
expired or its condition holds, and a request where its frame has been taken up for decision; what comes from the outside is
never due. -/
def Obligations.StepWithNothingWaiting : Prop :=
  (∀ s : State, s.pending = [] →
    step s = .next
      (if dueEvents s ≠ [] then { s with pending := dueEvents s }
      else if s.time.phase < 1000 then
        { s with time.clock := s.time.clock + 1, time.phase := s.time.phase + 1 }
      else s))
  ∧ ∀ s : State, (dueEvents s).Nodup ∧ ∀ c : Instr, c ∈ dueEvents s ↔ dueNow s c

/-- No command stops the part, and none touches the commands that wait. Both are the model's choices: the spec gives no
effect that halts the part, so the type of faults is empty (log 31), and it has no queue of commands (log 24). -/
def Obligations.EveryCommandCompletesAndKeepsTheQueue : Prop :=
  ∀ (c : Instr) (s : State), ∃ t, exec c s = .next t ∧ t.pending = s.pending

/-! ### Resets -/

/-- What power-on reset leaves (R1, R19, R42, R68, R89, R109, R132, R145, R160, R173, R185): every block at its power-on
values, the volume record in every field at its EMPTY value, the IN lines sampled, what the outside drives on the pins as
it was, and the hold in force with its HOLD_ON report if a hold switch is active. The model's choices: a pin that nothing
drives stands at the level of its pull, and an OUT line's accepted level is its pin's (logs 3, 12); of several active
hold switches the first in line order is the holding line (log 47). -/
def Obligations.PowerOnResetGivesThePowerOnValues : Prop :=
  ∀ s : State, ∃ t, exec .powerOnReset s = .next t
    ∧ t.time = { clock := 0, phase := 0, ms := 0, tenth := 0, aimDue := false, tap := 3, pendingTap := none
                 idleSetting := 300, idleStart := some 0, idle := false, idleSince := none }
    ∧ t.link = { receiver := .hunt, assembly := none, buffer := [], deciding := none, reply := none
                 errorFlag := false, errorCount := 0, supervision := false, silence := .off, boundaries := 0
                 boundaryDue := false }
    ∧ t.volume =
        { state := .empty, shelfMark := none, part := 0, leafCount := 0, thickness := 0, leafCeiling := 0
          volumeCeiling := 0, handlingLimit := 0, reserve := 0, closeStatus := none, k := 0, known := false
          platesPending := false, captureSeq := 0, turnSeq := 0, capturesIssued := 0, facesConfirmed := 0
          sidesFailed := 0, turnsDone := 0, gripRetries := 0, doublePicks := 0, manualTurns := 0
          totalDose := 0, loadTime := none, openTime := none, closeTime := none }
    ∧ t.leaves = [] ∧ t.plan = []
    ∧ t.motion.platen = (if (getLine s 4).pin = some false then .raised else .stopped)
    ∧ t.motion.raisePending = false ∧ t.motion.dwell = none ∧ t.motion.turn = none
    ∧ t.motion.plateTargets = ⟨0, 0⟩ ∧ t.motion.plateLimits = ⟨false, false⟩ ∧ t.motion.plateState = .unsettled
    ∧ t.motion.armPowered = true ∧ t.motion.suction = false ∧ t.motion.keptOn = false ∧ t.motion.air = false
    ∧ t.motion.profile = { target := 30, tolerance := 5, limit := 80, dwellMax := 120, plateBase := 40000
                           airTime := 300, gripRetries := 2 }
    ∧ (∀ bk, (getBank t bk).state = .off ∧ (getBank t bk).count = 0 ∧ (getBank t bk).conditioned = false
        ∧ (getBank t bk).recharge = 600 ∧ (getBank t bk).lastFiring = none ∧ (getBank t bk).readySince = none
        ∧ (getBank t bk).standbySince = none ∧ (getBank t bk).hoodRequest = none
        ∧ (getBank t bk).hood.state = .closed)
    ∧ t.lamps.grants = [] ∧ t.lamps.interval = none
    ∧ t.lamps.aims = ⟨⟨0, 100, 0, false, ⟨.closed, none⟩⟩, ⟨0, 100, 0, false, ⟨.closed, none⟩⟩⟩
    ∧ t.lamps.recipes = List.replicate 8 ⟨⟨500, 500, 500, 500⟩, 1000⟩
    ∧ (∀ bk, t.dose.banks.get bk = ⟨List.replicate 11 0, 0⟩) ∧ (∀ sd, t.dose.aims.get sd = ⟨List.replicate 11 0, 0⟩)
    ∧ t.dose.prediction = none ∧ t.dose.credit = ⟨0, 0⟩ ∧ t.dose.outcome = ⟨.requested, .requested⟩
    ∧ t.dose.note = ⟨none, none⟩
    ∧ t.seq = { orders := [], capture := none, cameras := ⟨⟨100, 2000, 40000, 3000⟩, ⟨100, 2000, 40000, 3000⟩⟩
                lateLimit := 100000, lateCount := 0, pulses := ⟨none, none⟩ }
    ∧ t.safe = ⟨false, [], 0, none, none⟩
    ∧ t.lines.ready = false
    ∧ (∀ f, lineOf t f = some (fnCode f))
    ∧ (∀ i, i < 32 → ∀ l, l = getLine t i →
        l.dir = (if 16 ≤ i ∧ i < 20 then .out else .inp)
          ∧ l.pull = (if i < 16 ∨ 20 ≤ i ∧ i < 24 then .up else if i < 20 then .none else .down)
          ∧ l.drive = (if i = 18 then .openLow else .pushPull)
          ∧ l.sense = (if 20 ≤ i ∧ i < 24 then .level else .edge)
          ∧ l.polarity = (if i < 16 ∨ i = 18 ∨ 20 ≤ i ∧ i < 24 then .fallingLow else .risingHigh)
          ∧ l.bothEdges = false ∧ l.debounce = (if 13 ≤ i ∧ i < 16 then 20 else 0)
          ∧ l.event = decide (13 ≤ i ∧ i < 16) ∧ l.wake = decide (13 ≤ i ∧ i < 16)
          ∧ l.hold = decide (20 ≤ i ∧ i < 24) ∧ l.change = none ∧ l.count = 0 ∧ l.latch = false
          ∧ l.pin = (getLine s i).pin
          ∧ (l.dir = .inp → l.level =
              if i < 24 then decide ((getLine s i).pin ≠ some false) else decide ((getLine s i).pin = some true))
          ∧ l.raw = decide (20 ≤ i ∧ i < 24 ∧ (getLine s i).pin = some false)
          ∧ l.staged = (decide (i = 18) && t.lines.hold.isNone))
    ∧ ((∀ i, 20 ≤ i → i < 24 → (getLine s i).pin ≠ some false) →
        t.lines.hold = none ∧ t.queue = ⟨[], 0, 0, 0⟩)
    ∧ (∀ i, 20 ≤ i → i < 24 → (getLine s i).pin = some false →
        (∀ j, 20 ≤ j → j < i → (getLine s j).pin ≠ some false) →
        t.lines.hold = some ⟨i, 0⟩ ∧ t.queue = ⟨[⟨1, 0, 0, .holdOn i 0⟩], 0, 1, 0⟩)

/-- What the soft reset keeps and clears (R19, R42, R68, R89, R109, R128, R145, R161, R173, R180, R185), whatever the state:
among it the hold, set afresh with the first active line of the hold group in line order; each line's sampled level, raw
status and latch, and what an output function shows on it; and the queue, emptied and then holding the LINE_EVENTs of the
active LEVEL lines whose event is enabled and the HOLD_ON of a hold in force, numbered from 1. The model's choices: as a
command it resets at any time (log 8); no HOLD_OFF is queued for the hold before it (log 16), and the LINE_EVENTs come in
line order and before the HOLD_ON (log 50); a flash that is lit runs to its end (log 33); the arm drive is left unpowered in
a part that was IDLE too (log 54); the tick's phase and tenth, its due aim tick, the level at the last tick and the latest
firings stand (log 34); a pin that nothing drives stands at the level of its pull (log 3). -/
def Obligations.SoftResetKeepsAndClears : Prop :=
  ∀ s : State, ∃ t, exec .softReset s = .next t
    ∧ t.time = { s.time with
                 idle := false, idleSince := none
                 idleStart := if s.time.idleSetting = 0 then none else some s.time.clock }
    ∧ t.link = { receiver := .hunt, assembly := none, buffer := [], deciding := none, reply := none
                 errorFlag := false, errorCount := 0, supervision := s.link.supervision, silence := .waiting
                 boundaries := 0, boundaryDue := false }
    ∧ t.volume = { s.volume with
                   known := s.volume.known && (s.motion.turn.all fun u =>
                     decide (u.stage = .raise) || decide (u.stage = .air) || decide (u.stage = .reach))
                   platesPending := false }
    ∧ t.leaves = s.leaves ∧ t.plan = s.plan
    ∧ t.motion = { s.motion with
                   platen := t.motion.platen, platenDeadline := none, raisePending := false, safeRaise := false
                   dwell := none, dwellDeferred := false, pressureHigh := false, plateState := .unsettled
                   plateDeadline := none, armPowered := false, suction := false, keptOn := false, air := false
                   turn := none }
    ∧ t.motion.platen = (if fnActive t .platenTop then .raised else .stopped)
    ∧ (∀ bk, getBank t bk =
        { getBank s bk with
          state := .off, count := 0, conditioned := false, readySince := none, standbySince := none
          hoodRequest := none, deadline := none, hood := closeHood s.time.clock (getBank s bk).hood })
    ∧ (∀ sd, t.lamps.aims.get sd = { s.lamps.aims.get sd with
        applied := 0, lit := false, hood := closeHood s.time.clock (s.lamps.aims.get sd).hood })
    ∧ t.lamps.grants = [] ∧ t.lamps.interval = none ∧ t.lamps.closePending = false
    ∧ t.lamps.recipes = s.lamps.recipes
    ∧ t.dose = { s.dose with
                 prediction := none, credit := ⟨0, 0⟩, outcome := ⟨.requested, .requested⟩, note := ⟨none, none⟩ }
    ∧ t.seq = { s.seq with orders := [], capture := none, pulses := ⟨none, none⟩ }
    ∧ t.safe = ⟨false, [], 0, none, none⟩
    ∧ t.chargeGood = s.chargeGood
    ∧ t.lines.binding = s.lines.binding ∧ t.lines.records.length = s.lines.records.length
    ∧ t.lines.ready = (decide (t.volume.state = .opened) && t.volume.known && t.lines.hold.isNone)
    ∧ ∀ (level active raw : Nat → Bool) (holding : Option Nat) (bodies : List Body),
        (∀ i l, l = getLine s i →
          level i = (if l.dir = .inp then l.pin.getD (decide (l.pull = .up)) else l.level)
            ∧ active i = (decide (l.dir = .inp) && if l.polarity = .risingHigh then level i else !level i)
            ∧ raw i = (active i && decide (l.sense = .level))) →
        holding = (List.range 32).find? (fun i => (getLine s i).hold && active i) →
        bodies = ((List.range 32).filter fun i => raw i && (getLine s i).event).map (fun i =>
            .lineEvent i (allFns.find? fun f => decide (lineOf s f = some i)) .level .level (level i)
              (getLine s i).count s.time.clock)
          ++ holding.toList.map (fun i => .holdOn i s.time.clock) →
        t.lines.hold = (holding.map fun i => ⟨i, s.time.clock⟩)
          ∧ t.queue =
            { reports := bodies.zipIdx.map fun x => ⟨x.2 + 1, s.time.clock % 2 ^ 48, 0, x.1⟩
              reserved := 0, lastSeq := bodies.length, missed := 0 }
          ∧ (∀ i, i < s.lines.records.length → i < 32 → ∀ l, l = getLine s i →
              ∃ staged, getLine t i =
                { l with
                  level := level i, change := none, staged := staged, raw := raw i, latch := raw i && l.event }
              ∧ ((∀ f, lineOf s f ≠ some i) → staged = l.staged)
              ∧ (bindingInv s → ∀ f, lineOf s f = some i → staged =
                  if fnCode f < 16 then l.staged
                  else if l.polarity = .risingHigh then shownState t f else !shownState t f))

/-- The state after reset meets every invariant stated here. -/
def Obligations.ResetMeetsTheInvariants : Prop :=
  queueInv State.reset ∧ volumeInv State.reset ∧ leafInv State.reset ∧ predictionInv State.reset
    ∧ accountInv State.reset ∧ aimInv State.reset ∧ safeInv State.reset ∧ platenInv State.reset
    ∧ outputInv State.reset ∧ spacingInv State.reset ∧ settingsInv State.reset ∧ countsInv State.reset

/-! ### Invariants of every step -/

/-- Occupied slots plus reservations never exceed 64, and each reservation has its order, capture or turn (R182). -/
def Obligations.ReportSlotsNeverExceed64 : Prop :=
  ∀ s t : State, queueInv s → step s = .next t → queueInv t

/-- The opening stays in the volume, numbers run on without a gap, and a turn and a capture never run together
(R5, R12, R13, R52). -/
def Obligations.OpeningAndNumbersStayInTheVolume : Prop :=
  ∀ s t : State, volumeInv s → step s = .next t → volumeInv t

/-- The faces keep the laws of R23, and the boards are never handled (R22, R23, R26). -/
def Obligations.FacesKeepTheirLaws : Prop :=
  ∀ s t : State, volumeInv s ∧ leafInv s → step s = .next t → leafInv t

/-- No leaf and no volume ever exceeds its dose ceiling, and the accounts of light and takes agree with the leaf table
(R13, R100). -/
def Obligations.NoDoseEverExceedsItsCeiling : Prop :=
  ∀ s t : State, volumeInv s ∧ predictionInv s ∧ aimInv s ∧ accountInv s → step s = .next t →
    predictionInv t ∧ accountInv t

/-- In the safe state there is a fault to show and neither turn nor waiting order is left; outside it nothing of an
episode is held (R63, R127, R163, R169). -/
def Obligations.SafeStateHoldsItsFaults : Prop :=
  ∀ s t : State, safeInv s → step s = .next t → safeInv t

/-- The arm is away from HOME only under a RAISED platen, which leaves RAISED during a turn only in its LOWER stage
(R53); the dwell timer runs in DOWN alone (R48). -/
def Obligations.PlatenStaysRaisedWhileTheArmIsOut : Prop :=
  ∀ s t : State, safeInv s ∧ platenInv s → step s = .next t → platenInv t

/-- Every line bound to an output function shows the function's state, and no line carries two functions
(R151, R155, R157). -/
def Obligations.OutputLinesShowTheirFunctions : Prop :=
  ∀ s t : State, outputInv s → step s = .next t → outputInv t

/-- The aim lamps are lit exactly in their lit condition; otherwise they are dark behind a closing hood (R86). -/
def Obligations.AimLampsAreLitInTheirConditionAlone : Prop :=
  ∀ s t : State, aimInv s → step s = .next t → aimInv t

/-- Firings of two different banks are never closer than 1,500 µs (R74). -/
def Obligations.FiringsOfTwoBanksKeepTheirSpacing : Prop :=
  ∀ s t : State, spacingInv s → step s = .next t → spacingInv t

/-- Every setting stays in the range its request clamps or checks it to. -/
def Obligations.SettingsStayInTheirRanges : Prop :=
  ∀ s t : State, settingsInv s → step s = .next t → settingsInv t

/-- Every wrapping or saturating count stays in its range (R1, R69, R73, R110, R134, R138, R146, R175, R182, R183), and the
boundary count is 0 unless the silence timer is ARMED (R135). The model's choices: a complete millisecond waits at phase
1,000 for its tick (log 1), and the eighth boundary waits in a flag over a count of 7 (log 30). -/
def Obligations.CountsStayInTheirRanges : Prop :=
  ∀ s t : State, countsInv s → step s = .next t → countsInv t

/-! ### The link -/

/-- A request frame that arrives whole, with nothing else on the link, is taken up for decision as it was sent: no bit
of its kind, tag or payload is lost (R174, R175, R176, R186). The bytes come at one clock value (log 9), and the frame's
kind and length are a request's (R188, log 10). -/
def Obligations.AReceivedFrameIsTheFrameSent : Prop :=
  ∀ (f : Frame) (s : State), f.payload.length ≤ 240 → frameRefusal f = none →
    s.link.assembly = none → s.link.receiver = .hunt → s.link.buffer = [] → s.link.deciding = none →
      s.link.reply = none → s.link.silence = .off →
        receive (frameBytes f) s = { s with link.deciding := some f }

/-- The receiver (R138, R174, R175, R176; bytes come as commands, log 9, and one more than 2 ms late finds
the frame dropped and counted, and is taken in HUNT, log 26): in HUNT only a start byte begins a frame; inside a frame a bad stop bit or a
length byte above 240 drops it, and any byte that does not complete it is stored; a whole frame whose check bytes are not
those of its bytes is dropped; GAP_ERROR drops a frame 2 ms after its last byte; the last byte of a reply lets the next
frame be taken up, or after RESET brings the soft reset; a reply's bytes are a frame of its kind and tag whose payload
begins with the result code and the status summary (R186, R189; the fields' bytes are the model's, log 23); a good frame while the buffer holds two is an overrun, and with
room it is a valid frame for the silence timer. -/
def Obligations.BytesGapsFramesAndRepliesSent : Prop :=
  (∀ (b : Byte) (bad : Bool) (s : State), s.link.assembly = none →
    exec (.byteReceived b bad) s = .next
      (if b = 0xA5#8 ∧ bad = false then
        { s with link.receiver := .header, link.assembly := some ⟨[], s.time.clock⟩ }
      else s))
  ∧ (∀ (b : Byte) (bad : Bool) (s : State) (a : Assembly), s.link.assembly = some a →
      s.time.clock ≤ a.last + 2000 →
      (bad = true ∨ 240 < ((a.bytes ++ [b]).headD 0#8).toNat) →
      exec (.byteReceived b bad) s = .next
        { s with
          link.receiver := .hunt, link.assembly := none, link.errorFlag := true
          link.errorCount := if s.link.errorCount < 65535 then s.link.errorCount + 1 else 65535 })
  ∧ (∀ (b : Byte) (s : State) (a : Assembly), s.link.assembly = some a → s.time.clock ≤ a.last + 2000 →
      ((a.bytes ++ [b]).headD 0#8).toNat ≤ 240 →
      (a.bytes ++ [b]).length < 5 + ((a.bytes ++ [b]).headD 0#8).toNat →
      ∃ r, exec (.byteReceived b false) s = .next
          { s with link.receiver := r, link.assembly := some ⟨a.bytes ++ [b], s.time.clock⟩ }
        ∧ r = (if a.bytes.length < 2 then .header
              else if a.bytes.length < 2 + ((a.bytes ++ [b]).headD 0#8).toNat then .body else .check))
  ∧ (∀ (s : State) (a : Assembly), s.link.assembly = some a → a.last + 2000 ≤ s.time.clock →
      exec .gapError s = .next
        { s with
          link.receiver := .hunt, link.assembly := none, link.errorFlag := true
          link.errorCount := if s.link.errorCount < 65535 then s.link.errorCount + 1 else 65535 })
  ∧ (∀ (b : Byte) (bad : Bool) (s : State) (a : Assembly), s.link.assembly = some a →
      a.last + 2000 < s.time.clock →
      exec (.byteReceived b bad) s = .next
        { s with
          link.receiver := if b = 0xA5#8 ∧ bad = false then .header else .hunt
          link.assembly := if b = 0xA5#8 ∧ bad = false then some ⟨[], s.time.clock⟩ else none
          link.errorFlag := true
          link.errorCount := if s.link.errorCount < 65535 then s.link.errorCount + 1 else 65535 })
  ∧ (∀ (s : State) (r : Reply), s.link.reply = some r → s.link.deciding = none →
      (r.kind = 0x86#8 ∧ r.result = .accepted → exec .replySent s = exec .softReset s)
        ∧ ((r.kind ≠ 0x86#8 ∨ r.result ≠ .accepted) → s.link.buffer = [] → exec .replySent s = .next { s with link.reply := none })
        ∧ (∀ f rest, r.kind ≠ 0x86#8 ∨ r.result ≠ .accepted → s.link.buffer = f :: rest → frameRefusal f = none →
            exec .replySent s = .next
              { s with link.reply := none, link.buffer := rest, link.deciding := some f })
        ∧ (∀ f rest e, r.kind ≠ 0x86#8 ∨ r.result ≠ .accepted → s.link.buffer = f :: rest → frameRefusal f = some e →
            exec .replySent s = .next
              { s with
                link.buffer := rest
                link.reply := some ⟨f.kind ||| 0x80#8, f.tag, e, statusSummary s, .none⟩ }))
  ∧ (∀ (s : State) (f : Frame),
      (2 ≤ s.link.buffer.length → goodFrame s f =
        { s with
          link.receiver := .hunt, link.assembly := none, link.errorFlag := true
          link.errorCount := if s.link.errorCount < 65535 then s.link.errorCount + 1 else 65535 })
      ∧ (s.link.buffer.length < 2 → s.link.boundaryDue = false →
          (goodFrame s f).link.silence
              = (if s.link.silence = .waiting then
                  (if s.link.supervision = true ∧ s.volume.state = .opened then .armed else .off)
                else s.link.silence)
            ∧ (s.link.silence ≠ .off → (goodFrame s f).link.boundaries = 0)
            ∧ (s.link.deciding.isSome = true ∨ s.link.reply.isSome = true →
                (goodFrame s f).link.buffer = s.link.buffer ++ [f])))
  ∧ (∀ (f : Frame) (check : List Byte) (s : State), f.payload.length ≤ 240 → check.length = 2 →
      check ≠ checkBytes (crc16 (frameBody f)) →
      s.link.assembly = none →
        receive (startByte :: (frameBody f ++ check)) s =
          { s with
            link.receiver := .hunt
            link.errorFlag := true
            link.errorCount := if s.link.errorCount < 65535 then s.link.errorCount + 1 else 65535 })
  ∧ ∀ (r : Reply) (p body : List Byte),
      p = BitVec.ofNat 8 (resultCode r.result) :: r.summary :: fieldBytes r.fields →
      body = BitVec.ofNat 8 p.length :: r.kind :: r.tag :: p →
      replyBytes r = 0xA5#8 :: (body ++ [(crc16 body).extractLsb' 8 8, (crc16 body).extractLsb' 0 8])

/-- What a wake does, in its order (R144, R79): the power state and the idle timer, the WAKE report first of all, each
STANDBY bank to WAKING for 400 ms, and nothing else of a bank; and a request that restarts the idle timer wakes an IDLE
part and is then decided with the part ACTIVE (R142). The time in IDLE that the report gives is in whole milliseconds,
rounded down (log 18). -/
def Obligations.AWakeFollowsItsOrder : Prop :=
  (∀ (s : State) (cause : WakeCause),
      (wake s cause).time = { s.time with
        idle := false, idleSince := none
        idleStart := if s.time.idleSetting = 0 then none else some s.time.clock }
      ∧ (s.queue.reports.length + s.queue.reserved < 48 →
          ∃ rest, (wake s cause).queue.reports = s.queue.reports ++
            ⟨(s.queue.lastSeq + 1) % 65536, s.time.clock % 2 ^ 48, s.queue.missed,
              .wake cause s.time.clock ((s.time.clock - s.time.idleSince.getD s.time.clock) / 1000)⟩ :: rest)
      ∧ (∀ bk, getBank (wake s cause) bk =
          if (getBank s bk).state = .standby then
            { getBank s bk with state := .waking, deadline := some (s.time.clock + 400000) }
          else getBank s bk)
      ∧ (wake s cause).volume = s.volume ∧ (wake s cause).leaves = s.leaves ∧ (wake s cause).motion = s.motion
      ∧ (wake s cause).seq = s.seq ∧ (wake s cause).safe = s.safe ∧ (wake s cause).link = s.link
      ∧ (wake s cause).lines.binding = s.lines.binding ∧ (wake s cause).lines.hold = s.lines.hold)
  ∧ ∀ (c : Instr) (k : Byte) (s : State), restartingKind c = some k → s.time.idle = true →
      exec c s = exec c (wake s (.request k)) ∧ ∀ t, exec c s = .next t → t.time.idle = false

/-- A refused request changes nothing but the idle timer and the reply (R176 and the checks of every request). -/
def Obligations.ARefusedRequestChangesNothing : Prop :=
  ∀ (c : Instr) (k tag : Byte) (s t : State) (r : Result) (b : Byte) (f : Fields), restartingKind c = some k →
    exec c s = .next t → t.link.reply = some ⟨k ||| 0x80#8, tag, r, b, f⟩ → r ≠ .accepted → t = replied k tag r f (awake k s)

/-- The queries answer what stands and change nothing else: six that neither wake the part nor restart the idle timer
(R67, R88, R131, R135, R178), and those of the volume, the leaf table, the plan, the recipes and the dose, which do
(R18, R33, R34, R38, R87, R108). Every time in a reply is the 48-bit timebase value (R133). The model's choices:
LEAF_QUERY names the leaf index before the count, and so do the other refusals of one name (log 27); in IDLE the arm drive
state reads as at the entry (log 40); the plate positions of an unsettled plate are free (log 5). -/
def Obligations.QueriesAnswerWhatStands : Prop :=
  ∀ (tag : Byte) (s : State) (st : Nat → Nat), (∀ t, st t = t % 2 ^ 48) →
    exec (.ident tag) s = .next (replied 0x01#8 tag .accepted
      (.ident ⟨ascii "HESTREL".toList, ascii "GD-440".toList, ascii "C".toList, [64, 48, 4, 2048, 24, 8, 32, 8, 240]⟩) s)
    ∧ exec (.status tag) s = .next (replied 0x02#8 tag .accepted
      (.status
        { safe := s.safe.flag, episodeStart := s.safe.episodeStart.map st
          faults := s.safe.faults.map fun f => { f with time := st f.time }
          further := s.safe.further, pendingFirst := s.safe.pendingFirst.isSome
          volume := s.volume.state, k := s.volume.k, known := s.volume.known
          platen := s.motion.platen, turnHeld := s.motion.turn.map fun t => t.held
          capture := s.seq.capture.isSome, waiting := s.seq.orders.length, occupied := s.queue.reports.length
          reserved := s.queue.reserved, missed := s.queue.missed, lastSeq := s.queue.lastSeq
          errorCount := s.link.errorCount, supervision := s.link.supervision, silence := s.link.silence }) s)
    ∧ exec (.time tag) s = .next (replied 0x03#8 tag .accepted
      (.time
        { count := st s.time.clock, idle := s.time.idle, setting := s.time.idleSetting
          remaining := if s.time.idle then none else
            s.time.idleStart.map fun t => (t + s.time.idleSetting * 1000000 - s.time.clock + 999) / 1000
          idleSince := s.time.idleSince.map st, silence := s.link.silence, boundaries := s.link.boundaries
          tap := s.time.tap, pendingTap := s.time.pendingTap, phase := s.time.ms % 512 }) s)
    ∧ exec (.motionQuery tag) s = .next (replied 0x27#8 tag .accepted
      (.motionQuery
        { platen := s.motion.platen, raisePending := s.motion.raisePending, pressure := s.motion.pressure
          dwellLeft := s.motion.dwell.map fun d => d.expiry - s.time.clock
          positions := platePositions s, targets := s.motion.plateTargets, limits := s.motion.plateLimits
          plateState := s.motion.plateState, arm := armPosition s, armPowered := s.motion.armPowered
          suction := s.motion.suction, keptOn := s.motion.keptOn, air := s.motion.air
          turn := s.motion.turn.map fun t =>
            { seq := t.seq, direction := t.direction, origin := t.origin, override := t.override, leaf := t.leaf
              oldOpening := t.oldOpening, held := t.held, stage := t.stage, recovery := t.recovery
              retries := t.retries, attempts := t.attempts, doublePicks := t.doublePicks, limits := t.limits
              start := st t.start }
          profile := s.motion.profile }) s)
    ∧ (∀ (bank : Bank → BankView) (aim : Side → AimView),
      (∀ bk r, r = getBank s bk → bank bk =
        { state := r.state, hood := r.hood.state, count := r.count, conditioned := r.conditioned
          recharge := r.recharge, lastFiring := r.lastFiring.map st, hoodRequest := r.hoodRequest
          standbySince := if r.state = .standby then r.standbySince.map st else none }) →
      (∀ sd a, a = s.lamps.aims.get sd → aim sd =
        { requested := a.requested, guard := a.guard, applied := a.applied, lit := a.lit, hood := a.hood.state }) →
      exec (.lampQuery tag) s = .next (replied 0x35#8 tag .accepted
        (.lampQuery
          { banks := ⟨bank .a, bank .b, bank .c, bank .d⟩, aims := ⟨aim .left, aim .right⟩
            interval := s.lamps.interval, granted := s.lamps.grants.map fun g => st g.time }) s))
    ∧ (∀ (order : Order → Order) (side : SideRec → SideView),
      (∀ o, order o = { o with accepted := st o.accepted }) →
      (∀ x, side x =
        { stage := x.stage, syncTime := x.syncTime.map st
          asks := x.asks.map fun a =>
            { a with
              granted := st a.granted
              answer := a.answer.map fun y =>
                match y with
                | .fired t => .fired (st t)
                | .withdrawn => .withdrawn } }) →
      exec (.captureQuery tag) s = .next (replied 0x42#8 tag .accepted
        (.captureQuery
          { orders := s.seq.orders.map order
            capture := s.seq.capture.map fun c =>
              { seq := c.seq, order := order c.order, triggered := c.t0.isSome, opening := c.opening
                levels := c.levels, duration := c.duration, t0 := c.t0.map st
                sides := ⟨c.sides.l.map side, c.sides.r.map side⟩ }
            cameras := s.seq.cameras, lateLimit := s.seq.lateLimit, lateCount := s.seq.lateCount }) s))
    ∧ (∀ a, a = awake 0x15#8 s →
      exec (.volumeQuery tag) s = .next (replied 0x15#8 tag .accepted
        (.volumeQuery
          { a.volume with
            loadTime := a.volume.loadTime.map st, openTime := a.volume.openTime.map st
            closeTime := a.volume.closeTime.map st }) a))
    ∧ (∀ i c a, a = awake 0x19#8 s →
      exec (.leafQuery tag i c) s = .next (decided 0x19#8 tag
        [ orElse (decide (a.volume.state = .empty)) .noVolume,
          orField (decide (a.volume.leafCount + 1 < i)) .leafIndex,
          orField (decide (c < 1) || decide (8 < c)) .count ] a a
        (.leafQuery (((a.leaves.drop i).take c).zipIdx i |>.map fun x =>
          ⟨x.2, if x.2 = 0 then .frontBoard else if x.2 = a.volume.leafCount + 1 then .backBoard else .leaf, x.1⟩))))
    ∧ (∀ f a, a = awake 0x1A#8 s →
      exec (.gapsQuery tag f) s = .next (decided 0x1A#8 tag
        [ orElse (decide (a.volume.state = .empty)) .noVolume,
          orField (decide (2 * a.volume.leafCount + 3 < f)) .startFace ] a a
        (.gapsQuery ((faceList a.leaves).countP isGap) ((gapRuns ((faceList a.leaves).drop f) f none).take 16)
          (decide (0 < f) && gapAt a f && gapAt a (f - 1))
          (decide (16 < (gapRuns ((faceList a.leaves).drop f) f none).length)))))
    ∧ (∀ p a, a = awake 0x1C#8 s →
      exec (.planQuery tag p) s = .next (decided 0x1C#8 tag
        [ orElse (decide (a.volume.state = .empty)) .noVolume,
          orField (decide (p < 1) || decide (24 < p)) .position ] a a
        (.planQuery a.plan.length ((a.plan.drop (p - 1)).take 23))))
    ∧ (∀ n a, a = awake 0x34#8 s →
      exec (.recipeQuery tag n) s = .next (decided 0x34#8 tag [ orField (decide (8 ≤ n)) .recipe ] a a
        (.recipeQuery (a.lamps.recipes.getD n default))))
    ∧ (∀ (a : State) (guard : Side → GuardView), a = awake 0x3A#8 s →
      (∀ sd, guard sd =
        { outcome := a.dose.outcome.get sd, note := a.dose.note.get sd, level := a.dose.tickLevel.get sd }) →
      exec (.doseQuery tag) s = .next (replied 0x3A#8 tag .accepted
        (.doseQuery
          { total := a.volume.totalDose, leafCeiling := a.volume.leafCeiling
            volumeCeiling := a.volume.volumeCeiling, reserve := a.volume.reserve
            calibrated := (a.dose.banks.toList ++ a.dose.aims.toList).map fun c => c.points.any fun p => decide (p ≠ 0)
            prediction := a.dose.prediction
            outstanding := ⟨outstanding a a.volume.k, outstanding a (a.volume.k + 1)⟩
            outstandingTotal := outstandingTotal a, credit := a.dose.credit
            aims := ⟨guard .left, guard .right⟩ }) a))

/-- LAMP_CAL and CAL_QUERY (R92, R93): the checks of LAMP_CAL in their order, each naming the first point that fails;
one that passes replaces its source's record whole; CAL_QUERY answers the record of its source. -/
def Obligations.CalibrationRecordsAreLoadedAndShown : Prop :=
  ∀ (tag : Byte) (s : State),
    (∀ (points : List Nat) (spill : Nat) (a : State), a = awake 0x38#8 s →
      exec (.lampCal tag none points spill) s = .next (replied 0x38#8 tag .badField (.badField .source) a))
    ∧ (∀ (x : Source) (points : List Nat) (spill top : Nat) (a u : State), a = awake 0x38#8 s →
      top = (match x with | .bank _ => 200000 | .aim _ => 5000) →
      u = (match x with
        | .bank bk => { a with dose.banks := a.dose.banks.set bk ⟨points, spill⟩ }
        | .aim sd => { a with dose.aims := a.dose.aims.set sd ⟨points, spill⟩ }) →
      exec (.lampCal tag (some x) points spill) s = .next (decided 0x38#8 tag
        [ orField (points.any fun p => decide (top < p)) (.point (points.findIdx fun p => decide (top < p))),
          orField (decide (255 < spill)) .spill,
          ((List.range points.length).any (fun i => decide (0 < i) && decide (points.getD i 0 < points.getD (i - 1) 0)),
            .notMonotonic,
            .notMonotonic ((List.range points.length).findIdx fun i =>
              decide (0 < i) && decide (points.getD i 0 < points.getD (i - 1) 0))) ] a u
        (.lampCal x (points.any fun p => decide (p ≠ 0)))))
    ∧ ∀ (source : Option Source) (a : State), a = awake 0x39#8 s →
      exec (.calQuery tag source) s = .next
        (match source with
        | none => replied 0x39#8 tag .badField (.badField .source) a
        | some (.bank bk) =>
          replied 0x39#8 tag .accepted
            (.calQuery (a.dose.banks.get bk) ((a.dose.banks.get bk).points.any fun p => decide (p ≠ 0))) a
        | some (.aim sd) =>
          replied 0x39#8 tag .accepted
            (.calQuery (a.dose.aims.get sd) ((a.dose.aims.get sd).points.any fun p => decide (p ≠ 0))) a)

/-- LINE_READ, LINE_COUNTS and LINE_QUERY (R154); a pending change is given with the 48-bit time at which it appeared
(R133, R146). -/
def Obligations.LineReadsAnswerAndChangeNoConfiguration : Prop :=
  ∀ (tag : Byte) (s : State),
    (∀ a, a = awake 0x4A#8 s →
      exec (.lineRead tag) s = .next (replied 0x4A#8 tag .accepted
        (.lineRead (a.lines.records.map fun l =>
          ⟨l.dir, if l.dir = .inp then l.level else l.staged, l.raw, l.raw && l.event⟩)) a))
    ∧ (∀ (clear : LineMask) a, a = awake 0x4B#8 s →
      exec (.lineCounts tag clear) s = .next (replied 0x4B#8 tag .accepted
        (.lineCounts (a.lines.records.map fun l => l.count))
        { a with
          lines.records := a.lines.records.zipIdx.map fun x =>
            if clear.getLsbD x.2 then { x.1 with count := 0 } else x.1 }))
    ∧ (∀ i a l, a = awake 0x4C#8 s → l = a.lines.records.getD i default →
      exec (.lineQuery tag i) s = .next (decided 0x4C#8 tag [ orField (decide (32 ≤ i)) .line ] a a
        (.lineQuery
          { dir := l.dir, pull := l.pull, drive := l.drive, sense := l.sense, polarity := l.polarity
            bothEdges := l.bothEdges, debounce := l.debounce, event := l.event, wake := l.wake, hold := l.hold
            level := l.level, change := l.change.map fun x => (x.1, x.2 % 2 ^ 48), staged := l.staged, raw := l.raw
            latch := l.latch, count := l.count }
          (allFns.find? fun f => decide (lineOf a f = some i)))))

/-! ### The report queue -/

/-- Admission (R181, R182, R183, R157): a major report without a slot needs fewer than 64 places taken, a minor one fewer
than 48, a report in its reserved slot always enters; an admitted report takes the next number and the timebase, a minor
one the miss count; ATTENTION's line shows the waiting report; nothing else changes; STATUS reads the miss count. -/
def Obligations.ReportsAreAdmittedByTheirClass : Prop :=
  ∀ (s : State) (b : Body) (admitted : Nat → State),
    (∀ missed, admitted missed =
      driveFn
        { s with
          queue.reports := s.queue.reports ++ [⟨(s.queue.lastSeq + 1) % 65536, s.time.clock % 2 ^ 48, missed, b⟩]
          queue.lastSeq := (s.queue.lastSeq + 1) % 65536 } .attention true) →
    offerMajor s b
        = (if s.queue.reports.length + s.queue.reserved < 64 then admitted 0 else s)
      ∧ offerMinor s b
        = (if s.queue.reports.length + s.queue.reserved < 48 then
            { admitted s.queue.missed with queue.missed := 0 }
          else { s with queue.missed := if s.queue.missed < 255 then s.queue.missed + 1 else 255 })
      ∧ enterReserved s b = { admitted 0 with queue.reserved := s.queue.reserved - 1 }
      ∧ ∀ tag, ∃ v, exec (.status tag) s = .next (replied 0x02#8 tag .accepted (.status v) s)
        ∧ v.missed = s.queue.missed

/-- FETCH (R184): the oldest reports leave, as many as fit in 236 bytes; a pending first FAULT report is offered again; the reply counts what then waits. -/
def Obligations.FetchRemovesTheOldestReports : Prop :=
  ∀ (tag : Byte) (s : State), ∃ n t,
    n = fetchCount s.queue.reports 236
      ∧ ((s.queue.reports.take n).map reportLength).sum ≤ 236
      ∧ (n < s.queue.reports.length → 236 < ((s.queue.reports.take (n + 1)).map reportLength).sum)
      ∧ exec (.fetch tag) s = .next (replied 0x04#8 tag .accepted
          (.fetch t.queue.reports.length (s.queue.reports.take n)) t)
      ∧ t.queue.reserved = s.queue.reserved ∧ t.queue.missed = s.queue.missed
      ∧ (∀ f, s.safe.pendingFirst = some f → (s.queue.reports.drop n).length + s.queue.reserved < 64 →
          t.safe.pendingFirst = none ∧ t.queue.reports = s.queue.reports.drop n ++
            [⟨(s.queue.lastSeq + 1) % 65536, s.time.clock % 2 ^ 48, 0, .fault f⟩])
      ∧ (s.safe.pendingFirst = none ∨ 64 ≤ (s.queue.reports.drop n).length + s.queue.reserved →
          t.queue.reports = s.queue.reports.drop n ∧ t.safe = s.safe ∧ t.queue.lastSeq = s.queue.lastSeq)
      ∧ t.time = s.time ∧ t.volume = s.volume ∧ t.leaves = s.leaves ∧ t.motion = s.motion ∧ t.lamps = s.lamps
      ∧ t.dose = s.dose ∧ t.seq = s.seq ∧ t.link = s.link ∧ t.plan = s.plan

/-- LINK_SET, RESET and IDLE_SET (R137, R138, R141, R179, R180). LINK_SET names the first field that fails, the enable,
then the tap, then the clear flag (the model's choice, log 27). -/
def Obligations.LinkSetResetAndIdleSet : Prop :=
  ∀ (tag : Byte) (s : State),
    (∀ enable tap clear a, a = awake 0x05#8 s →
      exec (.linkSet tag enable tap clear) s = .next (decided 0x05#8 tag
        [ orField (decide (1 < enable)) .enable, orField (decide (3 < tap)) .tap,
          orField (decide (1 < clear)) .clearCount ] a
        (silenceJudged
          { a with
            link.supervision := decide (enable = 1)
            time.pendingTap := some tap
            link.errorFlag := false
            link.errorCount := if clear = 1 then 0 else a.link.errorCount })
        (.linkSet (decide (enable = 1)) a.time.tap (some tap) a.link.errorCount)))
    ∧ (∀ a, a = awake 0x06#8 s → exec (.reset tag) s = .next (replied 0x06#8 tag .accepted .none a))
    ∧ (∀ n v a, a = awake 0x09#8 s → v = (if n = 0 then 0 else if n < 10 then 10 else if 3600 < n then 3600 else n) →
      exec (.idleSet tag n) s = .next (replied 0x09#8 tag .accepted (.idleSet v (decide (v ≠ n)))
        { a with time.idleSetting := v, time.idleStart := if v = 0 then none else some a.time.clock }))

/-! ### The safe state -/

/-- A fault (R123, R125, R163, R164, R165, R166, with the safe behaviour of R58, R63, R84 and R127): it is recorded as it finds
the part, and its FAULT report queued; the first of an episode abandons the turn with its ABANDONED_SAFE report, raises the
platen, stops what can still be stopped of a capture, queues the record of one that this ends and of each waiting order,
and closes the hoods; its own report waits where it finds no room. A later fault moves nothing. The model's choices: the
order of the blocks (log 29), the kept-on flag that falls with the
suction (log 21), and no new raise of a RAISING platen (log 13). -/
def Obligations.AFaultEntersTheSafeStateOnce : Prop :=
  ∀ (s t : State) (kind : FaultKind) (bank : Option Bank) (r : FaultRec) (f : FaultReport) (room : Bool),
    t = raiseFault s kind bank →
    r = { kind := kind, time := s.time.clock, bank := bank
          stage := s.motion.turn.map fun u => (u.stage, u.recovery)
          k := s.volume.k, known := s.volume.known } →
    f = { record := r, position := if s.safe.faults.length < 8 then s.safe.faults.length + 1 else 0
          further := t.safe.further, first := !s.safe.flag } →
    room = decide (s.queue.reports.length + s.queue.reserved < 64) →
    t.safe.flag = true
      ∧ (s.safe.faults.length < 8 → t.safe.faults = s.safe.faults ++ [r] ∧ t.safe.further = s.safe.further)
      ∧ (8 ≤ s.safe.faults.length → t.safe.faults = s.safe.faults
          ∧ t.safe.further = if s.safe.further < 255 then s.safe.further + 1 else 255)
      ∧ (s.safe.flag = true → t.motion = s.motion ∧ t.seq = s.seq ∧ t.lamps = s.lamps ∧ t.volume = s.volume
          ∧ t.dose = s.dose ∧ t.time = s.time ∧ t.safe.episodeStart = s.safe.episodeStart
          ∧ t.safe.pendingFirst = s.safe.pendingFirst
          ∧ t.queue.reports = s.queue.reports ++ (if room then entered s [.fault f] else [])
          ∧ t.queue.reserved = s.queue.reserved ∧ t.queue.missed = s.queue.missed)
      ∧ (s.safe.flag = false → platenInv s →
          ∀ (known keep : Bool) (done : List Capture) (ended : SideRec → SideRec) (d : Option Capture),
            known = (s.volume.known && s.motion.turn.all fun u =>
              decide (u.stage = .raise) || decide (u.stage = .air) || decide (u.stage = .reach)) →
            keep = (s.motion.suction && s.motion.turn.any fun u =>
              decide (u.stage = .grip) || decide (u.stage = .sweep) || decide (u.stage = .release)) →
            (∀ x, ended x =
              if x.stage = .arming ∨ x.stage = .waiting then { x with stage := .ended .abortedSafe } else x) →
            d = (s.seq.capture.map fun c =>
              { c with sides := ⟨c.sides.l.map ended, c.sides.r.map ended⟩, deadline := none }) →
            done = d.toList.filter (captureOver s) →
            t.safe.episodeStart = some s.time.clock
              ∧ t.safe.pendingFirst = (if room then s.safe.pendingFirst else some f)
              ∧ t.motion.turn = none ∧ t.motion.air = false ∧ t.motion.raisePending = false
              ∧ t.motion.plateDeadline = none
              ∧ t.motion.plateState = (if s.motion.plateState = .moving then .unsettled else s.motion.plateState)
              ∧ t.motion.platen = (if s.motion.platen = .raised ∨ s.motion.platen = .raising then s.motion.platen
                else if fnActive s .platenTop then .raised else .raising)
              ∧ t.seq.orders = [] ∧ t.seq.capture = (if done = [] then d else none)
              ∧ t.volume = { s.volume with known := known, sidesFailed := s.volume.sidesFailed + (done.map failedSides).sum }
              ∧ t.dose = (if done = [] then s.dose else { s.dose with prediction := none, credit := ⟨0, 0⟩ })
              ∧ (∀ u, s.motion.turn = some u →
                  t.motion.keptOn = keep ∧ t.motion.suction = keep ∧ t.motion.armPowered = false)
              ∧ (s.motion.turn = none →
                  t.motion.suction = s.motion.suction ∧ t.motion.keptOn = s.motion.keptOn
                    ∧ t.motion.armPowered = s.motion.armPowered)
              ∧ t.queue.reports = s.queue.reports ++ entered s
                  ((if room then [.fault f] else [])
                    ++ (s.motion.turn.toList.map fun u => .turn
                      { seq := u.seq, direction := u.direction, origin := u.origin, outcome := .abandonedSafe
                        stage := some (u.stage, u.recovery), fault := some kind, oldOpening := u.oldOpening
                        k := s.volume.k, known := known, leaf := u.leaf, handled := (getLeaf s u.leaf).handled
                        attempts := u.attempts, doublePicks := u.doublePicks, limits := u.limits, keptOn := keep
                        start := u.start, finish := s.time.clock })
                    ++ (done.map fun c => .capture (endedRecord s c))
                    ++ s.seq.orders.map fun o => .capture (flushedRecord o))
              ∧ t.queue.reserved = s.queue.reserved
                  - ((if s.motion.turn.isSome then 1 else 0) + done.length + s.seq.orders.length)
              ∧ t.queue.missed = s.queue.missed
              ∧ (∀ bk, (getBank t bk).hoodRequest = none ∧ (getBank t bk).state = (getBank s bk).state)
              ∧ (s.lamps.interval = none → ∀ bk,
                  (getBank t bk).hood = closeHood s.time.clock (getBank s bk).hood)
              ∧ (s.lamps.interval.isSome = true → t.lamps.closePending = true ∧ ∀ bk,
                  (getBank t bk).hood = (getBank s bk).hood))
      ∧ t.leaves = s.leaves ∧ t.plan = s.plan ∧ t.link = s.link ∧ t.volume.k = s.volume.k
      ∧ t.volume.state = s.volume.state ∧ t.lines.hold = s.lines.hold ∧ t.time.idle = s.time.idle

/-- SAFE and CLEAR_SAFE (R167, R168, R169, R170, R11). The episode's length is given in whole milliseconds, rounded down
(log 18). -/
def Obligations.SafeAndClearSafe : Prop :=
  ∀ (tag : Byte) (s : State),
    (∀ a u, a = awake 0x07#8 s → u = raiseFault a .operator none →
      exec (.safe tag) s = .next (replied 0x07#8 tag .accepted
        (.safe (!a.safe.flag) (if a.safe.faults.length < 8 then a.safe.faults.length + 1 else 0) u.safe.further)
        (settle u)))
    ∧ (∀ a high bad, a = awake 0x08#8 s → high = decide (a.motion.profile.limit < a.motion.pressure) →
      bad = (⟨decide ((getBank a .a).state = .fault), decide ((getBank a .b).state = .fault),
        decide ((getBank a .c).state = .fault), decide ((getBank a .d).state = .fault)⟩ : Quad Bool) →
      exec (.clearSafe tag) s = .next (decided 0x08#8 tag
        [ orElse (!a.safe.flag) .wrongState,
          orElse a.lines.hold.isSome .held,
          (high || bad.a || bad.b || bad.c || bad.d, .conditionPersists,
            .conditions a.motion.pressure a.motion.profile.limit high bad) ] a
        (settle
          (if a.volume.platesPending then startAdjust { a with safe := ⟨false, [], 0, none, none⟩ } a.volume.k
          else { a with safe := ⟨false, [], 0, none, none⟩ }))
        (.clearSafe a.safe.faults.length a.safe.further
          ((a.time.clock - a.safe.episodeStart.getD a.time.clock) / 1000) a.safe.pendingFirst.isSome
          a.volume.platesPending)))

/-! ### Volumes, leaves and the plan -/

/-- VOLUME_LOAD (R2, R3, R20): its table of checks, and the fresh record, table and plan of a load that is taken. -/
def Obligations.VolumeLoadMakesAFreshRecord : Prop :=
  ∀ (tag : Byte) (mark : Text) (part n thick leafMax volMax limit g : Nat) (s a : State), a = awake 0x10#8 s →
    ∃ u, exec (.volumeLoad tag mark part n thick leafMax volMax limit g) s = .next (decided 0x10#8 tag
        [ orElse (decide (a.volume.state = .opened)) .volumeOpen,
          orField (decide (mark.length < 1) || decide (40 < mark.length) || mark.any (fun b => !isMarkChar b)
            || mark.all fun b => b == 0x20#8) .shelfMark,
          orField (decide (99 < part)) .part,
          orField (decide (n < 1) || decide (2046 < n)) .leaves,
          orField (decide (thick < 20) || decide (2000 < thick)) .thickness,
          orField (decide (leafMax < 1) || decide (4000000000 < leafMax)) .leafCeiling,
          orField (decide (volMax < 1) || decide (2 ^ 48 - 1 < volMax)) .volumeCeiling,
          orField (decide (limit < 1) || decide (255 < limit)) .handlingLimit,
          orField (decide (4000000000 < g)) .reserve ] a u (.volumeLoad (n + 2) (2 * n + 2)))
      ∧ u = { a with volume := u.volume, leaves := u.leaves, plan := [] }
      ∧ u.volume =
          { state := .loaded, shelfMark := some mark, part := part, leafCount := n, thickness := thick
            leafCeiling := leafMax, volumeCeiling := volMax, handlingLimit := limit, reserve := g
            closeStatus := none, k := 0, known := false, platesPending := false, captureSeq := 0, turnSeq := 0
            capturesIssued := 0, facesConfirmed := 0, sidesFailed := 0, turnsDone := 0, gripRetries := 0
            doublePicks := 0, manualTurns := 0, totalDose := 0, loadTime := some a.time.clock
            openTime := none, closeTime := none }
      ∧ u.leaves.length = n + 2
      ∧ ∀ i, i < n + 2 → getLeaf u i =
          { manual := false, dose := 0, handled := 0
            recto := ⟨if i = 0 then .external else .opened, 0, none⟩
            verso := ⟨if i = n + 1 then .external else .opened, 0, none⟩ }

/-- VOLUME_DISCARD, and what of the part no load, close or discard changes (R17). A discard returns opening k and its flag
to their EMPTY values with every other field, although R5 says that it changes neither (the model's choice, log 39). -/
def Obligations.VolumeDiscardEmptiesTheRecord : Prop :=
  (∀ (tag : Byte) (s a : State), a = awake 0x14#8 s →
    exec (.volumeDiscard tag) s = .next (decided 0x14#8 tag
      [ orElse (decide (a.volume.state = .opened)) .volumeOpen,
        orElse (decide (a.volume.state = .empty)) .noVolume ] a
      { a with
        volume :=
          { state := .empty, shelfMark := none, part := 0, leafCount := 0, thickness := 0, leafCeiling := 0
            volumeCeiling := 0, handlingLimit := 0, reserve := 0, closeStatus := none, k := 0, known := false
            platesPending := false, captureSeq := 0, turnSeq := 0, capturesIssued := 0, facesConfirmed := 0
            sidesFailed := 0, turnsDone := 0, gripRetries := 0, doublePicks := 0, manualTurns := 0
            totalDose := 0, loadTime := none, openTime := none, closeTime := none }
        leaves := [], plan := [] }
      .none)
    ∧ (s.time.idle = false → ∀ t, exec (.volumeDiscard tag) s = .next t → t.queue = s.queue))
  ∧ ∀ (c : Instr) (s t : State),
      (match c with
      | .volumeLoad .. => True
      | .volumeClose .. => True
      | .volumeDiscard .. => True
      | _ => False) →
      exec c s = .next t →
        t.dose.banks = s.dose.banks ∧ t.dose.aims = s.dose.aims ∧ t.lamps.recipes = s.lamps.recipes
          ∧ t.motion.profile = s.motion.profile ∧ t.seq.cameras = s.seq.cameras

/-- VOLUME_OPEN and RESEAT (R4, R9, R10, R11, R26, R64). -/
def Obligations.VolumeOpenAndReseat : Prop :=
  ∀ (tag : Byte) (k : Nat) (s : State),
    (∀ a, a = awake 0x11#8 s →
      exec (.volumeOpen tag k) s = .next (decided 0x11#8 tag
        [ orElse (decide (a.volume.state ≠ .loaded)) .wrongState,
          orField (decide (a.volume.leafCount < k)) .opening,
          orElse a.safe.flag .safeState,
          orElse a.lines.hold.isSome .held,
          orElse (platenIn a [.lowering, .raising]) .busyMotion,
          orElse (platenIn a [.pressing, .down, .stopped]) .wrongState ] a
        (settle (silenceJudged (startAdjust
          { a with
            volume.state := .opened, volume.k := k, volume.known := true
            volume.openTime := some a.time.clock } k)))
        (.volumeOpen k (plateTargets a k) (plateLimits a k))))
    ∧ ∀ (leaf : Option Nat) (a u : State), a = awake 0x16#8 s →
      u = (match leaf with
        | none => { a with volume.k := k, volume.known := true }
        | some i =>
          { a with
            volume.k := k, volume.known := true
            volume.turnsDone := if a.volume.turnsDone < 4294967295 then a.volume.turnsDone + 1 else 4294967295
            volume.manualTurns :=
              if a.volume.manualTurns < 4294967295 then a.volume.manualTurns + 1 else 4294967295
            leaves := a.leaves.modify i fun l =>
              { l with handled := if l.handled < 255 then l.handled + 1 else 255 } }) →
      exec (.reseat tag k leaf) s = .next (decided 0x16#8 tag
        [ orElse (decide (a.volume.state ≠ .opened)) .noVolume,
          orField (decide (a.volume.leafCount < k)) .opening,
          orField (leaf.any fun i => decide (i < 1) || decide (a.volume.leafCount < i)) .manualLeaf,
          orElse a.motion.turn.isSome .busyMotion,
          orElse a.seq.capture.isSome .busyCapture,
          orElse (a.lines.hold.isSome && !a.safe.flag) .held,
          orElse (platenIn a [.lowering, .raising]) .busyMotion,
          orElse (platenIn a [.pressing, .down, .stopped]) .wrongState ] a
        (settle
          (let w : State :=
            if a.motion.keptOn then { u with motion.suction := false, motion.keptOn := false } else u
          if a.safe.flag then { w with volume.platesPending := true } else startAdjust w k))
        (.reseat k (plateTargets a k) (plateLimits a k)
          (leaf.map fun i => if (getLeaf a i).handled < 255 then (getLeaf a i).handled + 1 else 255) a.safe.flag))

/-- VOLUME_SET (R6, R7): its state and field checks in the order of the mask; a ceiling below a dose given or committed
refuses it whole; otherwise each present value replaces the value in force. -/
def Obligations.VolumeSetKeepsCeilingsAboveDoses : Prop :=
  ∀ (tag : Byte) (leafMax volMax limit g thick : Option Nat) (s a : State), a = awake 0x12#8 s →
    ∃ bad : Check,
      (bad.1 = true ↔
        (∃ c, leafMax = some c ∧ ∃ i, i < a.leaves.length ∧ c < (getLeaf a i).dose + outstanding a i)
          ∨ ∃ c, volMax = some c ∧ c < a.volume.totalDose + outstandingTotal a)
      ∧ bad.2.1 = .ceilingBelowDose
      ∧ (∀ c i, leafMax = some c → i < a.leaves.length → c < (getLeaf a i).dose + outstanding a i →
          (∀ j, j < i → (getLeaf a j).dose + outstanding a j ≤ c) →
          bad.2.2 = .ceilingBelow (some i) ((getLeaf a i).dose + outstanding a i))
      ∧ (∀ c, volMax = some c → c < a.volume.totalDose + outstandingTotal a →
          (∀ d i, leafMax = some d → i < a.leaves.length → (getLeaf a i).dose + outstanding a i ≤ d) →
          bad.2.2 = .ceilingBelow none (a.volume.totalDose + outstandingTotal a))
      ∧ exec (.volumeSet tag leafMax volMax limit g thick) s = .next (decided 0x12#8 tag
          [ orElse (decide (a.volume.state = .empty) || decide (a.volume.state = .closed)) .wrongState,
            orField (leafMax.any fun v => decide (v < 1) || decide (4000000000 < v)) .leafCeiling,
            orField (volMax.any fun v => decide (v < 1) || decide (2 ^ 48 - 1 < v)) .volumeCeiling,
            orField (limit.any fun v => decide (v < 1) || decide (255 < v)) .handlingLimit,
            orField (g.any fun v => decide (4000000000 < v)) .reserve,
            orField (thick.any fun v => decide (v < 20) || decide (2000 < v)) .thickness,
            bad ] a
          { a with
            volume.leafCeiling := leafMax.getD a.volume.leafCeiling
            volume.volumeCeiling := volMax.getD a.volume.volumeCeiling
            volume.handlingLimit := limit.getD a.volume.handlingLimit
            volume.reserve := g.getD a.volume.reserve
            volume.thickness := thick.getD a.volume.thickness }
          (.volumeSet (leafMax.getD a.volume.leafCeiling) (volMax.getD a.volume.volumeCeiling)
            (limit.getD a.volume.handlingLimit) (g.getD a.volume.reserve) (thick.getD a.volume.thickness)))

/-- VOLUME_CLOSE (R14, R15, R16): its checks, the record, the hoods, and the summary with every figure that it computes,
outside a lighting interval and in one whose flash is still lit, which goes on; the census of a table under its invariant
sums to 2N+2. -/
def Obligations.VolumeCloseProvesTheWork : Prop :=
  (∀ (tag : Byte) (force : Bool) (s a : State) (n : Nat), a = awake 0x13#8 s →
    n = (faceList a.leaves).countP (fun f => decide (f.state = .opened) || decide (f.state = .wanted)) →
    ∃ u, exec (.volumeClose tag force) s = .next (decided 0x13#8 tag
        [ orElse (decide (a.volume.state ≠ .opened)) .wrongState,
          orElse (a.motion.turn.isSome || decide (a.motion.plateState = .moving)
            || platenIn a [.lowering, .pressing, .raising]) .busyMotion,
          orElse (a.seq.capture.isSome || decide (a.seq.orders ≠ [])) .busyCapture,
          orElse (decide (64 ≤ a.queue.reports.length)) .queueFull,
          (decide (n ≠ 0) && !force, .gaps,
            .gapsFound n ((gapRuns (faceList a.leaves) 0 none).headD (0, 0)).1
              ((gapRuns (faceList a.leaves) 0 none).headD (0, 0)).2) ] a u
        (.volumeClose (if n = 0 then .complete else .incomplete) n ((a.queue.lastSeq + 1) % 65536)))
      ∧ (a.seq.capture = none → a.seq.orders = [] →
          (a.lamps.interval = none ∨ ∃ m bk f, a.lamps.interval = some m ∧ (getBank a bk).flash = some f
            ∧ f.capture = some m) →
          u.volume = { a.volume with
            state := .closed, closeStatus := some (if n = 0 then .complete else .incomplete)
            closeTime := some a.time.clock, platesPending := false }
          ∧ u.leaves = a.leaves ∧ u.plan = a.plan ∧ u.motion = a.motion ∧ u.dose = a.dose ∧ u.seq = a.seq
          ∧ u.safe = a.safe ∧ u.time = a.time ∧ u.lamps.interval = a.lamps.interval ∧ u.lamps.grants = a.lamps.grants
          ∧ (∀ bk, getBank u bk = { getBank a bk with
              hoodRequest := none, hood := closeHood a.time.clock (getBank a bk).hood })
          ∧ (∀ sd, (u.lamps.aims.get sd).applied = (if (a.lamps.aims.get sd).lit then 0
              else (a.lamps.aims.get sd).applied) ∧ (u.lamps.aims.get sd).lit = false)
          ∧ u.link = (silenceJudged { a with volume.state := .closed }).link
          ∧ u.queue.reserved = a.queue.reserved
          ∧ ∃ v : Summary, u.queue.reports = a.queue.reports ++
              [⟨(a.queue.lastSeq + 1) % 65536, a.time.clock % 2 ^ 48, 0, .volumeSummary v⟩]
            ∧ v.volume = u.volume ∧ v.gaps = n ∧ v.firstRun = (gapRuns (faceList a.leaves) 0 none).head?
            ∧ (∀ count : FaceState → Nat, (∀ x, count x = (faceList a.leaves).countP fun f => decide (f.state = x)) →
                v.census = ⟨count .shot, count .wanted, count .opened, count (.skipped .blank),
                  count (.skipped .missing), count (.skipped .restricted)⟩)
            ∧ v.highestDose.1 = (getLeaf a v.highestDose.2).dose
            ∧ (∀ i, (getLeaf a i).dose ≤ v.highestDose.1)
            ∧ (∀ i, i < v.highestDose.2 → (getLeaf a i).dose < v.highestDose.1)
            ∧ v.highestHandled.1 = (getLeaf a v.highestHandled.2).handled
            ∧ (∀ i, (getLeaf a i).handled ≤ v.highestHandled.1)
            ∧ (∀ i, i < v.highestHandled.2 → (getLeaf a i).handled < v.highestHandled.1)
            ∧ v.manualLeaves = a.leaves.countP (fun l => l.manual)
            ∧ v.overLimit = a.leaves.countP (fun l => decide (a.volume.handlingLimit < l.handled))))
  ∧ ∀ s : State, s.volume.state ≠ .empty → volumeInv s → leafInv s →
      let c := census (faceList s.leaves)
      c.shot + c.wanted + c.openFaces + c.blank + c.missing + c.restricted = 2 * s.volume.leafCount + 2
        ∧ c.openFaces + c.wanted = gapCount s

/-- LEAF_MARK (R23, R29, R30, R31): its checks; a face action moves each masked face by the table of R23 and shows the
faces it left as they were; MANUAL_ON and MANUAL_OFF set and clear the flag alone, which every reply carries (the model's choice for a face
action, log 19). -/
def Obligations.LeafMarkFollowsTheTableOfFaces : Prop :=
  ∀ (tag : Byte) (i : Nat) (onRecto onVerso : Bool) (action : Option LeafAction) (reason : Option (Option SkipReason))
    (s a : State) (act : LeafAction) (r : SkipReason) (old new : Leaf), a = awake 0x18#8 s →
    act = action.getD .skip → r = (reason.getD none).getD .blank → old = getLeaf a i →
    new =
      (if act = .manualOn then { old with manual := true }
      else if act = .manualOff then { old with manual := false }
      else
        { old with
          recto := if onRecto then { old.recto with state := faceAfterMark act r old.recto.state } else old.recto
          verso := if onVerso then { old.verso with state := faceAfterMark act r old.verso.state }
            else old.verso }) →
    exec (.leafMark tag i onRecto onVerso action reason) s = .next (decided 0x18#8 tag
      [ orElse (decide (a.volume.state = .empty) || decide (a.volume.state = .closed)) .wrongState,
        orField (decide (a.volume.leafCount + 1 < i)) .leafIndex,
        orField (decide (action = none)) .action,
        orField ((decide (act = .manualOn) || decide (act = .manualOff))
          && (decide (i < 1) || decide (a.volume.leafCount < i))) .leafIndex,
        orField (decide (act = .skip) && ((reason.getD none).isNone)) .skipReason,
        orField (decide (act ≠ .skip) && reason.isSome) .skipReason ] a
      { a with leaves := a.leaves.set i new }
      (.leafMark
        (decide (act ≠ .manualOn) && decide (act ≠ .manualOff) && onRecto && decide (new.recto.state = old.recto.state))
        (decide (act ≠ .manualOn) && decide (act ≠ .manualOff) && onVerso && decide (new.verso.state = old.verso.state))
        new.recto.state new.verso.state new.manual))

/-- PLAN_SET (R35, R36, R37): it is refused WRONG_STATE in EMPTY and CLOSED; segments in their ranges, in order and
sharing no leaf, replace the plan in force; any other list is refused and leaves it, with COUNT at position 25 for more
than 24 segments, and otherwise with the failure kind and the position of the first segment that fails a check. -/
def Obligations.PlanSetTakesOrderedSegmentsAlone : Prop :=
  ∀ (tag : Byte) (gs : List SegmentField) (s a : State), a = awake 0x1B#8 s →
    (a.volume.state = .empty ∨ a.volume.state = .closed →
      exec (.planSet tag gs) s = .next (replied 0x1B#8 tag .wrongState .none a))
    ∧ (a.volume.state = .loaded ∨ a.volume.state = .opened →
    (((gs.length ≤ 24
        ∧ (∀ g ∈ gs, g.scheme.isSome = true ∧ 1 ≤ g.start ∧ g.start ≤ 9999 ∧ g.pfx.length ≤ 4
          ∧ g.pfx.all isMarkChar = true ∧ 1 ≤ g.first ∧ g.first ≤ g.last ∧ g.last ≤ a.volume.leafCount)
        ∧ gs.Pairwise (fun x y => x.last < y.first)) →
      exec (.planSet tag gs) s = .next (replied 0x1B#8 tag .accepted (.planSet gs.length)
        { a with plan := gs.map fun g => ⟨g.first, g.last, g.scheme.getD .foliated, g.start, g.pfx⟩ }))
    ∧ (¬ (gs.length ≤ 24
        ∧ (∀ g ∈ gs, g.scheme.isSome = true ∧ 1 ≤ g.start ∧ g.start ≤ 9999 ∧ g.pfx.length ≤ 4
          ∧ g.pfx.all isMarkChar = true ∧ 1 ≤ g.first ∧ g.first ≤ g.last ∧ g.last ≤ a.volume.leafCount)
        ∧ gs.Pairwise (fun x y => x.last < y.first)) →
      ∃ kind position, 1 ≤ position
        ∧ exec (.planSet tag gs) s = .next (replied 0x1B#8 tag .badField (.planFailure kind position) a))
    ∧ (24 < gs.length →
      exec (.planSet tag gs) s = .next (replied 0x1B#8 tag .badField (.planFailure .count 25) a))
    ∧ ∀ (fault : Nat → Option PlanFailure) (i : Nat) (kind : PlanFailure), gs.length ≤ 24 →
      (∀ j, fault j = gs[j]?.bind (segmentFault a.volume.leafCount (if j = 0 then none else gs[j - 1]?))) →
      fault i = some kind → (∀ j, j < i → fault j = none) →
      exec (.planSet tag gs) s = .next (replied 0x1B#8 tag .badField (.planFailure kind (i + 1)) a)))

/-- The label of a face (R39, R40, R41): the boards, a leaf in a segment by its scheme, a leaf in none; the decimal form,
digit by digit; and the roman form, the letters of the largest value not above the number and then those of what remains,
of at most 15 letters and another for every number up to 3,999. -/
def Obligations.LabelsFollowThePlan : Prop :=
  (∀ (plan : List Segment) (n : Nat), faceLabel plan n 0 true = ascii "front pastedown".toList
    ∧ faceLabel plan n (n + 1) false = ascii "back pastedown".toList)
  ∧ (∀ (plan : List Segment) (n i : Nat) (g : Segment) (verso : Bool), 1 ≤ i → i ≤ n →
      g ∈ plan → g.first ≤ i → i ≤ g.last → plan.Pairwise (fun x y => x.last < y.first) →
      ∀ d, d = i - g.first →
      faceLabel plan n i verso = g.pfx ++
        (match g.scheme with
        | .foliated => decimal (g.start + d) ++ ascii (if verso then ['v'] else ['r'])
        | .paginated => ascii "p. ".toList ++ decimal (g.start + 2 * d + (if verso then 1 else 0))
        | .roman => roman (g.start + 2 * d + (if verso then 1 else 0))
        | .unnumbered =>
          ascii ['['] ++ decimal (g.start + d) ++ ascii (if verso then [']', 'v'] else [']', 'r'])
        | .plate => ascii "pl. ".toList ++ decimal (g.start + d) ++ ascii (if verso then " verso".toList else [])))
  ∧ (∀ (plan : List Segment) (n i : Nat) (verso : Bool), 1 ≤ i → i ≤ n →
      (∀ g ∈ plan, ¬ (g.first ≤ i ∧ i ≤ g.last)) →
      faceLabel plan n i verso =
        ascii ['['] ++ decimal i ++ ascii (if verso then [']', 'v'] else [']', 'r']))
  ∧ (∀ n, n < 10 → decimal n = [BitVec.ofNat 8 (48 + n)])
  ∧ (∀ n, 10 ≤ n → decimal n = decimal (n / 10) ++ [BitVec.ofNat 8 (48 + n % 10)])
  ∧ (∀ n, 3999 < n → roman n = ascii ['['] ++ decimal n ++ ascii [']'])
  ∧ roman 0 = []
  ∧ (∀ (n v : Nat) (letters : String) (table : List (Nat × String)),
      table = [(1000, "m"), (900, "cm"), (500, "d"), (400, "cd"), (100, "c"), (90, "xc"), (50, "l"), (40, "xl"),
        (10, "x"), (9, "ix"), (5, "v"), (4, "iv"), (1, "i")] →
      (v, letters) ∈ table → v ≤ n → n ≤ 3999 → (∀ x ∈ table, x.1 ≤ n → x.1 ≤ v) →
      roman n = ascii letters.toList ++ roman (n - v))
  ∧ (∀ n m, 1 ≤ n → n ≤ 3999 → 1 ≤ m → m ≤ 3999 → roman n = roman m → n = m)
  ∧ (∀ n, 1 ≤ n → n ≤ 3999 → (roman n).length ≤ 15)

/-! ### Motion -/

/-- LOWER (R44): its table of checks; one that passes starts a lowering and is answered as it starts. -/
def Obligations.LowerStartsALowering : Prop :=
  ∀ (tag : Byte) (s a : State), a = awake 0x20#8 s →
    exec (.lower tag) s = .next (decided 0x20#8 tag
      [ orElse (decide (a.volume.state ≠ .opened)) .noVolume,
        orElse (!a.volume.known) .openingUnknown,
        orElse a.safe.flag .safeState,
        orElse a.lines.hold.isSome .held,
        orElse (a.motion.turn.isSome || platenIn a [.lowering, .raising] || decide (a.motion.plateState = .moving))
          .busyMotion,
        orElse (platenIn a [.pressing, .down, .stopped]) .wrongState,
        orElse (decide (a.motion.plateState = .unsettled) || !fnActive a .armHome) .wrongState ] a
      (if fnActive a .platenContact then
        { a with motion.platen := .pressing, motion.platenDeadline := some (a.time.clock + 1000000) }
      else { a with motion.platen := .lowering, motion.platenDeadline := some (a.time.clock + 3000000) })
      .none)

/-- Raises and the timers of the platen (R45, R47, R48): the checks of RAISE; in RAISED and RAISING it changes nothing;
otherwise a raise ends the lowering, stops the dwell timer and enters RAISING, or RAISED at once with PLATEN_TOP active;
the timeouts of a lowering, of pressing and of a raise are faults; the dwell timer's expiry reports, and raises the platen
or defers its raise to the end of a capture or of a hold. The platen is STOPPED before the fault of a raise, and the
expired timer is cleared before the fault of a lowering or of pressing (log 14). -/
def Obligations.RaisesAndTimersOfThePlaten : Prop :=
  (∀ (tag : Byte) (s a : State), a = awake 0x21#8 s →
      exec (.raise tag) s = .next (decided 0x21#8 tag
        [ orElse a.motion.turn.isSome .busyMotion,
          orElse (a.seq.capture.isSome && !a.safe.flag) .busyCapture,
          orElse a.lines.hold.isSome .held ] a
        (if platenIn a [.raised, .raising] then a
        else
          settle
            { a with
              motion.platen := if fnActive a .platenTop then .raised else .raising
              motion.platenDeadline := if fnActive a .platenTop then none else some (a.time.clock + 3000000)
              motion.raisePending := false, motion.safeRaise := false
              motion.dwell := none, motion.dwellDeferred := false })
        .none))
  ∧ ∀ (s : State) (d : Nat),
      (s.motion.platenDeadline = some d → d ≤ s.time.clock →
        (s.motion.platen = .lowering → exec .loweringTimeout s =
          .next (settle (raiseFault { s with motion.platenDeadline := none } .noContact none)))
        ∧ (s.motion.platen = .pressing → exec .pressingTimeout s =
          .next (settle (raiseFault { s with motion.platenDeadline := none } .pressureNotReached none)))
        ∧ (s.motion.platen = .raising → exec .raiseTimeout s =
          .next (settle (raiseFault
            { s with motion.platen := .stopped, motion.platenDeadline := none, motion.safeRaise := false }
            .raiseTimeout none))))
      ∧ ∀ (w : Dwell) (report : Deferral → State), s.motion.dwell = some w → w.expiry ≤ s.time.clock →
        (∀ x, report x = offerMajor { s with motion.dwell := none }
          (.dwellExpired s.volume.k s.volume.known w.maximum w.expiry x)) →
        exec .dwellExpiry s = .next
          (if s.seq.capture.isSome then { report .capture with motion.dwellDeferred := true }
          else if s.lines.hold.isSome then { report .hold with motion.raisePending := true }
          else settle (startRaise (report .none) false))

/-- TURN and TURN_BACK (R12, R51, R52, R53): the fourteen checks in their order, the number taken, the slot reserved, the
record, and the RAISE stage under way or already over. -/
def Obligations.TurnsAreAcceptedByTheirChecks : Prop :=
  ∀ (tag : Byte) (override : Bool) (s : State),
    (∀ a, a = awake 0x22#8 s →
      exec (.turn tag override) s = .next (decided 0x22#8 tag (turnChecks a .forward override) a
        (settle (turnAccepted a .forward .link override))
        (.turn (if a.volume.turnSeq < 65535 then a.volume.turnSeq + 1 else 1) .forward (a.volume.k + 1)
          (getLeaf a (a.volume.k + 1)).handled)))
    ∧ (∀ a, a = awake 0x23#8 s →
      exec (.turnBack tag override) s = .next (decided 0x23#8 tag (turnChecks a .backward override) a
        (settle (turnAccepted a .backward .link override))
        (.turn (if a.volume.turnSeq < 65535 then a.volume.turnSeq + 1 else 1) .backward a.volume.k
          (getLeaf a a.volume.k).handled)))

/-- The end of each stage of a running turn and the start of the next (R53 to R57): what it waits for, what it switches, the
timeout it starts; the opening changes at the end of VERIFY, the handled count at a grip; AIR, and the air time before a
further grip attempt, wait for their time. The kept-on flag falls with the suction (the model's choice, log 21). That every
event carries these steps out, one after another, is stated with the settling. -/
def Obligations.TurnStagesFollowTheirOrder : Prop :=
  ∀ (s : State) (t : Turn) (at_ : Stage → Option Nat → Turn) (idle : Option Nat),
    s.motion.turn = some t → t.held = false →
    (∀ g d, at_ g d = { t with stage := g, recovery := false, regripAir := false, deadline := d }) →
    s.time.idle = false → idle = (if s.time.idleSetting = 0 then none else some s.time.clock) →
    (t.stage = .raise → turnStep s t =
      if s.motion.platen = .raised then some
        { s with
          time.idleStart := idle, motion.air := true
          motion.turn := some (at_ .air (some (s.time.clock + s.motion.profile.airTime * 1000))) }
      else none)
    ∧ (t.stage = .air ∨ t.stage = .grip ∧ t.regripAir = true → turnStep s t = none)
    ∧ (t.stage = .reach → turnStep s t =
      if fnActive s (if t.direction = .forward then .armRight else .armLeft) then some
        { s with
          time.idleStart := idle, motion.suction := true
          motion.turn := some { at_ .grip (some (s.time.clock + 800000)) with attempts := t.attempts + 1 } }
      else none)
    ∧ (t.stage = .grip → t.regripAir = false → turnStep s t =
      if fnActive s .vacuumOk then some
        { s with
          time.idleStart := idle
          leaves := s.leaves.modify t.leaf fun l =>
            { l with handled := if l.handled < 255 then l.handled + 1 else 255 }
          motion.turn := some (at_ .sweep (some (s.time.clock + 2000000))) }
      else none)
    ∧ (t.stage = .sweep → t.recovery = false → fnActive s .doubleLeaf = true → 0 < t.retries →
      turnStep s t = some
        { s with motion.turn := some { t with recovery := true, deadline := some (s.time.clock + 2000000) } })
    ∧ (t.stage = .sweep → t.recovery = false → fnActive s .doubleLeaf = true → t.retries = 0 →
      turnStep s t = some (raiseFault s .doublePick none))
    ∧ (t.stage = .sweep → t.recovery = true → turnStep s t =
      if fnActive s (if t.direction = .forward then .armRight else .armLeft) then some
        { s with
          time.idleStart := idle, motion.suction := false, motion.keptOn := false, motion.air := true
          volume.doublePicks :=
            if s.volume.doublePicks < 4294967295 then s.volume.doublePicks + 1 else 4294967295
          motion.turn := some
            { at_ .air (some (s.time.clock + s.motion.profile.airTime * 1000)) with
              doublePicks := t.doublePicks + 1, retries := t.retries - 1 } }
      else none)
    ∧ (t.stage = .sweep → t.recovery = false → fnActive s .doubleLeaf = false → turnStep s t =
      if fnActive s (if t.direction = .forward then .armLeft else .armRight) then some
        { s with
          time.idleStart := idle, motion.suction := false, motion.keptOn := false
          motion.turn := some { at_ .release (some (s.time.clock + 500000)) with noted := false } }
      else none)
    ∧ (t.stage = .release → turnStep s t =
      if fnActive s .vacuumOk then none
      else some
        { s with
          time.idleStart := idle
          motion.turn := some (at_ .verify (some (s.time.clock + 500000))) })
    ∧ (t.stage = .verify → turnStep s t =
      if t.noted then some
        { s with
          time.idleStart := idle
          volume.k := if t.direction = .forward then s.volume.k + 1 else s.volume.k - 1
          motion.turn := some (at_ .park (some (s.time.clock + 2000000))) }
      else none)
    ∧ (t.stage = .park → turnStep s t =
      if fnActive s .armHome then some
        { startAdjust { s with time.idleStart := idle } s.volume.k with
          motion.turn := some { at_ .adjust none with limits := plateLimits s s.volume.k } }
      else none)
    ∧ (t.stage = .adjust → turnStep s t =
      if s.motion.plateState = .settled then some
        { s with
          time.idleStart := idle
          motion.platen := if fnActive s .platenContact then .pressing else .lowering
          motion.platenDeadline :=
            some (s.time.clock + if fnActive s .platenContact then 1000000 else 3000000)
          motion.turn := some (at_ .lower none) }
      else none)
    ∧ (t.stage = .lower → turnStep s t =
      if s.motion.platen = .down then some (enterReserved
        { s with
          time.idleStart := idle
          volume.turnsDone := if s.volume.turnsDone < 4294967295 then s.volume.turnsDone + 1 else 4294967295
          motion.turn := none }
        (.turn
          { seq := t.seq, direction := t.direction, origin := t.origin, outcome := .done, stage := none
            fault := none, oldOpening := t.oldOpening, k := s.volume.k, known := s.volume.known, leaf := t.leaf
            handled := (getLeaf s t.leaf).handled, attempts := t.attempts, doublePicks := t.doublePicks
            limits := t.limits, keptOn := false, start := t.start, finish := s.time.clock }))
      else none)

/-- TURN_ABANDON (R62); the kept-on flag falls with the suction (the model's choice, log 21). -/
def Obligations.TurnAbandonFreesTheLeaf : Prop :=
  ∀ (tag : Byte) (s a : State), a = awake 0x25#8 s →
    ((∀ t, a.motion.turn = some t → t.held = false) →
      exec (.turnAbandon tag) s = .next (replied 0x25#8 tag .notHeld .none a))
    ∧ ∀ (t : Turn) (known : Bool), a.motion.turn = some t → t.held = true →
      known = (a.volume.known && (decide (t.stage = .raise) || decide (t.stage = .air) || decide (t.stage = .reach))) →
      exec (.turnAbandon tag) s = .next (replied 0x25#8 tag .accepted (.turnAbandon t.seq known)
        (settle (enterReserved
          { a with
            volume.known := known
            motion.suction := false, motion.keptOn := false, motion.armPowered := false
            motion.plateState := if t.stage = .adjust then .unsettled else a.motion.plateState
            motion.plateDeadline := if t.stage = .adjust then none else a.motion.plateDeadline
            motion.turn := none }
          (.turn
            { seq := t.seq, direction := t.direction, origin := t.origin, outcome := .abandoned
              stage := some (t.stage, t.recovery), fault := none, oldOpening := t.oldOpening, k := a.volume.k
              known := known, leaf := t.leaf, handled := (getLeaf a t.leaf).handled, attempts := t.attempts
              doublePicks := t.doublePicks, limits := t.limits, keptOn := false, start := t.start
              finish := a.time.clock }))))

/-- TURN_RESUME (R61): its two refusals, and each remembered stage started again with fresh timeouts; what the restarted
stage then does at once is `runMotion`'s and `settle`'s. An edge noted since RELEASE began is kept (log 28), and the
kept-on flag falls with the suction (log 21). -/
def Obligations.TurnResumeRestartsTheStage : Prop :=
  ∀ (tag : Byte) (s a : State), a = awake 0x24#8 s →
    ((∀ t, a.motion.turn = some t → t.held = false) →
      exec (.turnResume tag) s = .next (replied 0x24#8 tag .notHeld .none a))
    ∧ ∀ (t : Turn), a.motion.turn = some t → t.held = true →
      (a.lines.hold.isSome = true → exec (.turnResume tag) s = .next (replied 0x24#8 tag .held .none a))
      ∧ ∀ (run : Option Nat → Turn) (m : Motion), a.lines.hold = none →
        (∀ d, run d = { t with held := false, deadline := d }) →
        m = (match t.stage with
          | .raise =>
            if a.motion.platen = .raised then
              { a.motion with turn := some { run none with recovery := false, regripAir := false } }
            else
              { a.motion with
                turn := some { run none with recovery := false, regripAir := false }
                platen := if fnActive a .platenTop then .raised else .raising
                platenDeadline := if fnActive a .platenTop then none else some (a.time.clock + 3000000)
                raisePending := false, safeRaise := false, dwell := none, dwellDeferred := false }
          | .air =>
            { a.motion with
              air := true
              turn := some { run (some (a.time.clock + a.motion.profile.airTime * 1000)) with
                recovery := false, regripAir := false } }
          | .reach =>
            { a.motion with
              armPowered := true
              turn := some { run (some (a.time.clock + 2000000)) with recovery := false, regripAir := false } }
          | .grip =>
            if t.regripAir then
              { a.motion with
                air := true, turn := some (run (some (a.time.clock + a.motion.profile.airTime * 1000))) }
            else { a.motion with suction := true, turn := some (run (some (a.time.clock + 800000))) }
          | .sweep => { a.motion with turn := some (run (some (a.time.clock + 2000000))) }
          | .release =>
            { a.motion with
              suction := false, keptOn := false, turn := some (run (some (a.time.clock + 500000))) }
          | .verify =>
            { a.motion with
              turn := some { run (some (a.time.clock + 500000)) with recovery := false, regripAir := false } }
          | .park =>
            { a.motion with
              turn := some { run (some (a.time.clock + 2000000)) with recovery := false, regripAir := false } }
          | .adjust =>
            { a.motion with
              plateState := .moving, plateDeadline := some (a.time.clock + 3000000), turn := some (run t.deadline) }
          | .lower =>
            { a.motion with
              turn := some { run none with recovery := false, regripAir := false }
              platen := if fnActive a .platenContact then .pressing else .lowering
              platenDeadline :=
                some (a.time.clock + if fnActive a .platenContact then 1000000 else 3000000) }) →
        exec (.turnResume tag) s = .next (replied 0x24#8 tag .accepted (.turnResume t.seq t.stage t.recovery)
          (settle (runMotion { a with motion := m })))

/-- The settings requests (R66, R85, R87, R130): every present value is stored clamped to its range, every absent one
stands, and the reply flags what was clamped. MOTION_SET takes the target first and the limit against the target then in
force, and raises a limit at or below it; a limit set below the reading raises no fault until the next reading (log 15); a recipe
level of 0 stays 0. -/
def Obligations.SettingsRequestsClampTheirValues : Prop :=
  ∀ (tag : Byte) (s : State) (cl : Option Nat → Nat → Nat → Nat → Nat) (out : Option Nat → Nat → Nat → Bool),
    (∀ x old lo hi, cl x old lo hi = match x with | none => old | some v => max lo (min v hi)) →
    (∀ x lo hi, out x lo hi = match x with | none => false | some v => decide (v < lo) || decide (hi < v)) →
    (∀ (target tolerance limit dwellMax plateBase airTime gripRetries : Option Nat) (a : State) (p : Profile),
      a = awake 0x26#8 s →
      p = { target := cl target a.motion.profile.target 5 150
            tolerance := cl tolerance a.motion.profile.tolerance 1 50
            limit := match limit with
              | none => max a.motion.profile.limit (cl target a.motion.profile.target 5 150 + 1)
              | some v => if v < cl target a.motion.profile.target 5 150 + 1
                  then cl target a.motion.profile.target 5 150 + 1 else min v 200
            dwellMax := cl dwellMax a.motion.profile.dwellMax 10 600
            plateBase := cl plateBase a.motion.profile.plateBase 0 60000
            airTime := cl airTime a.motion.profile.airTime 100 2000
            gripRetries := cl gripRetries a.motion.profile.gripRetries 0 5 } →
      exec (.motionSet tag target tolerance limit dwellMax plateBase airTime gripRetries) s =
        .next (replied 0x26#8 tag .accepted
          (.motionSet p
            [out target 5 150, out tolerance 1 50, decide (p.limit ≠ limit.getD a.motion.profile.limit),
             out dwellMax 10 600, out plateBase 0 60000, out airTime 100 2000, out gripRetries 0 5])
          { a with motion.profile := p }))
    ∧ (∀ (mask : Pair Bool) (requested guard : Option Nat) (a : State) (lamp : Side → Aim) (view : Side → AimView),
      a = awake 0x32#8 s →
      (∀ sd, lamp sd = if mask.get sd then
          { a.lamps.aims.get sd with
            requested := cl requested (a.lamps.aims.get sd).requested 0 1000
            guard := cl guard (a.lamps.aims.get sd).guard 0 1000 }
        else a.lamps.aims.get sd) →
      (∀ sd, view sd =
        { requested := (lamp sd).requested, guard := (lamp sd).guard, applied := (lamp sd).applied, lit := (lamp sd).lit
          hood := (lamp sd).hood.state }) →
      exec (.aimSet tag mask requested guard) s = .next (replied 0x32#8 tag .accepted
        (.aimSet ⟨view .left, view .right⟩ [out requested 0 1000, out guard 0 1000])
        { a with lamps.aims := ⟨lamp .left, lamp .right⟩ }))
    ∧ (∀ (n : Nat) (levels : Quad Nat) (duration : Nat) (a : State) (level : Nat → Nat) (r : Recipe),
      a = awake 0x33#8 s → (∀ v, level v = if v = 0 then 0 else max 50 (min v 1000)) →
      r = ⟨⟨level levels.a, level levels.b, level levels.c, level levels.d⟩, max 100 (min duration 20000)⟩ →
      exec (.recipeSet tag n levels duration) s = .next (decided 0x33#8 tag [ orField (decide (7 < n)) .recipe ] a
        { a with lamps.recipes := a.lamps.recipes.set n r }
        (.recipeSet r
          [decide (r.levels.a ≠ levels.a), decide (r.levels.b ≠ levels.b), decide (r.levels.c ≠ levels.c),
           decide (r.levels.d ≠ levels.d), decide (r.duration ≠ duration)])))
    ∧ ∀ (mask : Pair Bool) (pulse delay window stored late : Option Nat) (a : State) (camera : Side → Camera),
      a = awake 0x41#8 s →
      (∀ sd, camera sd = if mask.get sd then
          { pulse := cl pulse (a.seq.cameras.get sd).pulse 10 10000
            delay := cl delay (a.seq.cameras.get sd).delay 0 100000
            window := cl window (a.seq.cameras.get sd).window 100 200000
            stored := cl stored (a.seq.cameras.get sd).stored 100 10000 }
        else a.seq.cameras.get sd) →
      exec (.cameraSet tag mask pulse delay window stored late) s = .next (replied 0x41#8 tag .accepted
        (.cameraSet ⟨camera .left, camera .right⟩ (cl late a.seq.lateLimit 0 1000000)
          [out pulse 10 10000, out delay 0 100000, out window 100 200000, out stored 100 10000, out late 0 1000000])
        { a with
          seq.cameras := ⟨camera .left, camera .right⟩
          seq.lateLimit := cl late a.seq.lateLimit 0 1000000 })

/-- The plates (R49, R50): the targets of an opening by the formula of R49, clamped, each with its flag; an adjustment
starts with them under a 3,000 ms timeout; PLATES_AT_TARGET settles it; PLATE_TIMEOUT ends it UNSETTLED with a fault. -/
def Obligations.PlatesMoveToTheirTargets : Prop :=
  (∀ (s : State) (k : Nat), s.motion.profile.plateBase ≤ 60000 → k ≤ s.volume.leafCount →
    ∀ left right : Int,
      left = (s.motion.profile.plateBase : Int) - k * s.volume.thickness →
      right = (s.motion.profile.plateBase : Int) - (s.volume.leafCount - k) * s.volume.thickness →
      ((plateTargets s k).l : Int) = max 0 (min left 60000) ∧ ((plateTargets s k).r : Int) = max 0 (min right 60000)
        ∧ plateLimits s k = ⟨decide (left < 0 ∨ 60000 < left), decide (right < 0 ∨ 60000 < right)⟩)
  ∧ (∀ (s : State) (k : Nat), startAdjust s k =
      { s with
        motion.plateTargets := plateTargets s k, motion.plateLimits := plateLimits s k
        motion.plateState := .moving, motion.plateDeadline := some (s.time.clock + 3000000)
        volume.platesPending := false })
  ∧ (∀ s : State, s.motion.plateState = .moving → s.motion.plateDeadline.isSome = true →
      exec .platesAtTarget s = .next (settle (runMotion
        { s with
          motion.plateState := .settled, motion.plateDeadline := none
          motion.platePositions := s.motion.plateTargets })))
  ∧ (∀ (s : State) (d : Nat), s.motion.plateState = .moving → s.motion.plateDeadline = some d → d ≤ s.time.clock →
      exec .plateTimeout s = .next (settle (raiseFault
        { s with motion.plateState := .unsettled, motion.plateDeadline := none } .plateTimeout none)))

/-- The timed events of a turn (R53 to R57): AIR gives way to REACH with the arm drive powered; a failed grip uses a
retry, switches the suction off and opens the air valve, and the end of its air burst grips again; without a retry it is
GRIP_FAILED; the timeouts of the other stages are the faults of R53, R55, R56 and R57. The kept-on flag falls with the
suction (the model's choice, log 21). -/
def Obligations.TurnTimersEndOrFault : Prop :=
  ∀ (s : State) (t : Turn) (d : Nat), s.motion.turn = some t → t.held = false → t.deadline = some d →
    d ≤ s.time.clock → s.time.idle = false → ∀ idle, idle = (if s.time.idleSetting = 0 then none else some s.time.clock) →
    (t.stage = .air → exec .airTimeEnd s = .next (settle (runMotion
      { s with
        time.idleStart := idle, motion.air := false, motion.armPowered := true
        motion.turn := some { t with
          stage := .reach, recovery := false, regripAir := false
          deadline := some (s.time.clock + 2000000) } })))
    ∧ (t.stage = .grip → t.regripAir = true → exec .airTimeEnd s = .next (settle (runMotion
      { s with
        motion.air := false, motion.suction := true
        motion.turn := some { t with
          attempts := t.attempts + 1, regripAir := false, deadline := some (s.time.clock + 800000) } })))
    ∧ (t.stage = .grip → t.regripAir = false → 0 < t.retries → exec .gripTimeout s = .next
      { s with
        time.idleStart := idle, motion.suction := false, motion.keptOn := false, motion.air := true
        volume.gripRetries := if s.volume.gripRetries < 4294967295 then s.volume.gripRetries + 1 else 4294967295
        motion.turn := some { t with
          retries := t.retries - 1, regripAir := true
          deadline := some (s.time.clock + s.motion.profile.airTime * 1000) } })
    ∧ (t.stage = .grip → t.regripAir = false → t.retries = 0 →
      exec .gripTimeout s = .next (settle (raiseFault s .gripFailed none)))
    ∧ (t.stage = .reach ∨ t.stage = .sweep ∨ t.stage = .park →
      exec .armTimeout s = .next (settle (raiseFault s .armTimeout none)))
    ∧ (t.stage = .release → exec .releaseTimeout s = .next (settle (raiseFault s .leafLost none)))
    ∧ (t.stage = .verify → exec .verifyTimeout s = .next (settle (raiseFault s .leafLost none)))

/-! ### Lamps -/

/-- BANK_POWER, the charge-good input and the charge timeout (R71, R72, R81): OFF clears a masked bank and closes its hood,
and lets a flash that is lit run to its end (log 33); ON starts the charge of a bank in OFF, which a charge-good input ends
at once or when it comes; no other bank and no other block changes but by the BANK_STATE reports, bank by bank: POWER at the
entry to OFF, from any state, and POWER at the entry to CHARGING, with CHARGED after it where the charge-good input is
active. That the banks' reports come A to D (log 17) and that the report of a charge timeout comes before the FAULT report
and the safe entry (log 52) are the model's choices. -/
def Obligations.BanksPowerUpAndCharge : Prop :=
  (∀ (tag : Byte) (mask : Quad Bool) (command : Option Bool) (s a : State), a = awake 0x30#8 s →
    ∀ bodies : List Body,
      bodies = (([Bank.a, .b, .c, .d].filter mask.get).flatMap fun bk =>
        match command with
        | none => []
        | some false => [.bankState bk (getBank a bk).state .off a.time.clock .power]
        | some true =>
          if (getBank a bk).state = .off then
            .bankState bk .off .charging a.time.clock .power
              :: if a.chargeGood.get bk then [.bankState bk .charging .conditioning a.time.clock .charged] else []
          else []) →
    ∃ u, exec (.bankPower tag mask command) s = .next (decided 0x30#8 tag
        [ orField command.isNone .command,
          orElse (decide (command = some false) && a.seq.capture.isSome) .busyCapture,
          orElse (decide (command = some true)
            && allBanks.any fun bk => mask.get bk && decide ((getBank a bk).state = .fault)) .wrongState ] a u
        (.bankPower ⟨((getBank u .a).state, (getBank u .a).hood.state), ((getBank u .b).state, (getBank u .b).hood.state),
          ((getBank u .c).state, (getBank u .c).hood.state), ((getBank u .d).state, (getBank u .d).hood.state)⟩))
      ∧ (∀ bk, mask.get bk = false → getBank u bk = getBank a bk)
      ∧ (command = some false → ∀ bk, mask.get bk = true → getBank u bk =
          { getBank a bk with
            state := .off, count := 0, conditioned := false, readySince := none, standbySince := none
            hoodRequest := none, deadline := none, hood := closeHood a.time.clock (getBank a bk).hood })
      ∧ (command = some true → ∀ bk, mask.get bk = true → getBank u bk =
          if (getBank a bk).state = .off then
            if a.chargeGood.get bk then reconditioned a.time.clock (getBank a bk)
            else
              { getBank a bk with
                state := .charging, count := 0, conditioned := false, deadline := some (a.time.clock + 4000000) }
          else getBank a bk)
      ∧ (command = some false → u.lamps.grants = a.lamps.grants.filter fun g => !(mask.get g.bank && g.capture.isNone))
      ∧ (command = some true → u.lamps.grants = a.lamps.grants)
      ∧ u.lamps.aims = a.lamps.aims ∧ u.lamps.interval = a.lamps.interval ∧ u.lamps.recipes = a.lamps.recipes
      ∧ u.time = a.time ∧ u.link = a.link ∧ u.volume = a.volume ∧ u.leaves = a.leaves ∧ u.motion = a.motion
      ∧ u.dose = a.dose ∧ u.seq = a.seq ∧ u.safe = a.safe
      ∧ u.queue = (bodies.foldl offerMinor a).queue ∧ u.lines = (bodies.foldl offerMinor a).lines)
  ∧ (∀ (bk : Bank) (good : Bool) (s w : State), w = { s with chargeGood := s.chargeGood.set bk good } →
      exec (.chargeGood bk good) s = .next
        (if good = false ∨ (getBank s bk).state ≠ .charging then w
        else if s.time.idle then
          offerMinor
            { w with
              lamps.banks := s.lamps.banks.set bk (stoodBy s.time.clock (getBank s bk))
              lamps.grants := s.lamps.grants.filter fun g => !(decide (g.bank = bk) && g.capture.isNone) }
            (.bankState bk .charging .standby s.time.clock .charged)
        else
          offerMinor { w with lamps.banks := s.lamps.banks.set bk (reconditioned s.time.clock (getBank s bk)) }
            (.bankState bk .charging .conditioning s.time.clock .charged)))
  ∧ ∀ (bk : Bank) (d : Nat) (s : State), (getBank s bk).state = .charging → (getBank s bk).deadline = some d →
      d ≤ s.time.clock →
      exec (.bankChargeTimeout bk) s = .next (settle (raiseFault
        (offerMinor
          { s with
            lamps.banks := s.lamps.banks.set bk
              { getBank s bk with state := .fault, hoodRequest := none, deadline := none } }
          (.bankState bk .charging .fault s.time.clock .chargeTimeout)) .bankCharge (some bk)))

/-- Conditioning (R73, R74, R79): a flash falls due behind a CLOSED hood when the recharge time has passed, and is granted
the earliest time that keeps 1,500 µs from every firing of another bank; at that time it is made or dropped; after the
second and its wait the bank is READY; the end of WAKING leads to READY or to CONDITIONING. -/
def Obligations.ConditioningFlashesAndWaking : Prop :=
  ∀ (bk : Bank) (s : State) (r : BankRec), r = getBank s bk →
    (r.state = .conditioning → r.count < 2 → (∀ g ∈ s.lamps.grants, g.bank ≠ bk) → r.hood.state = .closed →
      rechargeOver s.time.clock r.recharge r = true →
      ∃ g, grantedFor s bk s.time.clock g
        ∧ exec (.conditioningFlashDue bk) s = .next
          { s with
            lamps.banks := s.lamps.banks.set bk { r with latest := some (max g (r.latest.getD g)) }
            lamps.grants := s.lamps.grants ++ [⟨bk, g, 100, 200, none⟩] })
    ∧ (∀ (g : Grant) (w : State), s.lamps.grants.find? (fun g => decide (g.bank = bk)) = some g → g.capture = none →
      g.time ≤ s.time.clock → w = { s with lamps.grants := s.lamps.grants.filter fun g => decide (g.bank ≠ bk) } →
      exec (.conditioningFlash bk) s = .next
        (if r.state = .conditioning ∧ r.hood.state = .closed then
          { w with
            lamps.banks := s.lamps.banks.set bk
              { r with
                count := r.count + 1, lastFiring := some g.time
                flash := some ⟨g.level, g.time + g.duration, none⟩ } }
        else w))
    ∧ (r.state = .conditioning → r.count = 2 → rechargeOver s.time.clock r.recharge r = true →
      exec (.conditioningComplete bk) s = .next (settle (offerMinor
        { s with lamps.banks := s.lamps.banks.set bk (readied s.time.clock { r with conditioned := true }) }
        (.bankState bk .conditioning .ready s.time.clock .conditioned))))
    ∧ ∀ d, r.state = .waking → r.deadline = some d → d ≤ s.time.clock →
      exec (.wakingEnd bk) s = .next (settle
        (if r.conditioned = true ∧ d - 400000 - r.standbySince.getD 0 ≤ 1800000000 then
          offerMinor { s with lamps.banks := s.lamps.banks.set bk (readied s.time.clock r) }
            (.bankState bk .waking .ready s.time.clock .wake)
        else
          offerMinor { s with lamps.banks := s.lamps.banks.set bk (reconditioned s.time.clock r) }
            (.bankState bk .waking .conditioning s.time.clock .wake)))

/-- Capture firings, flashes, recoveries, top-ups, BANK_SET and hoods (R75, R76, R77, R80, R82, R83): a granted firing is
made if its six conditions hold, and is withdrawn otherwise; a flash ends; a bank whose recharge time has passed, or whose
200 ms of topping are over, is READY again; a bank that has stood READY for 30 s tops up outside a lighting interval; a
recovery that a new recharge time has already passed ends at once; a hood ends its travel. The end of a recovery or a
top-up goes by the power state at that end (log 22); `creditFiring` is characterised by `DosesFollowTheCalibration`. -/
def Obligations.FiringsRecoveriesAndHoods : Prop :=
  ∀ (bk : Bank) (s : State) (r : BankRec), r = getBank s bk →
    (∀ (g : Grant) (n : Nat) (w : State), s.lamps.grants.find? (fun g => decide (g.bank = bk)) = some g →
      g.capture = some n → g.time ≤ s.time.clock →
      w = { s with lamps.grants := s.lamps.grants.filter fun g => decide (g.bank ≠ bk) } →
      exec (.captureFiring bk) s = .next (settle
        (if r.state = .ready ∧ r.hood.state = .opened ∧ (∃ c, s.seq.capture = some c ∧ c.seq = n)
            ∧ s.volume.state = .opened ∧ s.volume.known = true ∧ s.motion.platen = .down then
          answerAsk (creditFiring
            { w with
              lamps.banks := s.lamps.banks.set bk
                { r with
                  state := .recovering, lastFiring := some g.time
                  flash := some ⟨g.level, g.time + g.duration, some n⟩ } } bk) bk (.fired g.time)
        else answerAsk w bk .withdrawn)))
    ∧ (∀ f, r.flash = some f → f.ends ≤ s.time.clock →
      exec (.flashEnd bk) s = .next (settle { s with lamps.banks := s.lamps.banks.set bk { r with flash := none } }))
    ∧ (r.state = .recovering → rechargeOver s.time.clock r.recharge r = true →
      exec (.recoveryEnd bk) s = .next (settle (rested s bk)))
    ∧ (∀ d, r.state = .topping → r.deadline = some d → d ≤ s.time.clock →
      exec (.topUpEnd bk) s = .next (settle (rested s bk)))
    ∧ (∀ t, r.state = .ready → r.readySince = some t → t + 30000000 ≤ s.time.clock →
      exec (.topUpStart bk) s = .next
        (if s.lamps.interval = none then
          { s with
            lamps.banks := s.lamps.banks.set bk
              { r with state := .topping, deadline := some (s.time.clock + 200000) } }
        else s))
    ∧ (∀ (tag : Byte) (mask : Quad Bool) (n v : Nat) (a : State) (set : Bank → BankRec), a = awake 0x31#8 s →
      v = max 250 (min n 2000) →
      (∀ x, set x =
        if mask.get x = false then getBank a x
        else if (getBank a x).state = .recovering ∧ rechargeOver a.time.clock v (getBank a x) = true then
          readied a.time.clock { getBank a x with recharge := v }
        else { getBank a x with recharge := v }) →
      exec (.bankSet tag mask n) s = .next (replied 0x31#8 tag .accepted
        (.bankSet ⟨(set .a).recharge, (set .b).recharge, (set .c).recharge, (set .d).recharge⟩ (decide (v ≠ n)))
        (settle { a with lamps.banks := ⟨set .a, set .b, set .c, set .d⟩ })))
    ∧ (∀ (d : Nat) (h : Hood), r.hood.deadline = some d → d ≤ s.time.clock → h = ⟨.closed, none⟩ ∨ h = ⟨.opened, none⟩ →
      r.hood.state = (if h.state = .closed then .closing else .opening) →
      exec (.hoodTravelEnd (.bank bk)) s = .next (settle
        { s with lamps.banks := s.lamps.banks.set bk { r with hood := h } }))
    ∧ ∀ (sd : Side) (d : Nat) (h : Hood), (s.lamps.aims.get sd).hood.deadline = some d → d ≤ s.time.clock →
      h = ⟨.closed, none⟩ ∨ h = ⟨.opened, none⟩ →
      (s.lamps.aims.get sd).hood.state = (if h.state = .closed then .closing else .opening) →
      exec (.hoodTravelEnd (.aim sd)) s = .next (settle
        { s with lamps.aims := s.lamps.aims.set sd { s.lamps.aims.get sd with hood := h } })

/-! ### Dose -/

/-- Illuminance, dose, precheck and credit (R94 to R98, R100): a source's illuminance at a level, between its points where they never
fall; the own and the spill dose of a flash, each the least whole number that is not below its quotient; and the entry of
a bank, its own dose to the leaf of its side and its spill to the other; the three results of the precheck, with the
figures of the first test that fails; and the credit of a firing, the amounts of the bank's PENDING entry given once to
both leaves, the total and the capture credit. -/
def Obligations.DosesFollowTheCalibration : Prop :=
  (∀ (c : Cal) (j d : Nat), j < 10 → d < 100 →
    illuminance c (100 * j + d)
      = c.points.getD j 0 + (c.points.getD (j + 1) 0 - c.points.getD j 0) * d / 100)
  ∧ (∀ c : Cal, illuminance c 1000 = c.points.getD 10 0)
  ∧ (∀ (c : Cal) (x y : Nat), (∀ i j, i ≤ j → j ≤ 10 → c.points.getD i 0 ≤ c.points.getD j 0) → x ≤ y → y ≤ 1000 →
    illuminance c x ≤ illuminance c y)
  ∧ (∀ lux t n, ownDose lux t ≤ n ↔ lux * t ≤ 1000 * n)
  ∧ (∀ own spill n, spillDose own spill ≤ n ↔ own * spill ≤ 256 * n)
  ∧ (∀ (s : State) (k : Nat) (levels : Quad Nat) (t : Nat) (bk : Bank) (left : Bool),
    left = (decide (bk = .a) || decide (bk = .b)) →
    ∃ lux own, lux = illuminance (s.dose.banks.get bk) (levels.get bk) ∧ own = ownDose lux t
      ∧ makeEntry s k levels t bk =
        { bank := bk, level := levels.get bk, duration := t, lux := lux
          ownLeaf := if left then k else k + 1, ownAmount := own
          spillLeaf := if left then k + 1 else k, spillAmount := spillDose own (s.dose.banks.get bk).spill
          credited := false })
  ∧ (∀ (s : State) (n k : Nat) (x : Sides) (levels : Quad Nat) (t left right : Nat) (bs : List Bank)
      (amount : Bank → Side → Nat),
    bs = [Bank.a, .b, .c, .d].filter (fun bk => wants x bk.side && decide (0 < levels.get bk)) →
    (∀ bk page, amount bk page = if bk.side = page then (makeEntry s k levels t bk).ownAmount
      else (makeEntry s k levels t bk).spillAmount) →
    left = (bs.map fun bk => amount bk .left).sum → right = (bs.map fun bk => amount bk .right).sum →
    precheck s n k x levels t =
      match bs.find? fun bk => (s.dose.banks.get bk).points.all fun p => decide (p = 0) with
      | some bk => .error (.uncalibrated bk)
      | none =>
        if s.volume.leafCeiling < (getLeaf s k).dose + left then
          .error (.leftLeaf (getLeaf s k).dose left s.volume.leafCeiling)
        else if s.volume.leafCeiling < (getLeaf s (k + 1)).dose + right then
          .error (.rightLeaf (getLeaf s (k + 1)).dose right s.volume.leafCeiling)
        else if s.volume.volumeCeiling < s.volume.totalDose + (left + right) then
          .error (.volume s.volume.totalDose (left + right) s.volume.volumeCeiling)
        else .ok ⟨n, k, bs.map (makeEntry s k levels t)⟩)
  ∧ ∀ (s : State) (p : Prediction) (bk : Bank), s.dose.prediction = some p →
    (p.entries.find? (fun e => decide (e.bank = bk) && !e.credited) = none → creditFiring s bk = s)
    ∧ ∀ (e : Entry) (u : State) (given : Nat → Nat),
      p.entries.find? (fun e => decide (e.bank = bk) && !e.credited) = some e → u = creditFiring s bk →
      (∀ i, given i = (if i = e.ownLeaf then e.ownAmount else 0) + (if i = e.spillLeaf then e.spillAmount else 0)) →
      u = { s with
            leaves := u.leaves
            volume.totalDose := s.volume.totalDose + (e.ownAmount + e.spillAmount)
            dose.prediction := some
              { p with entries := p.entries.map fun x => if x.bank = bk then { x with credited := true } else x }
            dose.credit := ⟨s.dose.credit.l + given p.k, s.dose.credit.r + given (p.k + 1)⟩ }
        ∧ u.leaves.length = s.leaves.length
        ∧ ∀ i, i < s.leaves.length →
          getLeaf u i = { getLeaf s i with dose := (getLeaf s i).dose + given i }

/-- The aim tick (R103 to R107): the applied levels are the requested ones where they fit, and otherwise those after the
guard, after the lamps that light a leaf at risk go dark, and after those that reach it by spill do; what they give is
credited to both leaves and to the total, and leaves every leaf that it lights the aim reserve and the volume its ceiling;
each evaluated lamp's outcome follows its level, a change of it is reported with the first constraint that lowered the
lamp last, AIM_L's report first (the model's choice, log 42); the limit note stands while nothing lowers the lamp
(log 20). -/
def Obligations.AimTickCreditsWhatFits : Prop :=
  ∀ (s : State) (q y2 y3 y4 : Pair Nat) (leaf : Side → Nat) (credit : Pair Nat → Side → Side → Nat)
    (leafFails : Pair Nat → Side → Bool) (totalFails fits : Pair Nat → Bool) (touches : Pair Nat → Side → Bool)
    (blame : Pair Nat → Side → Option Constraint) (note : Side → Option Constraint) (outcome : Side → AimOutcome)
    (room : Constraint → Nat) (bodies : List Body),
    s.time.aimDue = true → s.volume.k + 1 < s.leaves.length →
    (∀ page, leaf page = if page = .left then s.volume.k else s.volume.k + 1) →
    (∀ sd, q.get sd = if evaluated s sd then (s.lamps.aims.get sd).requested else 0) →
    (∀ v lamp page own, own = (if v.get lamp = 0 then 0 else 10 * illuminance (s.dose.aims.get lamp) (v.get lamp)) →
      credit v lamp page = if lamp = page then own else spillDose own (s.dose.aims.get lamp).spill) →
    (∀ v page c, c = credit v .left page + credit v .right page → leafFails v page = decide (0 < c
      ∧ s.volume.leafCeiling
        < (getLeaf s (leaf page)).dose + outstanding s (leaf page) + c + s.volume.reserve)) →
    (∀ v c, c = credit v .left .left + credit v .right .left + (credit v .left .right + credit v .right .right) →
      totalFails v = decide (0 < c ∧ s.volume.volumeCeiling < s.volume.totalDose + outstandingTotal s + c)) →
    (∀ v, fits v = (!leafFails v .left && !leafFails v .right && !totalFails v)) →
    (∀ v lamp, touches v lamp = decide (0 < credit v lamp .left + credit v lamp .right)) →
    (∀ v lamp, blame v lamp =
      if leafFails v .left = true ∧ 0 < credit v lamp .left then some (.leaf (leaf .left))
      else if leafFails v .right = true ∧ 0 < credit v lamp .right then some (.leaf (leaf .right))
      else if totalFails v = true ∧ touches v lamp = true then some .volume
      else none) →
    (∀ sd, y2.get sd =
      if fits q = false ∧ (blame q sd).isSome = true
        then min (s.lamps.aims.get sd).requested (s.lamps.aims.get sd).guard
      else q.get sd) →
    (∀ sd, y3.get sd =
      if fits y2 = false ∧ (leafFails y2 sd = true ∧ 0 < credit y2 sd sd ∨ totalFails y2 = true ∧ touches y2 sd = true)
        then 0
      else y2.get sd) →
    (∀ sd, y4.get sd =
      if fits y3 = false ∧ (leafFails y3 .left = true ∧ 0 < credit y3 sd .left
          ∨ leafFails y3 .right = true ∧ 0 < credit y3 sd .right) then 0
      else y3.get sd) →
    (∀ sd, note sd =
      if y4.get sd < y3.get sd then blame y3 sd
      else if y3.get sd < y2.get sd then blame y2 sd
      else if y2.get sd < q.get sd then blame q sd
      else none) →
    (∀ sd, outcome sd =
      if y4.get sd = (s.lamps.aims.get sd).requested then .requested else if y4.get sd = 0 then .dark else .guard) →
    (∀ i, room (.leaf i) = s.volume.leafCeiling - (getLeaf s i).dose - outstanding s i) →
    room .volume = s.volume.volumeCeiling - s.volume.totalDose - outstandingTotal s →
    bodies = (([Side.left, .right].filter fun sd =>
        evaluated s sd && decide (outcome sd ≠ s.dose.outcome.get sd)).map fun sd =>
      .aimGuard sd (s.dose.outcome.get sd) (outcome sd) (s.lamps.aims.get sd).requested (s.lamps.aims.get sd).guard
        (y4.get sd) s.volume.k
        (if outcome sd = .requested then none else (note sd).map fun c => (c, room c)) s.time.clock) →
    ∃ u, exec .aimTick s = .next u
      ∧ fits y4 = true
      ∧ (∀ sd, u.lamps.aims.get sd = { s.lamps.aims.get sd with applied := y4.get sd })
      ∧ (∃ cl cr, cl = credit y4 .left .left + credit y4 .right .left
          ∧ cr = credit y4 .right .right + credit y4 .left .right
          ∧ (getLeaf u s.volume.k).dose = (getLeaf s s.volume.k).dose + cl
          ∧ (getLeaf u (s.volume.k + 1)).dose = (getLeaf s (s.volume.k + 1)).dose + cr
          ∧ u.volume = { s.volume with totalDose := s.volume.totalDose + cl + cr }
          ∧ (0 < cl → (getLeaf u s.volume.k).dose + outstanding s s.volume.k + s.volume.reserve ≤ s.volume.leafCeiling)
          ∧ (0 < cr → (getLeaf u (s.volume.k + 1)).dose + outstanding s (s.volume.k + 1) + s.volume.reserve
              ≤ s.volume.leafCeiling)
          ∧ (0 < cl + cr → u.volume.totalDose + outstandingTotal s ≤ s.volume.volumeCeiling))
      ∧ (∀ i, ∃ d, getLeaf u i = { getLeaf s i with dose := d }
          ∧ (i ≠ s.volume.k → i ≠ s.volume.k + 1 → d = (getLeaf s i).dose))
      ∧ (∀ sd, u.dose.outcome.get sd = if evaluated s sd then outcome sd else s.dose.outcome.get sd)
      ∧ (∀ sd, u.dose.note.get sd = if evaluated s sd then (note sd).or (s.dose.note.get sd) else s.dose.note.get sd)
      ∧ u.queue = (bodies.foldl offerMinor s).queue ∧ u.lines = (bodies.foldl offerMinor s).lines
      ∧ u.dose = { s.dose with outcome := u.dose.outcome, note := u.dose.note, tickLevel := y4 }
      ∧ u.time = { s.time with aimDue := false } ∧ u.link = s.link ∧ u.plan = s.plan ∧ u.motion = s.motion
      ∧ u.seq = s.seq ∧ u.safe = s.safe
      ∧ u.lamps = { s.lamps with aims := u.lamps.aims }

/-! ### Captures -/

/-- SHOOT, the arrival of a not-before time and the head of the queue (R111 to R116): the checks of an order in their
order (the field named first is the model's choice, log 27), its fields and its place in the queue; a head order waits for
a turn, a hold and its time, and holds the orders behind it; when it comes to go it is discarded with its LATE report if
it is past its time by more than the late limit, and otherwise leaves the queue for ARMING: it wakes an IDLE part, takes
the next number, fixes its recipe, and asks for the hoods of its banks, or ends RECIPE_DARK with a side that has none. What
lets the head go is every event that meets its conditions (log 35). -/
def Obligations.OrdersAreQueuedDiscardedOrArmed : Prop :=
  (∀ (tag : Byte) (n : Nat) (sides : Option Sides) (recipe : Nat) (purpose : Option Purpose) (t : Option Nat)
    (s a : State), a = awake 0x40#8 s →
    exec (.shoot tag n sides recipe purpose t) s = .next (decided 0x40#8 tag
      ([ orField sides.isNone .sides, orField purpose.isNone .purpose, orField (decide (7 < recipe)) .recipe ]
        ++ orderChecks a (sides.getD .both) recipe) a
      (orderAccepted a
        { tag := n, origin := .link, sides := sides.getD .both, recipe := recipe
          purpose := purpose.getD .normal, notBefore := t, accepted := a.time.clock })
      (.shoot n (a.seq.orders.length + if a.seq.capture.isSome then 1 else 0))))
  ∧ (∀ s : State, s.seq.capture = none → s.seq.orders = [] → advanceOnce s = none)
  ∧ ∀ (s w u : State) (o : Order) (rest : List Order) (d : Nat) (r : Recipe) (dark : Bool)
    (side : Side → Option SideRec) (bank : Bank → BankRec),
    s.seq.capture = none → s.seq.orders = o :: rest →
    (∀ t, o.notBefore = some t → d < 2 ^ 48 ∧ (t + d) % 2 ^ 48 = s.time.clock % 2 ^ 48) →
    (o.notBefore = none → d = 0) →
    w = (if s.time.idle then wake { s with seq.orders := rest } (.arming o.tag) else { s with seq.orders := rest }) →
    r = getRecipe s o.recipe →
    dark = (wants o.sides .left && decide (r.levels.a = 0 ∧ r.levels.b = 0)
      || wants o.sides .right && decide (r.levels.c = 0 ∧ r.levels.d = 0)) →
    (∀ sd, side sd =
      if wants o.sides sd then some
        { stage := if dark then .ended .recipeDark else .arming, camera := s.seq.cameras.get sd, syncTime := none
          asks := [], storedNoted := false, storedDeadline := none, take := none }
      else none) →
    (∀ bk, bank bk =
      if dark = false ∧ wants o.sides bk.side = true ∧ 0 < r.levels.get bk then
        { getBank w bk with
          hoodRequest := some (s.volume.captureSeq + 1)
          hood := if [BankState.ready, .recovering, .topping].contains (getBank w bk).state
            then openHood s.time.clock (getBank w bk).hood else (getBank w bk).hood }
      else getBank w bk) →
    u = { w with
          volume.captureSeq := s.volume.captureSeq + 1
          volume.capturesIssued := s.volume.capturesIssued + 1
          time.idleStart := if s.time.idleSetting = 0 then none else some s.time.clock
          lamps.banks := ⟨bank .a, bank .b, bank .c, bank .d⟩
          seq.capture := some
            { seq := s.volume.captureSeq + 1, order := o, levels := r.levels, duration := r.duration
              armedAt := s.time.clock, deadline := if dark then none else some (s.time.clock + 5000000)
              opening := none, t0 := none, sides := ⟨side .left, side .right⟩, unmet := none, figures := none } } →
    ((s.motion.turn.isSome = true ∨ s.lines.hold.isSome = true ∨ 2 ^ 47 ≤ d) →
      advanceOnce s = none ∧ exec .notBeforeTime s = .next s)
    ∧ (s.motion.turn = none → s.lines.hold = none → d < 2 ^ 47 →
      (o.notBefore.isSome = true → exec .notBeforeTime s = .next (settle s))
        ∧ advanceOnce s = some
          (if s.seq.lateLimit < d then enterReserved
            { s with
              seq.orders := rest
              seq.lateCount := if s.seq.lateCount < 65535 then s.seq.lateCount + 1 else 65535 }
            (.late o s.time.clock d)
          else u))

/-- The timed events and the end of a capture (R48, R83, R90, R99, R117, R119, R120, R122 to R125, R129): the arming timeout
ends every requested side NOT_READY with the unmet mask; a trigger pulse ends, whatever has become of its capture; a WAITING
side whose window has closed ends NO_SYNC; a STORING side whose stored timeout has expired ends NOT_STORED. A capture whose
sides have their outcomes and whose granted firings are made ends: the sides failed are counted, its record enters its
reserved slot, its prediction and its hood requests are withdrawn, and the dwell raise it deferred starts or waits for the
hold, and the idle timer restarts, also where a hold or the safe state ended it (the model's choice, log 51); until then a
triggered capture waits. -/
def Obligations.CaptureTimersEndTheirStages : Prop :=
  (∀ (s : State) (c : Capture) (x : SideRec) (sd : Side) (mark : SideOutcome → SideRec → SideRec)
    (ended : SideOutcome → State), s.seq.capture = some c →
    (∀ o y, mark o y = if y.stage = .arming then { y with stage := .ended o } else y) →
    (∀ o, ended o =
      { s with
        seq.capture := some { c with
          sides := c.sides.set sd (some { x with stage := .ended o, storedDeadline := if o = .notStored then none else x.storedDeadline }) } }) →
    (∀ d m, c.t0 = none → c.deadline = some d → d ≤ s.time.clock →
      m.opening = !s.volume.known → m.platen = decide (s.motion.platen ≠ .down) →
      (∀ bk, m.banks.get bk = (wants c.order.sides bk.side && decide (0 < c.levels.get bk)
        && decide ((getBank s bk).state ≠ .ready))) →
      (∀ bk, m.hoods.get bk = (wants c.order.sides bk.side && decide (0 < c.levels.get bk)
        && decide ((getBank s bk).hood.state ≠ .opened))) →
      exec .armingTimeout s = .next (settle
        { s with
          seq.capture := some { c with
            sides := ⟨c.sides.l.map (mark .notReady), c.sides.r.map (mark .notReady)⟩
            deadline := none, unmet := some m } }))
    ∧ (∀ t0, c.sides.get sd = some x → x.stage = .waiting → c.t0 = some t0 →
      t0 + x.camera.delay + x.camera.window ≤ s.time.clock →
      exec (.syncWindowClose sd) s = .next (settle (ended .noSync)))
    ∧ (∀ d, c.sides.get sd = some x → x.stage = .storing → x.storedDeadline = some d → d ≤ s.time.clock →
      exec (.storedTimeout sd) s = .next (settle (ended .notStored))))
  ∧ (∀ (s : State) (sd : Side) (d : Nat), s.seq.pulses.get sd = some d → d ≤ s.time.clock →
    exec (.triggerPulseEnd sd) s = .next (driveFn { s with seq.pulses := s.seq.pulses.set sd none }
      (if sd = .left then .camLTrigger else .camRTrigger) false))
  ∧ ∀ (s w : State) (c : Capture) (bank : Bank → BankRec), s.seq.capture = some c →
    (∀ bk, bank bk =
      if wants c.order.sides bk.side = true ∧ 0 < c.levels.get bk ∧ (getBank s bk).hoodRequest = some c.seq then
        { getBank s bk with hoodRequest := none }
      else getBank s bk) →
    w = { enterReserved s (.capture (endedRecord s c)) with
          volume.sidesFailed := s.volume.sidesFailed + failedSides c
          dose.prediction := none, dose.credit := ⟨0, 0⟩
          lamps.banks := ⟨bank .a, bank .b, bank .c, bank .d⟩
          seq.capture := none
          time.idleStart := idleRestarted s } →
    (captureOver s c = true → advanceOnce s = some
      (if s.motion.dwellDeferred then
        if s.lines.hold.isSome then { w with motion.dwellDeferred := false, motion.raisePending := true }
        else
          { w with
            motion.platen := if fnActive s .platenTop then .raised else .raising
            motion.platenDeadline := if fnActive s .platenTop then none else some (s.time.clock + 3000000)
            motion.raisePending := false, motion.safeRaise := false
            motion.dwell := none, motion.dwellDeferred := false }
      else w))
    ∧ (captureOver s c = false → c.t0.isSome = true → advanceOnce s = none)

/-- What a capture does at its arming test, at its camera's edges and at its answers (R24, R74, R76, R98, R117 to R122,
R129): the test is made when the four conditions of ARMING all hold, and fails NOT_EQUIPPED, NOT_CALIBRATED or DOSE_CEILING
for every side with its figures; entry to TRIGGERED fixes profiles, starts pulses and the lighting interval, over an earlier
capture's interval or pulse that still runs (the model's choice, logs 41 and 43); a sync edge before T0, after the window or
of a side that has left WAITING is not acted upon, one before the window ends its side, one in it asks for the side's banks
at the levels of the recipe and the times that the spacing grants; a side whose asks are all answered is STORING with its
stored timeout where one fired, and UNLIT where none did; a stored edge in FIRING is noted and confirms the side at its
entry to STORING; a confirmed side gives its face a take. -/
def Obligations.CaptureStagesFollowTheirEdges : Prop :=
  ∀ (s : State) (c : Capture) (sd : Side) (x : SideRec), s.seq.capture = some c → c.sides.get sd = some x →
    (∀ (m : Bank → Bool), c.t0 = none → captureOver s c = false →
      (∀ bk, m bk = (wants c.order.sides bk.side && decide (0 < c.levels.get bk))) →
      advanceOnce s =
        if s.volume.known = true ∧ s.motion.platen = .down
            ∧ ([Bank.a, .b, .c, .d].all fun bk => !m bk
              || decide ((getBank s bk).state = .ready) && decide ((getBank s bk).hood.state = .opened)) = true
        then some (armTest s c) else none)
    ∧ (∀ (missing : List Fn → Bool) (failed : SideOutcome → Option Figures → State),
      (∀ fs, missing fs = fs.any fun f => (lineOf s f).isNone) →
      (∀ o figures, failed o figures =
        { s with
          seq.capture := some
            { c with
              opening := some (s.volume.k, s.volume.known), deadline := none, figures := figures
              sides :=
                ⟨c.sides.l.map fun y => if y.stage = .arming then { y with stage := .ended o } else y,
                 c.sides.r.map fun y => if y.stage = .arming then { y with stage := .ended o } else y⟩ } }) →
      (wants c.order.sides .left && missing [.camLTrigger, .camLSync, .camLStored]
          || wants c.order.sides .right && missing [.camRTrigger, .camRSync, .camRStored]) = true →
        armTest s c = failed .notEquipped c.figures)
    ∧ (∀ (failed : SideOutcome → Option Figures → State) (e : Figures), camerasEquipped s c.order.sides = true →
      (∀ o figures, failed o figures =
        { s with
          seq.capture := some
            { c with
              opening := some (s.volume.k, s.volume.known), deadline := none, figures := figures
              sides :=
                ⟨c.sides.l.map fun y => if y.stage = .arming then { y with stage := .ended o } else y,
                 c.sides.r.map fun y => if y.stage = .arming then { y with stage := .ended o } else y⟩ } }) →
      precheck s c.seq s.volume.k c.order.sides c.levels c.duration = .error e →
        armTest s c = match e with
          | .uncalibrated bk => failed .notCalibrated (some (.uncalibrated bk))
          | .leftLeaf _ _ _ | .rightLeaf _ _ _ | .volume _ _ _ => failed .doseCeiling (some e))
    ∧ (∀ (p : Prediction) (pulse : Side → Option Nat) (trigger : Fn → Side → State → State) (v : State),
      camerasEquipped s c.order.sides = true →
      precheck s c.seq s.volume.k c.order.sides c.levels c.duration = .ok p →
      (∀ y, pulse y =
        if wants c.order.sides y then some (s.time.clock + (s.seq.cameras.get y).pulse) else s.seq.pulses.get y) →
      (∀ f y w, trigger f y w = if wants c.order.sides y then driveFn w f true else w) →
      v = { s with
            time.idleStart := idleRestarted s
            dose.prediction := some p, dose.credit := ⟨0, 0⟩, lamps.interval := some c.seq
            seq.pulses := ⟨pulse .left, pulse .right⟩
            seq.capture := some
              { c with
                deadline := none, opening := some (s.volume.k, s.volume.known), t0 := some s.time.clock
                sides :=
                  ⟨c.sides.l.map fun y => { y with stage := .waiting, camera := s.seq.cameras.l },
                   c.sides.r.map fun y => { y with stage := .waiting, camera := s.seq.cameras.r }⟩ } } →
        armTest s c = trigger .camRTrigger .right (trigger .camLTrigger .left v))
    ∧ (c.t0 = none ∨ x.stage ≠ .waiting → ∀ t, syncEdge s sd t = s)
    ∧ (∀ t0 t o, c.t0 = some t0 → x.stage = .waiting → o = t0 + x.camera.delay →
      (t0 ≤ t → t < o → syncEdge s sd t =
        { s with seq.capture := some { c with sides := c.sides.set sd (some { x with stage := .ended .earlySync }) } })
      ∧ (t < t0 ∨ o + x.camera.window ≤ t → syncEdge s sd t = s)
      ∧ (o ≤ t → t < o + x.camera.window → ∃ y d, (syncEdge s sd t).seq.capture = some d
          ∧ d = { c with sides := c.sides.set sd (some y) }
          ∧ y = { x with stage := .firing, syncTime := some t, asks := y.asks }
          ∧ y.asks.map (fun k => k.bank) = x.asks.map (fun k => k.bank) ++ sideBanks sd c.levels
          ∧ (syncEdge s sd t).lamps.grants.length = s.lamps.grants.length + (sideBanks sd c.levels).length)
      ∧ (o ≤ t → t < o + x.camera.window → ∀ (b1 : Bank) (fired : State → List Ask → State),
          (∀ v asks, fired v asks =
            { v with
              time.idleStart := idleRestarted s
              seq.capture := some { c with sides := c.sides.set sd (some
                { x with stage := .firing, syncTime := some t, asks := x.asks ++ asks }) } }) →
          (sideBanks sd c.levels = [b1] → ∃ g1, grantedFor s b1 t g1
            ∧ syncEdge s sd t = fired (scheduled s b1 g1 (c.levels.get b1) c.duration c.seq) [⟨b1, g1, none⟩])
          ∧ (∀ b2, sideBanks sd c.levels = [b1, b2] → ∃ g1 g2 v, grantedFor s b1 t g1
            ∧ v = scheduled s b1 g1 (c.levels.get b1) c.duration c.seq ∧ grantedFor v b2 (t + 1500) g2
            ∧ syncEdge s sd t = fired (scheduled v b2 g2 (c.levels.get b2) c.duration c.seq)
              [⟨b1, g1, none⟩, ⟨b2, g2, none⟩])))
    ∧ (x.stage = .firing → ∀ (bk : Bank) (ans : Answer) (asks : List Ask), bk.side = sd →
      asks = (x.asks.map fun k => if k.bank = bk then { k with answer := some ans } else k) →
      (∃ k ∈ asks, k.answer = none) →
        answerAsk s bk ans =
          { s with seq.capture := some { c with sides := c.sides.set sd (some { x with asks := asks }) } })
    ∧ (x.stage = .firing → ∀ (bk : Bank) (ans : Answer) (asks : List Ask), bk.side = sd →
      asks = (x.asks.map fun k => if k.bank = bk then { k with answer := some ans } else k) →
      (∀ k ∈ asks, k.answer = some .withdrawn) →
        answerAsk s bk ans =
          { s with
            seq.capture := some { c with
              sides := c.sides.set sd (some { x with asks := asks, stage := .ended .unlit }) } })
    ∧ (x.stage = .firing → ∀ (bk : Bank) (ans : Answer) (asks : List Ask) (v : State), bk.side = sd →
      asks = (x.asks.map fun k => if k.bank = bk then { k with answer := some ans } else k) →
      (∀ k ∈ asks, k.answer.isSome = true) → (∃ k ∈ asks, ∃ t, k.answer = some (.fired t)) →
      v = { s with
            time.idleStart := idleRestarted s
            seq.capture := some { c with
              sides := c.sides.set sd (some
                { x with
                  asks := asks, stage := .storing
                  storedDeadline := some (s.time.clock + x.camera.stored * 1000) }) } } →
        answerAsk s bk ans = if x.storedNoted then storedEdge v sd else v)
    ∧ (x.stage = .firing → storedEdge s sd =
        { s with seq.capture := some { c with sides := c.sides.set sd (some { x with storedNoted := true }) } })
    ∧ (x.stage ≠ .firing → x.stage ≠ .storing → storedEdge s sd = s)
    ∧ (x.stage = .storing → ∀ (k leaf : Nat) (known verso : Bool), c.opening = some (k, known) →
      leaf = (if sd = .left then k else k + 1) → verso = decide (sd = .left) → leaf < s.leaves.length →
      ∃ take, storedEdge s sd =
          { s with
            volume.facesConfirmed := s.volume.facesConfirmed + 1
            leaves := s.leaves.set leaf
              (if verso then
                { getLeaf s leaf with
                  verso :=
                    { state := if (getLeaf s leaf).verso.state = .external then .external else .shot
                      takes := (getLeaf s leaf).verso.takes + 1, lastSeq := some c.seq } }
              else
                { getLeaf s leaf with
                  recto :=
                    { state := if (getLeaf s leaf).recto.state = .external then .external else .shot
                      takes := (getLeaf s leaf).recto.takes + 1, lastSeq := some c.seq } })
            seq.capture := some { c with
              sides := c.sides.set sd (some
                { x with stage := .ended .confirmed, storedDeadline := none, take := some take }) } }
        ∧ take.leaf = leaf ∧ take.verso = verso
        ∧ take.label = faceLabel s.plan s.volume.leafCount leaf verso
        ∧ take.number
          = (if verso then (getLeaf s leaf).verso.takes else (getLeaf s leaf).recto.takes) + 1)

/-- What every event ends with (R43, R76, R77, R84, R86, R114, R117, R157; log 35): the sequencer goes on, one step after
another, until none is allowed; then a lighting interval that is over ends with the hood closes and the top-ups that waited
for it (an earlier interval's wait for the one that replaced it, log 41), and the lit condition and READY_LAMP are judged
afresh. It touches neither the leaf table nor the plan, the safe state, the link, the turn or the plates, the calibration or
the settings, nor a line but its staged value. And the platen follows its stops, and a turn in flight goes on, one step of
R53 to R57 after another, until its stage has to wait; a HELD turn does not (R59). That a hood request which a later capture
entered stands after a deferred close is the model's choice (log 53). -/
def Obligations.SettlingKeepsWhatItDoesNotOwn : Prop :=
  (∀ s u : State, u = settle s →
    u.link = s.link ∧ u.leaves = s.leaves ∧ u.plan = s.plan ∧ u.safe = s.safe ∧ u.chargeGood = s.chargeGood
    ∧ u.pending = s.pending ∧ u.lines.hold = s.lines.hold ∧ u.lines.binding = s.lines.binding
    ∧ (∀ i, ∃ v, getLine u i = { getLine s i with staged := v })
    ∧ u.time = { s.time with idle := u.time.idle, idleSince := u.time.idleSince, idleStart := u.time.idleStart }
    ∧ u.volume = { s.volume with
        captureSeq := u.volume.captureSeq, capturesIssued := u.volume.capturesIssued
        sidesFailed := u.volume.sidesFailed }
    ∧ u.motion = { s.motion with
        platen := u.motion.platen, platenDeadline := u.motion.platenDeadline
        raisePending := u.motion.raisePending, safeRaise := u.motion.safeRaise, dwell := u.motion.dwell
        dwellDeferred := u.motion.dwellDeferred }
    ∧ u.lamps.grants = s.lamps.grants ∧ u.lamps.recipes = s.lamps.recipes
    ∧ (∀ bk, ∃ state hoodRequest hood deadline readySince, getBank u bk = { getBank s bk with
        state := state, hoodRequest := hoodRequest, hood := hood, deadline := deadline, readySince := readySince })
    ∧ u.dose = { s.dose with prediction := u.dose.prediction, credit := u.dose.credit }
    ∧ u.seq.cameras = s.seq.cameras ∧ u.seq.lateLimit = s.seq.lateLimit)
  ∧ (∀ s w : State, volumeInv s → advanceOnce s = some w → settle s = settle w)
  ∧ (∀ s w : State, volumeInv s → w = advance (advanceFuel s) s → advanceOnce w = none ∧ settle s = settle w)
  ∧ (∀ (s : State) (met ready ended : Bool) (interval : Option Nat) (lamp : Side → Aim) (bank hooded : Bank → BankRec),
      advanceOnce s = none →
      ended = s.lamps.interval.any (fun n => (s.lamps.grants.all fun g => decide (g.capture ≠ some n))
        && (s.lamps.banks.toList.all fun r => r.flash.all fun f => decide (f.capture ≠ some n))
        && s.seq.capture.all fun c => decide (c.seq ≠ n)
          || c.sides.toList.all fun x => x.all fun y => decide (y.stage ≠ .waiting)) →
      interval = (if ended then none else s.lamps.interval) →
      (∀ bk, hooded bk =
        if ended && s.lamps.closePending then
          { getBank s bk with hood := closeHood s.time.clock (getBank s bk).hood }
        else getBank s bk) →
      (∀ bk, bank bk =
        if ended && decide ((getBank s bk).state = .ready)
            && (getBank s bk).readySince.any fun t => decide (t + 30000000 ≤ s.time.clock) then
          { hooded bk with state := .topping, deadline := some (s.time.clock + 200000) }
        else hooded bk) →
      met = (decide (s.volume.state = .opened) && s.volume.known && decide (s.motion.platen = .down)
        && s.lines.hold.isNone && !s.safe.flag && !s.time.idle && interval.isNone) →
      ready = (decide (s.volume.state = .opened) && s.volume.known && !s.safe.flag && s.lines.hold.isNone
        && !s.time.idle && s.motion.turn.isNone && s.seq.capture.isNone && decide (s.seq.orders.length < 4)) →
      (∀ sd, lamp sd =
        if met = (s.lamps.aims.get sd).lit then s.lamps.aims.get sd
        else if met then
          { s.lamps.aims.get sd with lit := true, hood := openHood s.time.clock (s.lamps.aims.get sd).hood }
        else
          { s.lamps.aims.get sd with
            lit := false, applied := 0, hood := closeHood s.time.clock (s.lamps.aims.get sd).hood }) →
      settle s = driveFn
        { s with
          lamps.banks := ⟨bank .a, bank .b, bank .c, bank .d⟩
          lamps.interval := interval
          lamps.closePending := s.lamps.closePending && !ended
          lamps.aims := ⟨lamp .left, lamp .right⟩
          lines.ready := ready } .readyLamp ready)
  ∧ ∀ s w : State,
      w = (if s.motion.platen = .raising ∧ fnActive s .platenTop = true then
          { s with motion.platen := .raised, motion.platenDeadline := none, motion.safeRaise := false }
        else if s.motion.platen = .lowering ∧ fnActive s .platenContact = true then
          { s with motion.platen := .pressing, motion.platenDeadline := some (s.time.clock + 1000000) }
        else s) →
      (s.motion.turn = none → runMotion s = w)
      ∧ ∀ t, s.motion.turn = some t →
        (t.held = true → runMotion s = w)
        ∧ (turnStep w t = none → runMotion s = w)
        ∧ (safeInv s → ∀ u, turnStep w t = some u → runMotion s = runMotion u)

/-! ### Time and idle -/

/-- The 1 ms tick, the expiry of the silence timer and of the idle timer (R134, R136 to R139, R45, R46, R78, R84, R143):
the counts of the tick, its period boundary and its pressure reading, and when the platen drive brings the force back into
the band; LINK_SILENT; and the entry to IDLE with its report, its banks, hoods and lamps. The model's choices: the tick
waits at phase 1,000 (log 1), a high reading is a fault also for a platen that comes into a watched state under it
(log 15), the re-trim is a function of the state (log 11), and the eighth boundary waits in a flag (log 30). -/
def Obligations.TicksAndTimersOfTheTimebase : Prop :=
  (∀ (s w : State) (reading n : Nat) (boundary : Bool), s.time.phase = 1000 →
    n = (s.time.ms + 1) % 2 ^ 32 → boundary = decide (n % (64 * 2 ^ s.time.tap) = 0) →
    w = { s with
          time := { s.time with
            phase := 0, ms := n, tenth := (s.time.tenth + 1) % 10
            aimDue := s.time.aimDue || decide ((s.time.tenth + 1) % 10 = 0)
            tap := if boundary then s.time.pendingTap.getD s.time.tap else s.time.tap
            pendingTap := if boundary then none else s.time.pendingTap }
          link :=
            if boundary = true ∧ s.link.silence = .armed then
              if s.link.boundaries < 7 then { s.link with boundaries := s.link.boundaries + 1 }
              else { s.link with boundaryDue := true }
            else s.link
          motion.pressure := reading } →
    exec (.tick1ms reading) s = .next (settle (runMotion
      (if s.motion.profile.limit < reading then
        if platenIn s [.lowering, .pressing, .down, .stopped] && !s.motion.pressureHigh then
          raiseFault { w with motion.pressureHigh := true } .pressureHigh none
        else w
      else if s.motion.platen = .pressing ∧ s.motion.profile.target ≤ reading + s.motion.profile.tolerance
          ∧ reading ≤ s.motion.profile.target + s.motion.profile.tolerance then
        { w with
          motion.pressureHigh := false, motion.platen := .down, motion.platenDeadline := none
          motion.dwell := some ⟨s.time.clock + s.motion.profile.dwellMax * 1000000, s.motion.profile.dwellMax⟩ }
      else { w with motion.pressureHigh := false }))))
  ∧ (∀ s : State, retrimming s = true ↔
      s.motion.platen = .down ∧ s.lines.hold = none ∧ s.time.idle = false
        ∧ (s.motion.pressure + s.motion.profile.tolerance < s.motion.profile.target
          ∨ s.motion.profile.target + s.motion.profile.tolerance < s.motion.pressure)
        ∧ s.motion.pressure ≤ s.motion.profile.limit)
  ∧ (∀ s : State, s.link.silence = .armed → s.link.boundaryDue = true →
      exec .linkSilent s = .next (settle (raiseFault
        { s with link.silence := .waiting, link.boundaries := 0, link.boundaryDue := false } .linkSilent none)))
  ∧ ∀ (s : State) (t : Nat), s.time.idle = false → 0 < s.time.idleSetting → s.time.idleStart = some t →
      t + s.time.idleSetting * 1000000 ≤ s.time.clock →
      (s.motion.turn.isSome = true ∨ s.seq.capture.isSome = true →
        exec .idleTimerExpiry s = .next { s with time.idleStart := some s.time.clock })
      ∧ (s.motion.turn = none → s.seq.capture = none → ∃ u, exec .idleTimerExpiry s = .next u
          ∧ u.time = { s.time with idle := true, idleSince := some s.time.clock, idleStart := none }
          ∧ (s.queue.reports.length + s.queue.reserved < 48 → ∃ rest, u.queue.reports = s.queue.reports ++
              ⟨(s.queue.lastSeq + 1) % 65536, s.time.clock % 2 ^ 48, s.queue.missed,
                .idle s.time.clock s.time.idleSetting⟩ :: rest)
          ∧ (∀ bk r, r = (if [BankState.ready, .conditioning, .waking].contains (getBank s bk).state
                then stoodBy s.time.clock (getBank s bk) else getBank s bk) →
              getBank u bk = { r with hoodRequest := none, hood := closeHood s.time.clock r.hood })
          ∧ (∀ sd, u.lamps.aims.get sd =
              if (s.lamps.aims.get sd).lit then
                { s.lamps.aims.get sd with
                  lit := false, applied := 0, hood := closeHood s.time.clock (s.lamps.aims.get sd).hood }
              else s.lamps.aims.get sd)
          ∧ u.lines.ready = false ∧ u.volume = s.volume ∧ u.leaves = s.leaves ∧ u.motion = s.motion
          ∧ u.seq = s.seq ∧ u.safe = s.safe ∧ u.link = s.link ∧ u.dose = s.dose)

/-! ### Lines -/

/-- LINE_CONFIG (R146 to R149, R152, R158): its checks, the field named first being the model's choice (log 27); the
configuration replaced whole; a line that becomes IN sampled, one that stays IN compared with its pin, whose level a new
pull may have changed; the raw status kept or dropped, and set by an active LEVEL line; the staged value of an output
function under a new polarity; the LINE_EVENT where the masked status is set and not latched; the hold re-evaluated when
the hold flag changes, or the polarity of a line that holds; a pending change that the new debounce time or pull makes due
accepted at the request's time. The order in which these follow is the model's choice (log 45). No other line changes but
in what is staged on it. -/
def Obligations.LineConfigReplacesAConfiguration : Prop :=
  ∀ (tag : Byte) (i : Nat) (dir : Option LineDir) (pull : Option Pull) (drive : Option Drive) (sense : Option Sense)
    (polarity : Option Polarity) (both : Bool) (debounce : Nat) (event wake hold : Bool) (s a : State) (d : LineDir)
    (l l1 l2 x : Line) (drop raw turned : Bool) (cause : EventCause) (v1 v2 v3 v4 u : State),
    a = awake 0x48#8 s → d = dir.getD .inp → l = getLine a i → bindingInv a →
    drop = (decide (d = .out) || decide (polarity.getD .risingHigh ≠ l.polarity) || decide (sense.getD .edge ≠ l.sense)) →
    turned = decide (polarity.getD .risingHigh ≠ l.polarity) →
    l1 = { l with
          dir := d, pull := pull.getD .none, drive := drive.getD .pushPull, sense := sense.getD .edge
          polarity := polarity.getD .risingHigh, bothEdges := both, debounce := min debounce 50
          event := event, wake := wake, hold := hold } →
    l2 = { l1 with
          level := if d = .inp ∧ l.dir = .out then pinLevel l1 else l.level
          change :=
            if d = .out ∨ l.dir = .out ∨ pinLevel l1 = l.level then none
            else some (l.change.getD (pinLevel l1, a.time.clock)) } →
    raw = (l.raw && !drop || activeLevel l2) →
    cause = (if l.raw && !drop then .enable else .level) →
    v1 = { a with
          lines.records := a.lines.records.set i
            { l2 with
              raw := raw, latch := event && (raw || l.latch && !drop)
              staged := match allFns.find? fun f => decide (lineOf a f = some i) with
                | some f => if turned && decide (16 ≤ fnCode f)
                    then (if l1.polarity = .risingHigh then shownState a f else !shownState a f) else l.staged
                | none => l.staged } } →
    v2 = (if raw && event && !(l.latch && !drop) then
        offerMinor v1 (.lineEvent i (allFns.find? fun f => decide (lineOf a f = some i)) l1.sense cause l2.level l.count
          a.time.clock)
      else v1) →
    v3 = (if l.hold ≠ hold ∨ hold = true ∧ turned = true then evalHold v2 i a.time.clock else v2) →
    v4 = (match l2.change with
      | none => v3
      | some (high, t) =>
        if t + min debounce 50 * 1000 ≤ a.time.clock ∧ ¬ (l.debounce = min debounce 50 ∧ pinLevel l = pinLevel l1)
          then acceptEdge v3 i high a.time.clock else v3) →
    u = settle (runMotion v4) → x = getLine u i →
    exec (.lineConfig tag i dir pull drive sense polarity both debounce event wake hold) s = .next
        (decided 0x48#8 tag
          [ orField (decide (31 < i)) .line,
            orField dir.isNone .direction, orField pull.isNone .pull, orField drive.isNone .drive,
            orField sense.isNone .sense, orField polarity.isNone .polarity,
            orField (both && decide (sense = some .level)) .bothEdges,
            orElse (if d = .out then
                hold || allFns.any fun f => decide (lineOf a f = some i) && decide (fnCode f < 16)
              else allFns.any fun f => decide (lineOf a f = some i) && decide (16 ≤ fnCode f)) .directionMismatch ]
          a u
          (.lineConfig
            { dir := x.dir, pull := x.pull, drive := x.drive, sense := x.sense, polarity := x.polarity
              bothEdges := x.bothEdges, debounce := x.debounce, event := x.event, wake := x.wake, hold := x.hold
              level := x.level, change := x.change.map fun y => (y.1, y.2 % 2 ^ 48), staged := x.staged, raw := x.raw
              latch := x.latch, count := x.count }
            (decide (50 < debounce))))
      ∧ u.lines.binding = a.lines.binding
      ∧ (∀ j, j ≠ i → ∃ v, getLine u j = { getLine a j with staged := v })
      ∧ (i < 32 → ∃ v level change raw' latch count, getLine u i =
          { l2 with
            staged := v, level := level, change := change, raw := raw', latch := latch, count := count })
      ∧ (i < 32 → l.hold ≠ hold → u.lines.hold.isSome = u.lines.records.any fun x =>
          decide (x.dir = .inp) && x.hold && (if x.polarity = .risingHigh then x.level else !x.level))

/-- LINE_WRITE, LINE_CLEAR and LINE_BIND (R149, R150, R151, R153, R156): LINE_WRITE stages the given bits on the masked lines
that carry no output function and names the others; LINE_CLEAR clears raw status and latch of the masked lines, and an
active LEVEL line sets them again, with a LINE_EVENT where its event is enabled, in line order (the model's choice, log 49); LINE_BIND has its checks, its new binding,
the function's state on the line of an output function and its inactive state on the line it leaves. The model's choices:
the function is named before the line (log 27), the reply to a NONE carries the value of the line just left, low where
there was none (log 44), and a trigger pulse goes on on a newly bound line (log 46). -/
def Obligations.LinesAreWrittenClearedAndBound : Prop :=
  ∀ (tag : Byte) (s : State) (carries : State → Nat → Bool),
    (∀ a i, carries a i = allFns.any fun f => decide (lineOf a f = some i) && decide (16 ≤ fnCode f)) →
    (∀ (mask values : LineMask) (a : State) (rs : List Line), a = awake 0x49#8 s → bindingInv a →
      rs = (a.lines.records.zipIdx.map fun x =>
        if mask.getLsbD x.2 && !carries a x.2 then { x.1 with staged := values.getLsbD x.2 } else x.1) →
      exec (.lineWrite tag mask values) s = .next (replied 0x49#8 tag .accepted
        (.lineWrite ((List.range 32).map fun i => mask.getLsbD i && carries a i) (rs.map fun l => l.staged))
        { a with lines.records := rs }))
    ∧ (∀ (mask : LineMask) (a : State), a = awake 0x4D#8 s → bindingInv a → ∀ (cleared : State) (events : List Body),
      cleared = { a with
        lines.records := a.lines.records.zipIdx.map fun x =>
          if mask.getLsbD x.2 then
            { x.1 with raw := activeLevel x.1, latch := activeLevel x.1 && x.1.event }
          else x.1 } →
      events = ((List.range 32).filter fun i =>
          mask.getLsbD i && activeLevel (getLine a i) && (getLine a i).event).map (fun i =>
        .lineEvent i (allFns.find? fun f => decide (lineOf a f = some i)) (getLine a i).sense .level
          (getLine a i).level (getLine a i).count a.time.clock) →
      ∃ u, u = events.foldl offerMinor cleared ∧ exec (.lineClear tag mask) s = .next (replied 0x4D#8 tag .accepted
          (.lineClear (u.lines.records.map fun l => l.raw) (u.lines.records.map fun l => l.raw && l.event)) u)
        ∧ u = { a with lines.records := u.lines.records, queue := u.queue }
        ∧ u.queue.reserved = a.queue.reserved
        ∧ ∀ i, i < 32 → ∃ v, getLine u i =
          if mask.getLsbD i then
            { getLine a i with
              staged := v, raw := activeLevel (getLine a i)
              latch := activeLevel (getLine a i) && (getLine a i).event }
          else { getLine a i with staged := v })
    ∧ (∀ (line : Option Nat) (a : State), a = awake 0x4E#8 s →
      exec (.lineBind tag none line) s = .next (replied 0x4E#8 tag .badField (.badField .function) a))
    ∧ (∀ (f : Fn) (a w : State), a = awake 0x4E#8 s → bindingInv a →
      w = { a with
            lines.binding := a.lines.binding.set (fnCode f) none
            lines.records := match lineOf a f with
              | none => a.lines.records
              | some i => if fnCode f < 16 then a.lines.records else a.lines.records.modify i fun l =>
                { l with staged := decide (l.polarity = .fallingLow) } } →
      ∃ u v, u = settle (runMotion w)
        ∧ v = (lineOf a f).any (fun i => if (getLine u i).dir = .inp then (getLine u i).level else (getLine u i).staged)
        ∧ exec (.lineBind tag (some f) none) s = .next (replied 0x4E#8 tag .accepted (.lineBind f none v) u))
    ∧ ∀ (f : Fn) (i : Nat) (a w : State), a = awake 0x4E#8 s → bindingInv a →
      w = { a with
            lines.binding := a.lines.binding.set (fnCode f) (some i)
            lines.records := if fnCode f < 16 then a.lines.records else a.lines.records.modify i fun l =>
                { l with staged := if l.polarity = .risingHigh then shownState a f else !shownState a f } } →
      ∃ u, u = (if lineOf a f = some i then a else settle (runMotion w))
        ∧ exec (.lineBind tag (some f) (some i)) s = .next (decided 0x4E#8 tag
          [ orField (decide (31 < i)) .line,
            orElse ((lineOf a f).isSome && decide (lineOf a f ≠ some i)) .boundElsewhere,
            orElse (allFns.any fun g => decide (g ≠ f) && decide (lineOf a g = some i)) .lineInUse,
            orElse (if fnCode f < 16 then decide ((getLine a i).dir = .out) else decide ((getLine a i).dir = .inp))
              .directionMismatch ] a u
          (.lineBind f (some i) (if (getLine u i).dir = .inp then (getLine u i).level else (getLine u i).staged)))

/-- Pins and accepted edges (R146 to R149, R151, R158, R159): the level at a pin, by what drives it and its pull (a pin
that nothing drives or pulls reads low, log 3); a pin that leaves its line's accepted level starts a pending change, or
with debounce 0 is accepted at once, and one that returns drops it; a change that has stood for the debounce time is
accepted at its end, before a pin change that comes later (log 25). An accepted edge sets level, count and raw status,
offers its LINE_EVENT, re-evaluates the hold, wakes the part, and then goes, if it is the active edge, to the owner of the
function bound to the line, on every line, the keys L13 to L15 with their event and wake flags among them. -/
def Obligations.PinsAndAcceptedEdges : Prop :=
  (∀ (l : Line) (outside : Bool), outside = l.pin.getD (decide (l.pull = .up)) →
    pinLevel l =
      if l.dir = .inp then outside
      else match l.drive with
        | .pushPull => l.staged
        | .openLow => l.staged && outside
        | .openHigh => l.staged || outside)
  ∧ ∀ (s : State) (i : Nat) (l : Line), i < s.lines.records.length → l = getLine s i → bindingInv s →
    (∀ (high : Bool) (w : State),
      (l.dir = .out ∨ l.change = none ∨ ∃ v t, l.change = some (v, t) ∧ s.time.clock < t + l.debounce * 1000) →
      w = { s with
            lines.records := s.lines.records.set i
              { l with
                pin := some high
                change := if l.dir = .out then l.change
                  else if high = l.level then none
                  else some (l.change.getD (high, s.time.clock)) } } →
      exec (.pinLevelChange i high) s = .next
        (if l.dir = .inp ∧ high ≠ l.level ∧ l.change = none ∧ l.debounce = 0 then acceptEdge w i high s.time.clock
        else w))
    ∧ ((l.dir = .out ∨ l.change = none ∨ ∃ v t, l.change = some (v, t) ∧ s.time.clock < t + l.debounce * 1000) →
      exec (.acceptedEdge i) s = .next s)
    ∧ (∀ (high new : Bool) (t0 : Nat), l.dir = .inp → l.change = some (new, t0) →
      t0 + l.debounce * 1000 ≤ s.time.clock →
      exec (.acceptedEdge i) s = .next (acceptEdge s i new (t0 + l.debounce * 1000))
        ∧ exec (.pinLevelChange i high) s
          = exec (.pinLevelChange i high) (acceptEdge s i new (t0 + l.debounce * 1000)))
    ∧ ∀ (high ev active : Bool) (t : Nat) (x : Line) (v1 v2 v : State),
      active = (if l.polarity = .risingHigh then high else !high) → ev = (active || l.bothEdges) →
      x = { l with
            level := high, change := none
            count := if ev then (l.count + 1) % 65536 else l.count
            raw := l.raw || (if l.sense = .edge then ev else active) } →
      v1 = (if x.raw && x.event && !l.latch then
          offerMinor { s with lines.records := s.lines.records.set i { x with latch := true } }
            (.lineEvent i (allFns.find? fun f => decide (lineOf s f = some i)) x.sense .edge high x.count t)
        else { s with lines.records := s.lines.records.set i x }) →
      v2 = (if l.hold then evalHold v1 i t else v1) →
      v = (if ev && l.wake && s.time.idle then wake v2 (.line i) else v2) →
      ((active = false ∨ (∀ f, lineOf s f ≠ some i)
          ∨ ∃ f, lineOf s f = some i ∧ (4 ≤ fnCode f ∧ fnCode f ≤ 9 ∨ fnCode f = 12 ∨ 16 ≤ fnCode f)) →
        acceptEdge s i high t = settle (runMotion v))
      ∧ (active = true → lineOf s .camLSync = some i →
        acceptEdge s i high t = settle (runMotion (syncEdge v .left t)))
      ∧ (active = true → lineOf s .camRSync = some i →
        acceptEdge s i high t = settle (runMotion (syncEdge v .right t)))
      ∧ (active = true → lineOf s .camLStored = some i →
        acceptEdge s i high t = settle (runMotion (storedEdge v .left)))
      ∧ (active = true → lineOf s .camRStored = some i →
        acceptEdge s i high t = settle (runMotion (storedEdge v .right)))
      ∧ (∀ (f : Fn) (d : Direction), active = true → lineOf s f = some i →
          (f = .leafSeenL ∧ d = .forward ∨ f = .leafSeenR ∧ d = .backward) →
        acceptEdge s i high t = settle (runMotion
          { v with
            motion.turn := v.motion.turn.map fun x =>
              if x.direction = d ∧ (x.stage = .release ∨ x.stage = .verify) then { x with noted := true } else x }))
      ∧ (active = true → v.time.idle = true →
          lineOf s .keyShoot = some i ∨ lineOf s .keyTurn = some i ∨ lineOf s .keyBack = some i →
        acceptEdge s i high t = settle (runMotion v))
      ∧ (∀ w, active = true → v.time.idle = false →
          w = { v with time.idleStart := if s.time.idleSetting = 0 then none else some s.time.clock } →
          (lineOf s .keyShoot = some i → acceptEdge s i high t = settle (runMotion
            (match (orderChecks w .both 0).find? fun c => c.1 with
            | some c => offerMinor w (.keyRefused .keyShoot c.2.1)
            | none => orderAccepted w
              { tag := 0, origin := .key, sides := .both, recipe := 0, purpose := .normal, notBefore := none
                accepted := w.time.clock })))
          ∧ (lineOf s .keyTurn = some i → acceptEdge s i high t = settle (runMotion
            (match (turnChecks w .forward false).find? fun c => c.1 with
            | some c => offerMinor w (.keyRefused .keyTurn c.2.1)
            | none => settle (turnAccepted w .forward .key false))))
          ∧ (lineOf s .keyBack = some i → acceptEdge s i high t = settle (runMotion
            (match (turnChecks w .backward false).find? fun c => c.1 with
            | some c => offerMinor w (.keyRefused .keyBack c.2.1)
            | none => settle (turnAccepted w .backward .key false)))))

/-- A hold (R126, R158, R59, R60): the first active line of the group brings it into force with its report, stops the
platen but not a safe raise, holds the turn, shuts the air and aborts the sides that have no sync; the last line that
falls releases it, and the pending raise starts. The length in HOLD_OFF is in whole milliseconds, rounded down (log 18);
a raise that ran already at the safe entry is no safe raise (log 13). -/
def Obligations.AHoldStopsTheCradleAndReleasesIt : Prop :=
  (∀ (s u : State) (i t : Nat), u = holdOn s i t →
    u.lines.hold = some ⟨i, t⟩
    ∧ (s.queue.reports.length + s.queue.reserved < 64 → u.queue.reports = s.queue.reports ++
        [⟨(s.queue.lastSeq + 1) % 65536, s.time.clock % 2 ^ 48, 0, .holdOn i t⟩])
    ∧ u.motion = { s.motion with
        turn := s.motion.turn.map fun x => { x with held := true, deadline := none }
        air := false, plateDeadline := none
        platen := if platenIn s [.lowering, .pressing] || platenIn s [.raising] && !s.motion.safeRaise
          then .stopped else s.motion.platen
        platenDeadline := if platenIn s [.lowering, .pressing] || platenIn s [.raising] && !s.motion.safeRaise
          then none else s.motion.platenDeadline
        safeRaise := s.motion.safeRaise && !platenIn s [.lowering, .pressing]
        raisePending := s.motion.raisePending || platenIn s [.raising] && !s.motion.safeRaise }
    ∧ (∀ c sd x, u.seq.capture = some c → c.sides.get sd = some x → x.stage ≠ .arming ∧ x.stage ≠ .waiting)
    ∧ (∀ c sd x, s.seq.capture = some c → c.sides.get sd = some x → ∃ d, u.seq.capture = some d
        ∧ d.sides.get sd = some
          (if x.stage = .arming ∨ x.stage = .waiting then { x with stage := .ended .abortedHold } else x))
    ∧ (∀ bk, (getBank u bk).hoodRequest = none
        ∧ (getBank u bk).hood = (if s.lamps.interval = none then closeHood s.time.clock (getBank s bk).hood
          else (getBank s bk).hood))
    ∧ u.volume = s.volume ∧ u.leaves = s.leaves ∧ u.safe = s.safe ∧ u.time = s.time ∧ u.link = s.link
    ∧ u.dose = s.dose ∧ u.seq.orders = s.seq.orders)
  ∧ (∀ (s : State) (h : Hold) (i t : Nat) (w : State), h.since ≤ t →
    w = offerMajor
      { s with
        lines.hold := none
        motion.plateDeadline :=
          if s.motion.plateState = .moving ∧ (∀ x, s.motion.turn = some x → x.stage ≠ .adjust)
          then some (s.time.clock + 3000000) else s.motion.plateDeadline }
      (.holdOff i t ((t - h.since) / 1000)) →
    holdOff s i t h =
      if s.motion.raisePending then
        { w with
          motion.platen := if fnActive s .platenTop then .raised else .raising
          motion.platenDeadline := if fnActive s .platenTop then none else some (s.time.clock + 3000000)
          motion.raisePending := false, motion.safeRaise := false
          motion.dwell := none, motion.dwellDeferred := false }
      else w)
  ∧ ∀ (s : State) (i t : Nat) (active : Bool),
    active = (s.lines.records.any fun x =>
      decide (x.dir = .inp) && x.hold && (if x.polarity = .risingHigh then x.level else !x.level)) →
    evalHold s i t =
      match s.lines.hold with
      | none => if active then holdOn s i t else s
      | some h => if active then s else holdOff s i t h
end

