-- ==== Sys2Proof/Laws/State.lean ====
section
/-! SUPPORT. Laws of the plain updates of the state. Each `_frame` lemma says what an update leaves as
it was, each other lemma what it puts in place, so that no proof unfolds a record update. -/
namespace Sys2Proof.Machine

/-! ### Pairs, quads, and folds over banks and sides -/

@[simp] theorem pair_get_set (p : Pair α) (x : Side) (v : α) : (p.set x v).get x = v := by cases x <;> rfl

theorem pair_get_set_ne (p : Pair α) {x y : Side} (h : y ≠ x) (v : α) : (p.set x v).get y = p.get y := by
  cases x <;> cases y <;> first | rfl | contradiction

@[simp] theorem quad_get_set (q : Quad α) (x : Bank) (v : α) : (q.set x v).get x = v := by cases x <;> rfl

theorem quad_get_set_ne (q : Quad α) {x y : Bank} (h : y ≠ x) (v : α) : (q.set x v).get y = q.get y := by
  cases x <;> cases y <;> first | rfl | contradiction

/-- A fold keeps what each of its operations keeps. -/
theorem foldl_keeps (g : State → β) (f : State → α → State) (h : ∀ s a, g (f s a) = g s) (l : List α)
    (s : State) : g (l.foldl f s) = g s := by
  induction l generalizing s with
  | nil => rfl
  | cons a l ih => exact (ih (f s a)).trans (h s a)

@[simp] theorem forBanks_eq (f : State → Bank → State) (s : State) :
    forBanks f s = f (f (f (f s .a) .b) .c) .d := rfl

@[simp] theorem foldl_allSides (f : State → Side → State) (s : State) :
    allSides.foldl f s = f (f s .left) .right := rfl

/-! ### The updates -/

@[simp] theorem restartIdle_frame (s : State) :
    (restartIdle s).time.clock = s.time.clock ∧ (restartIdle s).time.idle = s.time.idle ∧
    (restartIdle s).link = s.link ∧ (restartIdle s).queue = s.queue ∧
    (restartIdle s).volume = s.volume ∧ (restartIdle s).leaves = s.leaves ∧
    (restartIdle s).plan = s.plan ∧ (restartIdle s).motion = s.motion ∧
    (restartIdle s).lamps = s.lamps ∧ (restartIdle s).dose = s.dose ∧ (restartIdle s).seq = s.seq ∧
    (restartIdle s).lines = s.lines ∧ (restartIdle s).safe = s.safe ∧
    (restartIdle s).chargeGood = s.chargeGood ∧ (restartIdle s).pending = s.pending :=
  by unfold restartIdle; split <;> simp

@[simp] theorem modifyLine_frame (i : Nat) (f : Line → Line) (s : State) :
    (modifyLine s i f).time = s.time ∧ (modifyLine s i f).link = s.link ∧
    (modifyLine s i f).queue = s.queue ∧ (modifyLine s i f).volume = s.volume ∧
    (modifyLine s i f).leaves = s.leaves ∧ (modifyLine s i f).plan = s.plan ∧
    (modifyLine s i f).motion = s.motion ∧ (modifyLine s i f).lamps = s.lamps ∧
    (modifyLine s i f).dose = s.dose ∧ (modifyLine s i f).seq = s.seq ∧
    (modifyLine s i f).lines.binding = s.lines.binding ∧ (modifyLine s i f).lines.hold = s.lines.hold ∧
    (modifyLine s i f).safe = s.safe ∧ (modifyLine s i f).chargeGood = s.chargeGood ∧
    (modifyLine s i f).pending = s.pending :=
  ⟨rfl, rfl, rfl, rfl, rfl, rfl, rfl, rfl, rfl, rfl, rfl, rfl, rfl, rfl, rfl⟩

theorem modifyLine_records (i : Nat) (f : Line → Line) (s : State) :
    (modifyLine s i f).lines.records = s.lines.records.modify i f := rfl

@[simp] theorem modifyLine_length (i : Nat) (f : Line → Line) (s : State) :
    (modifyLine s i f).lines.records.length = s.lines.records.length := by simp [modifyLine]

@[simp] theorem modifyLine_ready (i : Nat) (f : Line → Line) (s : State) :
    (modifyLine s i f).lines.ready = s.lines.ready := rfl

theorem getLine_modifyLine (i : Nat) (f : Line → Line) (s : State) (h : i < s.lines.records.length) :
    getLine (modifyLine s i f) i = f (getLine s i) := by
  simp [getLine, modifyLine, h]

theorem getLine_modifyLine_ne {i j : Nat} (h : j ≠ i) (f : Line → Line) (s : State) :
    getLine (modifyLine s i f) j = getLine s j := by
  simp [getLine, modifyLine, List.getD_eq_getElem?_getD, Ne.symm h]

@[simp] theorem reserve_frame (s : State) :
    (reserve s).time = s.time ∧ (reserve s).link = s.link ∧ (reserve s).volume = s.volume ∧
    (reserve s).leaves = s.leaves ∧ (reserve s).plan = s.plan ∧ (reserve s).motion = s.motion ∧
    (reserve s).lamps = s.lamps ∧ (reserve s).dose = s.dose ∧ (reserve s).seq = s.seq ∧
    (reserve s).lines = s.lines ∧ (reserve s).safe = s.safe ∧ (reserve s).chargeGood = s.chargeGood ∧
    (reserve s).pending = s.pending :=
  ⟨rfl, rfl, rfl, rfl, rfl, rfl, rfl, rfl, rfl, rfl, rfl, rfl, rfl⟩

@[simp] theorem reserve_queue (s : State) :
    (reserve s).queue = { s.queue with reserved := s.queue.reserved + 1 } := rfl

@[simp] theorem modifyLeaf_frame (i : Nat) (f : Leaf → Leaf) (s : State) :
    (modifyLeaf s i f).time = s.time ∧ (modifyLeaf s i f).link = s.link ∧
    (modifyLeaf s i f).queue = s.queue ∧ (modifyLeaf s i f).volume = s.volume ∧
    (modifyLeaf s i f).plan = s.plan ∧ (modifyLeaf s i f).motion = s.motion ∧
    (modifyLeaf s i f).lamps = s.lamps ∧ (modifyLeaf s i f).dose = s.dose ∧
    (modifyLeaf s i f).seq = s.seq ∧ (modifyLeaf s i f).lines = s.lines ∧
    (modifyLeaf s i f).safe = s.safe ∧ (modifyLeaf s i f).chargeGood = s.chargeGood ∧
    (modifyLeaf s i f).pending = s.pending :=
  ⟨rfl, rfl, rfl, rfl, rfl, rfl, rfl, rfl, rfl, rfl, rfl, rfl, rfl⟩

theorem modifyLeaf_leaves (i : Nat) (f : Leaf → Leaf) (s : State) :
    (modifyLeaf s i f).leaves = s.leaves.modify i f := rfl

@[simp] theorem modifyLeaf_length (i : Nat) (f : Leaf → Leaf) (s : State) :
    (modifyLeaf s i f).leaves.length = s.leaves.length := by simp [modifyLeaf]

theorem getLeaf_modifyLeaf (i : Nat) (f : Leaf → Leaf) (s : State) (h : i < s.leaves.length) :
    getLeaf (modifyLeaf s i f) i = f (getLeaf s i) := by
  simp [getLeaf, modifyLeaf, h]

theorem getLeaf_modifyLeaf_ne {i j : Nat} (h : j ≠ i) (f : Leaf → Leaf) (s : State) :
    getLeaf (modifyLeaf s i f) j = getLeaf s j := by
  simp [getLeaf, modifyLeaf, List.getD_eq_getElem?_getD, Ne.symm h]

@[simp] theorem setBank_frame (bk : Bank) (r : BankRec) (s : State) :
    (setBank s bk r).time = s.time ∧ (setBank s bk r).link = s.link ∧
    (setBank s bk r).queue = s.queue ∧ (setBank s bk r).volume = s.volume ∧
    (setBank s bk r).leaves = s.leaves ∧ (setBank s bk r).plan = s.plan ∧
    (setBank s bk r).motion = s.motion ∧ (setBank s bk r).lamps.aims = s.lamps.aims ∧
    (setBank s bk r).lamps.grants = s.lamps.grants ∧
    (setBank s bk r).lamps.interval = s.lamps.interval ∧
    (setBank s bk r).lamps.recipes = s.lamps.recipes ∧ (setBank s bk r).dose = s.dose ∧
    (setBank s bk r).seq = s.seq ∧ (setBank s bk r).lines = s.lines ∧ (setBank s bk r).safe = s.safe ∧
    (setBank s bk r).chargeGood = s.chargeGood ∧ (setBank s bk r).pending = s.pending :=
  ⟨rfl, rfl, rfl, rfl, rfl, rfl, rfl, rfl, rfl, rfl, rfl, rfl, rfl, rfl, rfl, rfl, rfl⟩

@[simp] theorem getBank_setBank (bk : Bank) (r : BankRec) (s : State) : getBank (setBank s bk r) bk = r := by
  simp [getBank, setBank]

theorem getBank_setBank_ne {bk x : Bank} (h : x ≠ bk) (r : BankRec) (s : State) :
    getBank (setBank s bk r) x = getBank s x := by
  simp [getBank, setBank, quad_get_set_ne _ h]

theorem setBank_banks (bk : Bank) (r : BankRec) (s : State) :
    (setBank s bk r).lamps.banks = s.lamps.banks.set bk r := rfl

@[simp] theorem setBank_closePending (bk : Bank) (r : BankRec) (s : State) :
    (setBank s bk r).lamps.closePending = s.lamps.closePending := rfl

@[simp] theorem modifyBank_frame (bk : Bank) (f : BankRec → BankRec) (s : State) :
    (modifyBank s bk f).time = s.time ∧ (modifyBank s bk f).link = s.link ∧
    (modifyBank s bk f).queue = s.queue ∧ (modifyBank s bk f).volume = s.volume ∧
    (modifyBank s bk f).leaves = s.leaves ∧ (modifyBank s bk f).plan = s.plan ∧
    (modifyBank s bk f).motion = s.motion ∧ (modifyBank s bk f).lamps.aims = s.lamps.aims ∧
    (modifyBank s bk f).lamps.grants = s.lamps.grants ∧
    (modifyBank s bk f).lamps.interval = s.lamps.interval ∧
    (modifyBank s bk f).lamps.recipes = s.lamps.recipes ∧ (modifyBank s bk f).dose = s.dose ∧
    (modifyBank s bk f).seq = s.seq ∧ (modifyBank s bk f).lines = s.lines ∧
    (modifyBank s bk f).safe = s.safe ∧ (modifyBank s bk f).chargeGood = s.chargeGood ∧
    (modifyBank s bk f).pending = s.pending :=
  by simp [modifyBank]

@[simp] theorem getBank_modifyBank (bk : Bank) (f : BankRec → BankRec) (s : State) :
    getBank (modifyBank s bk f) bk = f (getBank s bk) := by simp [modifyBank]

theorem getBank_modifyBank_ne {bk x : Bank} (h : x ≠ bk) (f : BankRec → BankRec) (s : State) :
    getBank (modifyBank s bk f) x = getBank s x := by simp [modifyBank, getBank_setBank_ne h]

@[simp] theorem dropConditioning_frame (bk : Bank) (s : State) :
    (dropConditioning s bk).time = s.time ∧ (dropConditioning s bk).link = s.link ∧
    (dropConditioning s bk).queue = s.queue ∧ (dropConditioning s bk).volume = s.volume ∧
    (dropConditioning s bk).leaves = s.leaves ∧ (dropConditioning s bk).plan = s.plan ∧
    (dropConditioning s bk).motion = s.motion ∧ (dropConditioning s bk).lamps.banks = s.lamps.banks ∧
    (dropConditioning s bk).lamps.aims = s.lamps.aims ∧
    (dropConditioning s bk).lamps.interval = s.lamps.interval ∧
    (dropConditioning s bk).lamps.recipes = s.lamps.recipes ∧ (dropConditioning s bk).dose = s.dose ∧
    (dropConditioning s bk).seq = s.seq ∧ (dropConditioning s bk).lines = s.lines ∧
    (dropConditioning s bk).safe = s.safe ∧ (dropConditioning s bk).chargeGood = s.chargeGood ∧
    (dropConditioning s bk).pending = s.pending :=
  ⟨rfl, rfl, rfl, rfl, rfl, rfl, rfl, rfl, rfl, rfl, rfl, rfl, rfl, rfl, rfl, rfl, rfl⟩

@[simp] theorem removeGrant_frame (bk : Bank) (s : State) :
    (removeGrant s bk).time = s.time ∧ (removeGrant s bk).link = s.link ∧
    (removeGrant s bk).queue = s.queue ∧ (removeGrant s bk).volume = s.volume ∧
    (removeGrant s bk).leaves = s.leaves ∧ (removeGrant s bk).plan = s.plan ∧
    (removeGrant s bk).motion = s.motion ∧ (removeGrant s bk).lamps.banks = s.lamps.banks ∧
    (removeGrant s bk).lamps.aims = s.lamps.aims ∧
    (removeGrant s bk).lamps.interval = s.lamps.interval ∧
    (removeGrant s bk).lamps.recipes = s.lamps.recipes ∧ (removeGrant s bk).dose = s.dose ∧
    (removeGrant s bk).seq = s.seq ∧ (removeGrant s bk).lines = s.lines ∧
    (removeGrant s bk).safe = s.safe ∧ (removeGrant s bk).chargeGood = s.chargeGood ∧
    (removeGrant s bk).pending = s.pending :=
  ⟨rfl, rfl, rfl, rfl, rfl, rfl, rfl, rfl, rfl, rfl, rfl, rfl, rfl, rfl, rfl, rfl, rfl⟩

@[simp] theorem removePrediction_frame (s : State) :
    (removePrediction s).time = s.time ∧ (removePrediction s).link = s.link ∧
    (removePrediction s).queue = s.queue ∧ (removePrediction s).volume = s.volume ∧
    (removePrediction s).leaves = s.leaves ∧ (removePrediction s).plan = s.plan ∧
    (removePrediction s).motion = s.motion ∧ (removePrediction s).lamps = s.lamps ∧
    (removePrediction s).dose.banks = s.dose.banks ∧ (removePrediction s).dose.aims = s.dose.aims ∧
    (removePrediction s).seq = s.seq ∧ (removePrediction s).lines = s.lines ∧
    (removePrediction s).safe = s.safe ∧ (removePrediction s).chargeGood = s.chargeGood ∧
    (removePrediction s).pending = s.pending :=
  ⟨rfl, rfl, rfl, rfl, rfl, rfl, rfl, rfl, rfl, rfl, rfl, rfl, rfl, rfl, rfl⟩

@[simp] theorem removePrediction_dose (s : State) :
    (removePrediction s).dose = { s.dose with prediction := none, credit := ⟨0, 0⟩ } := rfl

@[simp] theorem startRaise_frame (b : Bool) (s : State) :
    (startRaise s b).time = s.time ∧ (startRaise s b).link = s.link ∧
    (startRaise s b).queue = s.queue ∧ (startRaise s b).volume = s.volume ∧
    (startRaise s b).leaves = s.leaves ∧ (startRaise s b).plan = s.plan ∧
    (startRaise s b).motion.turn = s.motion.turn ∧ (startRaise s b).motion.profile = s.motion.profile ∧
    (startRaise s b).lamps = s.lamps ∧ (startRaise s b).dose = s.dose ∧ (startRaise s b).seq = s.seq ∧
    (startRaise s b).lines = s.lines ∧ (startRaise s b).safe = s.safe ∧
    (startRaise s b).chargeGood = s.chargeGood ∧ (startRaise s b).pending = s.pending :=
  ⟨rfl, rfl, rfl, rfl, rfl, rfl, rfl, rfl, rfl, rfl, rfl, rfl, rfl, rfl, rfl⟩

/-- A raise leaves the platen RAISED with PLATEN_TOP active and RAISING otherwise, and nothing pending. -/
theorem startRaise_platen (b : Bool) (s : State) :
    (startRaise s b).motion.platen = (if fnActive s .platenTop then .raised else .raising) ∧
    (startRaise s b).motion.raisePending = false ∧ (startRaise s b).motion.dwell = none ∧
    (startRaise s b).motion.dwellDeferred = false := ⟨rfl, rfl, rfl, rfl⟩

@[simp] theorem stopPlaten_frame (s : State) :
    (stopPlaten s).time = s.time ∧ (stopPlaten s).link = s.link ∧ (stopPlaten s).queue = s.queue ∧
    (stopPlaten s).volume = s.volume ∧ (stopPlaten s).leaves = s.leaves ∧
    (stopPlaten s).plan = s.plan ∧ (stopPlaten s).motion.turn = s.motion.turn ∧
    (stopPlaten s).motion.profile = s.motion.profile ∧ (stopPlaten s).lamps = s.lamps ∧
    (stopPlaten s).dose = s.dose ∧ (stopPlaten s).seq = s.seq ∧ (stopPlaten s).lines = s.lines ∧
    (stopPlaten s).safe = s.safe ∧ (stopPlaten s).chargeGood = s.chargeGood ∧
    (stopPlaten s).pending = s.pending :=
  ⟨rfl, rfl, rfl, rfl, rfl, rfl, rfl, rfl, rfl, rfl, rfl, rfl, rfl, rfl, rfl⟩

@[simp] theorem stopPlaten_platen (s : State) :
    (stopPlaten s).motion.platen = .stopped ∧ (stopPlaten s).motion.platenDeadline = none ∧
    (stopPlaten s).motion.safeRaise = false := ⟨rfl, rfl, rfl⟩

@[simp] theorem enterDown_frame (s : State) :
    (enterDown s).time = s.time ∧ (enterDown s).link = s.link ∧ (enterDown s).queue = s.queue ∧
    (enterDown s).volume = s.volume ∧ (enterDown s).leaves = s.leaves ∧ (enterDown s).plan = s.plan ∧
    (enterDown s).motion.turn = s.motion.turn ∧ (enterDown s).motion.profile = s.motion.profile ∧
    (enterDown s).lamps = s.lamps ∧ (enterDown s).dose = s.dose ∧ (enterDown s).seq = s.seq ∧
    (enterDown s).lines = s.lines ∧ (enterDown s).safe = s.safe ∧
    (enterDown s).chargeGood = s.chargeGood ∧ (enterDown s).pending = s.pending :=
  ⟨rfl, rfl, rfl, rfl, rfl, rfl, rfl, rfl, rfl, rfl, rfl, rfl, rfl, rfl, rfl⟩

@[simp] theorem startAdjust_frame (k : Nat) (s : State) :
    (startAdjust s k).time = s.time ∧ (startAdjust s k).link = s.link ∧
    (startAdjust s k).queue = s.queue ∧ (startAdjust s k).volume.k = s.volume.k ∧
    (startAdjust s k).volume.state = s.volume.state ∧
    (startAdjust s k).volume.leafCount = s.volume.leafCount ∧ (startAdjust s k).leaves = s.leaves ∧
    (startAdjust s k).plan = s.plan ∧ (startAdjust s k).motion.turn = s.motion.turn ∧
    (startAdjust s k).motion.profile = s.motion.profile ∧ (startAdjust s k).lamps = s.lamps ∧
    (startAdjust s k).dose = s.dose ∧ (startAdjust s k).seq = s.seq ∧
    (startAdjust s k).lines = s.lines ∧ (startAdjust s k).safe = s.safe ∧
    (startAdjust s k).chargeGood = s.chargeGood ∧ (startAdjust s k).pending = s.pending :=
  ⟨rfl, rfl, rfl, rfl, rfl, rfl, rfl, rfl, rfl, rfl, rfl, rfl, rfl, rfl, rfl, rfl, rfl⟩

@[simp] theorem modifyTurn_frame (f : Turn → Turn) (s : State) :
    (modifyTurn s f).time = s.time ∧ (modifyTurn s f).link = s.link ∧
    (modifyTurn s f).queue = s.queue ∧ (modifyTurn s f).volume = s.volume ∧
    (modifyTurn s f).leaves = s.leaves ∧ (modifyTurn s f).plan = s.plan ∧
    (modifyTurn s f).motion.profile = s.motion.profile ∧ (modifyTurn s f).lamps = s.lamps ∧
    (modifyTurn s f).dose = s.dose ∧ (modifyTurn s f).seq = s.seq ∧ (modifyTurn s f).lines = s.lines ∧
    (modifyTurn s f).safe = s.safe ∧ (modifyTurn s f).chargeGood = s.chargeGood ∧
    (modifyTurn s f).pending = s.pending :=
  ⟨rfl, rfl, rfl, rfl, rfl, rfl, rfl, rfl, rfl, rfl, rfl, rfl, rfl, rfl⟩

@[simp] theorem modifyTurn_turn (f : Turn → Turn) (s : State) :
    (modifyTurn s f).motion.turn = s.motion.turn.map f := rfl

@[simp] theorem modifyTurn_platen (f : Turn → Turn) (s : State) :
    (modifyTurn s f).motion.platen = s.motion.platen := rfl

@[simp] theorem modifySide_frame (sd : Side) (f : SideRec → SideRec) (s : State) :
    (modifySide s sd f).time = s.time ∧ (modifySide s sd f).link = s.link ∧
    (modifySide s sd f).queue = s.queue ∧ (modifySide s sd f).volume = s.volume ∧
    (modifySide s sd f).leaves = s.leaves ∧ (modifySide s sd f).plan = s.plan ∧
    (modifySide s sd f).motion = s.motion ∧ (modifySide s sd f).lamps = s.lamps ∧
    (modifySide s sd f).dose = s.dose ∧ (modifySide s sd f).seq.orders = s.seq.orders ∧
    (modifySide s sd f).seq.cameras = s.seq.cameras ∧ (modifySide s sd f).lines = s.lines ∧
    (modifySide s sd f).safe = s.safe ∧ (modifySide s sd f).chargeGood = s.chargeGood ∧
    (modifySide s sd f).pending = s.pending :=
  ⟨rfl, rfl, rfl, rfl, rfl, rfl, rfl, rfl, rfl, rfl, rfl, rfl, rfl, rfl, rfl⟩

@[simp] theorem modifySide_capture (sd : Side) (f : SideRec → SideRec) (s : State) :
    (modifySide s sd f).seq.capture =
      s.seq.capture.map fun c => { c with sides := c.sides.set sd ((c.sides.get sd).map f) } := rfl

theorem getSide_modifySide (sd : Side) (f : SideRec → SideRec) (s : State) :
    getSide (modifySide s sd f) sd = (getSide s sd).map f := by
  cases h : s.seq.capture <;> simp [getSide, h]

@[simp] theorem holdCapture_frame (s : State) :
    (holdCapture s).time = s.time ∧ (holdCapture s).link = s.link ∧ (holdCapture s).queue = s.queue ∧
    (holdCapture s).volume = s.volume ∧ (holdCapture s).leaves = s.leaves ∧
    (holdCapture s).plan = s.plan ∧ (holdCapture s).motion = s.motion ∧
    (holdCapture s).lamps = s.lamps ∧ (holdCapture s).dose = s.dose ∧
    (holdCapture s).seq.orders = s.seq.orders ∧ (holdCapture s).seq.cameras = s.seq.cameras ∧
    (holdCapture s).lines = s.lines ∧ (holdCapture s).safe = s.safe ∧
    (holdCapture s).chargeGood = s.chargeGood ∧ (holdCapture s).pending = s.pending :=
  ⟨rfl, rfl, rfl, rfl, rfl, rfl, rfl, rfl, rfl, rfl, rfl, rfl, rfl, rfl, rfl⟩

@[simp] theorem suctionOff_frame (s : State) :
    (suctionOff s).time = s.time ∧ (suctionOff s).link = s.link ∧ (suctionOff s).queue = s.queue ∧
    (suctionOff s).volume = s.volume ∧ (suctionOff s).leaves = s.leaves ∧
    (suctionOff s).plan = s.plan ∧ (suctionOff s).motion.turn = s.motion.turn ∧
    (suctionOff s).motion.profile = s.motion.profile ∧ (suctionOff s).lamps = s.lamps ∧
    (suctionOff s).dose = s.dose ∧ (suctionOff s).seq = s.seq ∧ (suctionOff s).lines = s.lines ∧
    (suctionOff s).safe = s.safe ∧ (suctionOff s).chargeGood = s.chargeGood ∧
    (suctionOff s).pending = s.pending :=
  ⟨rfl, rfl, rfl, rfl, rfl, rfl, rfl, rfl, rfl, rfl, rfl, rfl, rfl, rfl, rfl⟩

@[simp] theorem suctionOff_suction (s : State) :
    (suctionOff s).motion.suction = false ∧ (suctionOff s).motion.keptOn = false := ⟨rfl, rfl⟩

@[simp] theorem recordFault_frame (r : FaultRec) (s : State) :
    (recordFault s r).time = s.time ∧ (recordFault s r).link = s.link ∧
    (recordFault s r).queue = s.queue ∧ (recordFault s r).volume = s.volume ∧
    (recordFault s r).leaves = s.leaves ∧ (recordFault s r).plan = s.plan ∧
    (recordFault s r).motion = s.motion ∧ (recordFault s r).lamps = s.lamps ∧
    (recordFault s r).dose = s.dose ∧ (recordFault s r).seq = s.seq ∧
    (recordFault s r).lines = s.lines ∧ (recordFault s r).safe.flag = s.safe.flag ∧
    (recordFault s r).chargeGood = s.chargeGood ∧ (recordFault s r).pending = s.pending :=
  by unfold recordFault; split <;> simp

/-- A fault enters the list, or is counted among the further faults. -/
theorem recordFault_cases (r : FaultRec) (s : State) :
    (s.safe.faults.length < Config.faultCapacity ∧
      recordFault s r = { s with safe.faults := s.safe.faults ++ [r] }) ∨
    (Config.faultCapacity ≤ s.safe.faults.length ∧
      recordFault s r = { s with safe.further := satSucc 255 s.safe.further }) := by
  by_cases h : s.safe.faults.length < Config.faultCapacity
  · exact .inl ⟨h, by simp [recordFault, h]⟩
  · exact .inr ⟨by omega, by simp [recordFault, h]⟩

@[simp] theorem setBinding_frame (f : Fn) (x : Option Nat) (s : State) :
    (setBinding s f x).time = s.time ∧ (setBinding s f x).link = s.link ∧
    (setBinding s f x).queue = s.queue ∧ (setBinding s f x).volume = s.volume ∧
    (setBinding s f x).leaves = s.leaves ∧ (setBinding s f x).plan = s.plan ∧
    (setBinding s f x).motion = s.motion ∧ (setBinding s f x).lamps = s.lamps ∧
    (setBinding s f x).dose = s.dose ∧ (setBinding s f x).seq = s.seq ∧
    (setBinding s f x).lines.hold = s.lines.hold ∧ (setBinding s f x).safe = s.safe ∧
    (setBinding s f x).chargeGood = s.chargeGood ∧ (setBinding s f x).pending = s.pending :=
  ⟨rfl, rfl, rfl, rfl, rfl, rfl, rfl, rfl, rfl, rfl, rfl, rfl, rfl, rfl⟩

@[simp] theorem dropFrame_frame (s : State) :
    (dropFrame s).time = s.time ∧ (dropFrame s).queue = s.queue ∧ (dropFrame s).volume = s.volume ∧
    (dropFrame s).leaves = s.leaves ∧ (dropFrame s).plan = s.plan ∧ (dropFrame s).motion = s.motion ∧
    (dropFrame s).lamps = s.lamps ∧ (dropFrame s).dose = s.dose ∧ (dropFrame s).seq = s.seq ∧
    (dropFrame s).lines = s.lines ∧ (dropFrame s).safe = s.safe ∧
    (dropFrame s).chargeGood = s.chargeGood ∧ (dropFrame s).pending = s.pending :=
  ⟨rfl, rfl, rfl, rfl, rfl, rfl, rfl, rfl, rfl, rfl, rfl, rfl, rfl⟩

end Sys2Proof.Machine
end

