-- ==== Sys2Proof/Laws/Ops.lean ====
section
/-! SUPPORT. Laws of the operations of Ops.lean: what each leaves as it was, and once everything the
report queue can do with a report. -/
namespace Sys2Proof.Machine

@[simp] theorem driveFn_frame (f : Fn) (v : Bool) (s : State) :
    (driveFn s f v).time = s.time ∧ (driveFn s f v).link = s.link ∧ (driveFn s f v).queue = s.queue ∧
    (driveFn s f v).volume = s.volume ∧ (driveFn s f v).leaves = s.leaves ∧
    (driveFn s f v).plan = s.plan ∧ (driveFn s f v).motion = s.motion ∧
    (driveFn s f v).lamps = s.lamps ∧ (driveFn s f v).dose = s.dose ∧ (driveFn s f v).seq = s.seq ∧
    (driveFn s f v).lines.binding = s.lines.binding ∧ (driveFn s f v).lines.hold = s.lines.hold ∧
    (driveFn s f v).safe = s.safe ∧ (driveFn s f v).chargeGood = s.chargeGood ∧
    (driveFn s f v).pending = s.pending :=
  by unfold driveFn; split <;> simp

@[simp] theorem driveFn_length (f : Fn) (v : Bool) (s : State) :
    (driveFn s f v).lines.records.length = s.lines.records.length := by
  unfold driveFn; split <;> simp

@[simp] theorem driveFn_ready (f : Fn) (v : Bool) (s : State) :
    (driveFn s f v).lines.ready = s.lines.ready := by
  unfold driveFn; split <;> simp

@[simp] theorem enqueue_frame (b : Body) (n : Nat) (s : State) :
    (enqueue s b n).time = s.time ∧ (enqueue s b n).link = s.link ∧
    (enqueue s b n).queue.reserved = s.queue.reserved ∧ (enqueue s b n).volume = s.volume ∧
    (enqueue s b n).leaves = s.leaves ∧ (enqueue s b n).plan = s.plan ∧
    (enqueue s b n).motion = s.motion ∧ (enqueue s b n).lamps = s.lamps ∧
    (enqueue s b n).dose = s.dose ∧ (enqueue s b n).seq = s.seq ∧
    (enqueue s b n).lines.binding = s.lines.binding ∧ (enqueue s b n).lines.hold = s.lines.hold ∧
    (enqueue s b n).safe = s.safe ∧ (enqueue s b n).chargeGood = s.chargeGood ∧
    (enqueue s b n).pending = s.pending :=
  by simp [enqueue]

/-- A report that is admitted stands last in the queue with the next number, and nothing else in the queue
changes. -/
@[simp] theorem enqueue_queue (b : Body) (n : Nat) (s : State) :
    (enqueue s b n).queue =
      { s.queue with
        reports := s.queue.reports ++ [⟨(s.queue.lastSeq + 1) % 65536, count s, n, b⟩]
        lastSeq := (s.queue.lastSeq + 1) % 65536 } := by
  simp [enqueue]

@[simp] theorem offerMinor_frame (b : Body) (s : State) :
    (offerMinor s b).time = s.time ∧ (offerMinor s b).link = s.link ∧
    (offerMinor s b).queue.reserved = s.queue.reserved ∧ (offerMinor s b).volume = s.volume ∧
    (offerMinor s b).leaves = s.leaves ∧ (offerMinor s b).plan = s.plan ∧
    (offerMinor s b).motion = s.motion ∧ (offerMinor s b).lamps = s.lamps ∧
    (offerMinor s b).dose = s.dose ∧ (offerMinor s b).seq = s.seq ∧
    (offerMinor s b).lines.binding = s.lines.binding ∧ (offerMinor s b).lines.hold = s.lines.hold ∧
    (offerMinor s b).safe = s.safe ∧ (offerMinor s b).chargeGood = s.chargeGood ∧
    (offerMinor s b).pending = s.pending :=
  by unfold offerMinor; split <;> simp

/-- A minor report is admitted with the miss count, or the miss count rises. -/
theorem offerMinor_queue (b : Body) (s : State) :
    (hasMinorRoom s = true ∧ (offerMinor s b).queue =
      { s.queue with
        reports := s.queue.reports ++ [⟨(s.queue.lastSeq + 1) % 65536, count s, s.queue.missed, b⟩]
        lastSeq := (s.queue.lastSeq + 1) % 65536
        missed := 0 }) ∨
    (hasMinorRoom s = false ∧ offerMinor s b =
      { s with queue.missed := satSucc 255 s.queue.missed }) := by
  cases h : hasMinorRoom s <;> simp [offerMinor, h, count]

@[simp] theorem offerMajor_frame (b : Body) (s : State) :
    (offerMajor s b).time = s.time ∧ (offerMajor s b).link = s.link ∧
    (offerMajor s b).queue.reserved = s.queue.reserved ∧ (offerMajor s b).volume = s.volume ∧
    (offerMajor s b).leaves = s.leaves ∧ (offerMajor s b).plan = s.plan ∧
    (offerMajor s b).motion = s.motion ∧ (offerMajor s b).lamps = s.lamps ∧
    (offerMajor s b).dose = s.dose ∧ (offerMajor s b).seq = s.seq ∧
    (offerMajor s b).lines.binding = s.lines.binding ∧ (offerMajor s b).lines.hold = s.lines.hold ∧
    (offerMajor s b).safe = s.safe ∧ (offerMajor s b).chargeGood = s.chargeGood ∧
    (offerMajor s b).pending = s.pending :=
  by unfold offerMajor; split <;> simp

/-- A major report without reservation is admitted, or nothing happens. -/
theorem offerMajor_cases (b : Body) (s : State) :
    (hasRoom s = true ∧ offerMajor s b = enqueue s b 0) ∨ (hasRoom s = false ∧ offerMajor s b = s) := by
  cases h : hasRoom s <;> simp [offerMajor, h]

@[simp] theorem enterReserved_frame (b : Body) (s : State) :
    (enterReserved s b).time = s.time ∧ (enterReserved s b).link = s.link ∧
    (enterReserved s b).volume = s.volume ∧ (enterReserved s b).leaves = s.leaves ∧
    (enterReserved s b).plan = s.plan ∧ (enterReserved s b).motion = s.motion ∧
    (enterReserved s b).lamps = s.lamps ∧ (enterReserved s b).dose = s.dose ∧
    (enterReserved s b).seq = s.seq ∧ (enterReserved s b).lines.binding = s.lines.binding ∧
    (enterReserved s b).lines.hold = s.lines.hold ∧ (enterReserved s b).safe = s.safe ∧
    (enterReserved s b).chargeGood = s.chargeGood ∧ (enterReserved s b).pending = s.pending :=
  by simp [enterReserved]

/-- A report with a reservation is always admitted and frees its slot. -/
@[simp] theorem enterReserved_queue (b : Body) (s : State) :
    (enterReserved s b).queue =
      { s.queue with
        reports := s.queue.reports ++ [⟨(s.queue.lastSeq + 1) % 65536, count s, 0, b⟩]
        reserved := s.queue.reserved - 1
        lastSeq := (s.queue.lastSeq + 1) % 65536 } := by
  simp [enterReserved, count]

@[simp] theorem countHandling_frame (i : Nat) (s : State) :
    (countHandling s i).time = s.time ∧ (countHandling s i).link = s.link ∧
    (countHandling s i).queue = s.queue ∧ (countHandling s i).volume = s.volume ∧
    (countHandling s i).plan = s.plan ∧ (countHandling s i).motion = s.motion ∧
    (countHandling s i).lamps = s.lamps ∧ (countHandling s i).dose = s.dose ∧
    (countHandling s i).seq = s.seq ∧ (countHandling s i).lines = s.lines ∧
    (countHandling s i).safe = s.safe ∧ (countHandling s i).chargeGood = s.chargeGood ∧
    (countHandling s i).pending = s.pending :=
  by simp [countHandling]

end Sys2Proof.Machine
end

