-- ==== Sys2Proof/Laws/Lamps.lean ====
section
/-! SUPPORT. Laws of the lamp controller and the dose meter: what each operation leaves as it was. -/
namespace Sys2Proof.Machine

@[simp] theorem reportBank_frame (bk : Bank) (x y : BankState) (c : BankCause) (s : State) :
    (reportBank s bk x y c).time = s.time ∧ (reportBank s bk x y c).link = s.link ∧
    (reportBank s bk x y c).queue.reserved = s.queue.reserved ∧
    (reportBank s bk x y c).volume = s.volume ∧ (reportBank s bk x y c).leaves = s.leaves ∧
    (reportBank s bk x y c).plan = s.plan ∧ (reportBank s bk x y c).motion = s.motion ∧
    (reportBank s bk x y c).lamps = s.lamps ∧ (reportBank s bk x y c).dose = s.dose ∧
    (reportBank s bk x y c).seq = s.seq ∧ (reportBank s bk x y c).lines.binding = s.lines.binding ∧
    (reportBank s bk x y c).lines.hold = s.lines.hold ∧ (reportBank s bk x y c).safe = s.safe ∧
    (reportBank s bk x y c).chargeGood = s.chargeGood ∧ (reportBank s bk x y c).pending = s.pending :=
  by simp [reportBank]

@[simp] theorem enterReady_frame (bk : Bank) (c : Option BankCause) (s : State) :
    (enterReady s bk c).time = s.time ∧ (enterReady s bk c).link = s.link ∧
    (enterReady s bk c).queue.reserved = s.queue.reserved ∧ (enterReady s bk c).volume = s.volume ∧
    (enterReady s bk c).leaves = s.leaves ∧ (enterReady s bk c).plan = s.plan ∧
    (enterReady s bk c).motion = s.motion ∧ (enterReady s bk c).lamps.aims = s.lamps.aims ∧
    (enterReady s bk c).lamps.grants = s.lamps.grants ∧
    (enterReady s bk c).lamps.interval = s.lamps.interval ∧
    (enterReady s bk c).lamps.recipes = s.lamps.recipes ∧ (enterReady s bk c).dose = s.dose ∧
    (enterReady s bk c).seq = s.seq ∧ (enterReady s bk c).lines.binding = s.lines.binding ∧
    (enterReady s bk c).lines.hold = s.lines.hold ∧ (enterReady s bk c).safe = s.safe ∧
    (enterReady s bk c).chargeGood = s.chargeGood ∧ (enterReady s bk c).pending = s.pending :=
  by unfold enterReady; split <;> simp

@[simp] theorem enterStandby_frame (bk : Bank) (c : BankCause) (s : State) :
    (enterStandby s bk c).time = s.time ∧ (enterStandby s bk c).link = s.link ∧
    (enterStandby s bk c).queue.reserved = s.queue.reserved ∧ (enterStandby s bk c).volume = s.volume ∧
    (enterStandby s bk c).leaves = s.leaves ∧ (enterStandby s bk c).plan = s.plan ∧
    (enterStandby s bk c).motion = s.motion ∧ (enterStandby s bk c).lamps.aims = s.lamps.aims ∧
    (enterStandby s bk c).lamps.interval = s.lamps.interval ∧
    (enterStandby s bk c).lamps.recipes = s.lamps.recipes ∧ (enterStandby s bk c).dose = s.dose ∧
    (enterStandby s bk c).seq = s.seq ∧ (enterStandby s bk c).lines.binding = s.lines.binding ∧
    (enterStandby s bk c).lines.hold = s.lines.hold ∧ (enterStandby s bk c).safe = s.safe ∧
    (enterStandby s bk c).chargeGood = s.chargeGood ∧ (enterStandby s bk c).pending = s.pending :=
  by simp [enterStandby]

@[simp] theorem enterConditioning_frame (bk : Bank) (c : BankCause) (s : State) :
    (enterConditioning s bk c).time = s.time ∧ (enterConditioning s bk c).link = s.link ∧
    (enterConditioning s bk c).queue.reserved = s.queue.reserved ∧
    (enterConditioning s bk c).volume = s.volume ∧ (enterConditioning s bk c).leaves = s.leaves ∧
    (enterConditioning s bk c).plan = s.plan ∧ (enterConditioning s bk c).motion = s.motion ∧
    (enterConditioning s bk c).lamps.aims = s.lamps.aims ∧
    (enterConditioning s bk c).lamps.grants = s.lamps.grants ∧
    (enterConditioning s bk c).lamps.interval = s.lamps.interval ∧
    (enterConditioning s bk c).lamps.recipes = s.lamps.recipes ∧
    (enterConditioning s bk c).dose = s.dose ∧ (enterConditioning s bk c).seq = s.seq ∧
    (enterConditioning s bk c).lines.binding = s.lines.binding ∧
    (enterConditioning s bk c).lines.hold = s.lines.hold ∧ (enterConditioning s bk c).safe = s.safe ∧
    (enterConditioning s bk c).chargeGood = s.chargeGood ∧
    (enterConditioning s bk c).pending = s.pending :=
  by simp [enterConditioning]

@[simp] theorem endCharge_frame (bk : Bank) (s : State) :
    (endCharge s bk).time = s.time ∧ (endCharge s bk).link = s.link ∧
    (endCharge s bk).queue.reserved = s.queue.reserved ∧ (endCharge s bk).volume = s.volume ∧
    (endCharge s bk).leaves = s.leaves ∧ (endCharge s bk).plan = s.plan ∧
    (endCharge s bk).motion = s.motion ∧ (endCharge s bk).lamps.aims = s.lamps.aims ∧
    (endCharge s bk).lamps.interval = s.lamps.interval ∧
    (endCharge s bk).lamps.recipes = s.lamps.recipes ∧ (endCharge s bk).dose = s.dose ∧
    (endCharge s bk).seq = s.seq ∧ (endCharge s bk).lines.binding = s.lines.binding ∧
    (endCharge s bk).lines.hold = s.lines.hold ∧ (endCharge s bk).safe = s.safe ∧
    (endCharge s bk).chargeGood = s.chargeGood ∧ (endCharge s bk).pending = s.pending :=
  by unfold endCharge; split <;> simp

@[simp] theorem startCharging_frame (bk : Bank) (s : State) :
    (startCharging s bk).time = s.time ∧ (startCharging s bk).link = s.link ∧
    (startCharging s bk).queue.reserved = s.queue.reserved ∧ (startCharging s bk).volume = s.volume ∧
    (startCharging s bk).leaves = s.leaves ∧ (startCharging s bk).plan = s.plan ∧
    (startCharging s bk).motion = s.motion ∧ (startCharging s bk).lamps.aims = s.lamps.aims ∧
    (startCharging s bk).lamps.interval = s.lamps.interval ∧
    (startCharging s bk).lamps.recipes = s.lamps.recipes ∧ (startCharging s bk).dose = s.dose ∧
    (startCharging s bk).seq = s.seq ∧ (startCharging s bk).lines.binding = s.lines.binding ∧
    (startCharging s bk).lines.hold = s.lines.hold ∧ (startCharging s bk).safe = s.safe ∧
    (startCharging s bk).chargeGood = s.chargeGood ∧ (startCharging s bk).pending = s.pending :=
  by unfold startCharging; split <;> simp

@[simp] theorem powerOff_frame (bk : Bank) (s : State) :
    (powerOff s bk).time = s.time ∧ (powerOff s bk).link = s.link ∧
    (powerOff s bk).queue.reserved = s.queue.reserved ∧ (powerOff s bk).volume = s.volume ∧
    (powerOff s bk).leaves = s.leaves ∧ (powerOff s bk).plan = s.plan ∧
    (powerOff s bk).motion = s.motion ∧ (powerOff s bk).lamps.aims = s.lamps.aims ∧
    (powerOff s bk).lamps.interval = s.lamps.interval ∧
    (powerOff s bk).lamps.recipes = s.lamps.recipes ∧ (powerOff s bk).dose = s.dose ∧
    (powerOff s bk).seq = s.seq ∧ (powerOff s bk).lines.binding = s.lines.binding ∧
    (powerOff s bk).lines.hold = s.lines.hold ∧ (powerOff s bk).safe = s.safe ∧
    (powerOff s bk).chargeGood = s.chargeGood ∧ (powerOff s bk).pending = s.pending :=
  by unfold powerOff; dsimp only; (repeat' split) <;> simp

@[simp] theorem wakeBank_frame (bk : Bank) (s : State) :
    (wakeBank s bk).time = s.time ∧ (wakeBank s bk).link = s.link ∧
    (wakeBank s bk).queue.reserved = s.queue.reserved ∧ (wakeBank s bk).volume = s.volume ∧
    (wakeBank s bk).leaves = s.leaves ∧ (wakeBank s bk).plan = s.plan ∧
    (wakeBank s bk).motion = s.motion ∧ (wakeBank s bk).lamps.aims = s.lamps.aims ∧
    (wakeBank s bk).lamps.grants = s.lamps.grants ∧ (wakeBank s bk).lamps.interval = s.lamps.interval ∧
    (wakeBank s bk).lamps.recipes = s.lamps.recipes ∧ (wakeBank s bk).dose = s.dose ∧
    (wakeBank s bk).seq = s.seq ∧ (wakeBank s bk).lines.binding = s.lines.binding ∧
    (wakeBank s bk).lines.hold = s.lines.hold ∧ (wakeBank s bk).safe = s.safe ∧
    (wakeBank s bk).chargeGood = s.chargeGood ∧ (wakeBank s bk).pending = s.pending :=
  by unfold wakeBank; dsimp only; (repeat' split) <;> simp

@[simp] theorem idleBank_frame (bk : Bank) (s : State) :
    (idleBank s bk).time = s.time ∧ (idleBank s bk).link = s.link ∧
    (idleBank s bk).queue.reserved = s.queue.reserved ∧ (idleBank s bk).volume = s.volume ∧
    (idleBank s bk).leaves = s.leaves ∧ (idleBank s bk).plan = s.plan ∧
    (idleBank s bk).motion = s.motion ∧ (idleBank s bk).lamps.aims = s.lamps.aims ∧
    (idleBank s bk).lamps.interval = s.lamps.interval ∧
    (idleBank s bk).lamps.recipes = s.lamps.recipes ∧ (idleBank s bk).dose = s.dose ∧
    (idleBank s bk).seq = s.seq ∧ (idleBank s bk).lines.binding = s.lines.binding ∧
    (idleBank s bk).lines.hold = s.lines.hold ∧ (idleBank s bk).safe = s.safe ∧
    (idleBank s bk).chargeGood = s.chargeGood ∧ (idleBank s bk).pending = s.pending :=
  by unfold idleBank; split <;> simp

@[simp] theorem returnReady_frame (bk : Bank) (s : State) :
    (returnReady s bk).time = s.time ∧ (returnReady s bk).link = s.link ∧
    (returnReady s bk).queue.reserved = s.queue.reserved ∧ (returnReady s bk).volume = s.volume ∧
    (returnReady s bk).leaves = s.leaves ∧ (returnReady s bk).plan = s.plan ∧
    (returnReady s bk).motion = s.motion ∧ (returnReady s bk).lamps.aims = s.lamps.aims ∧
    (returnReady s bk).lamps.interval = s.lamps.interval ∧
    (returnReady s bk).lamps.recipes = s.lamps.recipes ∧ (returnReady s bk).dose = s.dose ∧
    (returnReady s bk).seq = s.seq ∧ (returnReady s bk).lines.binding = s.lines.binding ∧
    (returnReady s bk).lines.hold = s.lines.hold ∧ (returnReady s bk).safe = s.safe ∧
    (returnReady s bk).chargeGood = s.chargeGood ∧ (returnReady s bk).pending = s.pending :=
  by unfold returnReady; split <;> simp

@[simp] theorem topUp_frame (bk : Bank) (s : State) :
    (topUp s bk).time = s.time ∧ (topUp s bk).link = s.link ∧ (topUp s bk).queue = s.queue ∧
    (topUp s bk).volume = s.volume ∧ (topUp s bk).leaves = s.leaves ∧ (topUp s bk).plan = s.plan ∧
    (topUp s bk).motion = s.motion ∧ (topUp s bk).lamps.aims = s.lamps.aims ∧
    (topUp s bk).lamps.grants = s.lamps.grants ∧ (topUp s bk).lamps.interval = s.lamps.interval ∧
    (topUp s bk).lamps.recipes = s.lamps.recipes ∧ (topUp s bk).dose = s.dose ∧
    (topUp s bk).seq = s.seq ∧ (topUp s bk).lines = s.lines ∧ (topUp s bk).safe = s.safe ∧
    (topUp s bk).chargeGood = s.chargeGood ∧ (topUp s bk).pending = s.pending :=
  by unfold topUp; split <;> simp

@[simp] theorem closeBankHoods_frame (s : State) :
    (closeBankHoods s).time = s.time ∧ (closeBankHoods s).link = s.link ∧
    (closeBankHoods s).queue = s.queue ∧ (closeBankHoods s).volume = s.volume ∧
    (closeBankHoods s).leaves = s.leaves ∧ (closeBankHoods s).plan = s.plan ∧
    (closeBankHoods s).motion = s.motion ∧ (closeBankHoods s).lamps.aims = s.lamps.aims ∧
    (closeBankHoods s).lamps.grants = s.lamps.grants ∧
    (closeBankHoods s).lamps.interval = s.lamps.interval ∧
    (closeBankHoods s).lamps.recipes = s.lamps.recipes ∧ (closeBankHoods s).dose = s.dose ∧
    (closeBankHoods s).seq = s.seq ∧ (closeBankHoods s).lines = s.lines ∧
    (closeBankHoods s).safe = s.safe ∧ (closeBankHoods s).chargeGood = s.chargeGood ∧
    (closeBankHoods s).pending = s.pending :=
  by simp [closeBankHoods]

@[simp] theorem clearHoodRequests_frame (s : State) :
    (clearHoodRequests s).time = s.time ∧ (clearHoodRequests s).link = s.link ∧
    (clearHoodRequests s).queue = s.queue ∧ (clearHoodRequests s).volume = s.volume ∧
    (clearHoodRequests s).leaves = s.leaves ∧ (clearHoodRequests s).plan = s.plan ∧
    (clearHoodRequests s).motion = s.motion ∧ (clearHoodRequests s).lamps.aims = s.lamps.aims ∧
    (clearHoodRequests s).lamps.grants = s.lamps.grants ∧
    (clearHoodRequests s).lamps.interval = s.lamps.interval ∧
    (clearHoodRequests s).lamps.recipes = s.lamps.recipes ∧ (clearHoodRequests s).dose = s.dose ∧
    (clearHoodRequests s).seq = s.seq ∧ (clearHoodRequests s).lines = s.lines ∧
    (clearHoodRequests s).safe = s.safe ∧ (clearHoodRequests s).chargeGood = s.chargeGood ∧
    (clearHoodRequests s).pending = s.pending :=
  by simp [clearHoodRequests]

@[simp] theorem stopHoods_frame (s : State) :
    (stopHoods s).time = s.time ∧ (stopHoods s).link = s.link ∧ (stopHoods s).queue = s.queue ∧
    (stopHoods s).volume = s.volume ∧ (stopHoods s).leaves = s.leaves ∧ (stopHoods s).plan = s.plan ∧
    (stopHoods s).motion = s.motion ∧ (stopHoods s).lamps.aims = s.lamps.aims ∧
    (stopHoods s).lamps.grants = s.lamps.grants ∧ (stopHoods s).lamps.interval = s.lamps.interval ∧
    (stopHoods s).lamps.recipes = s.lamps.recipes ∧ (stopHoods s).dose = s.dose ∧
    (stopHoods s).seq = s.seq ∧ (stopHoods s).lines = s.lines ∧ (stopHoods s).safe = s.safe ∧
    (stopHoods s).chargeGood = s.chargeGood ∧ (stopHoods s).pending = s.pending :=
  by unfold stopHoods; split <;> simp

@[simp] theorem requestHood_frame (n : Nat) (bk : Bank) (s : State) :
    (requestHood n s bk).time = s.time ∧ (requestHood n s bk).link = s.link ∧
    (requestHood n s bk).queue = s.queue ∧ (requestHood n s bk).volume = s.volume ∧
    (requestHood n s bk).leaves = s.leaves ∧ (requestHood n s bk).plan = s.plan ∧
    (requestHood n s bk).motion = s.motion ∧ (requestHood n s bk).lamps.aims = s.lamps.aims ∧
    (requestHood n s bk).lamps.grants = s.lamps.grants ∧
    (requestHood n s bk).lamps.interval = s.lamps.interval ∧
    (requestHood n s bk).lamps.recipes = s.lamps.recipes ∧ (requestHood n s bk).dose = s.dose ∧
    (requestHood n s bk).seq = s.seq ∧ (requestHood n s bk).lines = s.lines ∧
    (requestHood n s bk).safe = s.safe ∧ (requestHood n s bk).chargeGood = s.chargeGood ∧
    (requestHood n s bk).pending = s.pending :=
  by simp [requestHood]

@[simp] theorem foldl_requestHood_frame (n : Nat) (l : List Bank) (s : State) :
    (l.foldl (requestHood n) s).time = s.time ∧ (l.foldl (requestHood n) s).link = s.link ∧
    (l.foldl (requestHood n) s).queue = s.queue ∧ (l.foldl (requestHood n) s).volume = s.volume ∧
    (l.foldl (requestHood n) s).leaves = s.leaves ∧ (l.foldl (requestHood n) s).plan = s.plan ∧
    (l.foldl (requestHood n) s).motion = s.motion ∧
    (l.foldl (requestHood n) s).lamps.aims = s.lamps.aims ∧
    (l.foldl (requestHood n) s).lamps.grants = s.lamps.grants ∧
    (l.foldl (requestHood n) s).lamps.interval = s.lamps.interval ∧
    (l.foldl (requestHood n) s).lamps.recipes = s.lamps.recipes ∧
    (l.foldl (requestHood n) s).dose = s.dose ∧ (l.foldl (requestHood n) s).seq = s.seq ∧
    (l.foldl (requestHood n) s).lines = s.lines ∧ (l.foldl (requestHood n) s).safe = s.safe ∧
    (l.foldl (requestHood n) s).chargeGood = s.chargeGood ∧
    (l.foldl (requestHood n) s).pending = s.pending :=
  by
  induction l generalizing s with
  | nil => simp
  | cons x l ih => simp [ih]

@[simp] theorem askFiring_frame (bk : Bank) (t l d : Nat) (c : Option Nat) (s : State) :
    (askFiring s bk t l d c).time = s.time ∧ (askFiring s bk t l d c).link = s.link ∧
    (askFiring s bk t l d c).queue = s.queue ∧ (askFiring s bk t l d c).volume = s.volume ∧
    (askFiring s bk t l d c).leaves = s.leaves ∧ (askFiring s bk t l d c).plan = s.plan ∧
    (askFiring s bk t l d c).motion = s.motion ∧ (askFiring s bk t l d c).lamps.aims = s.lamps.aims ∧
    (askFiring s bk t l d c).lamps.interval = s.lamps.interval ∧
    (askFiring s bk t l d c).lamps.recipes = s.lamps.recipes ∧ (askFiring s bk t l d c).dose = s.dose ∧
    (askFiring s bk t l d c).seq = s.seq ∧ (askFiring s bk t l d c).lines = s.lines ∧
    (askFiring s bk t l d c).safe = s.safe ∧ (askFiring s bk t l d c).chargeGood = s.chargeGood ∧
    (askFiring s bk t l d c).pending = s.pending :=
  by simp [askFiring]

/-- A firing asked for is granted at least 1,500 µs after the latest firing of every other bank. -/
theorem grantTime_spaced (s : State) (bk : Bank) (t u : Nat) (h : latestOther s bk = some u) :
    u + spacing ≤ grantTime s bk t ∧ t ≤ grantTime s bk t := by
  simp only [grantTime, h]; omega

@[simp] theorem judgeLit_frame (s : State) :
    (judgeLit s).time = s.time ∧ (judgeLit s).link = s.link ∧ (judgeLit s).queue = s.queue ∧
    (judgeLit s).volume = s.volume ∧ (judgeLit s).leaves = s.leaves ∧ (judgeLit s).plan = s.plan ∧
    (judgeLit s).motion = s.motion ∧ (judgeLit s).lamps.banks = s.lamps.banks ∧
    (judgeLit s).lamps.grants = s.lamps.grants ∧ (judgeLit s).lamps.interval = s.lamps.interval ∧
    (judgeLit s).lamps.recipes = s.lamps.recipes ∧ (judgeLit s).dose = s.dose ∧
    (judgeLit s).seq = s.seq ∧ (judgeLit s).lines = s.lines ∧ (judgeLit s).safe = s.safe ∧
    (judgeLit s).chargeGood = s.chargeGood ∧ (judgeLit s).pending = s.pending :=
  by simp [judgeLit]

@[simp] theorem judgeReady_frame (s : State) :
    (judgeReady s).time = s.time ∧ (judgeReady s).link = s.link ∧ (judgeReady s).queue = s.queue ∧
    (judgeReady s).volume = s.volume ∧ (judgeReady s).leaves = s.leaves ∧
    (judgeReady s).plan = s.plan ∧ (judgeReady s).motion = s.motion ∧ (judgeReady s).lamps = s.lamps ∧
    (judgeReady s).dose = s.dose ∧ (judgeReady s).seq = s.seq ∧
    (judgeReady s).lines.binding = s.lines.binding ∧ (judgeReady s).lines.hold = s.lines.hold ∧
    (judgeReady s).safe = s.safe ∧ (judgeReady s).chargeGood = s.chargeGood ∧
    (judgeReady s).pending = s.pending :=
  by simp [judgeReady]

@[simp] theorem creditLeaf_frame (i n : Nat) (s : State) :
    (creditLeaf s i n).time = s.time ∧ (creditLeaf s i n).link = s.link ∧
    (creditLeaf s i n).queue = s.queue ∧ (creditLeaf s i n).volume.k = s.volume.k ∧
    (creditLeaf s i n).volume.state = s.volume.state ∧
    (creditLeaf s i n).volume.leafCount = s.volume.leafCount ∧ (creditLeaf s i n).plan = s.plan ∧
    (creditLeaf s i n).motion = s.motion ∧ (creditLeaf s i n).lamps = s.lamps ∧
    (creditLeaf s i n).dose = s.dose ∧ (creditLeaf s i n).seq = s.seq ∧
    (creditLeaf s i n).lines = s.lines ∧ (creditLeaf s i n).safe = s.safe ∧
    (creditLeaf s i n).chargeGood = s.chargeGood ∧ (creditLeaf s i n).pending = s.pending :=
  by simp [creditLeaf]

@[simp] theorem creditFiring_frame (bk : Bank) (s : State) :
    (creditFiring s bk).time = s.time ∧ (creditFiring s bk).link = s.link ∧
    (creditFiring s bk).queue = s.queue ∧ (creditFiring s bk).volume.k = s.volume.k ∧
    (creditFiring s bk).volume.state = s.volume.state ∧
    (creditFiring s bk).volume.leafCount = s.volume.leafCount ∧ (creditFiring s bk).plan = s.plan ∧
    (creditFiring s bk).motion = s.motion ∧ (creditFiring s bk).lamps = s.lamps ∧
    (creditFiring s bk).dose.banks = s.dose.banks ∧ (creditFiring s bk).dose.aims = s.dose.aims ∧
    (creditFiring s bk).seq = s.seq ∧ (creditFiring s bk).lines = s.lines ∧
    (creditFiring s bk).safe = s.safe ∧ (creditFiring s bk).chargeGood = s.chargeGood ∧
    (creditFiring s bk).pending = s.pending :=
  by unfold creditFiring; (repeat' split) <;> simp

@[simp] theorem guardLamp_frame (t0 : State) (v : Pair Nat) (n : Pair (Option Constraint)) (sd : Side) (s : State) :
    (guardLamp t0 v n s sd).time = s.time ∧ (guardLamp t0 v n s sd).link = s.link ∧
    (guardLamp t0 v n s sd).queue.reserved = s.queue.reserved ∧
    (guardLamp t0 v n s sd).volume = s.volume ∧ (guardLamp t0 v n s sd).leaves = s.leaves ∧
    (guardLamp t0 v n s sd).plan = s.plan ∧ (guardLamp t0 v n s sd).motion = s.motion ∧
    (guardLamp t0 v n s sd).lamps = s.lamps ∧ (guardLamp t0 v n s sd).dose.banks = s.dose.banks ∧
    (guardLamp t0 v n s sd).dose.aims = s.dose.aims ∧ (guardLamp t0 v n s sd).seq = s.seq ∧
    (guardLamp t0 v n s sd).lines.binding = s.lines.binding ∧
    (guardLamp t0 v n s sd).lines.hold = s.lines.hold ∧ (guardLamp t0 v n s sd).safe = s.safe ∧
    (guardLamp t0 v n s sd).chargeGood = s.chargeGood ∧ (guardLamp t0 v n s sd).pending = s.pending :=
  by unfold guardLamp; dsimp only; (repeat' split) <;> simp

@[simp] theorem aimTickStart_frame (s : State) :
    (aimTickStart s).time = s.time ∧ (aimTickStart s).link = s.link ∧
    (aimTickStart s).queue.reserved = s.queue.reserved ∧ (aimTickStart s).volume.k = s.volume.k ∧
    (aimTickStart s).volume.state = s.volume.state ∧
    (aimTickStart s).volume.leafCount = s.volume.leafCount ∧ (aimTickStart s).plan = s.plan ∧
    (aimTickStart s).motion = s.motion ∧ (aimTickStart s).lamps.banks = s.lamps.banks ∧
    (aimTickStart s).lamps.grants = s.lamps.grants ∧
    (aimTickStart s).lamps.interval = s.lamps.interval ∧
    (aimTickStart s).lamps.recipes = s.lamps.recipes ∧ (aimTickStart s).dose.banks = s.dose.banks ∧
    (aimTickStart s).dose.aims = s.dose.aims ∧ (aimTickStart s).seq = s.seq ∧
    (aimTickStart s).lines.binding = s.lines.binding ∧ (aimTickStart s).lines.hold = s.lines.hold ∧
    (aimTickStart s).safe = s.safe ∧ (aimTickStart s).chargeGood = s.chargeGood ∧
    (aimTickStart s).pending = s.pending :=
  by simp [aimTickStart]

end Sys2Proof.Machine
end

