-- ==== Sys2Proof/Laws/Motion.lean ====
section
/-! SUPPORT. Laws of the platen, the hold, and the two power states: what each operation leaves as it
was. -/
namespace Sys2Proof.Machine

@[simp] theorem startLowering_frame (s : State) :
    (startLowering s).time = s.time ∧ (startLowering s).link = s.link ∧
    (startLowering s).queue = s.queue ∧ (startLowering s).volume = s.volume ∧
    (startLowering s).leaves = s.leaves ∧ (startLowering s).plan = s.plan ∧
    (startLowering s).motion.turn = s.motion.turn ∧
    (startLowering s).motion.profile = s.motion.profile ∧ (startLowering s).lamps = s.lamps ∧
    (startLowering s).dose = s.dose ∧ (startLowering s).seq = s.seq ∧
    (startLowering s).lines = s.lines ∧ (startLowering s).safe = s.safe ∧
    (startLowering s).chargeGood = s.chargeGood ∧ (startLowering s).pending = s.pending :=
  by unfold startLowering; split <;> simp

@[simp] theorem followPlaten_frame (s : State) :
    (followPlaten s).time = s.time ∧ (followPlaten s).link = s.link ∧
    (followPlaten s).queue = s.queue ∧ (followPlaten s).volume = s.volume ∧
    (followPlaten s).leaves = s.leaves ∧ (followPlaten s).plan = s.plan ∧
    (followPlaten s).motion.turn = s.motion.turn ∧ (followPlaten s).motion.profile = s.motion.profile ∧
    (followPlaten s).lamps = s.lamps ∧ (followPlaten s).dose = s.dose ∧ (followPlaten s).seq = s.seq ∧
    (followPlaten s).lines = s.lines ∧ (followPlaten s).safe = s.safe ∧
    (followPlaten s).chargeGood = s.chargeGood ∧ (followPlaten s).pending = s.pending :=
  by unfold followPlaten; (repeat' split) <;> simp

@[simp] theorem carryOutDwell_frame (s : State) :
    (carryOutDwell s).time = s.time ∧ (carryOutDwell s).link = s.link ∧
    (carryOutDwell s).queue = s.queue ∧ (carryOutDwell s).volume = s.volume ∧
    (carryOutDwell s).leaves = s.leaves ∧ (carryOutDwell s).plan = s.plan ∧
    (carryOutDwell s).motion.turn = s.motion.turn ∧
    (carryOutDwell s).motion.profile = s.motion.profile ∧ (carryOutDwell s).lamps = s.lamps ∧
    (carryOutDwell s).dose = s.dose ∧ (carryOutDwell s).seq = s.seq ∧
    (carryOutDwell s).lines = s.lines ∧ (carryOutDwell s).safe = s.safe ∧
    (carryOutDwell s).chargeGood = s.chargeGood ∧ (carryOutDwell s).pending = s.pending :=
  by unfold carryOutDwell; (repeat' split) <;> simp

@[simp] theorem holdMotion_frame (s : State) :
    (holdMotion s).time = s.time ∧ (holdMotion s).link = s.link ∧ (holdMotion s).queue = s.queue ∧
    (holdMotion s).volume = s.volume ∧ (holdMotion s).leaves = s.leaves ∧
    (holdMotion s).plan = s.plan ∧ (holdMotion s).motion.profile = s.motion.profile ∧
    (holdMotion s).lamps = s.lamps ∧ (holdMotion s).dose = s.dose ∧ (holdMotion s).seq = s.seq ∧
    (holdMotion s).lines = s.lines ∧ (holdMotion s).safe = s.safe ∧
    (holdMotion s).chargeGood = s.chargeGood ∧ (holdMotion s).pending = s.pending :=
  by unfold holdMotion; (repeat' split) <;> simp

@[simp] theorem releaseMotion_frame (s : State) :
    (releaseMotion s).time = s.time ∧ (releaseMotion s).link = s.link ∧
    (releaseMotion s).queue = s.queue ∧ (releaseMotion s).volume = s.volume ∧
    (releaseMotion s).leaves = s.leaves ∧ (releaseMotion s).plan = s.plan ∧
    (releaseMotion s).motion.turn = s.motion.turn ∧
    (releaseMotion s).motion.profile = s.motion.profile ∧ (releaseMotion s).lamps = s.lamps ∧
    (releaseMotion s).dose = s.dose ∧ (releaseMotion s).seq = s.seq ∧
    (releaseMotion s).lines = s.lines ∧ (releaseMotion s).safe = s.safe ∧
    (releaseMotion s).chargeGood = s.chargeGood ∧ (releaseMotion s).pending = s.pending :=
  by unfold releaseMotion; dsimp only; (repeat' split) <;> simp

@[simp] theorem wake_frame (c : WakeCause) (s : State) :
    (wake s c).time.clock = s.time.clock ∧ (wake s c).link = s.link ∧
    (wake s c).queue.reserved = s.queue.reserved ∧ (wake s c).volume = s.volume ∧
    (wake s c).leaves = s.leaves ∧ (wake s c).plan = s.plan ∧ (wake s c).motion = s.motion ∧
    (wake s c).lamps.grants = s.lamps.grants ∧ (wake s c).lamps.interval = s.lamps.interval ∧
    (wake s c).lamps.recipes = s.lamps.recipes ∧ (wake s c).dose = s.dose ∧ (wake s c).seq = s.seq ∧
    (wake s c).lines.binding = s.lines.binding ∧ (wake s c).lines.hold = s.lines.hold ∧
    (wake s c).safe = s.safe ∧ (wake s c).chargeGood = s.chargeGood ∧ (wake s c).pending = s.pending :=
  by simp [wake]

@[simp] theorem wakeIfIdle_frame (c : WakeCause) (s : State) :
    (wakeIfIdle s c).time.clock = s.time.clock ∧ (wakeIfIdle s c).link = s.link ∧
    (wakeIfIdle s c).queue.reserved = s.queue.reserved ∧ (wakeIfIdle s c).volume = s.volume ∧
    (wakeIfIdle s c).leaves = s.leaves ∧ (wakeIfIdle s c).plan = s.plan ∧
    (wakeIfIdle s c).motion = s.motion ∧ (wakeIfIdle s c).lamps.grants = s.lamps.grants ∧
    (wakeIfIdle s c).lamps.interval = s.lamps.interval ∧
    (wakeIfIdle s c).lamps.recipes = s.lamps.recipes ∧ (wakeIfIdle s c).dose = s.dose ∧
    (wakeIfIdle s c).seq = s.seq ∧ (wakeIfIdle s c).lines.binding = s.lines.binding ∧
    (wakeIfIdle s c).lines.hold = s.lines.hold ∧ (wakeIfIdle s c).safe = s.safe ∧
    (wakeIfIdle s c).chargeGood = s.chargeGood ∧ (wakeIfIdle s c).pending = s.pending :=
  by unfold wakeIfIdle; split <;> simp

/-- A waking event wakes an IDLE part and does nothing to an ACTIVE one. -/
theorem wakeIfIdle_cases (c : WakeCause) (s : State) :
    (s.time.idle = true ∧ wakeIfIdle s c = wake s c) ∨ (s.time.idle = false ∧ wakeIfIdle s c = s) := by
  cases h : s.time.idle <;> simp [wakeIfIdle, h]

/-- After a waking event the part is ACTIVE. -/
@[simp] theorem wakeIfIdle_idle (c : WakeCause) (s : State) : (wakeIfIdle s c).time.idle = false := by
  cases h : s.time.idle <;> simp [wakeIfIdle, h, wake]

@[simp] theorem enterIdle_frame (s : State) :
    (enterIdle s).time.clock = s.time.clock ∧ (enterIdle s).link = s.link ∧
    (enterIdle s).queue.reserved = s.queue.reserved ∧ (enterIdle s).volume = s.volume ∧
    (enterIdle s).leaves = s.leaves ∧ (enterIdle s).plan = s.plan ∧ (enterIdle s).motion = s.motion ∧
    (enterIdle s).lamps.interval = s.lamps.interval ∧ (enterIdle s).lamps.recipes = s.lamps.recipes ∧
    (enterIdle s).dose = s.dose ∧ (enterIdle s).seq = s.seq ∧
    (enterIdle s).lines.binding = s.lines.binding ∧ (enterIdle s).lines.hold = s.lines.hold ∧
    (enterIdle s).safe = s.safe ∧ (enterIdle s).chargeGood = s.chargeGood ∧
    (enterIdle s).pending = s.pending :=
  by simp [enterIdle]

end Sys2Proof.Machine
end

