-- ==== Sys2Proof/Laws/Captures.lean ====
section
/-! SUPPORT. Laws of the capture sequencer: what each operation leaves as it was, and the one way a
capture moves on by itself. -/
namespace Sys2Proof.Machine

@[simp] theorem discardLate_frame (o : Order) (r : List Order) (s : State) :
    (discardLate s o r).time = s.time ∧ (discardLate s o r).link = s.link ∧
    (discardLate s o r).volume = s.volume ∧ (discardLate s o r).leaves = s.leaves ∧
    (discardLate s o r).plan = s.plan ∧ (discardLate s o r).motion = s.motion ∧
    (discardLate s o r).lamps = s.lamps ∧ (discardLate s o r).dose = s.dose ∧
    (discardLate s o r).seq.capture = s.seq.capture ∧ (discardLate s o r).seq.cameras = s.seq.cameras ∧
    (discardLate s o r).lines.binding = s.lines.binding ∧
    (discardLate s o r).lines.hold = s.lines.hold ∧ (discardLate s o r).safe = s.safe ∧
    (discardLate s o r).chargeGood = s.chargeGood ∧ (discardLate s o r).pending = s.pending :=
  by simp [discardLate]

@[simp] theorem enterArming_frame (o : Order) (s : State) :
    (enterArming s o).time.clock = s.time.clock ∧ (enterArming s o).link = s.link ∧
    (enterArming s o).queue.reserved = s.queue.reserved ∧ (enterArming s o).volume.k = s.volume.k ∧
    (enterArming s o).volume.state = s.volume.state ∧
    (enterArming s o).volume.leafCount = s.volume.leafCount ∧ (enterArming s o).leaves = s.leaves ∧
    (enterArming s o).plan = s.plan ∧ (enterArming s o).motion = s.motion ∧
    (enterArming s o).lamps.grants = s.lamps.grants ∧
    (enterArming s o).lamps.interval = s.lamps.interval ∧
    (enterArming s o).lamps.recipes = s.lamps.recipes ∧ (enterArming s o).dose = s.dose ∧
    (enterArming s o).seq.orders = s.seq.orders ∧ (enterArming s o).seq.cameras = s.seq.cameras ∧
    (enterArming s o).lines.binding = s.lines.binding ∧ (enterArming s o).lines.hold = s.lines.hold ∧
    (enterArming s o).safe = s.safe ∧ (enterArming s o).chargeGood = s.chargeGood ∧
    (enterArming s o).pending = s.pending :=
  by unfold enterArming; dsimp only; (repeat' split) <;> simp

@[simp] theorem startPulse_frame (c : Capture) (sd : Side) (s : State) :
    (startPulse c s sd).time = s.time ∧ (startPulse c s sd).link = s.link ∧
    (startPulse c s sd).queue = s.queue ∧ (startPulse c s sd).volume = s.volume ∧
    (startPulse c s sd).leaves = s.leaves ∧ (startPulse c s sd).plan = s.plan ∧
    (startPulse c s sd).motion = s.motion ∧ (startPulse c s sd).lamps = s.lamps ∧
    (startPulse c s sd).dose = s.dose ∧ (startPulse c s sd).seq.capture = s.seq.capture ∧
    (startPulse c s sd).seq.orders = s.seq.orders ∧ (startPulse c s sd).seq.cameras = s.seq.cameras ∧
    (startPulse c s sd).lines.binding = s.lines.binding ∧
    (startPulse c s sd).lines.hold = s.lines.hold ∧ (startPulse c s sd).safe = s.safe ∧
    (startPulse c s sd).chargeGood = s.chargeGood ∧ (startPulse c s sd).pending = s.pending :=
  by unfold startPulse; split <;> simp

@[simp] theorem enterTriggered_frame (c : Capture) (p : Prediction) (s : State) :
    (enterTriggered s c p).time.clock = s.time.clock ∧ (enterTriggered s c p).time.idle = s.time.idle ∧
    (enterTriggered s c p).link = s.link ∧ (enterTriggered s c p).queue = s.queue ∧
    (enterTriggered s c p).volume = s.volume ∧ (enterTriggered s c p).leaves = s.leaves ∧
    (enterTriggered s c p).plan = s.plan ∧ (enterTriggered s c p).motion = s.motion ∧
    (enterTriggered s c p).lamps.banks = s.lamps.banks ∧
    (enterTriggered s c p).lamps.aims = s.lamps.aims ∧
    (enterTriggered s c p).lamps.grants = s.lamps.grants ∧
    (enterTriggered s c p).lamps.recipes = s.lamps.recipes ∧
    (enterTriggered s c p).dose.banks = s.dose.banks ∧ (enterTriggered s c p).dose.aims = s.dose.aims ∧
    (enterTriggered s c p).seq.orders = s.seq.orders ∧
    (enterTriggered s c p).seq.cameras = s.seq.cameras ∧
    (enterTriggered s c p).lines.binding = s.lines.binding ∧
    (enterTriggered s c p).lines.hold = s.lines.hold ∧ (enterTriggered s c p).safe = s.safe ∧
    (enterTriggered s c p).chargeGood = s.chargeGood ∧ (enterTriggered s c p).pending = s.pending :=
  by simp [enterTriggered]

@[simp] theorem armTest_frame (c : Capture) (s : State) :
    (armTest s c).time.clock = s.time.clock ∧ (armTest s c).time.idle = s.time.idle ∧
    (armTest s c).link = s.link ∧ (armTest s c).queue = s.queue ∧ (armTest s c).volume = s.volume ∧
    (armTest s c).leaves = s.leaves ∧ (armTest s c).plan = s.plan ∧ (armTest s c).motion = s.motion ∧
    (armTest s c).lamps.banks = s.lamps.banks ∧ (armTest s c).lamps.aims = s.lamps.aims ∧
    (armTest s c).lamps.grants = s.lamps.grants ∧ (armTest s c).lamps.recipes = s.lamps.recipes ∧
    (armTest s c).dose.banks = s.dose.banks ∧ (armTest s c).dose.aims = s.dose.aims ∧
    (armTest s c).seq.orders = s.seq.orders ∧ (armTest s c).seq.cameras = s.seq.cameras ∧
    (armTest s c).lines.binding = s.lines.binding ∧ (armTest s c).lines.hold = s.lines.hold ∧
    (armTest s c).safe = s.safe ∧ (armTest s c).chargeGood = s.chargeGood ∧
    (armTest s c).pending = s.pending :=
  by unfold armTest; (repeat' split) <;> simp

@[simp] theorem confirmSide_frame (c : Capture) (sd : Side) (s : State) :
    (confirmSide s c sd).time = s.time ∧ (confirmSide s c sd).link = s.link ∧
    (confirmSide s c sd).queue = s.queue ∧ (confirmSide s c sd).volume.k = s.volume.k ∧
    (confirmSide s c sd).volume.state = s.volume.state ∧
    (confirmSide s c sd).volume.leafCount = s.volume.leafCount ∧ (confirmSide s c sd).plan = s.plan ∧
    (confirmSide s c sd).motion = s.motion ∧ (confirmSide s c sd).lamps = s.lamps ∧
    (confirmSide s c sd).dose = s.dose ∧ (confirmSide s c sd).seq.orders = s.seq.orders ∧
    (confirmSide s c sd).seq.cameras = s.seq.cameras ∧ (confirmSide s c sd).lines = s.lines ∧
    (confirmSide s c sd).safe = s.safe ∧ (confirmSide s c sd).chargeGood = s.chargeGood ∧
    (confirmSide s c sd).pending = s.pending :=
  by simp [confirmSide]

@[simp] theorem withdrawHood_frame (n : Nat) (bk : Bank) (s : State) :
    (withdrawHood n s bk).time = s.time ∧ (withdrawHood n s bk).link = s.link ∧
    (withdrawHood n s bk).queue = s.queue ∧ (withdrawHood n s bk).volume = s.volume ∧
    (withdrawHood n s bk).leaves = s.leaves ∧ (withdrawHood n s bk).plan = s.plan ∧
    (withdrawHood n s bk).motion = s.motion ∧ (withdrawHood n s bk).lamps.aims = s.lamps.aims ∧
    (withdrawHood n s bk).lamps.grants = s.lamps.grants ∧
    (withdrawHood n s bk).lamps.interval = s.lamps.interval ∧
    (withdrawHood n s bk).lamps.recipes = s.lamps.recipes ∧ (withdrawHood n s bk).dose = s.dose ∧
    (withdrawHood n s bk).seq = s.seq ∧ (withdrawHood n s bk).lines = s.lines ∧
    (withdrawHood n s bk).safe = s.safe ∧ (withdrawHood n s bk).chargeGood = s.chargeGood ∧
    (withdrawHood n s bk).pending = s.pending :=
  by simp [withdrawHood]

@[simp] theorem foldl_withdrawHood_frame (n : Nat) (l : List Bank) (s : State) :
    (l.foldl (withdrawHood n) s).time = s.time ∧ (l.foldl (withdrawHood n) s).link = s.link ∧
    (l.foldl (withdrawHood n) s).queue = s.queue ∧ (l.foldl (withdrawHood n) s).volume = s.volume ∧
    (l.foldl (withdrawHood n) s).leaves = s.leaves ∧ (l.foldl (withdrawHood n) s).plan = s.plan ∧
    (l.foldl (withdrawHood n) s).motion = s.motion ∧
    (l.foldl (withdrawHood n) s).lamps.aims = s.lamps.aims ∧
    (l.foldl (withdrawHood n) s).lamps.grants = s.lamps.grants ∧
    (l.foldl (withdrawHood n) s).lamps.interval = s.lamps.interval ∧
    (l.foldl (withdrawHood n) s).lamps.recipes = s.lamps.recipes ∧
    (l.foldl (withdrawHood n) s).dose = s.dose ∧ (l.foldl (withdrawHood n) s).seq = s.seq ∧
    (l.foldl (withdrawHood n) s).lines = s.lines ∧ (l.foldl (withdrawHood n) s).safe = s.safe ∧
    (l.foldl (withdrawHood n) s).chargeGood = s.chargeGood ∧
    (l.foldl (withdrawHood n) s).pending = s.pending :=
  by
  induction l generalizing s with
  | nil => simp
  | cons x l ih => simp [ih]

@[simp] theorem endCapture_frame (c : Capture) (s : State) :
    (endCapture s c).time.clock = s.time.clock ∧ (endCapture s c).time.idle = s.time.idle ∧
    (endCapture s c).link = s.link ∧ (endCapture s c).volume.k = s.volume.k ∧
    (endCapture s c).volume.state = s.volume.state ∧
    (endCapture s c).volume.leafCount = s.volume.leafCount ∧ (endCapture s c).leaves = s.leaves ∧
    (endCapture s c).plan = s.plan ∧ (endCapture s c).motion.turn = s.motion.turn ∧
    (endCapture s c).motion.profile = s.motion.profile ∧ (endCapture s c).lamps.aims = s.lamps.aims ∧
    (endCapture s c).lamps.grants = s.lamps.grants ∧
    (endCapture s c).lamps.interval = s.lamps.interval ∧
    (endCapture s c).lamps.recipes = s.lamps.recipes ∧ (endCapture s c).dose.banks = s.dose.banks ∧
    (endCapture s c).dose.aims = s.dose.aims ∧ (endCapture s c).seq.orders = s.seq.orders ∧
    (endCapture s c).seq.cameras = s.seq.cameras ∧ (endCapture s c).lines.binding = s.lines.binding ∧
    (endCapture s c).lines.hold = s.lines.hold ∧ (endCapture s c).safe = s.safe ∧
    (endCapture s c).chargeGood = s.chargeGood ∧ (endCapture s c).pending = s.pending :=
  by simp [endCapture]

/-- The sequencer moves on by itself in one of four ways: it ends the capture in flight, tests it, discards
the head order as late, or arms it. -/
theorem advanceOnce_cases {s t : State} (h : advanceOnce s = some t) :
    (∃ c, s.seq.capture = some c ∧ captureDone s c = true ∧ t = endCapture s c) ∨
    (∃ c, s.seq.capture = some c ∧ captureDone s c = false ∧ c.t0 = none ∧ armingMet s c = true ∧
      t = armTest s c) ∨
    (∃ o rest, s.seq.capture = none ∧ s.seq.orders = o :: rest ∧ headMayGo s o = true ∧
      isLate s o = true ∧ t = discardLate s o rest) ∨
    (∃ o rest, s.seq.capture = none ∧ s.seq.orders = o :: rest ∧ headMayGo s o = true ∧
      isLate s o = false ∧ t = enterArming { s with seq.orders := rest } o) := by
  unfold advanceOnce at h
  split at h
  · rename_i c hc
    split at h
    · rename_i hd; exact .inl ⟨c, hc, hd, (Option.some.inj h).symm⟩
    · rename_i hd
      split at h
      · rename_i ha
        rw [Bool.and_eq_true, Option.isNone_iff_eq_none] at ha
        exact .inr (.inl ⟨c, hc, by simpa using hd, ha.1, ha.2, (Option.some.inj h).symm⟩)
      · contradiction
  · rename_i hc
    split at h
    · contradiction
    · rename_i o rest ho
      split at h
      · rename_i hg
        split at h
        · rename_i hl; exact .inr (.inr (.inl ⟨o, rest, hc, ho, hg, hl, (Option.some.inj h).symm⟩))
        · rename_i hl
          exact .inr (.inr (.inr ⟨o, rest, hc, ho, hg, by simpa using hl, (Option.some.inj h).symm⟩))
      · contradiction

@[simp] theorem endInterval_frame (s : State) :
    (endInterval s).time = s.time ∧ (endInterval s).link = s.link ∧ (endInterval s).queue = s.queue ∧
    (endInterval s).volume = s.volume ∧ (endInterval s).leaves = s.leaves ∧
    (endInterval s).plan = s.plan ∧ (endInterval s).motion = s.motion ∧
    (endInterval s).lamps.aims = s.lamps.aims ∧ (endInterval s).lamps.grants = s.lamps.grants ∧
    (endInterval s).lamps.recipes = s.lamps.recipes ∧ (endInterval s).dose = s.dose ∧
    (endInterval s).seq = s.seq ∧ (endInterval s).lines = s.lines ∧ (endInterval s).safe = s.safe ∧
    (endInterval s).chargeGood = s.chargeGood ∧ (endInterval s).pending = s.pending :=
  by unfold endInterval; (repeat' split) <;> simp

/-- The lighting interval ends, or nothing happens. -/
theorem endInterval_cases (s : State) :
    endInterval s = s ∨
    ∃ c, s.lamps.interval = some c ∧ intervalOver s c = true ∧ endInterval s =
      forBanks topUp
        (if s.lamps.closePending then
          closeBankHoods { s with lamps.interval := none, lamps.closePending := false }
        else { s with lamps.interval := none, lamps.closePending := false }) := by
  unfold endInterval
  split
  · exact .inl rfl
  · rename_i c hc
    split
    · rename_i h; exact .inr ⟨c, hc, h, rfl⟩
    · exact .inl rfl

/-- What one step of the sequencer keeps. -/
theorem advanceOnce_frame {s t : State} (h : advanceOnce s = some t) :
    t.time.clock = s.time.clock ∧
    t.link = s.link ∧
    t.volume.k = s.volume.k ∧
    t.volume.state = s.volume.state ∧
    t.volume.leafCount = s.volume.leafCount ∧
    t.leaves = s.leaves ∧
    t.plan = s.plan ∧
    t.motion.turn = s.motion.turn ∧
    t.motion.profile = s.motion.profile ∧
    t.lamps.grants = s.lamps.grants ∧
    t.lamps.recipes = s.lamps.recipes ∧
    t.dose.banks = s.dose.banks ∧
    t.dose.aims = s.dose.aims ∧
    t.seq.cameras = s.seq.cameras ∧
    t.lines.binding = s.lines.binding ∧
    t.lines.hold = s.lines.hold ∧
    t.safe = s.safe ∧
    t.chargeGood = s.chargeGood ∧
    t.pending = s.pending := by
  unfold advanceOnce at h
  repeat' split at h
  all_goals first | contradiction | (obtain rfl := Option.some.inj h; simp)
@[simp] theorem advance_frame (n : Nat) (s : State) :
    (advance n s).time.clock = s.time.clock ∧ (advance n s).link = s.link ∧
    (advance n s).volume.k = s.volume.k ∧ (advance n s).volume.state = s.volume.state ∧
    (advance n s).volume.leafCount = s.volume.leafCount ∧ (advance n s).leaves = s.leaves ∧
    (advance n s).plan = s.plan ∧ (advance n s).motion.turn = s.motion.turn ∧
    (advance n s).motion.profile = s.motion.profile ∧ (advance n s).lamps.grants = s.lamps.grants ∧
    (advance n s).lamps.recipes = s.lamps.recipes ∧ (advance n s).dose.banks = s.dose.banks ∧
    (advance n s).dose.aims = s.dose.aims ∧ (advance n s).seq.cameras = s.seq.cameras ∧
    (advance n s).lines.binding = s.lines.binding ∧ (advance n s).lines.hold = s.lines.hold ∧
    (advance n s).safe = s.safe ∧ (advance n s).chargeGood = s.chargeGood ∧
    (advance n s).pending = s.pending :=
  by
  induction n generalizing s with
  | zero => simp [advance]
  | succ n ih =>
    unfold advance
    split
    · simp
    · rename_i h; have := advanceOnce_frame h; simp [ih, this]

@[simp] theorem settle_frame (s : State) :
    (settle s).time.clock = s.time.clock ∧ (settle s).link = s.link ∧
    (settle s).volume.k = s.volume.k ∧ (settle s).volume.state = s.volume.state ∧
    (settle s).volume.leafCount = s.volume.leafCount ∧ (settle s).leaves = s.leaves ∧
    (settle s).plan = s.plan ∧ (settle s).motion.turn = s.motion.turn ∧
    (settle s).motion.profile = s.motion.profile ∧ (settle s).lamps.grants = s.lamps.grants ∧
    (settle s).lamps.recipes = s.lamps.recipes ∧ (settle s).dose.banks = s.dose.banks ∧
    (settle s).dose.aims = s.dose.aims ∧ (settle s).seq.cameras = s.seq.cameras ∧
    (settle s).lines.binding = s.lines.binding ∧ (settle s).lines.hold = s.lines.hold ∧
    (settle s).safe = s.safe ∧ (settle s).chargeGood = s.chargeGood ∧ (settle s).pending = s.pending :=
  by simp [settle]

end Sys2Proof.Machine
end

