-- ==== Sys2Proof/Laws/Faults.lean ====
section
/-! SUPPORT. Laws of the safe state and the turn cycle: what each operation leaves as it was, and what a
fault and a stage can do. -/
namespace Sys2Proof.Machine

@[simp] theorem endTurn_frame (r : TurnReport) (s : State) :
    (endTurn s r).time.clock = s.time.clock ∧ (endTurn s r).time.idle = s.time.idle ∧
    (endTurn s r).link = s.link ∧ (endTurn s r).volume = s.volume ∧ (endTurn s r).leaves = s.leaves ∧
    (endTurn s r).plan = s.plan ∧ (endTurn s r).motion.profile = s.motion.profile ∧
    (endTurn s r).lamps = s.lamps ∧ (endTurn s r).dose = s.dose ∧ (endTurn s r).seq = s.seq ∧
    (endTurn s r).lines.binding = s.lines.binding ∧ (endTurn s r).lines.hold = s.lines.hold ∧
    (endTurn s r).safe = s.safe ∧ (endTurn s r).chargeGood = s.chargeGood ∧
    (endTurn s r).pending = s.pending :=
  by simp [endTurn]

@[simp] theorem abandonSafe_frame (k : FaultKind) (s : State) :
    (abandonSafe s k).time.clock = s.time.clock ∧ (abandonSafe s k).time.idle = s.time.idle ∧
    (abandonSafe s k).link = s.link ∧ (abandonSafe s k).volume.k = s.volume.k ∧
    (abandonSafe s k).volume.state = s.volume.state ∧
    (abandonSafe s k).volume.leafCount = s.volume.leafCount ∧ (abandonSafe s k).leaves = s.leaves ∧
    (abandonSafe s k).plan = s.plan ∧ (abandonSafe s k).motion.profile = s.motion.profile ∧
    (abandonSafe s k).lamps = s.lamps ∧ (abandonSafe s k).dose = s.dose ∧
    (abandonSafe s k).seq = s.seq ∧ (abandonSafe s k).lines.binding = s.lines.binding ∧
    (abandonSafe s k).lines.hold = s.lines.hold ∧ (abandonSafe s k).safe = s.safe ∧
    (abandonSafe s k).chargeGood = s.chargeGood ∧ (abandonSafe s k).pending = s.pending :=
  by unfold abandonSafe; split <;> simp

@[simp] theorem safeMotion_frame (k : FaultKind) (s : State) :
    (safeMotion s k).time.clock = s.time.clock ∧ (safeMotion s k).time.idle = s.time.idle ∧
    (safeMotion s k).link = s.link ∧ (safeMotion s k).volume.k = s.volume.k ∧
    (safeMotion s k).volume.state = s.volume.state ∧
    (safeMotion s k).volume.leafCount = s.volume.leafCount ∧ (safeMotion s k).leaves = s.leaves ∧
    (safeMotion s k).plan = s.plan ∧ (safeMotion s k).motion.profile = s.motion.profile ∧
    (safeMotion s k).lamps = s.lamps ∧ (safeMotion s k).dose = s.dose ∧ (safeMotion s k).seq = s.seq ∧
    (safeMotion s k).lines.binding = s.lines.binding ∧ (safeMotion s k).lines.hold = s.lines.hold ∧
    (safeMotion s k).safe = s.safe ∧ (safeMotion s k).chargeGood = s.chargeGood ∧
    (safeMotion s k).pending = s.pending :=
  by unfold safeMotion; dsimp only; (repeat' split) <;> simp

@[simp] theorem flushOrder_frame (o : Order) (s : State) :
    (flushOrder s o).time = s.time ∧ (flushOrder s o).link = s.link ∧
    (flushOrder s o).volume = s.volume ∧ (flushOrder s o).leaves = s.leaves ∧
    (flushOrder s o).plan = s.plan ∧ (flushOrder s o).motion = s.motion ∧
    (flushOrder s o).lamps = s.lamps ∧ (flushOrder s o).dose = s.dose ∧ (flushOrder s o).seq = s.seq ∧
    (flushOrder s o).lines.binding = s.lines.binding ∧ (flushOrder s o).lines.hold = s.lines.hold ∧
    (flushOrder s o).safe = s.safe ∧ (flushOrder s o).chargeGood = s.chargeGood ∧
    (flushOrder s o).pending = s.pending :=
  by simp [flushOrder]

@[simp] theorem foldl_flushOrder_frame (l : List Order) (s : State) :
    (l.foldl flushOrder s).time = s.time ∧ (l.foldl flushOrder s).link = s.link ∧
    (l.foldl flushOrder s).volume = s.volume ∧ (l.foldl flushOrder s).leaves = s.leaves ∧
    (l.foldl flushOrder s).plan = s.plan ∧ (l.foldl flushOrder s).motion = s.motion ∧
    (l.foldl flushOrder s).lamps = s.lamps ∧ (l.foldl flushOrder s).dose = s.dose ∧
    (l.foldl flushOrder s).seq = s.seq ∧ (l.foldl flushOrder s).lines.binding = s.lines.binding ∧
    (l.foldl flushOrder s).lines.hold = s.lines.hold ∧ (l.foldl flushOrder s).safe = s.safe ∧
    (l.foldl flushOrder s).chargeGood = s.chargeGood ∧ (l.foldl flushOrder s).pending = s.pending :=
  by
  induction l generalizing s with
  | nil => simp
  | cons x l ih => simp [ih]

@[simp] theorem safeSequencer_frame (s : State) :
    (safeSequencer s).time.clock = s.time.clock ∧ (safeSequencer s).time.idle = s.time.idle ∧
    (safeSequencer s).link = s.link ∧ (safeSequencer s).volume.k = s.volume.k ∧
    (safeSequencer s).volume.state = s.volume.state ∧
    (safeSequencer s).volume.leafCount = s.volume.leafCount ∧ (safeSequencer s).leaves = s.leaves ∧
    (safeSequencer s).plan = s.plan ∧ (safeSequencer s).motion.turn = s.motion.turn ∧
    (safeSequencer s).motion.profile = s.motion.profile ∧ (safeSequencer s).lamps.aims = s.lamps.aims ∧
    (safeSequencer s).lamps.grants = s.lamps.grants ∧
    (safeSequencer s).lamps.interval = s.lamps.interval ∧
    (safeSequencer s).lamps.recipes = s.lamps.recipes ∧ (safeSequencer s).dose.banks = s.dose.banks ∧
    (safeSequencer s).dose.aims = s.dose.aims ∧ (safeSequencer s).seq.cameras = s.seq.cameras ∧
    (safeSequencer s).lines.binding = s.lines.binding ∧ (safeSequencer s).lines.hold = s.lines.hold ∧
    (safeSequencer s).safe = s.safe ∧ (safeSequencer s).chargeGood = s.chargeGood ∧
    (safeSequencer s).pending = s.pending :=
  by unfold safeSequencer; dsimp only; (repeat' split) <;> simp

@[simp] theorem safeEntry_frame (k : FaultKind) (s : State) :
    (safeEntry s k).time.clock = s.time.clock ∧ (safeEntry s k).time.idle = s.time.idle ∧
    (safeEntry s k).link = s.link ∧ (safeEntry s k).volume.k = s.volume.k ∧
    (safeEntry s k).volume.state = s.volume.state ∧
    (safeEntry s k).volume.leafCount = s.volume.leafCount ∧ (safeEntry s k).leaves = s.leaves ∧
    (safeEntry s k).plan = s.plan ∧ (safeEntry s k).motion.profile = s.motion.profile ∧
    (safeEntry s k).lamps.aims = s.lamps.aims ∧ (safeEntry s k).lamps.grants = s.lamps.grants ∧
    (safeEntry s k).lamps.interval = s.lamps.interval ∧
    (safeEntry s k).lamps.recipes = s.lamps.recipes ∧ (safeEntry s k).dose.banks = s.dose.banks ∧
    (safeEntry s k).dose.aims = s.dose.aims ∧ (safeEntry s k).seq.cameras = s.seq.cameras ∧
    (safeEntry s k).lines.binding = s.lines.binding ∧ (safeEntry s k).lines.hold = s.lines.hold ∧
    (safeEntry s k).safe = s.safe ∧ (safeEntry s k).chargeGood = s.chargeGood ∧
    (safeEntry s k).pending = s.pending :=
  by simp [safeEntry]

@[simp] theorem offerFirstFault_frame (f : FaultReport) (s : State) :
    (offerFirstFault s f).time = s.time ∧ (offerFirstFault s f).link = s.link ∧
    (offerFirstFault s f).queue.reserved = s.queue.reserved ∧ (offerFirstFault s f).volume = s.volume ∧
    (offerFirstFault s f).leaves = s.leaves ∧ (offerFirstFault s f).plan = s.plan ∧
    (offerFirstFault s f).motion = s.motion ∧ (offerFirstFault s f).lamps = s.lamps ∧
    (offerFirstFault s f).dose = s.dose ∧ (offerFirstFault s f).seq = s.seq ∧
    (offerFirstFault s f).lines.binding = s.lines.binding ∧
    (offerFirstFault s f).lines.hold = s.lines.hold ∧ (offerFirstFault s f).safe.flag = s.safe.flag ∧
    (offerFirstFault s f).chargeGood = s.chargeGood ∧ (offerFirstFault s f).pending = s.pending :=
  by unfold offerFirstFault; split <;> simp

@[simp] theorem raiseFault_frame (k : FaultKind) (bk : Option Bank) (s : State) :
    (raiseFault s k bk).time.clock = s.time.clock ∧ (raiseFault s k bk).time.idle = s.time.idle ∧
    (raiseFault s k bk).link = s.link ∧ (raiseFault s k bk).volume.k = s.volume.k ∧
    (raiseFault s k bk).volume.state = s.volume.state ∧
    (raiseFault s k bk).volume.leafCount = s.volume.leafCount ∧ (raiseFault s k bk).leaves = s.leaves ∧
    (raiseFault s k bk).plan = s.plan ∧ (raiseFault s k bk).motion.profile = s.motion.profile ∧
    (raiseFault s k bk).lamps.aims = s.lamps.aims ∧ (raiseFault s k bk).lamps.grants = s.lamps.grants ∧
    (raiseFault s k bk).lamps.interval = s.lamps.interval ∧
    (raiseFault s k bk).lamps.recipes = s.lamps.recipes ∧
    (raiseFault s k bk).dose.banks = s.dose.banks ∧ (raiseFault s k bk).dose.aims = s.dose.aims ∧
    (raiseFault s k bk).seq.cameras = s.seq.cameras ∧
    (raiseFault s k bk).lines.binding = s.lines.binding ∧
    (raiseFault s k bk).lines.hold = s.lines.hold ∧ (raiseFault s k bk).chargeGood = s.chargeGood ∧
    (raiseFault s k bk).pending = s.pending :=
  by unfold raiseFault; split <;> simp

/-- A fault in the safe state is recorded and reported; any other enters the safe state. -/
theorem raiseFault_cases (k : FaultKind) (bk : Option Bank) (s : State) :
    (s.safe.flag = true ∧ raiseFault s k bk =
      offerMajor (recordFault s (faultRecord s k bk)) (.fault (faultReport s (faultRecord s k bk)))) ∨
    (s.safe.flag = false ∧ raiseFault s k bk =
      safeEntry
        (offerFirstFault
          { recordFault s (faultRecord s k bk) with
            safe.flag := true, safe.episodeStart := some (now s) }
          (faultReport s (faultRecord s k bk))) k) := by
  cases h : s.safe.flag <;> simp [raiseFault, h]

@[simp] theorem setStage_frame (g : Stage) (d : Option Nat) (s : State) :
    (setStage s g d).time.clock = s.time.clock ∧ (setStage s g d).time.idle = s.time.idle ∧
    (setStage s g d).link = s.link ∧ (setStage s g d).queue = s.queue ∧
    (setStage s g d).volume = s.volume ∧ (setStage s g d).leaves = s.leaves ∧
    (setStage s g d).plan = s.plan ∧ (setStage s g d).motion.profile = s.motion.profile ∧
    (setStage s g d).lamps = s.lamps ∧ (setStage s g d).dose = s.dose ∧ (setStage s g d).seq = s.seq ∧
    (setStage s g d).lines = s.lines ∧ (setStage s g d).safe = s.safe ∧
    (setStage s g d).chargeGood = s.chargeGood ∧ (setStage s g d).pending = s.pending :=
  by simp [setStage]

@[simp] theorem startGrip_frame (s : State) :
    (startGrip s).time = s.time ∧ (startGrip s).link = s.link ∧ (startGrip s).queue = s.queue ∧
    (startGrip s).volume = s.volume ∧ (startGrip s).leaves = s.leaves ∧ (startGrip s).plan = s.plan ∧
    (startGrip s).motion.profile = s.motion.profile ∧ (startGrip s).lamps = s.lamps ∧
    (startGrip s).dose = s.dose ∧ (startGrip s).seq = s.seq ∧ (startGrip s).lines = s.lines ∧
    (startGrip s).safe = s.safe ∧ (startGrip s).chargeGood = s.chargeGood ∧
    (startGrip s).pending = s.pending :=
  by simp [startGrip]

@[simp] theorem startStage_frame (g : Stage) (s : State) :
    (startStage s g).time.clock = s.time.clock ∧ (startStage s g).time.idle = s.time.idle ∧
    (startStage s g).link = s.link ∧ (startStage s g).queue = s.queue ∧
    (startStage s g).volume.k = s.volume.k ∧ (startStage s g).volume.state = s.volume.state ∧
    (startStage s g).volume.leafCount = s.volume.leafCount ∧ (startStage s g).leaves = s.leaves ∧
    (startStage s g).plan = s.plan ∧ (startStage s g).motion.profile = s.motion.profile ∧
    (startStage s g).lamps = s.lamps ∧ (startStage s g).dose = s.dose ∧ (startStage s g).seq = s.seq ∧
    (startStage s g).lines = s.lines ∧ (startStage s g).safe = s.safe ∧
    (startStage s g).chargeGood = s.chargeGood ∧ (startStage s g).pending = s.pending :=
  by cases g <;> (simp only [startStage]; (repeat' split) <;> simp)

@[simp] theorem doublePick_frame (t : Turn) (s : State) :
    (doublePick s t).time.clock = s.time.clock ∧ (doublePick s t).time.idle = s.time.idle ∧
    (doublePick s t).link = s.link ∧ (doublePick s t).volume.k = s.volume.k ∧
    (doublePick s t).volume.state = s.volume.state ∧
    (doublePick s t).volume.leafCount = s.volume.leafCount ∧ (doublePick s t).leaves = s.leaves ∧
    (doublePick s t).plan = s.plan ∧ (doublePick s t).motion.profile = s.motion.profile ∧
    (doublePick s t).lamps.aims = s.lamps.aims ∧ (doublePick s t).lamps.grants = s.lamps.grants ∧
    (doublePick s t).lamps.interval = s.lamps.interval ∧
    (doublePick s t).lamps.recipes = s.lamps.recipes ∧ (doublePick s t).dose.banks = s.dose.banks ∧
    (doublePick s t).dose.aims = s.dose.aims ∧ (doublePick s t).seq.cameras = s.seq.cameras ∧
    (doublePick s t).lines.binding = s.lines.binding ∧ (doublePick s t).lines.hold = s.lines.hold ∧
    (doublePick s t).chargeGood = s.chargeGood ∧ (doublePick s t).pending = s.pending :=
  by unfold doublePick; split <;> simp

@[simp] theorem returnToAir_frame (s : State) :
    (returnToAir s).time.clock = s.time.clock ∧ (returnToAir s).time.idle = s.time.idle ∧
    (returnToAir s).link = s.link ∧ (returnToAir s).queue = s.queue ∧
    (returnToAir s).volume.k = s.volume.k ∧ (returnToAir s).volume.state = s.volume.state ∧
    (returnToAir s).volume.leafCount = s.volume.leafCount ∧ (returnToAir s).leaves = s.leaves ∧
    (returnToAir s).plan = s.plan ∧ (returnToAir s).motion.profile = s.motion.profile ∧
    (returnToAir s).lamps = s.lamps ∧ (returnToAir s).dose = s.dose ∧ (returnToAir s).seq = s.seq ∧
    (returnToAir s).lines = s.lines ∧ (returnToAir s).safe = s.safe ∧
    (returnToAir s).chargeGood = s.chargeGood ∧ (returnToAir s).pending = s.pending :=
  by simp [returnToAir]

@[simp] theorem turnDone_frame (t : Turn) (s : State) :
    (turnDone s t).time.clock = s.time.clock ∧ (turnDone s t).time.idle = s.time.idle ∧
    (turnDone s t).link = s.link ∧ (turnDone s t).volume.k = s.volume.k ∧
    (turnDone s t).volume.state = s.volume.state ∧
    (turnDone s t).volume.leafCount = s.volume.leafCount ∧ (turnDone s t).leaves = s.leaves ∧
    (turnDone s t).plan = s.plan ∧ (turnDone s t).motion.profile = s.motion.profile ∧
    (turnDone s t).lamps = s.lamps ∧ (turnDone s t).dose = s.dose ∧ (turnDone s t).seq = s.seq ∧
    (turnDone s t).lines.binding = s.lines.binding ∧ (turnDone s t).lines.hold = s.lines.hold ∧
    (turnDone s t).safe = s.safe ∧ (turnDone s t).chargeGood = s.chargeGood ∧
    (turnDone s t).pending = s.pending :=
  by simp [turnDone]

/-- What the end of a stage keeps. -/
theorem turnStep_frame {s t : State} {x : Turn} (h : turnStep s x = some t) :
    t.time.clock = s.time.clock ∧
    t.time.idle = s.time.idle ∧
    t.link = s.link ∧
    t.volume.state = s.volume.state ∧
    t.volume.leafCount = s.volume.leafCount ∧
    t.plan = s.plan ∧
    t.motion.profile = s.motion.profile ∧
    t.lamps.aims = s.lamps.aims ∧
    t.lamps.grants = s.lamps.grants ∧
    t.lamps.interval = s.lamps.interval ∧
    t.lamps.recipes = s.lamps.recipes ∧
    t.dose.banks = s.dose.banks ∧
    t.dose.aims = s.dose.aims ∧
    t.seq.cameras = s.seq.cameras ∧
    t.lines.binding = s.lines.binding ∧
    t.lines.hold = s.lines.hold ∧
    t.chargeGood = s.chargeGood ∧
    t.pending = s.pending := by
  unfold turnStep at h
  repeat' split at h
  all_goals first | contradiction | (obtain rfl := Option.some.inj h; simp)
@[simp] theorem runTurn_frame (n : Nat) (s : State) :
    (runTurn n s).time.clock = s.time.clock ∧ (runTurn n s).time.idle = s.time.idle ∧
    (runTurn n s).link = s.link ∧ (runTurn n s).volume.state = s.volume.state ∧
    (runTurn n s).volume.leafCount = s.volume.leafCount ∧ (runTurn n s).plan = s.plan ∧
    (runTurn n s).motion.profile = s.motion.profile ∧ (runTurn n s).lamps.aims = s.lamps.aims ∧
    (runTurn n s).lamps.grants = s.lamps.grants ∧ (runTurn n s).lamps.interval = s.lamps.interval ∧
    (runTurn n s).lamps.recipes = s.lamps.recipes ∧ (runTurn n s).dose.banks = s.dose.banks ∧
    (runTurn n s).dose.aims = s.dose.aims ∧ (runTurn n s).seq.cameras = s.seq.cameras ∧
    (runTurn n s).lines.binding = s.lines.binding ∧ (runTurn n s).lines.hold = s.lines.hold ∧
    (runTurn n s).chargeGood = s.chargeGood ∧ (runTurn n s).pending = s.pending :=
  by
  induction n generalizing s with
  | zero => simp [runTurn]
  | succ n ih =>
    unfold runTurn
    split
    · simp
    · split
      · simp
      · rename_i h; have := turnStep_frame h; simp [ih, this]

@[simp] theorem runMotion_frame (s : State) :
    (runMotion s).time.clock = s.time.clock ∧ (runMotion s).time.idle = s.time.idle ∧
    (runMotion s).link = s.link ∧ (runMotion s).volume.state = s.volume.state ∧
    (runMotion s).volume.leafCount = s.volume.leafCount ∧ (runMotion s).plan = s.plan ∧
    (runMotion s).motion.profile = s.motion.profile ∧ (runMotion s).lamps.aims = s.lamps.aims ∧
    (runMotion s).lamps.grants = s.lamps.grants ∧ (runMotion s).lamps.interval = s.lamps.interval ∧
    (runMotion s).lamps.recipes = s.lamps.recipes ∧ (runMotion s).dose.banks = s.dose.banks ∧
    (runMotion s).dose.aims = s.dose.aims ∧ (runMotion s).seq.cameras = s.seq.cameras ∧
    (runMotion s).lines.binding = s.lines.binding ∧ (runMotion s).lines.hold = s.lines.hold ∧
    (runMotion s).chargeGood = s.chargeGood ∧ (runMotion s).pending = s.pending :=
  by simp [runMotion]

@[simp] theorem acceptTurn_frame (d : Direction) (o : Origin) (b : Bool) (s : State) :
    (acceptTurn s d o b).time.clock = s.time.clock ∧ (acceptTurn s d o b).link = s.link ∧
    (acceptTurn s d o b).volume.state = s.volume.state ∧
    (acceptTurn s d o b).volume.leafCount = s.volume.leafCount ∧ (acceptTurn s d o b).plan = s.plan ∧
    (acceptTurn s d o b).motion.profile = s.motion.profile ∧
    (acceptTurn s d o b).lamps.grants = s.lamps.grants ∧
    (acceptTurn s d o b).lamps.recipes = s.lamps.recipes ∧
    (acceptTurn s d o b).dose.banks = s.dose.banks ∧ (acceptTurn s d o b).dose.aims = s.dose.aims ∧
    (acceptTurn s d o b).seq.cameras = s.seq.cameras ∧
    (acceptTurn s d o b).lines.binding = s.lines.binding ∧
    (acceptTurn s d o b).lines.hold = s.lines.hold ∧ (acceptTurn s d o b).chargeGood = s.chargeGood ∧
    (acceptTurn s d o b).pending = s.pending :=
  by simp [acceptTurn]

@[simp] theorem resumeStage_frame (t : Turn) (s : State) :
    (resumeStage s t).time.clock = s.time.clock ∧ (resumeStage s t).time.idle = s.time.idle ∧
    (resumeStage s t).link = s.link ∧ (resumeStage s t).queue = s.queue ∧
    (resumeStage s t).volume.k = s.volume.k ∧ (resumeStage s t).volume.state = s.volume.state ∧
    (resumeStage s t).volume.leafCount = s.volume.leafCount ∧ (resumeStage s t).leaves = s.leaves ∧
    (resumeStage s t).plan = s.plan ∧ (resumeStage s t).motion.profile = s.motion.profile ∧
    (resumeStage s t).lamps = s.lamps ∧ (resumeStage s t).dose = s.dose ∧
    (resumeStage s t).seq = s.seq ∧ (resumeStage s t).lines = s.lines ∧
    (resumeStage s t).safe = s.safe ∧ (resumeStage s t).chargeGood = s.chargeGood ∧
    (resumeStage s t).pending = s.pending :=
  by unfold resumeStage; (repeat' split) <;> simp

@[simp] theorem resumeTurn_frame (t : Turn) (s : State) :
    (resumeTurn s t).time.clock = s.time.clock ∧ (resumeTurn s t).link = s.link ∧
    (resumeTurn s t).volume.state = s.volume.state ∧
    (resumeTurn s t).volume.leafCount = s.volume.leafCount ∧ (resumeTurn s t).plan = s.plan ∧
    (resumeTurn s t).motion.profile = s.motion.profile ∧
    (resumeTurn s t).lamps.grants = s.lamps.grants ∧ (resumeTurn s t).lamps.recipes = s.lamps.recipes ∧
    (resumeTurn s t).dose.banks = s.dose.banks ∧ (resumeTurn s t).dose.aims = s.dose.aims ∧
    (resumeTurn s t).seq.cameras = s.seq.cameras ∧ (resumeTurn s t).lines.binding = s.lines.binding ∧
    (resumeTurn s t).lines.hold = s.lines.hold ∧ (resumeTurn s t).chargeGood = s.chargeGood ∧
    (resumeTurn s t).pending = s.pending :=
  by simp [resumeTurn]

end Sys2Proof.Machine
end

