-- ==== Sys2Proof/Laws/Lines.lean ====
section
/-! SUPPORT. Laws of orders, camera edges and the line block: what each operation leaves as it was, and
what an edge and the hold group can do. -/
namespace Sys2Proof.Machine

@[simp] theorem acceptOrder_frame (o : Order) (s : State) :
    (acceptOrder s o).time.clock = s.time.clock ∧ (acceptOrder s o).link = s.link ∧
    (acceptOrder s o).volume.k = s.volume.k ∧ (acceptOrder s o).volume.state = s.volume.state ∧
    (acceptOrder s o).volume.leafCount = s.volume.leafCount ∧ (acceptOrder s o).leaves = s.leaves ∧
    (acceptOrder s o).plan = s.plan ∧ (acceptOrder s o).motion.turn = s.motion.turn ∧
    (acceptOrder s o).motion.profile = s.motion.profile ∧
    (acceptOrder s o).lamps.grants = s.lamps.grants ∧
    (acceptOrder s o).lamps.recipes = s.lamps.recipes ∧ (acceptOrder s o).dose.banks = s.dose.banks ∧
    (acceptOrder s o).dose.aims = s.dose.aims ∧ (acceptOrder s o).seq.cameras = s.seq.cameras ∧
    (acceptOrder s o).lines.binding = s.lines.binding ∧ (acceptOrder s o).lines.hold = s.lines.hold ∧
    (acceptOrder s o).safe = s.safe ∧ (acceptOrder s o).chargeGood = s.chargeGood ∧
    (acceptOrder s o).pending = s.pending :=
  by simp [acceptOrder]

@[simp] theorem keyShoot_frame (s : State) :
    (keyShoot s).time.clock = s.time.clock ∧ (keyShoot s).link = s.link ∧
    (keyShoot s).volume.k = s.volume.k ∧ (keyShoot s).volume.state = s.volume.state ∧
    (keyShoot s).volume.leafCount = s.volume.leafCount ∧ (keyShoot s).leaves = s.leaves ∧
    (keyShoot s).plan = s.plan ∧ (keyShoot s).motion.turn = s.motion.turn ∧
    (keyShoot s).motion.profile = s.motion.profile ∧ (keyShoot s).lamps.grants = s.lamps.grants ∧
    (keyShoot s).lamps.recipes = s.lamps.recipes ∧ (keyShoot s).dose.banks = s.dose.banks ∧
    (keyShoot s).dose.aims = s.dose.aims ∧ (keyShoot s).seq.cameras = s.seq.cameras ∧
    (keyShoot s).lines.binding = s.lines.binding ∧ (keyShoot s).lines.hold = s.lines.hold ∧
    (keyShoot s).safe = s.safe ∧ (keyShoot s).chargeGood = s.chargeGood ∧
    (keyShoot s).pending = s.pending :=
  by unfold keyShoot; dsimp only; (repeat' split) <;> simp

@[simp] theorem keyTurn_frame (k : Fn) (d : Direction) (s : State) :
    (keyTurn s k d).time.clock = s.time.clock ∧ (keyTurn s k d).link = s.link ∧
    (keyTurn s k d).volume.state = s.volume.state ∧
    (keyTurn s k d).volume.leafCount = s.volume.leafCount ∧ (keyTurn s k d).plan = s.plan ∧
    (keyTurn s k d).motion.profile = s.motion.profile ∧ (keyTurn s k d).lamps.grants = s.lamps.grants ∧
    (keyTurn s k d).lamps.recipes = s.lamps.recipes ∧ (keyTurn s k d).dose.banks = s.dose.banks ∧
    (keyTurn s k d).dose.aims = s.dose.aims ∧ (keyTurn s k d).seq.cameras = s.seq.cameras ∧
    (keyTurn s k d).lines.binding = s.lines.binding ∧ (keyTurn s k d).lines.hold = s.lines.hold ∧
    (keyTurn s k d).chargeGood = s.chargeGood ∧ (keyTurn s k d).pending = s.pending :=
  by unfold keyTurn; dsimp only; (repeat' split) <;> simp

@[simp] theorem askOne_frame (c : Capture) (sd : Side) (bk : Bank) (t : Nat) (s : State) :
    (askOne s c sd bk t).time = s.time ∧ (askOne s c sd bk t).link = s.link ∧
    (askOne s c sd bk t).queue = s.queue ∧ (askOne s c sd bk t).volume = s.volume ∧
    (askOne s c sd bk t).leaves = s.leaves ∧ (askOne s c sd bk t).plan = s.plan ∧
    (askOne s c sd bk t).motion = s.motion ∧ (askOne s c sd bk t).lamps.aims = s.lamps.aims ∧
    (askOne s c sd bk t).lamps.interval = s.lamps.interval ∧
    (askOne s c sd bk t).lamps.recipes = s.lamps.recipes ∧ (askOne s c sd bk t).dose = s.dose ∧
    (askOne s c sd bk t).seq.orders = s.seq.orders ∧ (askOne s c sd bk t).seq.cameras = s.seq.cameras ∧
    (askOne s c sd bk t).lines = s.lines ∧ (askOne s c sd bk t).safe = s.safe ∧
    (askOne s c sd bk t).chargeGood = s.chargeGood ∧ (askOne s c sd bk t).pending = s.pending :=
  by simp [askOne]

@[simp] theorem askBanks_frame (c : Capture) (sd : Side) (bs : List Bank) (t : Nat) (s : State) :
    (askBanks c sd bs t s).time = s.time ∧ (askBanks c sd bs t s).link = s.link ∧
    (askBanks c sd bs t s).queue = s.queue ∧ (askBanks c sd bs t s).volume = s.volume ∧
    (askBanks c sd bs t s).leaves = s.leaves ∧ (askBanks c sd bs t s).plan = s.plan ∧
    (askBanks c sd bs t s).motion = s.motion ∧ (askBanks c sd bs t s).lamps.aims = s.lamps.aims ∧
    (askBanks c sd bs t s).lamps.interval = s.lamps.interval ∧
    (askBanks c sd bs t s).lamps.recipes = s.lamps.recipes ∧ (askBanks c sd bs t s).dose = s.dose ∧
    (askBanks c sd bs t s).seq.orders = s.seq.orders ∧
    (askBanks c sd bs t s).seq.cameras = s.seq.cameras ∧ (askBanks c sd bs t s).lines = s.lines ∧
    (askBanks c sd bs t s).safe = s.safe ∧ (askBanks c sd bs t s).chargeGood = s.chargeGood ∧
    (askBanks c sd bs t s).pending = s.pending :=
  by
  induction bs generalizing s t with
  | nil => simp [askBanks]
  | cons x l ih => simp [askBanks, ih]

@[simp] theorem syncEdge_frame (sd : Side) (t : Nat) (s : State) :
    (syncEdge s sd t).time.clock = s.time.clock ∧ (syncEdge s sd t).time.idle = s.time.idle ∧
    (syncEdge s sd t).link = s.link ∧ (syncEdge s sd t).queue = s.queue ∧
    (syncEdge s sd t).volume = s.volume ∧ (syncEdge s sd t).leaves = s.leaves ∧
    (syncEdge s sd t).plan = s.plan ∧ (syncEdge s sd t).motion = s.motion ∧
    (syncEdge s sd t).lamps.aims = s.lamps.aims ∧ (syncEdge s sd t).lamps.interval = s.lamps.interval ∧
    (syncEdge s sd t).lamps.recipes = s.lamps.recipes ∧ (syncEdge s sd t).dose = s.dose ∧
    (syncEdge s sd t).seq.orders = s.seq.orders ∧ (syncEdge s sd t).seq.cameras = s.seq.cameras ∧
    (syncEdge s sd t).lines = s.lines ∧ (syncEdge s sd t).safe = s.safe ∧
    (syncEdge s sd t).chargeGood = s.chargeGood ∧ (syncEdge s sd t).pending = s.pending :=
  by unfold syncEdge; dsimp only; (repeat' split) <;> simp

@[simp] theorem storedEdge_frame (sd : Side) (s : State) :
    (storedEdge s sd).time = s.time ∧ (storedEdge s sd).link = s.link ∧
    (storedEdge s sd).queue = s.queue ∧ (storedEdge s sd).volume.k = s.volume.k ∧
    (storedEdge s sd).volume.state = s.volume.state ∧
    (storedEdge s sd).volume.leafCount = s.volume.leafCount ∧ (storedEdge s sd).plan = s.plan ∧
    (storedEdge s sd).motion = s.motion ∧ (storedEdge s sd).lamps = s.lamps ∧
    (storedEdge s sd).dose = s.dose ∧ (storedEdge s sd).seq.orders = s.seq.orders ∧
    (storedEdge s sd).seq.cameras = s.seq.cameras ∧ (storedEdge s sd).lines = s.lines ∧
    (storedEdge s sd).safe = s.safe ∧ (storedEdge s sd).chargeGood = s.chargeGood ∧
    (storedEdge s sd).pending = s.pending :=
  by unfold storedEdge; (repeat' split) <;> simp

@[simp] theorem leaveFiring_frame (sd : Side) (s : State) :
    (leaveFiring s sd).time.clock = s.time.clock ∧ (leaveFiring s sd).time.idle = s.time.idle ∧
    (leaveFiring s sd).link = s.link ∧ (leaveFiring s sd).queue = s.queue ∧
    (leaveFiring s sd).volume.k = s.volume.k ∧ (leaveFiring s sd).volume.state = s.volume.state ∧
    (leaveFiring s sd).volume.leafCount = s.volume.leafCount ∧ (leaveFiring s sd).plan = s.plan ∧
    (leaveFiring s sd).motion = s.motion ∧ (leaveFiring s sd).lamps = s.lamps ∧
    (leaveFiring s sd).dose = s.dose ∧ (leaveFiring s sd).seq.orders = s.seq.orders ∧
    (leaveFiring s sd).seq.cameras = s.seq.cameras ∧ (leaveFiring s sd).lines = s.lines ∧
    (leaveFiring s sd).safe = s.safe ∧ (leaveFiring s sd).chargeGood = s.chargeGood ∧
    (leaveFiring s sd).pending = s.pending :=
  by unfold leaveFiring; (repeat' split) <;> simp

@[simp] theorem answerAsk_frame (bk : Bank) (a : Answer) (s : State) :
    (answerAsk s bk a).time.clock = s.time.clock ∧ (answerAsk s bk a).time.idle = s.time.idle ∧
    (answerAsk s bk a).link = s.link ∧ (answerAsk s bk a).queue = s.queue ∧
    (answerAsk s bk a).volume.k = s.volume.k ∧ (answerAsk s bk a).volume.state = s.volume.state ∧
    (answerAsk s bk a).volume.leafCount = s.volume.leafCount ∧ (answerAsk s bk a).plan = s.plan ∧
    (answerAsk s bk a).motion = s.motion ∧ (answerAsk s bk a).lamps = s.lamps ∧
    (answerAsk s bk a).dose = s.dose ∧ (answerAsk s bk a).seq.orders = s.seq.orders ∧
    (answerAsk s bk a).seq.cameras = s.seq.cameras ∧ (answerAsk s bk a).lines = s.lines ∧
    (answerAsk s bk a).safe = s.safe ∧ (answerAsk s bk a).chargeGood = s.chargeGood ∧
    (answerAsk s bk a).pending = s.pending :=
  by simp [answerAsk]

/-- The pin of an IN line stands where the outside drives it, else where its pull brings it (R146). -/
theorem pinLevel_inp (l : Line) (h : l.dir = .inp) : pinLevel l = l.pin.getD (decide (l.pull = .up)) := by
  cases hp : l.pin <;> cases hl : l.pull <;> simp [pinLevel, drivenPin, pulledPin, h, hp, hl]

/-- Comparing a pin touches the pending change alone, and leaves one only where the pin differs from the accepted level
(R147). -/
theorem comparePin_cases (t : Nat) (l : Line) :
    comparePin t l = l ∨ (l.dir = .inp ∧ pinLevel l = l.level ∧ comparePin t l = { l with change := none })
      ∨ (l.dir = .inp ∧ pinLevel l ≠ l.level ∧ comparePin t l = { l with change := some (pinLevel l, t) }) := by
  unfold comparePin
  split
  · exact .inl rfl
  · rename_i hd
    by_cases h : pinLevel l = l.level
    · simp [h, hd]
    · cases hc : l.change <;> simp [h, hd]

@[simp] theorem offerEvent_frame (i : Nat) (c : EventCause) (t : Nat) (s : State) :
    (offerEvent s i c t).time = s.time ∧ (offerEvent s i c t).link = s.link ∧
    (offerEvent s i c t).queue.reserved = s.queue.reserved ∧ (offerEvent s i c t).volume = s.volume ∧
    (offerEvent s i c t).leaves = s.leaves ∧ (offerEvent s i c t).plan = s.plan ∧
    (offerEvent s i c t).motion = s.motion ∧ (offerEvent s i c t).lamps = s.lamps ∧
    (offerEvent s i c t).dose = s.dose ∧ (offerEvent s i c t).seq = s.seq ∧
    (offerEvent s i c t).lines.binding = s.lines.binding ∧
    (offerEvent s i c t).lines.hold = s.lines.hold ∧ (offerEvent s i c t).safe = s.safe ∧
    (offerEvent s i c t).chargeGood = s.chargeGood ∧ (offerEvent s i c t).pending = s.pending :=
  by unfold offerEvent; dsimp only; (repeat' split) <;> simp

/-- A LINE_EVENT is offered once and latched, or nothing happens. -/
theorem offerEvent_cases (i : Nat) (c : EventCause) (t : Nat) (s : State) :
    offerEvent s i c t = s ∨
    (lineMasked (getLine s i) = true ∧ (getLine s i).latch = false ∧ offerEvent s i c t =
      offerMinor (modifyLine s i fun l => { l with latch := true })
        (.lineEvent i (fnOf s i) (getLine s i).sense c (getLine s i).level (getLine s i).count t)) := by
  cases h : lineMasked (getLine s i) <;> cases g : (getLine s i).latch <;> simp [offerEvent, h, g]

@[simp] theorem clearLine_frame (i : Nat) (s : State) :
    (clearLine s i).time = s.time ∧ (clearLine s i).link = s.link ∧
    (clearLine s i).queue.reserved = s.queue.reserved ∧ (clearLine s i).volume = s.volume ∧
    (clearLine s i).leaves = s.leaves ∧ (clearLine s i).plan = s.plan ∧
    (clearLine s i).motion = s.motion ∧ (clearLine s i).lamps = s.lamps ∧
    (clearLine s i).dose = s.dose ∧ (clearLine s i).seq = s.seq ∧
    (clearLine s i).lines.binding = s.lines.binding ∧ (clearLine s i).lines.hold = s.lines.hold ∧
    (clearLine s i).safe = s.safe ∧ (clearLine s i).chargeGood = s.chargeGood ∧
    (clearLine s i).pending = s.pending :=
  by simp [clearLine]

@[simp] theorem holdOn_frame (i t : Nat) (s : State) :
    (holdOn s i t).time = s.time ∧ (holdOn s i t).link = s.link ∧
    (holdOn s i t).queue.reserved = s.queue.reserved ∧ (holdOn s i t).volume = s.volume ∧
    (holdOn s i t).leaves = s.leaves ∧ (holdOn s i t).plan = s.plan ∧
    (holdOn s i t).motion.profile = s.motion.profile ∧ (holdOn s i t).lamps.aims = s.lamps.aims ∧
    (holdOn s i t).lamps.grants = s.lamps.grants ∧ (holdOn s i t).lamps.interval = s.lamps.interval ∧
    (holdOn s i t).lamps.recipes = s.lamps.recipes ∧ (holdOn s i t).dose = s.dose ∧
    (holdOn s i t).seq.orders = s.seq.orders ∧ (holdOn s i t).seq.cameras = s.seq.cameras ∧
    (holdOn s i t).lines.binding = s.lines.binding ∧ (holdOn s i t).safe = s.safe ∧
    (holdOn s i t).chargeGood = s.chargeGood ∧ (holdOn s i t).pending = s.pending :=
  by simp [holdOn]

@[simp] theorem holdOff_frame (i t : Nat) (h : Hold) (s : State) :
    (holdOff s i t h).time = s.time ∧ (holdOff s i t h).link = s.link ∧
    (holdOff s i t h).queue.reserved = s.queue.reserved ∧ (holdOff s i t h).volume = s.volume ∧
    (holdOff s i t h).leaves = s.leaves ∧ (holdOff s i t h).plan = s.plan ∧
    (holdOff s i t h).motion.turn = s.motion.turn ∧
    (holdOff s i t h).motion.profile = s.motion.profile ∧ (holdOff s i t h).lamps = s.lamps ∧
    (holdOff s i t h).dose = s.dose ∧ (holdOff s i t h).seq = s.seq ∧
    (holdOff s i t h).lines.binding = s.lines.binding ∧ (holdOff s i t h).safe = s.safe ∧
    (holdOff s i t h).chargeGood = s.chargeGood ∧ (holdOff s i t h).pending = s.pending :=
  by simp [holdOff]

@[simp] theorem evalHold_frame (i t : Nat) (s : State) :
    (evalHold s i t).time = s.time ∧ (evalHold s i t).link = s.link ∧
    (evalHold s i t).queue.reserved = s.queue.reserved ∧ (evalHold s i t).volume = s.volume ∧
    (evalHold s i t).leaves = s.leaves ∧ (evalHold s i t).plan = s.plan ∧
    (evalHold s i t).motion.profile = s.motion.profile ∧ (evalHold s i t).lamps.aims = s.lamps.aims ∧
    (evalHold s i t).lamps.grants = s.lamps.grants ∧
    (evalHold s i t).lamps.interval = s.lamps.interval ∧
    (evalHold s i t).lamps.recipes = s.lamps.recipes ∧ (evalHold s i t).dose = s.dose ∧
    (evalHold s i t).seq.orders = s.seq.orders ∧ (evalHold s i t).seq.cameras = s.seq.cameras ∧
    (evalHold s i t).lines.binding = s.lines.binding ∧ (evalHold s i t).safe = s.safe ∧
    (evalHold s i t).chargeGood = s.chargeGood ∧ (evalHold s i t).pending = s.pending :=
  by unfold evalHold; (repeat' split) <;> simp

/-- The hold group keeps the hold as it is, brings it into force, or releases it. -/
theorem evalHold_cases (i t : Nat) (s : State) :
    evalHold s i t = s ∨
    (s.lines.hold = none ∧ groupActive s = true ∧ evalHold s i t = holdOn s i t) ∨
    ∃ h, s.lines.hold = some h ∧ groupActive s = false ∧ evalHold s i t = holdOff s i t h := by
  cases h : s.lines.hold <;> cases g : groupActive s <;> simp [evalHold, h, g]

@[simp] theorem holdAfresh_frame (s : State) :
    (holdAfresh s).time = s.time ∧ (holdAfresh s).link = s.link ∧
    (holdAfresh s).queue.reserved = s.queue.reserved ∧ (holdAfresh s).volume = s.volume ∧
    (holdAfresh s).leaves = s.leaves ∧ (holdAfresh s).plan = s.plan ∧
    (holdAfresh s).motion.profile = s.motion.profile ∧ (holdAfresh s).lamps.aims = s.lamps.aims ∧
    (holdAfresh s).lamps.grants = s.lamps.grants ∧ (holdAfresh s).lamps.interval = s.lamps.interval ∧
    (holdAfresh s).lamps.recipes = s.lamps.recipes ∧ (holdAfresh s).dose = s.dose ∧
    (holdAfresh s).seq.orders = s.seq.orders ∧ (holdAfresh s).seq.cameras = s.seq.cameras ∧
    (holdAfresh s).lines.binding = s.lines.binding ∧ (holdAfresh s).safe = s.safe ∧
    (holdAfresh s).chargeGood = s.chargeGood ∧ (holdAfresh s).pending = s.pending :=
  by unfold holdAfresh; dsimp only; (repeat' split) <;> simp

@[simp] theorem noteLeaf_frame (f : Fn) (s : State) :
    (noteLeaf s f).time = s.time ∧ (noteLeaf s f).link = s.link ∧ (noteLeaf s f).queue = s.queue ∧
    (noteLeaf s f).volume = s.volume ∧ (noteLeaf s f).leaves = s.leaves ∧
    (noteLeaf s f).plan = s.plan ∧ (noteLeaf s f).motion.profile = s.motion.profile ∧
    (noteLeaf s f).lamps = s.lamps ∧ (noteLeaf s f).dose = s.dose ∧ (noteLeaf s f).seq = s.seq ∧
    (noteLeaf s f).lines = s.lines ∧ (noteLeaf s f).safe = s.safe ∧
    (noteLeaf s f).chargeGood = s.chargeGood ∧ (noteLeaf s f).pending = s.pending :=
  by simp [noteLeaf]

@[simp] theorem handEdge_frame (f : Fn) (t : Nat) (s : State) :
    (handEdge s f t).time.clock = s.time.clock ∧ (handEdge s f t).link = s.link ∧
    (handEdge s f t).volume.state = s.volume.state ∧
    (handEdge s f t).volume.leafCount = s.volume.leafCount ∧ (handEdge s f t).plan = s.plan ∧
    (handEdge s f t).motion.profile = s.motion.profile ∧
    (handEdge s f t).lamps.recipes = s.lamps.recipes ∧ (handEdge s f t).dose.banks = s.dose.banks ∧
    (handEdge s f t).dose.aims = s.dose.aims ∧ (handEdge s f t).seq.cameras = s.seq.cameras ∧
    (handEdge s f t).lines.binding = s.lines.binding ∧ (handEdge s f t).lines.hold = s.lines.hold ∧
    (handEdge s f t).chargeGood = s.chargeGood ∧ (handEdge s f t).pending = s.pending :=
  by unfold handEdge; (repeat' split) <;> simp

@[simp] theorem handLine_frame (i : Nat) (b : Bool) (t : Nat) (s : State) :
    (handLine s i b t).time.clock = s.time.clock ∧ (handLine s i b t).link = s.link ∧
    (handLine s i b t).volume.state = s.volume.state ∧
    (handLine s i b t).volume.leafCount = s.volume.leafCount ∧ (handLine s i b t).plan = s.plan ∧
    (handLine s i b t).motion.profile = s.motion.profile ∧
    (handLine s i b t).lamps.recipes = s.lamps.recipes ∧ (handLine s i b t).dose.banks = s.dose.banks ∧
    (handLine s i b t).dose.aims = s.dose.aims ∧ (handLine s i b t).seq.cameras = s.seq.cameras ∧
    (handLine s i b t).lines.binding = s.lines.binding ∧ (handLine s i b t).lines.hold = s.lines.hold ∧
    (handLine s i b t).chargeGood = s.chargeGood ∧ (handLine s i b t).pending = s.pending :=
  by unfold handLine; (repeat' split) <;> simp

@[simp] theorem acceptEdge_frame (i : Nat) (b : Bool) (t : Nat) (s : State) :
    (acceptEdge s i b t).time.clock = s.time.clock ∧ (acceptEdge s i b t).link = s.link ∧
    (acceptEdge s i b t).volume.state = s.volume.state ∧
    (acceptEdge s i b t).volume.leafCount = s.volume.leafCount ∧ (acceptEdge s i b t).plan = s.plan ∧
    (acceptEdge s i b t).motion.profile = s.motion.profile ∧
    (acceptEdge s i b t).lamps.recipes = s.lamps.recipes ∧
    (acceptEdge s i b t).dose.banks = s.dose.banks ∧ (acceptEdge s i b t).dose.aims = s.dose.aims ∧
    (acceptEdge s i b t).seq.cameras = s.seq.cameras ∧
    (acceptEdge s i b t).lines.binding = s.lines.binding ∧
    (acceptEdge s i b t).chargeGood = s.chargeGood ∧ (acceptEdge s i b t).pending = s.pending :=
  by unfold acceptEdge; dsimp only; (repeat' split) <;> simp

@[simp] theorem acceptDue_frame (i : Nat) (s : State) :
    (acceptDue s i).time.clock = s.time.clock ∧ (acceptDue s i).link = s.link ∧
    (acceptDue s i).volume.state = s.volume.state ∧
    (acceptDue s i).volume.leafCount = s.volume.leafCount ∧ (acceptDue s i).plan = s.plan ∧
    (acceptDue s i).motion.profile = s.motion.profile ∧
    (acceptDue s i).lamps.recipes = s.lamps.recipes ∧ (acceptDue s i).dose.banks = s.dose.banks ∧
    (acceptDue s i).dose.aims = s.dose.aims ∧ (acceptDue s i).seq.cameras = s.seq.cameras ∧
    (acceptDue s i).lines.binding = s.lines.binding ∧ (acceptDue s i).chargeGood = s.chargeGood ∧
    (acceptDue s i).pending = s.pending :=
  by unfold acceptDue; split <;> simp

/-- A pending change is accepted when it is due, or nothing happens. -/
theorem acceptDue_cases (i : Nat) (s : State) :
    (dueChange s (getLine s i) = none ∧ acceptDue s i = s) ∨
    ∃ high t, dueChange s (getLine s i) = some (high, t) ∧ acceptDue s i = acceptEdge s i high t := by
  cases h : dueChange s (getLine s i) with
  | none => exact .inl ⟨rfl, by simp [acceptDue, h]⟩
  | some x => exact .inr ⟨x.1, x.2, rfl, by simp [acceptDue, h]⟩

@[simp] theorem restage_frame (i : Nat) (s : State) :
    (restage s i).time = s.time ∧ (restage s i).link = s.link ∧ (restage s i).queue = s.queue ∧
    (restage s i).volume = s.volume ∧ (restage s i).leaves = s.leaves ∧ (restage s i).plan = s.plan ∧
    (restage s i).motion = s.motion ∧ (restage s i).lamps = s.lamps ∧ (restage s i).dose = s.dose ∧
    (restage s i).seq = s.seq ∧ (restage s i).lines.binding = s.lines.binding ∧
    (restage s i).lines.hold = s.lines.hold ∧ (restage s i).safe = s.safe ∧
    (restage s i).chargeGood = s.chargeGood ∧ (restage s i).pending = s.pending :=
  by unfold restage; (repeat' split) <;> simp

@[simp] theorem configureLine_frame (i : Nat) (c : LineSettings) (s : State) :
    (configureLine s i c).time.clock = s.time.clock ∧ (configureLine s i c).link = s.link ∧
    (configureLine s i c).volume.state = s.volume.state ∧
    (configureLine s i c).volume.leafCount = s.volume.leafCount ∧ (configureLine s i c).plan = s.plan ∧
    (configureLine s i c).motion.profile = s.motion.profile ∧
    (configureLine s i c).lamps.recipes = s.lamps.recipes ∧
    (configureLine s i c).dose.banks = s.dose.banks ∧ (configureLine s i c).dose.aims = s.dose.aims ∧
    (configureLine s i c).seq.cameras = s.seq.cameras ∧
    (configureLine s i c).lines.binding = s.lines.binding ∧
    (configureLine s i c).chargeGood = s.chargeGood ∧ (configureLine s i c).pending = s.pending :=
  by unfold configureLine; dsimp only; (repeat' split) <;> simp

@[simp] theorem bindFn_frame (f : Fn) (i : Nat) (s : State) :
    (bindFn s f i).time = s.time ∧ (bindFn s f i).link = s.link ∧ (bindFn s f i).queue = s.queue ∧
    (bindFn s f i).volume = s.volume ∧ (bindFn s f i).leaves = s.leaves ∧
    (bindFn s f i).plan = s.plan ∧ (bindFn s f i).motion = s.motion ∧ (bindFn s f i).lamps = s.lamps ∧
    (bindFn s f i).dose = s.dose ∧ (bindFn s f i).seq = s.seq ∧
    (bindFn s f i).lines.hold = s.lines.hold ∧ (bindFn s f i).safe = s.safe ∧
    (bindFn s f i).chargeGood = s.chargeGood ∧ (bindFn s f i).pending = s.pending :=
  by unfold bindFn; split <;> simp

@[simp] theorem unbindFn_frame (f : Fn) (s : State) :
    (unbindFn s f).time = s.time ∧ (unbindFn s f).link = s.link ∧ (unbindFn s f).queue = s.queue ∧
    (unbindFn s f).volume = s.volume ∧ (unbindFn s f).leaves = s.leaves ∧
    (unbindFn s f).plan = s.plan ∧ (unbindFn s f).motion = s.motion ∧ (unbindFn s f).lamps = s.lamps ∧
    (unbindFn s f).dose = s.dose ∧ (unbindFn s f).seq = s.seq ∧
    (unbindFn s f).lines.hold = s.lines.hold ∧ (unbindFn s f).safe = s.safe ∧
    (unbindFn s f).chargeGood = s.chargeGood ∧ (unbindFn s f).pending = s.pending :=
  by unfold unbindFn; split <;> simp

end Sys2Proof.Machine
end

