-- ==== Sys2Proof/Laws/Link.lean ====
section
/-! SUPPORT. Laws of the link and the tick: what each operation leaves as it was. -/
namespace Sys2Proof.Machine

@[simp] theorem judgeSilence_frame (s : State) :
    (judgeSilence s).time = s.time ∧ (judgeSilence s).queue = s.queue ∧
    (judgeSilence s).volume = s.volume ∧ (judgeSilence s).leaves = s.leaves ∧
    (judgeSilence s).plan = s.plan ∧ (judgeSilence s).motion = s.motion ∧
    (judgeSilence s).lamps = s.lamps ∧ (judgeSilence s).dose = s.dose ∧ (judgeSilence s).seq = s.seq ∧
    (judgeSilence s).lines = s.lines ∧ (judgeSilence s).safe = s.safe ∧
    (judgeSilence s).chargeGood = s.chargeGood ∧ (judgeSilence s).pending = s.pending :=
  by unfold judgeSilence; (repeat' split) <;> simp

/-- A number takes the bytes of its width. -/
@[simp] theorem le_length (n v : Nat) : (le n v).length = n := by
  induction n generalizing v with
  | zero => rfl
  | succ n ih => simp [le, ih]

/-- A reply carries its own kind and tag, and two bytes ahead of its fields (R176, R189). -/
@[simp] theorem replyFrame_kind (r : Reply) : (replyFrame r).kind = r.kind := rfl
@[simp] theorem replyFrame_tag (r : Reply) : (replyFrame r).tag = r.tag := rfl
@[simp] theorem replyFrame_length (r : Reply) :
    (replyFrame r).payload.length = 2 + (fieldBytes r.fields).length := by simp [replyFrame]; omega

@[simp] theorem takeUp_frame (s : State) :
    (takeUp s).time = s.time ∧ (takeUp s).queue = s.queue ∧ (takeUp s).volume = s.volume ∧
    (takeUp s).leaves = s.leaves ∧ (takeUp s).plan = s.plan ∧ (takeUp s).motion = s.motion ∧
    (takeUp s).lamps = s.lamps ∧ (takeUp s).dose = s.dose ∧ (takeUp s).seq = s.seq ∧
    (takeUp s).lines = s.lines ∧ (takeUp s).safe = s.safe ∧ (takeUp s).chargeGood = s.chargeGood ∧
    (takeUp s).pending = s.pending :=
  by unfold takeUp; (repeat' split) <;> simp

/-- The link takes up a request for decision, answers a frame that is none, or has nothing to take up. -/
theorem takeUp_cases (s : State) :
    takeUp s = s ∨
    ∃ f rest, s.link.deciding = none ∧ s.link.reply = none ∧ s.link.buffer = f :: rest ∧
      ((frameRefusal f = none ∧ takeUp s = { s with link.buffer := rest, link.deciding := some f }) ∨
      ∃ r, frameRefusal f = some r ∧ takeUp s =
        { s with link.buffer := rest, link.reply := some ⟨replyKind f.kind, f.tag, r, statusSummary s, .none⟩ }) := by
  unfold takeUp
  split
  · rename_i f rest hd hr hb
    refine .inr ⟨f, rest, hd, hr, hb, ?_⟩
    cases h : frameRefusal f with
    | none => exact .inl ⟨rfl, rfl⟩
    | some r => exact .inr ⟨r, rfl, rfl⟩
  · exact .inl rfl

@[simp] theorem validFrame_frame (s : State) :
    (validFrame s).time = s.time ∧ (validFrame s).queue = s.queue ∧ (validFrame s).volume = s.volume ∧
    (validFrame s).leaves = s.leaves ∧ (validFrame s).plan = s.plan ∧
    (validFrame s).motion = s.motion ∧ (validFrame s).lamps = s.lamps ∧ (validFrame s).dose = s.dose ∧
    (validFrame s).seq = s.seq ∧ (validFrame s).lines = s.lines ∧ (validFrame s).safe = s.safe ∧
    (validFrame s).chargeGood = s.chargeGood ∧ (validFrame s).pending = s.pending :=
  by unfold validFrame; split <;> simp

@[simp] theorem goodFrame_frame (f : Frame) (s : State) :
    (goodFrame s f).time = s.time ∧ (goodFrame s f).queue = s.queue ∧
    (goodFrame s f).volume = s.volume ∧ (goodFrame s f).leaves = s.leaves ∧
    (goodFrame s f).plan = s.plan ∧ (goodFrame s f).motion = s.motion ∧
    (goodFrame s f).lamps = s.lamps ∧ (goodFrame s f).dose = s.dose ∧ (goodFrame s f).seq = s.seq ∧
    (goodFrame s f).lines = s.lines ∧ (goodFrame s f).safe = s.safe ∧
    (goodFrame s f).chargeGood = s.chargeGood ∧ (goodFrame s f).pending = s.pending :=
  by unfold goodFrame; split <;> simp

@[simp] theorem checkFrame_frame (bs : List Byte) (s : State) :
    (checkFrame s bs).time = s.time ∧ (checkFrame s bs).queue = s.queue ∧
    (checkFrame s bs).volume = s.volume ∧ (checkFrame s bs).leaves = s.leaves ∧
    (checkFrame s bs).plan = s.plan ∧ (checkFrame s bs).motion = s.motion ∧
    (checkFrame s bs).lamps = s.lamps ∧ (checkFrame s bs).dose = s.dose ∧
    (checkFrame s bs).seq = s.seq ∧ (checkFrame s bs).lines = s.lines ∧
    (checkFrame s bs).safe = s.safe ∧ (checkFrame s bs).chargeGood = s.chargeGood ∧
    (checkFrame s bs).pending = s.pending :=
  by unfold checkFrame; dsimp only; (repeat' split) <;> simp

@[simp] theorem storeByte_frame (a : Assembly) (b : Byte) (s : State) :
    (storeByte s a b).time = s.time ∧ (storeByte s a b).queue = s.queue ∧
    (storeByte s a b).volume = s.volume ∧ (storeByte s a b).leaves = s.leaves ∧
    (storeByte s a b).plan = s.plan ∧ (storeByte s a b).motion = s.motion ∧
    (storeByte s a b).lamps = s.lamps ∧ (storeByte s a b).dose = s.dose ∧
    (storeByte s a b).seq = s.seq ∧ (storeByte s a b).lines = s.lines ∧
    (storeByte s a b).safe = s.safe ∧ (storeByte s a b).chargeGood = s.chargeGood ∧
    (storeByte s a b).pending = s.pending :=
  by unfold storeByte; dsimp only; (repeat' split) <;> simp

@[simp] theorem takeByte_frame (b : Byte) (x : Bool) (s : State) :
    (takeByte s b x).time = s.time ∧ (takeByte s b x).queue = s.queue ∧
    (takeByte s b x).volume = s.volume ∧ (takeByte s b x).leaves = s.leaves ∧
    (takeByte s b x).plan = s.plan ∧ (takeByte s b x).motion = s.motion ∧
    (takeByte s b x).lamps = s.lamps ∧ (takeByte s b x).dose = s.dose ∧ (takeByte s b x).seq = s.seq ∧
    (takeByte s b x).lines = s.lines ∧ (takeByte s b x).safe = s.safe ∧
    (takeByte s b x).chargeGood = s.chargeGood ∧ (takeByte s b x).pending = s.pending :=
  by unfold takeByte; (repeat' split) <;> simp

@[simp] theorem periodBoundary_frame (s : State) :
    (periodBoundary s).time.clock = s.time.clock ∧ (periodBoundary s).time.idle = s.time.idle ∧
    (periodBoundary s).queue = s.queue ∧ (periodBoundary s).volume = s.volume ∧
    (periodBoundary s).leaves = s.leaves ∧ (periodBoundary s).plan = s.plan ∧
    (periodBoundary s).motion = s.motion ∧ (periodBoundary s).lamps = s.lamps ∧
    (periodBoundary s).dose = s.dose ∧ (periodBoundary s).seq = s.seq ∧
    (periodBoundary s).lines = s.lines ∧ (periodBoundary s).safe = s.safe ∧
    (periodBoundary s).chargeGood = s.chargeGood ∧ (periodBoundary s).pending = s.pending :=
  by unfold periodBoundary; split <;> simp

@[simp] theorem takeReading_frame (n : Nat) (s : State) :
    (takeReading s n).time.clock = s.time.clock ∧ (takeReading s n).time.idle = s.time.idle ∧
    (takeReading s n).link = s.link ∧ (takeReading s n).volume.k = s.volume.k ∧
    (takeReading s n).volume.state = s.volume.state ∧
    (takeReading s n).volume.leafCount = s.volume.leafCount ∧ (takeReading s n).leaves = s.leaves ∧
    (takeReading s n).plan = s.plan ∧ (takeReading s n).motion.profile = s.motion.profile ∧
    (takeReading s n).lamps.aims = s.lamps.aims ∧ (takeReading s n).lamps.grants = s.lamps.grants ∧
    (takeReading s n).lamps.interval = s.lamps.interval ∧
    (takeReading s n).lamps.recipes = s.lamps.recipes ∧ (takeReading s n).dose.banks = s.dose.banks ∧
    (takeReading s n).dose.aims = s.dose.aims ∧ (takeReading s n).seq.cameras = s.seq.cameras ∧
    (takeReading s n).lines.binding = s.lines.binding ∧ (takeReading s n).lines.hold = s.lines.hold ∧
    (takeReading s n).chargeGood = s.chargeGood ∧ (takeReading s n).pending = s.pending :=
  by unfold takeReading; (repeat' split) <;> simp

end Sys2Proof.Machine
end

