-- ==== Sys2Proof/WellFormed.lean ====
section
/-! DEFINITION. Which commands the outside can send: each field in the width its frame gives it (R188), each line
one of the 32, each pressure reading in the converter's range (manual, Connections). A field out of the range
that a request allows is well formed: the request is refused or clamped. -/
namespace Sys2Proof

/-- A number fits `n` bytes. -/
def fits (n v : Nat) : Bool := decide (v < 256 ^ n)

/-- A present number fits `n` bytes. -/
def optFits (n : Nat) (v : Option Nat) : Bool := v.all (fits n)

/-- The four numbers fit `n` bytes. -/
def quadFits (n : Nat) (q : Quad Nat) : Bool := q.toList.all (fits n)

/-- A line of the part (R146). -/
def isLine (i : Nat) : Bool := decide (i < 32)

/-- A segment as a PLAN_SET frame can carry it: the last leaf takes 12 bits, and the prefix four bytes of which
trailing zeros are padding (R188). -/
def segmentFits (g : SegmentField) : Bool :=
  fits 2 g.first && decide (g.last < 4096) && fits 2 g.start && decide (g.pfx.length ≤ 4)
    && g.pfx.getLast? != some 0#8

/-- The command can be sent. -/
def wellFormed : Instr → Bool
  | .powerOnReset => true
  | .softReset => true
  | .byteReceived _ _ => true
  | .gapError => true
  | .replySent => true
  | .ident _ => true
  | .status _ => true
  | .time _ => true
  | .fetch _ => true
  | .linkSet _ enable tap clearCount => fits 1 enable && fits 1 tap && fits 1 clearCount
  | .reset _ => true
  | .safe _ => true
  | .clearSafe _ => true
  | .idleSet _ seconds => fits 2 seconds
  | .volumeLoad _ mark part leaves thickness leafCeiling volumeCeiling limit reserve =>
    decide (mark.length ≤ 219) && fits 1 part && fits 2 leaves && fits 2 thickness && fits 4 leafCeiling
      && fits 6 volumeCeiling && fits 1 limit && fits 4 reserve
  | .volumeOpen _ k => fits 2 k
  | .volumeSet _ leafCeiling volumeCeiling limit reserve thickness =>
    optFits 4 leafCeiling && optFits 6 volumeCeiling && optFits 1 limit && optFits 4 reserve
      && optFits 2 thickness
  | .volumeClose _ _ => true
  | .volumeDiscard _ => true
  | .volumeQuery _ => true
  | .reseat _ k leaf => fits 2 k && optFits 2 leaf && leaf != some 0
  | .leafMark _ leaf _ _ _ _ => fits 2 leaf
  | .leafQuery _ first count => fits 2 first && fits 1 count
  | .gapsQuery _ first => fits 2 first
  | .planSet _ segments => decide (segments.length ≤ 24) && segments.all segmentFits
  | .planQuery _ position => fits 1 position
  | .lower _ => true
  | .raise _ => true
  | .turn _ _ => true
  | .turnBack _ _ => true
  | .turnResume _ => true
  | .turnAbandon _ => true
  | .motionSet _ target tolerance limit dwellMax plateBase airTime gripRetries =>
    optFits 2 target && optFits 2 tolerance && optFits 2 limit && optFits 2 dwellMax
      && optFits 2 plateBase && optFits 2 airTime && optFits 1 gripRetries
  | .motionQuery _ => true
  | .bankPower _ _ _ => true
  | .bankSet _ _ recharge => fits 2 recharge
  | .aimSet _ _ requested guard => optFits 2 requested && optFits 2 guard
  | .recipeSet _ recipe levels duration => fits 1 recipe && quadFits 2 levels && fits 2 duration
  | .recipeQuery _ recipe => fits 1 recipe
  | .lampQuery _ => true
  | .lampCal _ _ points spill => decide (points.length = 11) && points.all (fits 4) && fits 2 spill
  | .calQuery _ _ => true
  | .doseQuery _ => true
  | .shoot _ orderTag _ recipe _ notBefore => fits 2 orderTag && fits 1 recipe && optFits 6 notBefore
  | .cameraSet _ _ pulse delay window stored lateLimit =>
    optFits 2 pulse && optFits 4 delay && optFits 4 window && optFits 2 stored && optFits 4 lateLimit
  | .captureQuery _ => true
  | .lineConfig _ line _ _ _ _ _ _ debounce _ _ _ => fits 1 line && fits 1 debounce
  | .lineWrite _ _ _ => true
  | .lineRead _ => true
  | .lineCounts _ _ => true
  | .lineQuery _ line => fits 1 line
  | .lineClear _ _ => true
  | .lineBind _ _ line => optFits 1 line && line != some 255
  | .pinLevelChange line _ => isLine line
  | .acceptedEdge line => isLine line
  | .chargeGood _ _ => true
  | .tick1ms reading => decide (reading ≤ 2000)
  | .linkSilent => true
  | .aimTick => true
  | .idleTimerExpiry => true
  | .loweringTimeout => true
  | .pressingTimeout => true
  | .raiseTimeout => true
  | .dwellExpiry => true
  | .platesAtTarget => true
  | .plateTimeout => true
  | .airTimeEnd => true
  | .armTimeout => true
  | .gripTimeout => true
  | .releaseTimeout => true
  | .verifyTimeout => true
  | .bankChargeTimeout _ => true
  | .conditioningFlash _ => true
  | .conditioningComplete _ => true
  | .captureFiring _ => true
  | .flashEnd _ => true
  | .recoveryEnd _ => true
  | .topUpStart _ => true
  | .topUpEnd _ => true
  | .wakingEnd _ => true
  | .hoodTravelEnd _ => true
  | .notBeforeTime => true
  | .armingTimeout => true
  | .triggerPulseEnd _ => true
  | .syncWindowClose _ => true
  | .storedTimeout _ => true
  | .conditioningFlashDue _ => true

end Sys2Proof
end

