-- ==== Sys2Proof/Tests/Slice0.lean ====
section
/-! SUPPORT. Tests. The first part refuses one ill-formed command for each check of WellFormed.lean; the second
takes the expected results from the manual's worked examples, tables and rules, named before each; the third
shows, for each statement with hypotheses, a concrete state and operands that meet them (`witness_`). -/
namespace Sys2Proof.Tests

open Sys2Proof Sys2Proof.Machine

/-! ### Ill-formed commands -/

theorem test_smoke_link_set_enable : wellFormed (.linkSet 0#8 256 0 0) = false := by decide
theorem test_smoke_link_set_tap : wellFormed (.linkSet 0#8 0 256 0) = false := by decide
theorem test_smoke_link_set_clear : wellFormed (.linkSet 0#8 0 0 256) = false := by decide
theorem test_smoke_idle_set : wellFormed (.idleSet 0#8 65536) = false := by decide
theorem test_smoke_load_mark :
    wellFormed (.volumeLoad 0#8 (List.replicate 220 65#8) 0 1 20 1 1 1 0) = false := by decide +kernel
theorem test_smoke_load_part : wellFormed (.volumeLoad 0#8 [65#8] 256 1 20 1 1 1 0) = false := by decide
theorem test_smoke_load_leaves : wellFormed (.volumeLoad 0#8 [65#8] 0 65536 20 1 1 1 0) = false := by decide
theorem test_smoke_load_thickness : wellFormed (.volumeLoad 0#8 [65#8] 0 1 65536 1 1 1 0) = false := by decide
theorem test_smoke_load_leaf_ceiling :
    wellFormed (.volumeLoad 0#8 [65#8] 0 1 20 4294967296 1 1 0) = false := by decide
theorem test_smoke_load_volume_ceiling :
    wellFormed (.volumeLoad 0#8 [65#8] 0 1 20 1 281474976710656 1 0) = false := by decide
theorem test_smoke_load_limit : wellFormed (.volumeLoad 0#8 [65#8] 0 1 20 1 1 256 0) = false := by decide
theorem test_smoke_load_reserve :
    wellFormed (.volumeLoad 0#8 [65#8] 0 1 20 1 1 1 4294967296) = false := by decide
theorem test_smoke_open : wellFormed (.volumeOpen 0#8 65536) = false := by decide
theorem test_smoke_set_leaf_ceiling :
    wellFormed (.volumeSet 0#8 (some 4294967296) none none none none) = false := by decide
theorem test_smoke_set_volume_ceiling :
    wellFormed (.volumeSet 0#8 none (some 281474976710656) none none none) = false := by decide
theorem test_smoke_set_limit : wellFormed (.volumeSet 0#8 none none (some 256) none none) = false := by decide
theorem test_smoke_set_reserve :
    wellFormed (.volumeSet 0#8 none none none (some 4294967296) none) = false := by decide
theorem test_smoke_set_thickness :
    wellFormed (.volumeSet 0#8 none none none none (some 65536)) = false := by decide
theorem test_smoke_reseat : wellFormed (.reseat 0#8 65536 none) = false := by decide
theorem test_smoke_reseat_leaf : wellFormed (.reseat 0#8 0 (some 65536)) = false := by decide
theorem test_smoke_reseat_leaf_zero : wellFormed (.reseat 0#8 0 (some 0)) = false := by decide
theorem test_smoke_leaf_mark : wellFormed (.leafMark 0#8 65536 true true none none) = false := by decide
theorem test_smoke_leaf_query : wellFormed (.leafQuery 0#8 65536 1) = false := by decide
theorem test_smoke_leaf_query_count : wellFormed (.leafQuery 0#8 0 256) = false := by decide
theorem test_smoke_gaps_query : wellFormed (.gapsQuery 0#8 65536) = false := by decide
theorem test_smoke_plan_count :
    wellFormed (.planSet 0#8 (List.replicate 25 ⟨1, 1, none, 1, []⟩)) = false := by decide
theorem test_smoke_plan_first : wellFormed (.planSet 0#8 [⟨65536, 1, none, 1, []⟩]) = false := by decide
theorem test_smoke_plan_last : wellFormed (.planSet 0#8 [⟨1, 4096, none, 1, []⟩]) = false := by decide
theorem test_smoke_plan_start : wellFormed (.planSet 0#8 [⟨1, 1, none, 65536, []⟩]) = false := by decide
theorem test_smoke_plan_prefix_length :
    wellFormed (.planSet 0#8 [⟨1, 1, none, 1, [65#8, 65#8, 65#8, 65#8, 65#8]⟩]) = false := by decide
theorem test_smoke_plan_prefix_padding :
    wellFormed (.planSet 0#8 [⟨1, 1, none, 1, [65#8, 0#8]⟩]) = false := by decide
theorem test_smoke_plan_query : wellFormed (.planQuery 0#8 256) = false := by decide
theorem test_smoke_motion_set_target :
    wellFormed (.motionSet 0#8 (some 65536) none none none none none none) = false := by decide
theorem test_smoke_motion_set_tolerance :
    wellFormed (.motionSet 0#8 none (some 65536) none none none none none) = false := by decide
theorem test_smoke_motion_set_limit :
    wellFormed (.motionSet 0#8 none none (some 65536) none none none none) = false := by decide
theorem test_smoke_motion_set_dwell :
    wellFormed (.motionSet 0#8 none none none (some 65536) none none none) = false := by decide
theorem test_smoke_motion_set_base :
    wellFormed (.motionSet 0#8 none none none none (some 65536) none none) = false := by decide
theorem test_smoke_motion_set_air :
    wellFormed (.motionSet 0#8 none none none none none (some 65536) none) = false := by decide
theorem test_smoke_motion_set_retries :
    wellFormed (.motionSet 0#8 none none none none none none (some 256)) = false := by decide
theorem test_smoke_bank_set : wellFormed (.bankSet 0#8 ⟨true, true, true, true⟩ 65536) = false := by decide
theorem test_smoke_aim_set : wellFormed (.aimSet 0#8 ⟨true, true⟩ (some 65536) none) = false := by decide
theorem test_smoke_aim_set_guard : wellFormed (.aimSet 0#8 ⟨true, true⟩ none (some 65536)) = false := by decide
theorem test_smoke_recipe_set : wellFormed (.recipeSet 0#8 256 ⟨0, 0, 0, 0⟩ 0) = false := by decide
theorem test_smoke_recipe_set_level : wellFormed (.recipeSet 0#8 0 ⟨0, 0, 0, 65536⟩ 0) = false := by decide
theorem test_smoke_recipe_set_duration :
    wellFormed (.recipeSet 0#8 0 ⟨0, 0, 0, 0⟩ 65536) = false := by decide
theorem test_smoke_recipe_query : wellFormed (.recipeQuery 0#8 256) = false := by decide
theorem test_smoke_lamp_cal_count :
    wellFormed (.lampCal 0#8 none (List.replicate 10 0) 0) = false := by decide
theorem test_smoke_lamp_cal_point :
    wellFormed (.lampCal 0#8 none (List.replicate 10 0 ++ [4294967296]) 0) = false := by decide
theorem test_smoke_lamp_cal_spill :
    wellFormed (.lampCal 0#8 none (List.replicate 11 0) 65536) = false := by decide
theorem test_smoke_shoot : wellFormed (.shoot 0#8 65536 none 0 none none) = false := by decide
theorem test_smoke_shoot_recipe : wellFormed (.shoot 0#8 0 none 256 none none) = false := by decide
theorem test_smoke_shoot_time :
    wellFormed (.shoot 0#8 0 none 0 none (some 281474976710656)) = false := by decide
theorem test_smoke_camera_pulse :
    wellFormed (.cameraSet 0#8 ⟨true, true⟩ (some 65536) none none none none) = false := by decide
theorem test_smoke_camera_delay :
    wellFormed (.cameraSet 0#8 ⟨true, true⟩ none (some 4294967296) none none none) = false := by decide
theorem test_smoke_camera_window :
    wellFormed (.cameraSet 0#8 ⟨true, true⟩ none none (some 4294967296) none none) = false := by decide
theorem test_smoke_camera_stored :
    wellFormed (.cameraSet 0#8 ⟨true, true⟩ none none none (some 65536) none) = false := by decide
theorem test_smoke_camera_late :
    wellFormed (.cameraSet 0#8 ⟨true, true⟩ none none none none (some 4294967296)) = false := by decide
theorem test_smoke_line_config :
    wellFormed (.lineConfig 0#8 256 none none none none none false 0 false false false) = false := by decide
theorem test_smoke_line_config_debounce :
    wellFormed (.lineConfig 0#8 0 none none none none none false 256 false false false) = false := by decide
theorem test_smoke_line_query : wellFormed (.lineQuery 0#8 256) = false := by decide
theorem test_smoke_line_bind : wellFormed (.lineBind 0#8 none (some 256)) = false := by decide
theorem test_smoke_line_bind_none : wellFormed (.lineBind 0#8 none (some 255)) = false := by decide
theorem test_smoke_pin : wellFormed (.pinLevelChange 32 true) = false := by decide
theorem test_smoke_edge : wellFormed (.acceptedEdge 32) = false := by decide
theorem test_smoke_reading : wellFormed (.tick1ms 2001) = false := by decide

/-! ### States to test on -/

/-- The state after a command. -/
def after (c : Instr) (s : State) : State :=
  match exec c s with
  | .next t => t
  | .fault _ => s
  | .refused _ => s

/-- The result of the reply that stands. -/
def result (s : State) : Option Result := s.link.reply.map fun r => r.result

/-- The reply fields that stand. -/
def replyFields (s : State) : Option Fields := s.link.reply.map fun r => r.fields

/-- The pin and the accepted level of a line. -/
def setLevel (i : Nat) (high : Bool) (s : State) : State :=
  modifyLine s i fun l => { l with level := high, pin := some high }

/-- A function of a FALLING_LOW line is active. -/
def activate (f : Fn) (s : State) : State := setLevel (fnCode f) false s

/-- An OPEN volume of four leaves of 100 µm at opening 1, KNOWN, at clock value 1,000,000, with the platen DOWN
and the arm at HOME. -/
def bound : State :=
  activate .armHome
    { State.reset with
      time.clock := 1000000
      volume := { emptyVolume with
        state := .opened, shelfMark := some (ascii "MS 4".toList), leafCount := 4, thickness := 100
        leafCeiling := 15000000, volumeCeiling := 1000000000, handlingLimit := 3, reserve := 200000
        k := 1, known := true }
      leaves := freshTable 4
      motion.platen := .down
      motion.plateState := .settled
      motion.dwell := some ⟨121000000, 120⟩ }

/-- `bound` with a turn record in a stage, under a RAISED platen. -/
def turning (g : Stage) (d : Option Nat) : State :=
  { bound with
    queue.reserved := 1
    motion.platen := .raised
    motion.dwell := none
    motion.turn := some
      { seq := 112, direction := .forward, origin := .link, override := false, leaf := 2, oldOpening := 1
        held := false, stage := g, recovery := false, retries := 2, attempts := 0, doublePicks := 0
        limits := ⟨false, false⟩, start := 0, deadline := d, regripAir := false, noted := false } }

/-- The turn record of `turning`, changed. -/
def turningWith (g : Stage) (d : Option Nat) (f : Turn → Turn) : State := modifyTurn (turning g d) f

/-- An order for both sides. -/
def bothOrder : Order :=
  { tag := 7, origin := .link, sides := .both, recipe := 0, purpose := .normal, notBefore := none
    accepted := 0 }

/-- A side at a stage. -/
def sideAt (g : SideStage) : SideRec :=
  { stage := g, camera := powerOnCamera, syncTime := none, asks := [], storedNoted := false
    storedDeadline := none, take := none }

/-- Capture 1 of `bound`, of A 650, B 0, C 640, D 0 and 1,200 µs. -/
def capture (t0 : Option Nat) (l r : SideRec) : Capture :=
  { seq := 1, order := bothOrder, levels := ⟨650, 0, 640, 0⟩, duration := 1200, armedAt := 0
    deadline := if t0.isNone then some 1000000 else none, opening := t0.map fun _ => (1, true), t0 := t0
    sides := ⟨some l, some r⟩, unmet := none, figures := none }

/-- `bound` with that capture in flight. -/
def shooting (c : Capture) : State :=
  { bound with
    volume.captureSeq := 1
    volume.capturesIssued := 1
    queue.reserved := 1
    lamps.interval := c.t0.map fun _ => 1
    seq.capture := some c }

/-- The calibration of the worked case of Light Dose Accounting: banks A and C, both aim lamps. -/
def calibrate (s : State) : State :=
  { s with
    dose.banks :=
      ⟨⟨[0, 0, 0, 0, 0, 0, 60000, 72000, 72000, 72000, 72000], 38⟩, ⟨List.replicate 11 0, 0⟩,
       ⟨[0, 0, 0, 0, 0, 0, 58000, 70500, 70500, 70500, 70500], 41⟩, ⟨List.replicate 11 0, 0⟩⟩
    dose.aims :=
      ⟨⟨[0, 80, 80, 240, 240, 240, 240, 240, 240, 240, 240], 20⟩,
       ⟨[0, 90, 90, 260, 260, 260, 260, 260, 260, 260, 260], 25⟩⟩ }

/-- The doses of the two open leaves and the total. -/
def withDoses (l r total : Nat) (s : State) : State :=
  { modifyLeaf (modifyLeaf s 1 fun x => { x with dose := l }) 2 fun x => { x with dose := r } with
    volume.totalDose := total }

/-- A READY bank behind an OPEN hood, its last firing long past. -/
def readyBank : BankRec :=
  { powerOnBank with state := .ready, count := 2, conditioned := true, readySince := some 0, hood := ⟨.opened, none⟩ }

/-! ### Labels and gaps (The Leaf Table and Foliation, worked labels and worked gap runs) -/

/-- The plan of the worked labels. -/
def workedPlan : List Segment :=
  [⟨1, 4, .roman, 1, []⟩, ⟨5, 20, .paginated, 1, []⟩, ⟨21, 22, .plate, 1, []⟩, ⟨23, 38, .paginated, 33, []⟩]

theorem test_label_roman : faceLabel workedPlan 40 4 true = ascii "viii".toList := by decide
theorem test_label_paginated : faceLabel workedPlan 40 38 true = ascii "p. 64".toList := by decide
theorem test_label_plate_verso : faceLabel workedPlan 40 21 true = ascii "pl. 1 verso".toList := by decide
theorem test_label_outside_segments : faceLabel workedPlan 40 39 false = ascii "[39]r".toList := by decide
theorem test_label_board : faceLabel workedPlan 40 41 false = ascii "back pastedown".toList := by decide

/-- The table of the worked gap runs: faces 0 to 15. -/
def workedFaces : List Face :=
  [⟨.external, 0, none⟩, ⟨.shot, 1, some 1⟩, ⟨.shot, 1, some 1⟩, ⟨.opened, 0, none⟩, ⟨.opened, 0, none⟩,
   ⟨.skipped .blank, 0, none⟩, ⟨.wanted, 1, some 1⟩, ⟨.shot, 1, some 1⟩, ⟨.opened, 0, none⟩, ⟨.opened, 0, none⟩,
   ⟨.wanted, 1, some 1⟩, ⟨.shot, 1, some 1⟩, ⟨.shot, 1, some 1⟩, ⟨.opened, 0, none⟩, ⟨.opened, 0, none⟩,
   ⟨.external, 0, none⟩]

theorem test_gap_runs_all : gapRuns workedFaces 0 none = [(3, 4), (6, 6), (8, 10), (13, 14)] := by decide
theorem test_gap_runs_from_9 : gapRuns (workedFaces.drop 9) 9 none = [(9, 10), (13, 14)] := by decide
theorem test_gap_runs_from_15 : gapRuns (workedFaces.drop 15) 15 none = [] := by decide
theorem test_skip_leaves_a_skipped_face :
    faceAfterMark .skip .missing (.skipped .blank) = .skipped .blank := by decide
theorem test_leaf_mark_skip :
    replyFields (after (.leafMark 1#8 2 true true (some .skip) (some (some .blank))) bound)
      = some (.leafMark false false (.skipped .blank) (.skipped .blank) false) := by decide

/-! ### Plates and turns (Platen, Plates and Page Turning, worked plate targets and worked turn) -/

/-- N = 300 leaves of 120 µm at an opening. -/
def thick (k : Nat) : State := { State.reset with volume.leafCount := 300, volume.thickness := 120, volume.k := k }

theorem test_plates_at_57 : plateTargets (thick 57) 57 = ⟨33160, 10840⟩ := by decide
theorem test_plates_at_58 : plateTargets (thick 58) 58 = ⟨33040, 10960⟩ := by decide
theorem test_plates_clamped :
    plateLimits { State.reset with volume.leafCount := 2000, volume.thickness := 30 } 0 = ⟨false, true⟩
      ∧ plateTargets { State.reset with volume.leafCount := 2000, volume.thickness := 30 } 0 = ⟨40000, 0⟩ := by
  decide +kernel
theorem test_turn_refuses_open_faces : result (after (.turn 0x2C#8 false) bound) = some .facesOpen := by decide
theorem test_turn_takes_a_number_and_a_slot :
    (after (.turn 0x2C#8 true) bound).volume.turnSeq = 1
      ∧ (after (.turn 0x2C#8 true) bound).queue.reserved = 1 := by decide
theorem test_turn_raises_the_platen :
    (after (.turn 0x2C#8 true) bound).motion.platen = .raising
      ∧ (after (.turn 0x2C#8 true) bound).motion.dwell = none := by decide
/-- Step 4 of the worked turn. -/
theorem test_reach_ends_at_the_pick_side :
    let t := runMotion (activate .armRight (turning .reach (some 3000000)))
    t.motion.suction = true ∧ (t.motion.turn.map fun u => (u.stage, u.attempts)) = some (.grip, 1) := by decide
/-- Step 5 of the worked turn. -/
theorem test_grip_timeout_uses_a_retry :
    let t := after .gripTimeout (turning .grip (some 1000000))
    (t.motion.turn.map fun u => (u.stage, u.retries, u.regripAir)) = some (.grip, 1, true)
      ∧ t.motion.air = true ∧ t.volume.gripRetries = 1 := by decide
/-- Step 6 of the worked turn. -/
theorem test_grip_counts_the_handling :
    let t := runMotion (activate .vacuumOk (turning .grip (some 2000000)))
    (getLeaf t 2).handled = 1 ∧ (t.motion.turn.map fun u => u.stage) = some .sweep := by decide
/-- Step 8 of the worked turn. -/
theorem test_double_pick_returns_to_air :
    let t := runMotion (activate .armRight
      (turningWith .sweep (some 2000000) fun u => { u with recovery := true, retries := 1 }))
    (t.motion.turn.map fun u => (u.stage, u.retries, u.doublePicks)) = some (.air, 0, 1)
      ∧ t.volume.doublePicks = 1 ∧ t.motion.suction = false := by decide
/-- Step 13 of the worked turn. -/
theorem test_verify_makes_the_opening :
    let t := runMotion (turningWith .verify (some 2000000) fun u => { u with noted := true })
    t.volume.k = 2 ∧ (t.motion.turn.map fun u => u.stage) = some .adjust := by decide
/-- The double pick without a retry, after the worked turn: ABANDONED_SAFE in SWEEP, UNKNOWN, suction kept on. -/
theorem test_double_pick_without_a_retry :
    let t := runMotion (activate .doubleLeaf
      { turningWith .sweep (some 2000000) fun u => { u with retries := 0 } with motion.suction := true })
    t.safe.flag = true ∧ t.motion.turn = none ∧ t.volume.known = false ∧ t.motion.keptOn = true := by decide

/-- R46: a DOWN platen is trimmed back to its band, but not from above the limit. -/
theorem test_retrim_outside_the_band :
    retrimming { bound with motion.pressure := 24 } = true ∧ retrimming { bound with motion.pressure := 25 } = false
      ∧ retrimming { bound with motion.pressure := 80 } = true
      ∧ retrimming { bound with motion.pressure := 81 } = false := by decide

/-! ### Lamps (Flash Banks and Aim Lamps, worked sequence of a BOTH capture) -/

/-- Banks A to D READY, the left sync edge at 10,000 and the right one at 10,400. -/
def spaced : State :=
  let s : State := { State.reset with lamps.banks := ⟨readyBank, readyBank, readyBank, readyBank⟩ }
  let s1 := askFiring (askFiring s .a 10000 500 1000 (some 1)) .b 11500 500 1000 (some 1)
  askFiring (askFiring s1 .c 10400 500 1000 (some 1)) .d 11900 500 1000 (some 1)

theorem test_spacing_of_the_worked_capture :
    (spaced.lamps.grants.map fun g => (g.bank, g.time))
      = [(.a, 10000), (.b, 11500), (.c, 13000), (.d, 14500)] := by decide
/-- R71, R72: a bank given ON charges for at most 4,000 ms. -/
theorem test_bank_power_on :
    (getBank (after (.bankPower 1#8 ⟨true, false, false, false⟩ (some true)) bound) .a).deadline
      = some 5000000 := by decide
/-- R71 check 1. -/
theorem test_bank_power_command :
    result (after (.bankPower 1#8 ⟨true, false, false, false⟩ none) bound) = some .badField := by decide
/-- R71, R81: each entry to OFF is reported, from OFF itself too; the reports of two banks come A first (log 17). -/
theorem test_bank_power_off_reports :
    (after (.bankPower 1#8 ⟨true, false, true, false⟩ (some false))
        { bound with lamps.banks.c := readyBank }).queue.reports.map (fun r => r.body)
      = [.bankState .a .off .off 1000000 .power, .bankState .c .ready .off 1000000 .power] := by decide
/-- R80: 2,500 ms is clamped to 2,000 ms. -/
theorem test_bank_set_clamps :
    replyFields (after (.bankSet 1#8 ⟨false, true, false, false⟩ 2500) bound)
      = some (.bankSet ⟨600, 2000, 600, 600⟩ true) := by decide
/-- R87: a level of 0 stays 0, one below 50 becomes 50. -/
theorem test_recipe_set_clamps :
    (getRecipe (after (.recipeSet 1#8 0 ⟨0, 49, 1001, 50⟩ 99) bound) 0) = ⟨⟨0, 50, 1000, 50⟩, 100⟩ := by decide
/-- Worked waking, last sentence: a standby of at most 30 min leads to READY. -/
theorem test_waking_to_ready :
    (getBank (after (.wakingEnd .a)
      { bound with
        time.clock := 1800400000
        lamps.banks.a := { readyBank with
          state := .waking, standbySince := some 0, deadline := some 1800400000, hood := closedHood } }) .a).state
      = .ready := by decide
/-- Worked waking: 35 min lead to CONDITIONING with the flag cleared. -/
theorem test_waking_to_conditioning :
    let t := after (.wakingEnd .a)
      { bound with
        time.clock := 2100400000
        lamps.banks.a := { readyBank with
          state := .waking, standbySince := some 0, deadline := some 2100400000, hood := closedHood } }
    (getBank t .a).state = .conditioning ∧ (getBank t .a).conditioned = false := by decide

/-- R69: the count of a READY bank stands through STANDBY. -/
theorem test_standby_keeps_the_count :
    (getBank (enterStandby (modifyBank bound .a fun _ => readyBank) .a .idle) .a).count = 2 := by decide
/-- R88: LAMP_QUERY gives standby-since in STANDBY alone. -/
theorem test_lamp_query_standby_since :
    (bankRecord { readyBank with standbySince := some 5 }).standbySince = none
      ∧ (bankRecord { readyBank with state := .standby, standbySince := some 5 }).standbySince = some 5 := by decide

/-! ### Light (Light Dose Accounting, tables and worked cases) -/

theorem test_illuminance_just_below_full :
    illuminance ⟨[0, 0, 0, 0, 0, 0, 0, 0, 0, 170000, 180000], 0⟩ 999 = 179900 := by decide
theorem test_illuminance_rounds_down :
    illuminance ⟨[0, 0, 0, 0, 0, 0, 60000, 60007, 60007, 60007, 60007], 0⟩ 650 = 60003 := by decide
theorem test_dose_least_flash : ownDose 1 100 = 1 ∧ spillDose 1 1 = 1 := by decide
theorem test_dose_greatest_flash : ownDose 200000 20000 = 4000000 ∧ spillDose 4000000 255 = 3984375 := by decide
/-- The worked BOTH capture: the predicted increments of the two leaves. -/
theorem test_precheck_increments :
    (match precheck (withDoses 14900000 6000000 900000000 (calibrate bound)) 1 1 .both ⟨650, 0, 640, 0⟩ 1200 with
    | .ok p => (entriesFor p.entries 1, entriesFor p.entries 2)
    | .error _ => (0, 0)) = (91308, 87357) := by decide
/-- The same at 14,950,000: DOSE_CEILING for the left leaf. -/
theorem test_precheck_ceiling :
    (match precheck (withDoses 14950000 6000000 900000000 (calibrate bound)) 1 1 .both ⟨650, 0, 640, 0⟩ 1200 with
    | .ok _ => none
    | .error f => some f) = some (.leftLeaf 14950000 91308 15000000) := by decide
/-- The same at 14,908,692: the sum equals the ceiling and passes. -/
theorem test_precheck_at_the_ceiling :
    (match precheck (withDoses 14908692 6000000 900000000 (calibrate bound)) 1 1 .both ⟨650, 0, 640, 0⟩ 1200 with
    | .ok _ => true
    | .error _ => false) = true := by decide

/-- Both aim lamps lit at 300 over guard 100, the left leaf at a dose. -/
def aiming (dose : Nat) : State :=
  { withDoses dose 9000000 0 (calibrate bound) with
    time.aimDue := true
    lamps.aims := ⟨⟨300, 100, 0, true, ⟨.opened, none⟩⟩, ⟨300, 100, 0, true, ⟨.opened, none⟩⟩⟩ }

/-- Worked aim lamps, tick 1: guard levels, 888 and 963. -/
theorem test_aim_tick_at_the_guard :
    let t := after .aimTick (aiming 14798000)
    (getLeaf t 1).dose = 14798888 ∧ (getLeaf t 2).dose = 9000963 ∧ t.dose.outcome = ⟨.guard, .guard⟩ := by decide +kernel
/-- Worked aim lamps, tick 3: AIM_L dark, AIM_R at its guard. -/
theorem test_aim_tick_darkens_the_left_lamp :
    let t := after .aimTick (aiming 14799776)
    t.lamps.aims.l.applied = 0 ∧ t.lamps.aims.r.applied = 100 ∧ (getLeaf t 1).dose = 14799864 := by decide

/-! ### Captures (Capture Sequencing) -/

/-- R119: WAITING sides, pulses of 100 µs, the lighting interval. -/
theorem test_arm_test_triggers :
    let t := armTest (calibrate (shooting (capture none (sideAt .arming) (sideAt .arming))))
      (capture none (sideAt .arming) (sideAt .arming))
    t.seq.pulses = ⟨some 1000100, some 1000100⟩ ∧ t.lamps.interval = some 1 := by decide
/-- R120: an edge 1 µs before the window opens is early, one as it opens is a sync. -/
theorem test_sync_early :
    (getSide (syncEdge (shooting (capture (some 0) (sideAt .waiting) (sideAt .waiting))) .left 1999) .left).map
      (fun x => x.stage) = some (.ended .earlySync) := by decide
theorem test_sync_in_the_window :
    (getSide (syncEdge (shooting (capture (some 0) (sideAt .waiting) (sideAt .waiting))) .left 2000) .left).map
      (fun x => x.stage) = some .firing := by decide
/-- R24: the left page of opening 1 is face 3, leaf 1 verso. -/
theorem test_stored_confirms :
    let t := storedEdge (shooting (capture (some 0) (sideAt .storing) (sideAt .waiting))) .left
    (getLeaf t 1).verso = ⟨.shot, 1, some 1⟩ ∧ t.volume.facesConfirmed = 1 := by decide
/-- R115: 100,001 µs past the not-before time is late, 100,000 µs is not. -/
theorem test_late_by_a_microsecond :
    isLate { State.reset with time.clock := 200001 } { bothOrder with notBefore := some 100000 } = true
      ∧ isLate { State.reset with time.clock := 200000 } { bothOrder with notBefore := some 100000 } = false := by
  decide
/-- R111 check 6. -/
theorem test_shoot_sequence_exhausted :
    result (after (.shoot 1#8 7 (some .both) 0 (some .normal) none)
      { calibrate bound with volume.captureSeq := 65535 }) = some .seqExhausted := by decide
/-- R111 check 9: banks B and D are uncalibrated. -/
theorem test_shoot_not_calibrated :
    result (after (.shoot 1#8 7 (some .both) 0 (some .normal) none) (calibrate bound)) = some .notCalibrated := by
  decide

/-! ### Time and idle (Timebase and Timers, worked silence) -/

/-- The boundary at 1,920 ms at tap 1 is the eighth. -/
theorem test_eighth_boundary :
    (periodBoundary { State.reset with
      time.ms := 1920, time.tap := 1, link.silence := .armed, link.boundaries := 7 }).link.boundaryDue = true := by
  decide
/-- The boundary at 1,408 ms is counted at tap 1, and then tap 3 takes effect. -/
theorem test_tap_takes_effect_at_a_boundary :
    let t := periodBoundary { State.reset with
      time.ms := 1408, time.tap := 1, time.pendingTap := some 3, link.silence := .armed }
    t.link.boundaries = 1 ∧ t.time.tap = 3 ∧ t.time.pendingTap = none := by decide
/-- R139: LINK_SILENT enters the safe state and leaves the timer WAITING. -/
theorem test_link_silent :
    let t := after .linkSilent { bound with link.silence := .armed, link.boundaries := 7, link.boundaryDue := true }
    t.safe.flag = true ∧ t.link.silence = .waiting ∧ t.link.boundaries = 0 := by decide
/-- R141: 5 s is stored as 10 s. -/
theorem test_idle_set_clamps :
    replyFields (after (.idleSet 1#8 5) bound) = some (.idleSet 10 true) := by decide
/-- Worked unattended opening, 395: READY banks go to STANDBY and hoods close. -/
theorem test_idle_entry :
    let t := after .idleTimerExpiry
      { bound with
        time.clock := 300000000, time.idleStart := some 0, lamps.banks.a := readyBank }
    t.time.idle = true ∧ (getBank t .a).state = .standby ∧ (getBank t .a).hood.state = .closing := by decide
/-- Worked unattended opening, 1,500: 1,105,000 ms in IDLE. -/
theorem test_wake_report :
    ((wake { bound with time.clock := 1500000000, time.idle := true, time.idleSince := some 395000000 }
      (.line 14)).queue.reports.map fun r => r.body) = [.wake (.line 14) 1500000000 1105000] := by decide

/-- R133: after the wrap a reply gives the 48-bit value. -/
theorem test_time_reply_wraps :
    replyFields (after (.volumeQuery 1#8)
        { bound with volume.openTime := some 281474976710661, volume.leafCount := 4 })
      = some (.volumeQuery { bound.volume with openTime := some 5 }) := by decide

/-! ### Lines and holds (Lines, worked sequence of two hold switches) -/

/-- L20 low at 100 ms: the hold is in force with its report. -/
theorem test_hold_switch :
    let t := after (.acceptedEdge 20)
      (modifyLine { State.reset with time.clock := 100000 } 20 fun l =>
        { l with pin := some false, change := some (false, 100000) })
    t.lines.hold = some ⟨20, 100000⟩ ∧ t.queue.reports.map (fun r => r.body) = [.holdOn 20 100000] := by decide
/-- L21 at 350 ms: the LEVEL line is set again by the clear, with a LINE_EVENT. -/
theorem test_clear_of_an_active_level_line :
    let t := after (.lineClear 1#8 0x200000#32)
      (modifyLine State.reset 21 fun l => { l with event := true, level := false, raw := true, latch := true })
    (getLine t 21).raw = true ∧ (getLine t 21).latch = true ∧ t.queue.reports.length = 1 := by decide
/-- L21 high at 500 ms: released after 400 ms, the edge not counted. -/
theorem test_hold_release :
    let t := after (.acceptedEdge 21)
      (modifyLine { State.reset with time.clock := 500000, lines.hold := some ⟨20, 100000⟩ } 21 fun l =>
        { l with level := false, raw := true, count := 1, pin := some true, change := some (true, 500000) })
    t.lines.hold = none ∧ (getLine t 21).count = 1
      ∧ t.queue.reports.map (fun r => r.body) = [.holdOff 21 500000 400] := by decide
/-- R152 check: both-edges cannot be set on a LEVEL line. -/
theorem test_line_config_both_edges :
    result (after (.lineConfig 1#8 24 (some .inp) (some .up) (some .pushPull) (some .level) (some .risingHigh)
      true 0 false false false) bound) = some .badField := by decide
/-- R156: READY_LAMP is bound to L19. -/
theorem test_line_bind_elsewhere :
    result (after (.lineBind 1#8 (some .readyLamp) (some 18)) bound) = some .boundElsewhere := by decide

/-- R146, R151: a released OPEN_LOW line stands high by its pull-up, and low by a pull-down, which acts on no OUT line. -/
theorem test_released_pin :
    pinLevel { getLine State.reset 18 with drive := .openLow, staged := true, pull := .up } = true
      ∧ pinLevel { getLine State.reset 18 with drive := .openLow, staged := true, pull := .down } = false := by decide
/-- R147: with a debounce of 0 the edge is accepted at the moment it appears. -/
theorem test_edge_without_debounce :
    let t := after (.pinLevelChange 12 false) State.reset
    (getLine t 12).level = false ∧ (getLine t 12).count = 1 := by decide

/-- R161, R185: L20 and L22 active at a soft reset, L22 with its event enabled: the LINE_EVENT is number 1, the HOLD_ON
number 2 and names L20. -/
theorem test_soft_reset_reports :
    let t := after .softReset (modifyLine (setLevel 20 false (setLevel 22 false bound)) 22 fun l => { l with event := true })
    t.lines.hold = some ⟨20, 1000000⟩
      ∧ t.queue.reports.map (fun r => (r.seq, r.body))
        = [(1, .lineEvent 22 none .level .level false 0 1000000), (2, .holdOn 20 1000000)] := by decide +kernel

/-- R59: a HELD turn whose stage is met stays where it is; R56 and R57: a running one at the verified far side with the arm
at HOME goes on to ADJUST at once. -/
theorem test_stages_end_one_after_another :
    let held := activate .armRight (turningWith .reach none fun t => { t with held := true })
    let t := runMotion (turningWith .verify none fun t => { t with noted := true })
    runMotion held = held ∧ (t.motion.turn.map fun u => u.stage) = some .adjust ∧ t.volume.k = 2 := by decide

/-! ### Faults (Holds, Faults and the Safe State) -/

/-- R170: with no safe state in force CLEAR_SAFE is WRONG_STATE. -/
theorem test_clear_safe_wrong_state : result (after (.clearSafe 1#8) bound) = some .wrongState := by decide
/-- R167, R163: the first fault is at position 1. -/
theorem test_safe_enters :
    replyFields (after (.safe 1#8) bound) = some (.safe true 1 0)
      ∧ (after (.safe 1#8) bound).motion.platen = .raising := by decide

/-- R125: the record of a flushed order has its acceptance time and no other. -/
theorem test_flushed_order_times :
    (flushedReport bothOrder).armedAt = none ∧ (flushedReport bothOrder).t0 = none
      ∧ (flushedReport bothOrder).ended = none := by decide

/-! ### The link and the report queue (Host Link, worked admission; Frame and Record Layouts) -/

/-- The check value the manual gives for "123456789". -/
theorem test_crc : crc16 (ascii "123456789".toList) = 0x29B1#16 := by decide +kernel
/-- The worked frame: length 1, kind 0x22, tag 0x2C, payload 1. -/
theorem test_worked_frame :
    (frameBytes ⟨0x22#8, 0x2C#8, [1#8]⟩).take 5 = [0xA5#8, 1#8, 0x22#8, 0x2C#8, 1#8] := by decide
theorem test_worked_frame_is_a_turn : decodeRequest ⟨0x22#8, 0x2C#8, [1#8]⟩ = some (.turn 0x2C#8 true) := by decide
/-- R188: TURN with an empty payload is BAD_LENGTH, kind 0x17 BAD_KIND. -/
theorem test_bad_length : frameRefusal ⟨0x22#8, 0#8, []⟩ = some .badLength := by decide
theorem test_bad_kind : frameRefusal ⟨0x17#8, 0#8, []⟩ = some .badKind := by decide

/-- R176, R186, R189: a refused LOWER answers with the high bit of its kind, its tag, the code and the summary. -/
theorem test_reply_bytes_of_a_refusal :
    ((after (.lower 5#8) State.reset).link.reply.map fun r => (replyBytes r).take 6)
      = some [0xA5#8, 2#8, 0xA0#8, 5#8, BitVec.ofNat 8 (resultCode .noVolume), 0#8] := by decide +kernel
/-- R187, R189: a BAD_FIELD reply is as long as the field that it names. -/
theorem test_reply_bytes_of_a_bad_field :
    ((after (.idleSet 5#8 5) State.reset).link.reply.map fun r => (replyBytes r).take 3)
      = some [0xA5#8, 5#8, 0x89#8] := by decide +kernel
/-- R187: the presence byte stands at the head: AIM_L alone, its request alone, 300. -/
theorem test_aim_set_layout :
    decodeRequest ⟨0x32#8, 7#8, [1#8, 1#8, 0x2C#8, 1#8, 0#8, 0#8]⟩
      = some (.aimSet 7#8 ⟨true, false⟩ (some 300) none) := by decide

/-- A queue of `n` reports with a miss count and `r` reservations, the last sequence issued 4,099. -/
def queued (n r missed : Nat) : State :=
  { State.reset with queue := ⟨List.replicate n ⟨0, 0, 0, .idle 0 0⟩, r, 4099, missed⟩ }

/-- Worked admission: 46 + 1 is admitted with number 4,100, 47 + 1 is missed, 48 is room for a HOLD_ON. -/
theorem test_minor_admitted : (offerMinor (queued 46 1 0) (.idle 0 0)).queue.lastSeq = 4100 := by decide
theorem test_minor_missed :
    (offerMinor (queued 47 1 0) (.idle 0 0)).queue.missed = 1
      ∧ (offerMinor (queued 47 1 0) (.idle 0 0)).queue.lastSeq = 4099 := by decide
theorem test_major_admitted : (offerMajor (queued 47 1 1) (.holdOn 0 0)).queue.reports.length = 48 := by decide
theorem test_miss_count_is_carried :
    ((offerMinor (queued 41 0 1) (.idle 0 0)).queue.reports.getLast?.map fun r => r.missed) = some 1 := by decide

/-! ### Volumes (Volumes and Shelf Marks, worked short volume) -/

/-- Step 1: six leaf records, ten faces. -/
theorem test_load :
    replyFields (after (.volumeLoad 1#8 (ascii "Pamph. 1204 (2)".toList) 0 4 180 200000 3000000 3 10000) State.reset)
      = some (.volumeLoad 6 10) := by decide
/-- Step 2: k = 7 is BAD_FIELD. -/
theorem test_open_beyond :
    replyFields (after (.volumeOpen 1#8 7) { bound with volume.state := .loaded })
      = some (.badField .opening) := by decide
/-- Step 5: the first failing leaf with its sum. -/
theorem test_set_below_a_dose :
    replyFields (after (.volumeSet 1#8 (some 150000) none none none none) (withDoses 182000 0 182000 bound))
      = some (.ceilingBelow (some 1) 182000) := by decide
/-- Step 7: GAPS with the count and the first run. -/
theorem test_close_with_gaps :
    replyFields (after (.volumeClose 1#8 false) bound) = some (.gapsFound 10 1 10) := by decide
/-- Step 8: FORCE closes INCOMPLETE. -/
theorem test_close_forced :
    (after (.volumeClose 1#8 true) bound).volume.closeStatus = some .incomplete := by decide

/-! ### Witnesses: concrete states and operands that meet the hypotheses of the statements

Where a hypothesis only names a state or a value (`a = awake k s`, `w = …`), the witness is that state or value;
the theorem then shows that the request is taken. -/

/-- A capture FIRING on the left and WAITING on the right, an order behind it, a firing credited and two granted;
a STATUS request waits. -/
def busy : State :=
  { shooting (capture (some 1000000) (sideAt .firing) (sideAt .waiting)) with
    queue.reserved := 2
    seq.orders := [bothOrder]
    dose.prediction := some ⟨1, 1, [⟨.a, 650, 1200, 66000, 1, 79200, 2, 11757, false⟩]⟩
    lamps.banks := ⟨{ readyBank with latest := some 1002000 }, powerOnBank,
      { readyBank with latest := some 1003500 }, powerOnBank⟩
    lamps.grants := [⟨.a, 1002000, 650, 1200, some 1⟩, ⟨.c, 1003500, 640, 1200, some 1⟩]
    pending := [.status 0#8] }

/-- A turn in GRIP; a STATUS request waits. -/
def gripping : State := { turning .grip (some 2000000) with pending := [.status 0#8] }

theorem lineOf_busy (f : Fn) : lineOf busy f = some (fnCode f) := by cases f <;> rfl

theorem fnCode_injective (f g : Fn) (h : fnCode f = fnCode g) : f = g := by
  cases f <;> cases g <;> first | rfl | (simp [fnCode] at h)

theorem busy_steps : ∃ t, step busy = .next t := ⟨_, rfl⟩

theorem gripping_steps : ∃ t, step gripping = .next t := ⟨_, rfl⟩

/-- No hold switch active; L20 alone; L21 before L22. -/
theorem witness_PowerOnResetGivesThePowerOnValues :
    (∀ i, 20 ≤ i → i < 24 → (getLine State.reset i).pin ≠ some false)
      ∧ (getLine (setLevel 20 false State.reset) 20).pin = some false
      ∧ (∀ s : State, s = setLevel 22 false (setLevel 21 false State.reset) →
        (getLine s 21).pin = some false ∧ ∀ j, 20 ≤ j → j < 21 → (getLine s j).pin ≠ some false) := by
  refine ⟨?_, by decide, ?_⟩
  · intro i h1 h2; interval_cases i <;> decide
  · rintro s rfl
    refine ⟨by decide, fun j h1 h2 => ?_⟩
    interval_cases j; decide

theorem witness_ReportSlotsNeverExceed64 : queueInv busy := by unfold queueInv; decide

theorem gripping_volume : volumeInv gripping := by
  unfold volumeInv
  and_intros
  any_goals decide
  intro c h
  simp [gripping, turning, bound, activate, setLevel, modifyLine, State.reset, powerOnSequencer] at h

theorem witness_OpeningAndNumbersStayInTheVolume : volumeInv gripping := gripping_volume

theorem witness_FacesKeepTheirLaws : volumeInv gripping ∧ leafInv gripping :=
  ⟨witness_OpeningAndNumbersStayInTheVolume, by unfold leafInv faceLaw; decide⟩

/-- The capture of `busy` is past its test, and both firings granted are its own. -/
theorem busy_volume : volumeInv busy := by
  unfold volumeInv
  and_intros
  any_goals decide
  intro c h
  obtain rfl := Option.some.inj h
  exact ⟨by decide, fun h0 => by simp [capture] at h0⟩

theorem witness_AimLampsAreLitInTheirConditionAlone : aimInv busy := by unfold aimInv aimLaw; decide

theorem witness_NoDoseEverExceedsItsCeiling :
    volumeInv busy ∧ predictionInv busy ∧ aimInv busy ∧ accountInv busy := by
  refine ⟨busy_volume, ?_, witness_AimLampsAreLitInTheirConditionAlone, by unfold accountInv; decide⟩
  intro p h
  obtain rfl := Option.some.inj h
  exact ⟨⟨_, rfl, rfl⟩, by decide, by decide⟩

/-- In the safe state with one fault. -/
def faulted : State := { after (.safe 1#8) bound with pending := [.status 0#8] }

theorem witness_SafeStateHoldsItsFaults : safeInv faulted ∧ safeInv gripping := by unfold safeInv; decide

theorem witness_PlatenStaysRaisedWhileTheArmIsOut : safeInv gripping ∧ platenInv gripping := by
  refine ⟨witness_SafeStateHoldsItsFaults.2, by decide, by decide, ?_⟩
  intro t h; obtain rfl := Option.some.inj h; decide

theorem busy_binding : bindingInv busy := by
  refine ⟨by decide, by decide, ?_, ?_⟩
  · intro f i h; rw [lineOf_busy] at h; cases f <;> (simp [fnCode] at h; omega)
  · intro f g i hf hg
    rw [lineOf_busy] at hf hg
    exact fnCode_injective f g (Option.some.inj (hf.trans hg.symm))

/-- An output function, an input function and a line with no function, L20, active at the reset. -/
theorem witness_SoftResetKeepsAndClears :
    bindingInv busy ∧ lineOf busy .attention = some 18 ∧ lineOf busy .armHome = some 6
      ∧ (∀ f, lineOf busy f ≠ some 20) ∧ (getLine (setLevel 20 false busy) 20).pin = some false := by
  refine ⟨busy_binding, rfl, rfl, fun f => ?_, by decide⟩
  cases f <;> decide

theorem witness_OutputLinesShowTheirFunctions : outputInv busy := by
  refine ⟨busy_binding, ?_, ?_, ?_, ?_, by decide⟩ <;>
    (intro i h; rw [lineOf_busy] at h; obtain rfl := Option.some.inj h; decide)

theorem witness_FiringsOfTwoBanksKeepTheirSpacing : spacingInv busy := by
  refine ⟨by decide, ?_⟩
  intro x hx
  have : x = (.a, 1002000) ∨ x = (.c, 1003500) := by
    revert x; decide
  rcases this with rfl | rfl
  · exact ⟨1002000, rfl, by decide⟩
  · exact ⟨1003500, rfl, by decide⟩

theorem witness_SettingsStayInTheirRanges : settingsInv busy := by
  refine ⟨by unfold profileLaw within; decide, ?_, ?_, by decide, ?_, ?_, by decide, .inr (by unfold within; decide),
    by decide, ?_, by decide⟩
  · intro bk; cases bk <;> (unfold within; decide)
  · intro sd; cases sd <;> decide
  · intro r hr
    have : r = powerOnRecipe := by
      simpa [busy, shooting, bound, activate, setLevel, modifyLine, State.reset, powerOnLamps, Config.recipeCount]
        using hr
    subst this
    exact ⟨by unfold within; decide, fun bk => .inr (by cases bk <;> (unfold within; decide))⟩
  · intro sd; cases sd <;> (unfold within; decide)
  · intro t h; simp [busy, shooting, bound, activate, setLevel, modifyLine, State.reset, powerOnTime] at h

theorem witness_CountsStayInTheirRanges : countsInv busy := by
  unfold countsInv
  and_intros
  any_goals decide
  intro bk; cases bk <;> decide

/-- Nothing due, a tick due, a 10 ms tick start due. -/
theorem witness_StepWithNothingWaiting :
    State.reset.pending = [] ∧ dueEvents State.reset = [] ∧ State.reset.time.phase < 1000
      ∧ dueEvents { State.reset with time.phase := 1000 } = []
      ∧ dueEvents { State.reset with time.aimDue := true } = [.aimTick] := by decide +kernel

/-- The shortest request and the longest. -/
theorem witness_AReceivedFrameIsTheFrameSent :
    frameRefusal ⟨0x01#8, 7#8, []⟩ = none
      ∧ frameRefusal ⟨0x1B#8, 7#8, List.replicate 240 0#8⟩ = none ∧ (List.replicate 240 0#8).length ≤ 240
      ∧ State.reset.link.assembly = none ∧ State.reset.link.receiver = .hunt ∧ State.reset.link.buffer = []
      ∧ State.reset.link.deciding = none ∧ State.reset.link.reply = none ∧ State.reset.link.silence = .off := by
  decide +kernel

/-- A frame in assembly, 2 ms after its last byte. -/
def receiving (bs : List Byte) : State := { bound with time.clock := 2000, link.assembly := some ⟨bs, 0⟩ }

/-- A reply being sent, with frames behind it. -/
def replying (kind : Byte) (fs : List Frame) : State :=
  { bound with link.reply := some ⟨kind, 0#8, .accepted, 0#8, .none⟩, link.buffer := fs }

theorem witness_BytesGapsFramesAndRepliesSent :
    bound.link.assembly = none
      ∧ ((receiving [5#8]).link.assembly = some ⟨[5#8], 0⟩ ∧ (receiving [5#8]).time.clock ≤ 0 + 2000)
      ∧ 240 < (([] ++ [241#8] : List Byte).headD 0#8).toNat
      ∧ ((([] ++ [240#8] : List Byte).headD 0#8).toNat ≤ 240
        ∧ ([] ++ [240#8] : List Byte).length < 5 + (([] ++ [240#8] : List Byte).headD 0#8).toNat)
      ∧ 0 + 2000 ≤ (receiving [5#8]).time.clock
      ∧ 0 + 2000 < ({ receiving [5#8] with time.clock := 2001 } : State).time.clock
      ∧ (replying 0x86#8 []).link.deciding = none
      ∧ frameRefusal ⟨0x01#8, 0#8, []⟩ = none ∧ frameRefusal ⟨0x17#8, 0#8, []⟩ = some .badKind
      ∧ (replying 0x81#8 [⟨0x01#8, 0#8, []⟩]).link.buffer.length < 2
      ∧ (replying 0x81#8 [⟨0x01#8, 0#8, []⟩]).link.boundaryDue = false
      ∧ 2 ≤ (replying 0x81#8 [⟨0x01#8, 0#8, []⟩, ⟨0x17#8, 0#8, []⟩]).link.buffer.length
      ∧ [0#8, 0#8] ≠ checkBytes (crc16 (frameBody ⟨0x01#8, 7#8, []⟩)) := by decide +kernel

/-- `bound` in IDLE. -/
def idling : State := { bound with time.idle := true, time.idleSince := some 0, time.idleStart := none }

theorem witness_AWakeFollowsItsOrder :
    restartingKind (.lower 0#8) = some 0x20#8 ∧ idling.time.idle = true
      ∧ idling.queue.reports.length + idling.queue.reserved < 48
      ∧ (queued 47 0 0).queue.reports.length + (queued 47 0 0).queue.reserved < 48 := by decide

theorem witness_ARefusedRequestChangesNothing :
    ∃ t b f, exec (.lower 5#8) State.reset = .next t ∧ t.link.reply = some ⟨0xA0#8, 5#8, .noVolume, b, f⟩ :=
  ⟨_, _, _, rfl, rfl⟩

theorem witness_QueriesAnswerWhatStands :
    result (after (.leafQuery 1#8 5 8) bound) = some .accepted
      ∧ result (after (.gapsQuery 1#8 11) bound) = some .accepted
      ∧ result (after (.planQuery 1#8 24) bound) = some .accepted
      ∧ result (after (.recipeQuery 1#8 7) bound) = some .accepted
      ∧ result (after (.doseQuery 1#8) bound) = some .accepted
      ∧ result (after (.volumeQuery 1#8) bound) = some .accepted := by decide

theorem witness_CalibrationRecordsAreLoadedAndShown :
    result (after (.lampCal 1#8 (some (.bank .d)) (List.replicate 11 200000) 255) bound) = some .accepted
      ∧ result (after (.lampCal 1#8 (some (.aim .left)) (List.replicate 11 5000) 0) bound) = some .accepted
      ∧ result (after (.calQuery 1#8 (some (.aim .right))) bound) = some .accepted := by decide

theorem witness_LineReadsAnswerAndChangeNoConfiguration :
    result (after (.lineRead 1#8) bound) = some .accepted
      ∧ result (after (.lineCounts 1#8 0x80000001#32) bound) = some .accepted
      ∧ result (after (.lineQuery 1#8 31) bound) = some .accepted := by decide

theorem witness_ReportsAreAdmittedByTheirClass :
    (queued 63 0 0).queue.reports.length + (queued 63 0 0).queue.reserved < 64
      ∧ ¬ (queued 63 1 0).queue.reports.length + (queued 63 1 0).queue.reserved < 64
      ∧ (queued 40 7 0).queue.reports.length + (queued 40 7 0).queue.reserved < 48
      ∧ ¬ (queued 40 8 0).queue.reports.length + (queued 40 8 0).queue.reserved < 48 := by decide

/-- A first FAULT report that waits for room. -/
def pendingFault (n : Nat) : State :=
  { queued n 0 0 with
    safe := ⟨true, [⟨.operator, 0, none, none, 0, false⟩], 0, some 0,
      some ⟨⟨.operator, 0, none, none, 0, false⟩, 1, 0, true⟩⟩ }

theorem witness_FetchRemovesTheOldestReports :
    (pendingFault 64).safe.pendingFirst.isSome = true
      ∧ ((pendingFault 64).queue.reports.drop (fetchCount (pendingFault 64).queue.reports 236)).length
          + (pendingFault 64).queue.reserved < 64
      ∧ (queued 64 0 0).safe.pendingFirst = none := by decide +kernel

theorem witness_LinkSetResetAndIdleSet :
    result (after (.linkSet 1#8 1 3 1) bound) = some .accepted
      ∧ result (after (.idleSet 1#8 3600) bound) = some .accepted
      ∧ result (after (.reset 1#8) bound) = some .accepted := by decide

/-- `bound` with a capture whose sides have their outcomes; nothing of it is granted. -/
def ending : State :=
  shooting (capture (some 1000000) (sideAt (.ended .noSync)) (sideAt (.ended .confirmed)))

/-- `bound` with every report slot taken. -/
def crowded : State := { bound with queue := ⟨List.replicate 64 ⟨0, 0, 0, .idle 0 0⟩, 0, 64, 0⟩ }

theorem bound_platen : platenInv bound := by
  refine ⟨by decide, by decide, ?_⟩
  intro t h; simp [bound, activate, setLevel, modifyLine, State.reset, powerOnMotion] at h

theorem witness_AFaultEntersTheSafeStateOnce :
    gripping.safe.flag = false ∧ gripping.motion.turn.isSome = true ∧ platenInv gripping
      ∧ (busy.safe.flag = false ∧ busy.lamps.interval.isSome = true ∧ platenInv busy)
      ∧ (ending.safe.flag = false ∧ platenInv ending
        ∧ ∃ c, ending.seq.capture = some c ∧ captureOver ending c = true)
      ∧ (crowded.safe.flag = false ∧ platenInv crowded
        ∧ ¬ crowded.queue.reports.length + crowded.queue.reserved < 64)
      ∧ faulted.safe.flag = true ∧ faulted.safe.faults.length < 8
      ∧ 8 ≤ (List.replicate 8 (⟨.operator, 0, none, none, 0, false⟩ : FaultRec)).length := by
  refine ⟨by decide, by decide, witness_PlatenStaysRaisedWhileTheArmIsOut.2, ⟨by decide, by decide, bound_platen⟩,
    ⟨by decide, bound_platen, _, rfl, by decide⟩, ⟨by decide, bound_platen, by decide⟩, ?_⟩
  decide

theorem witness_SafeAndClearSafe :
    result (after (.safe 1#8) faulted) = some .accepted ∧ result (after (.clearSafe 1#8) faulted) = some .accepted := by
  decide

/-- `bound` with its volume LOADED and the platen RAISED. -/
def loaded : State := { bound with volume.state := .loaded, motion.platen := .raised, motion.dwell := none }

theorem witness_VolumeLoadMakesAFreshRecord :
    result (after (.volumeLoad 1#8 [65#8] 99 2 2000 4000000000 281474976710655 255 4000000000) loaded)
      = some .accepted := by decide

theorem witness_VolumeDiscardEmptiesTheRecord :
    result (after (.volumeDiscard 1#8) loaded) = some .accepted ∧ loaded.time.idle = false
      ∧ ∃ t, exec (.volumeClose 1#8 true) bound = .next t := ⟨by decide, by decide, _, rfl⟩

theorem witness_VolumeOpenAndReseat :
    result (after (.volumeOpen 1#8 4) loaded) = some .accepted
      ∧ result (after (.reseat 1#8 4 (some 4)) { bound with motion.platen := .raised, motion.dwell := none })
        = some .accepted := by decide

theorem witness_VolumeSetKeepsCeilingsAboveDoses :
    result (after (.volumeSet 1#8 (some 182000) (some 182000) (some 255) (some 0) (some 20))
        (withDoses 182000 0 182000 bound)) = some .accepted
      ∧ 150000 < (getLeaf (withDoses 182000 0 182000 bound) 1).dose
          + outstanding (withDoses 182000 0 182000 bound) 1
      ∧ (∀ j, j < 1 → (getLeaf (withDoses 182000 0 182000 bound) j).dose
          + outstanding (withDoses 182000 0 182000 bound) j ≤ 150000)
      ∧ 181999 < (withDoses 182000 0 182000 bound).volume.totalDose
          + outstandingTotal (withDoses 182000 0 182000 bound) := by decide

/-- `bound` in the lighting interval of a capture that has ended, its last flash lit for another microsecond. -/
def lingering : State :=
  { modifyBank bound .a fun r => { r with flash := some ⟨500, 1000001, some 1⟩ } with lamps.interval := some 1 }

theorem witness_VolumeCloseProvesTheWork :
    result (after (.volumeClose 1#8 true) bound) = some .accepted
      ∧ (bound.seq.capture = none ∧ bound.seq.orders = [] ∧ bound.lamps.interval = none)
      ∧ result (after (.volumeClose 1#8 true) lingering) = some .accepted
      ∧ lingering.lamps.interval = some 1
      ∧ (getBank lingering .a).flash = some ⟨500, 1000001, some 1⟩
      ∧ gripping.volume.state ≠ .empty ∧ volumeInv gripping ∧ leafInv gripping :=
  ⟨by decide, by decide, by decide, by decide, by decide, by decide, witness_FacesKeepTheirLaws⟩

theorem witness_LeafMarkFollowsTheTableOfFaces :
    result (after (.leafMark 1#8 5 true false (some .skip) (some (some .missing))) bound) = some .accepted
      ∧ result (after (.leafMark 1#8 4 true true (some .manualOn) none) bound) = some .accepted := by decide

theorem witness_PlanSetTakesOrderedSegmentsAlone :
    State.reset.volume.state = .empty ∧ bound.volume.state = .opened
      ∧ result (after (.planSet 1#8 [⟨1, 2, some .roman, 9999, [65#8]⟩, ⟨3, 4, some .plate, 1, []⟩]) bound)
        = some .accepted
      ∧ result (after (.planSet 1#8 [⟨1, 2, some .roman, 1, []⟩, ⟨2, 4, some .plate, 1, []⟩]) bound)
        = some .badField
      ∧ segmentFault 4 none ⟨1, 2, some .roman, 1, []⟩ = none
      ∧ segmentFault 4 (some ⟨1, 2, some .roman, 1, []⟩) ⟨2, 4, some .plate, 1, []⟩ = some .overlap
      ∧ 24 < (List.replicate 25 (⟨1, 1, none, 1, []⟩ : SegmentField)).length := by decide

theorem witness_LabelsFollowThePlan :
    (⟨23, 38, .paginated, 33, []⟩ : Segment) ∈ workedPlan
      ∧ workedPlan.Pairwise (fun x y => x.last < y.first)
      ∧ (∀ g ∈ workedPlan, ¬ (g.first ≤ 39 ∧ 39 ≤ g.last))
      ∧ (∀ table : List (Nat × String), table = [(1000, "m"), (900, "cm"), (500, "d"), (400, "cd"), (100, "c"),
          (90, "xc"), (50, "l"), (40, "xl"), (10, "x"), (9, "ix"), (5, "v"), (4, "iv"), (1, "i")] →
        ((1000, "m") ∈ table ∧ ∀ x ∈ table, x.1 ≤ 3999 → x.1 ≤ 1000)
          ∧ (9, "ix") ∈ table ∧ ∀ x ∈ table, x.1 ≤ 9 → x.1 ≤ 9) := by
  refine ⟨by decide, by decide, by decide, ?_⟩
  rintro table rfl; decide

/-- `bound` with the platen RAISED. -/
def standing : State := { bound with motion.platen := .raised, motion.dwell := none }

theorem witness_LowerStartsALowering :
    result (after (.lower 1#8) standing) = some .accepted
      ∧ result (after (.lower 1#8) (activate .platenContact standing)) = some .accepted := by decide

/-- `bound` with the platen in a state whose timer expires now. -/
def timed (p : Platen) : State :=
  { bound with motion.platen := p, motion.platenDeadline := some 1000000, motion.dwell := none }

theorem witness_RaisesAndTimersOfThePlaten :
    result (after (.raise 1#8) bound) = some .accepted
      ∧ ((timed .lowering).motion.platenDeadline = some 1000000 ∧ 1000000 ≤ (timed .lowering).time.clock)
      ∧ ({ bound with time.clock := 121000000 } : State).motion.dwell = some ⟨121000000, 120⟩ := by decide

theorem witness_TurnsAreAcceptedByTheirChecks :
    result (after (.turn 1#8 true) bound) = some .accepted
      ∧ result (after (.turnBack 1#8 true) standing) = some .accepted := by decide

/-- Each stage has a running turn; SWEEP has it under its four clauses. -/
theorem witness_TurnStagesFollowTheirOrder :
    (∀ g, (turning g none).motion.turn.isSome = true ∧ (turning g none).time.idle = false
        ∧ ((turning g none).motion.turn.map fun t => (t.stage, t.held, t.recovery)) = some (g, false, false))
      ∧ fnActive (activate .doubleLeaf (turning .sweep none)) .doubleLeaf = true
      ∧ fnActive (turning .sweep none) .doubleLeaf = false
      ∧ ((turning .sweep none).motion.turn.map fun t => decide (0 < t.retries)) = some true
      ∧ ((turningWith .sweep none fun t => { t with retries := 0 }).motion.turn.map fun t => t.retries) = some 0
      ∧ ((turningWith .sweep none fun t => { t with recovery := true }).motion.turn.map fun t => t.recovery)
        = some true := by
  refine ⟨fun g => ?_, by decide, by decide, by decide, by decide, by decide⟩
  cases g <;> decide

/-- A HELD turn in a stage. -/
def heldIn (g : Stage) : State := turningWith g none fun t => { t with held := true }

theorem witness_TurnAbandonFreesTheLeaf :
    ((heldIn .sweep).motion.turn.map fun t => t.held) = some true
      ∧ result (after (.turnAbandon 1#8) (heldIn .sweep)) = some .accepted
      ∧ result (after (.turnAbandon 1#8) bound) = some .notHeld := by decide

theorem witness_TurnResumeRestartsTheStage :
    (∀ g, ((heldIn g).motion.turn.map fun t => (t.stage, t.held)) = some (g, true) ∧ (heldIn g).lines.hold = none)
      ∧ result (after (.turnResume 1#8) { heldIn .air with lines.hold := some ⟨20, 0⟩ }) = some .held
      ∧ result (after (.turnResume 1#8) bound) = some .notHeld := by
  refine ⟨fun g => ?_, by decide, by decide⟩
  cases g <;> decide

theorem witness_SettingsRequestsClampTheirValues :
    result (after (.motionSet 1#8 (some 150) (some 50) (some 150) (some 9) none (some 2001) (some 6)) bound)
        = some .accepted
      ∧ result (after (.aimSet 1#8 ⟨true, false⟩ (some 1001) none) bound) = some .accepted
      ∧ result (after (.recipeSet 1#8 7 ⟨0, 1, 1000, 1001⟩ 20001) bound) = some .accepted
      ∧ result (after (.cameraSet 1#8 ⟨true, true⟩ (some 9) (some 100001) none (some 99) (some 1000001)) bound)
        = some .accepted := by decide

theorem witness_PlatesMoveToTheirTargets :
    bound.motion.profile.plateBase ≤ 60000 ∧ 4 ≤ bound.volume.leafCount
      ∧ (startAdjust bound 4).motion.plateState = .moving
      ∧ (startAdjust bound 4).motion.plateDeadline = some 4000000 := by decide

/-- Each stage with its timer expired; GRIP under its three clauses. -/
theorem witness_TurnTimersEndOrFault :
    (∀ g, (turning g (some 1000000)).motion.turn.isSome = true ∧ 1000000 ≤ (turning g (some 1000000)).time.clock
        ∧ ((turning g (some 1000000)).motion.turn.map fun t => (t.stage, t.held, t.deadline))
          = some (g, false, some 1000000))
      ∧ ((turningWith .grip (some 1000000) fun t => { t with regripAir := true }).motion.turn.map fun t => t.regripAir)
        = some true
      ∧ ((turningWith .grip (some 1000000) fun t => { t with retries := 0 }).motion.turn.map fun t => t.retries)
        = some 0 := by
  refine ⟨fun g => ?_, by decide, by decide⟩
  cases g <;> decide

/-- `bound` with bank A in a state, all its timers expired. -/
def bankIn (st : BankState) : State :=
  { bound with
    time.clock := 2000000000
    lamps.banks.a := { powerOnBank with
      state := st, deadline := some 2000000000, lastFiring := some 1000, readySince := some 0, standbySince := some 0
      count := 2 } }

theorem witness_BanksPowerUpAndCharge :
    result (after (.bankPower 1#8 ⟨true, true, false, false⟩ (some true)) bound) = some .accepted
      ∧ result (after (.bankPower 1#8 ⟨true, true, false, false⟩ (some false)) bound) = some .accepted
      ∧ (getBank (bankIn .charging) .a).state = .charging
      ∧ (getBank (bankIn .charging) .a).deadline = some 2000000000 := by decide

theorem witness_ConditioningFlashesAndWaking :
    (∀ s : State, s = modifyBank (bankIn .conditioning) .a (fun r => { r with count := 1 }) →
        (getBank s .a).count < 2 ∧ s.lamps.grants = [] ∧ (getBank s .a).hood.state = .closed
          ∧ rechargeOver s.time.clock (getBank s .a).recharge (getBank s .a) = true)
      ∧ (∀ s : State, s = { bankIn .conditioning with lamps.grants := [⟨.a, 5, 100, 200, none⟩] } →
        s.lamps.grants.find? (fun g => decide (g.bank = .a)) = some ⟨.a, 5, 100, 200, none⟩ ∧ 5 ≤ s.time.clock)
      ∧ (getBank (bankIn .conditioning) .a).count = 2
      ∧ (getBank (bankIn .waking) .a).deadline = some 2000000000 := by
  refine ⟨?_, ?_, by decide, by decide⟩
  · rintro s rfl; decide
  · rintro s rfl; decide

theorem witness_FiringsRecoveriesAndHoods :
    (∀ s : State, s = { busy with time.clock := 1002000 } →
        s.lamps.grants.find? (fun g => decide (g.bank = .a)) = some ⟨.a, 1002000, 650, 1200, some 1⟩
          ∧ 1002000 ≤ s.time.clock ∧ (getBank s .a).state = .ready ∧ (getBank s .a).hood.state = .opened)
      ∧ (getBank (modifyBank bound .a fun r => { r with flash := some ⟨500, 1000000, none⟩ }) .a).flash
        = some ⟨500, 1000000, none⟩
      ∧ rechargeOver (bankIn .recovering).time.clock (getBank (bankIn .recovering) .a).recharge
          (getBank (bankIn .recovering) .a) = true
      ∧ (getBank (bankIn .topping) .a).deadline = some 2000000000
      ∧ ((getBank (bankIn .ready) .a).readySince = some 0 ∧ 0 + 30000000 ≤ (bankIn .ready).time.clock)
      ∧ (openHood 0 closedHood).deadline = some 150000 ∧ (openHood 0 closedHood).state = .opening
      ∧ (closeHood 0 ⟨.opened, none⟩).state = .closing := by
  refine ⟨?_, by decide, by decide, by decide, by decide, by decide, by decide, by decide⟩
  rintro s rfl; decide

theorem witness_DosesFollowTheCalibration :
    (∀ i j, i ≤ j → j ≤ 10 →
      ([0, 80, 80, 240, 240, 240, 240, 240, 240, 240, 240].getD i 0)
        ≤ ([0, 80, 80, 240, 240, 240, 240, 240, 240, 240, 240].getD j 0))
      ∧ ∃ p, busy.dose.prediction = some p
        ∧ (p.entries.find? (fun e => decide (e.bank = .a) && !e.credited)).isSome = true
        ∧ p.entries.find? (fun e => decide (e.bank = .b) && !e.credited) = none := by
  refine ⟨?_, _, rfl, by decide, by decide⟩
  intro i j hij hj
  have hi : i ≤ 10 := by omega
  interval_cases j <;> interval_cases i <;> simp

theorem witness_AimTickCreditsWhatFits :
    (aiming 14798000).time.aimDue = true ∧ (aiming 14798000).volume.k + 1 < (aiming 14798000).leaves.length
      ∧ evaluated (aiming 14798000) .left = true ∧ evaluated bound .left = false := by decide

/-- `bound` with the platen RAISED and an order for a not-before time that is `n` µs past. -/
def waitingSince (n : Nat) : State :=
  { standing with
    queue.reserved := 1
    seq.orders := [{ bothOrder with notBefore := some (1000000 - n) }] }

theorem witness_OrdersAreQueuedDiscardedOrArmed :
    result (after (.shoot 1#8 7 (some .both) 0 (some .normal) none)
        { bound with dose.banks := ⟨⟨List.replicate 11 1, 0⟩, ⟨List.replicate 11 1, 0⟩, ⟨List.replicate 11 1, 0⟩,
          ⟨List.replicate 11 1, 0⟩⟩ }) = some .accepted
      ∧ (899999 + 100001) % 2 ^ 48 = (waitingSince 100001).time.clock % 2 ^ 48
      ∧ (waitingSince 100001).seq.lateLimit < 100001
      ∧ (900000 + 100000) % 2 ^ 48 = (waitingSince 100000).time.clock % 2 ^ 48
      ∧ ¬ (waitingSince 100000).seq.lateLimit < 100000
      ∧ (waitingSince 100000).seq.capture = none ∧ (waitingSince 100000).motion.turn = none
      ∧ (waitingSince 100000).lines.hold = none
      ∧ 0 < (getRecipe (waitingSince 100000) 0).levels.a ∧ 0 < (getRecipe (waitingSince 100000) 0).levels.c := by decide

/-- A not-before time half the range ahead is past no more; one less ahead is. -/
theorem witness_OrdersAreQueuedDiscardedOrArmed_waiting :
    (140737489355328 + 2 ^ 47) % 2 ^ 48 = standing.time.clock % 2 ^ 48
      ∧ (140737489355329 + (2 ^ 47 - 1)) % 2 ^ 48 = standing.time.clock % 2 ^ 48
      ∧ (turning .grip none).motion.turn.isSome = true
      ∧ ({ standing with lines.hold := some ⟨20, 0⟩ } : State).lines.hold.isSome = true
      ∧ ({ idling with seq.orders := [bothOrder] } : State).time.idle = true
      ∧ (getRecipe { standing with lamps.recipes := List.replicate 8 ⟨⟨0, 0, 500, 500⟩, 1000⟩ } 0).levels.a = 0
      ∧ bothOrder.notBefore = none := by decide

theorem witness_CaptureTimersEndTheirStages :
    ((shooting (capture none (sideAt .arming) (sideAt .arming))).seq.capture.bind fun c => c.deadline) = some 1000000
      ∧ (shooting (capture none (sideAt .arming) (sideAt .arming))).time.clock = 1000000
      ∧ (bound.seq.capture = none
        ∧ ({ bound with seq.pulses := ⟨some 1000000, none⟩ } : State).seq.pulses.get .left = some 1000000)
      ∧ 0 + (sideAt .waiting).camera.delay + (sideAt .waiting).camera.window ≤ bound.time.clock
      ∧ ({ sideAt .storing with storedDeadline := some 1000000 } : SideRec).storedDeadline = some 1000000
      ∧ (∃ c, ending.seq.capture = some c ∧ captureOver ending c = true)
      ∧ (∃ c, busy.seq.capture = some c ∧ captureOver busy c = false ∧ c.t0.isSome = true)
      ∧ ({ ending with motion.dwellDeferred := true, lines.hold := some ⟨20, 0⟩ } : State).motion.dwellDeferred
        = true := by
  refine ⟨by decide, by decide, by decide, by decide, by decide, ⟨_, rfl, by decide⟩, ⟨_, rfl, by decide, rfl⟩, rfl⟩

/-- A FIRING side with one ask. -/
def asking : SideRec := { sideAt .firing with asks := [⟨.a, 0, none⟩] }

theorem witness_CaptureStagesFollowTheirEdges :
    (∀ (s : State) (c : Capture), c = capture none (sideAt .arming) (sideAt .arming) → s = calibrate (shooting c) →
        c.t0 = none ∧ captureOver s c = false ∧ camerasEquipped s .both = true
          ∧ (match precheck s 1 1 .both ⟨650, 0, 640, 0⟩ 1200 with
            | .ok _ => true
            | .error _ => false) = true
          ∧ (∀ y, wants c.order.sides y = (c.sides.get y).isSome))
      ∧ (0 ≤ 1999 ∧ 1999 < 0 + (sideAt .waiting).camera.delay)
      ∧ 0 + (sideAt .waiting).camera.delay ≤ 2000
      ∧ 0 + (sideAt .waiting).camera.delay + (sideAt .waiting).camera.window ≤ 42000
      ∧ ((sideAt .firing).stage ≠ .waiting ∧ (capture none (sideAt .arming) (sideAt .arming)).t0 = none ∧ 4999 < 5000)
      ∧ sideBanks .left ⟨650, 0, 640, 0⟩ = [.a] ∧ sideBanks .right ⟨650, 0, 640, 500⟩ = [.c, .d] := by
  refine ⟨?_, by decide⟩
  rintro s c rfl rfl
  refine ⟨rfl, by decide, by decide, by decide, fun y => ?_⟩
  cases y <;> rfl

/-- The failing tests: no line for CAM_R_STORED, no calibration, a leaf too near its ceiling. -/
theorem witness_CaptureStagesFollowTheirEdges_failures :
    lineOf { busy with lines.binding := busy.lines.binding.set 3 none } .camRStored = none
      ∧ (match precheck bound 1 1 .both ⟨650, 0, 640, 0⟩ 1200 with
        | .ok _ => none
        | .error e => some e) = some (.uncalibrated .a) := by decide

/-- The answers of one ask and of two, with a noted edge and without; STORING; and a side that has ended. -/
theorem witness_CaptureStagesFollowTheirEdges_answers :
    (∃ k ∈ asking.asks, k.answer = none)
      ∧ (∀ k ∈ (asking.asks.map fun k => if k.bank = .a then { k with answer := some Answer.withdrawn } else k),
          k.answer = some .withdrawn)
      ∧ (∀ k ∈ (asking.asks.map fun k => if k.bank = .a then { k with answer := some (Answer.fired 5) } else k),
          k.answer = some (.fired 5))
      ∧ (∃ k ∈ (asking.asks.map fun k => if k.bank = .b then { k with answer := some Answer.withdrawn } else k),
          k.answer = none)
      ∧ (capture (some 0) (sideAt .storing) (sideAt .waiting)).opening = some (1, true)
      ∧ 2 < (shooting (capture (some 0) (sideAt .storing) (sideAt .waiting))).leaves.length
      ∧ (sideAt (.ended .unlit)).stage ≠ .firing ∧ (sideAt (.ended .unlit)).stage ≠ .storing := by decide

theorem witness_SettlingKeepsWhatItDoesNotOwn :
    volumeInv busy ∧ advanceOnce busy = none
      ∧ (volumeInv (waitingSince 0) ∧ (advanceOnce (waitingSince 0)).isSome = true)
      ∧ bound.motion.turn = none
      ∧ (gripping.motion.turn.map fun t => (turnStep (activate .vacuumOk gripping) t).isSome) = some true
      ∧ (gripping.motion.turn.map fun t => (turnStep gripping t).isNone) = some true
      ∧ ((heldIn .grip).motion.turn.map fun t => t.held) = some true
      ∧ fnActive (activate .platenTop (timed .raising)) .platenTop = true
      ∧ fnActive (activate .platenContact (timed .lowering)) .platenContact = true := by
  refine ⟨busy_volume, by decide, ⟨?_, by decide⟩, by decide⟩
  unfold volumeInv
  and_intros
  any_goals decide
  intro c h
  simp [waitingSince, standing, bound, activate, setLevel, modifyLine, State.reset, powerOnSequencer] at h

theorem witness_TicksAndTimersOfTheTimebase :
    ({ bound with time.phase := 1000 } : State).time.phase = 1000
      ∧ (∀ s : State, s = { bound with link.silence := .armed, link.boundaryDue := true } →
        s.link.silence = .armed ∧ s.link.boundaryDue = true)
      ∧ (∀ s : State, s = { bound with time.clock := 300000000, time.idleStart := some 0 } →
        s.time.idle = false ∧ 0 < s.time.idleSetting ∧ 0 + s.time.idleSetting * 1000000 ≤ s.time.clock
          ∧ s.motion.turn = none ∧ s.seq.capture = none)
      ∧ (busy.seq.capture.isSome = true ∧ busy.time.idle = false ∧ 0 < busy.time.idleSetting) := by
  refine ⟨rfl, ?_, ?_, by decide⟩
  · rintro s rfl; decide
  · rintro s rfl; decide

theorem busy_awake_binding (k : Byte) : bindingInv (awake k busy) := by
  have h : ∀ f, lineOf (awake k busy) f = lineOf busy f := fun _ => rfl
  refine ⟨busy_binding.1, busy_binding.2.1, ?_, ?_⟩
  · intro f i hf; rw [h] at hf; exact busy_binding.2.2.1 f i hf
  · intro f g i hf hg; rw [h] at hf hg; exact busy_binding.2.2.2 f g i hf hg

theorem witness_LineConfigReplacesAConfiguration :
    bindingInv (awake 0x48#8 busy)
      ∧ result (after (.lineConfig 1#8 31 (some .out) (some .none) (some .openHigh) (some .edge) (some .risingHigh)
        false 51 true true false) busy) = some .accepted
      ∧ (getLine busy 20).hold ≠ false ∧ (getLine busy 31).change = none :=
  ⟨busy_awake_binding _, by decide, by decide, by decide⟩

theorem witness_LinesAreWrittenClearedAndBound :
    bindingInv (awake 0x49#8 busy)
      ∧ result (after (.lineWrite 1#8 0x000F0000#32 0xFFFFFFFF#32) busy) = some .accepted
      ∧ result (after (.lineClear 1#8 0xFFFFFFFF#32) busy) = some .accepted
      ∧ result (after (.lineBind 1#8 (some .attention) none) busy) = some .accepted
      ∧ result (after (.lineBind 1#8 (some .attention) (some 18)) busy) = some .accepted :=
  ⟨busy_awake_binding _, by decide, by decide, by decide, by decide⟩

/-- `busy` with a change pending on a line since clock value 1,000,000, its line active or inactive before. -/
def edging (i : Nat) (high : Bool) : State :=
  modifyLine busy i fun l =>
    { l with level := !high, pin := some high, debounce := 0, event := false, wake := false
             change := some (high, 1000000) }

theorem edging_binding (i : Nat) (high : Bool) : bindingInv (edging i high) := by
  have h : ∀ f, lineOf (edging i high) f = lineOf busy f := fun _ => rfl
  refine ⟨by simpa [edging, modifyLine] using busy_binding.1, busy_binding.2.1, ?_, ?_⟩
  · intro f j hf; rw [h] at hf; exact busy_binding.2.2.1 f j hf
  · intro f g j hf hg; rw [h] at hf hg; exact busy_binding.2.2.2 f g j hf hg

theorem witness_PinsAndAcceptedEdges :
    (∀ i, bindingInv (edging i false)) ∧ (edging 0 false).lines.records.length = 32
      ∧ (∀ i, i < 32 → (getLine (edging i false) i).change = some (false, 1000000))
      ∧ 1000000 + (getLine (edging 0 false) 0).debounce * 1000 ≤ (edging 0 false).time.clock
      ∧ (∀ f, f ≠ .camLTrigger → f ≠ .camRTrigger → f ≠ .attention → f ≠ .readyLamp →
        lineOf busy f = some (fnCode f) ∧ (getLine busy (fnCode f)).dir = .inp
          ∧ (getLine busy (fnCode f)).polarity = .fallingLow)
      ∧ (getLine busy 0).change = none ∧ (getLine busy 16).dir = .out ∧ 1000000 < 1000000 + 20 * 1000 := by
  refine ⟨fun i => edging_binding i _, by decide, by decide +kernel, by decide, ?_, by decide⟩
  intro f h1 h2 h3 h4
  cases f <;> first | contradiction | decide

/-- A key line in its power-on configuration, in an ACTIVE part and in one in IDLE, and without its wake flag. -/
theorem witness_PinsAndAcceptedEdges_keys :
    lineOf busy .keyShoot = some 13 ∧ (getLine busy 13).event = true ∧ (getLine busy 13).wake = true
      ∧ busy.time.idle = false ∧ idling.time.idle = true
      ∧ (getLine (modifyLine idling 13 fun l => { l with wake := false }) 13).wake = false
      ∧ (modifyLine idling 13 fun l => { l with wake := false }).time.idle = true := by decide

theorem witness_AHoldStopsTheCradleAndReleasesIt :
    busy.queue.reports.length + busy.queue.reserved < 64
      ∧ (getSide busy .right).map (fun x => x.stage) = some .waiting ∧ (⟨20, 100000⟩ : Hold).since ≤ 500000 := by decide

/-- Timers that have come and are yet to come, at their boundary; a request taken up; the head order's not-before time. -/
theorem witness_StepWithNothingWaiting_due :
    dueEvents { turning .reach (some 1000000) with pending := [] } = [.armTimeout]
      ∧ dueEvents { turning .reach (some 1000001) with pending := [] } = []
      ∧ dueEvents { bound with link.deciding := some ⟨0x01#8, 7#8, []⟩ } = [.ident 7#8]
      ∧ Instr.bankChargeTimeout .a ∈ dueEvents (bankIn .charging)
      ∧ Instr.bankChargeTimeout .a ∉ dueEvents (bankIn .topping)
      ∧ dueEvents (waitingSince 0) = [.notBeforeTime]
      ∧ dueEvents { waitingSince 0 with time.clock := 999999 } = [] := by decide +kernel

end Sys2Proof.Tests
end

