-- ==== Sys2Proof/Proofs/Work.lean ====
section
/-! The work on a volume: what the laws of the volume and of its doses speak of, and the ways in which it goes on. -/
namespace Sys2Proof.Machine

/-! ### The work on a volume -/

/-- What the laws of the volume and of its doses speak of. `granted` names, for each firing granted to a capture and not yet
made, that capture. -/
structure Work where
  state : VolState
  leafCount : Nat
  k : Nat
  leafCeiling : Nat
  volumeCeiling : Nat
  captureSeq : Nat
  issued : Nat
  turnSeq : Nat
  confirmed : Nat
  totalDose : Nat
  leaves : List Leaf
  turn : Option Turn
  orders : List Order
  capture : Option Capture
  granted : List Nat
  prediction : Option Prediction

/-- The captures that granted firings belong to. -/
def captureNames (gs : List Grant) : List Nat := gs.filterMap fun g => g.capture

/-- The work that a state holds. -/
def work (s : State) : Work :=
  { state := s.volume.state, leafCount := s.volume.leafCount, k := s.volume.k, leafCeiling := s.volume.leafCeiling
    volumeCeiling := s.volume.volumeCeiling, captureSeq := s.volume.captureSeq, issued := s.volume.capturesIssued
    turnSeq := s.volume.turnSeq, confirmed := s.volume.facesConfirmed, totalDose := s.volume.totalDose
    leaves := s.leaves, turn := s.motion.turn, orders := s.seq.orders, capture := s.seq.capture
    granted := captureNames s.lamps.grants, prediction := s.dose.prediction }

/-- The work of a part with no volume. -/
def noWork : Work :=
  { state := .empty, leafCount := 0, k := 0, leafCeiling := 0, volumeCeiling := 0, captureSeq := 0, issued := 0
    turnSeq := 0, confirmed := 0, totalDose := 0, leaves := [], turn := none, orders := [], capture := none
    granted := [], prediction := none }

/-- A side is in ARMING or has ended, as every side is until its capture's test. -/
def unfiredSide (x : SideRec) : Prop := x.stage = .arming ∨ ∃ o, x.stage = .ended o

/-- No side of a capture has come past its test. -/
def unfired (c : Capture) : Prop := ∀ sd x, c.sides.get sd = some x → unfiredSide x

/-- The entries of a prediction that are still PENDING (R99). -/
def pendingOf (p : Option Prediction) : List Entry := (p.elim [] (·.entries)).filter fun e => !e.credited

theorem pendingEntries_eq (s : State) : pendingEntries s = pendingOf s.dose.prediction := by
  cases h : s.dose.prediction <;> simp [pendingEntries, pendingOf, h]

/-- Light of amount `x` on leaf `i` of a table (R100, R106). -/
def lightLeaf (i x : Nat) (ls : List Leaf) : List Leaf := ls.modify i fun l => { l with dose := l.dose + x }

/-- The dose of leaf `i` of a table. -/
def doseAt (ls : List Leaf) (i : Nat) : Nat := (ls.getD i default).dose

/-- A prediction credits the two leaves of opening `k` alone (R96, R97). -/
def creditsOpening (p : Prediction) (k : Nat) : Prop :=
  p.k = k ∧ ∀ e ∈ p.entries, (e.ownLeaf = k ∨ e.ownLeaf = k + 1) ∧ (e.spillLeaf = k ∨ e.spillLeaf = k + 1)

/-- A prediction, all of it PENDING, fits under the ceilings (R98). -/
def predictionFits (w : Work) (p : Prediction) : Prop :=
  doseAt w.leaves p.k + entriesFor p.entries p.k ≤ w.leafCeiling
    ∧ doseAt w.leaves (p.k + 1) + entriesFor p.entries (p.k + 1) ≤ w.leafCeiling
    ∧ w.totalDose + (entriesFor p.entries p.k + entriesFor p.entries (p.k + 1)) ≤ w.volumeCeiling

/-- The light `a` on leaf k and `b` on leaf k+1 of an aim tick fits under the ceilings, beside what is predicted (R104). -/
def lightFits (w : Work) (a b : Nat) : Prop :=
  (0 < a → doseAt w.leaves w.k + entriesFor (pendingOf w.prediction) w.k + a ≤ w.leafCeiling)
    ∧ (0 < b → doseAt w.leaves (w.k + 1) + entriesFor (pendingOf w.prediction) (w.k + 1) + b ≤ w.leafCeiling)
    ∧ (0 < a + b → w.totalDose + entriesTotal (pendingOf w.prediction) + (a + b) ≤ w.volumeCeiling)

/-- The ways in which the work on a volume goes on, each under the conditions that its owner has checked. -/
inductive WorkStep (w : Work) : Work → Prop
  /-- An order is accepted (R111, R112). -/
  | order (o : Order) (opened : w.state = .opened) (numbered : w.captureSeq + w.orders.length + 1 ≤ 65535) :
      WorkStep w { w with orders := w.orders ++ [o] }
  /-- The head order is discarded (R115). -/
  | discard (o : Order) (rest : List Order) (head : w.orders = o :: rest) : WorkStep w { w with orders := rest }
  /-- The safe state flushes the queue (R127). -/
  | flush : WorkStep w { w with orders := [] }
  /-- The head order becomes a capture (R13, R116). -/
  | arm (o : Order) (rest : List Order) (c : Capture) (head : w.orders = o :: rest) (turn : w.turn = none)
      (capture : w.capture = none) (seq : c.seq = w.captureSeq + 1) (t0 : c.t0 = none) (opening : c.opening = none)
      (sides : unfired c) :
      WorkStep w { w with
        orders := rest, captureSeq := w.captureSeq + 1, issued := w.issued + 1, capture := some c }
  /-- The capture in flight goes on, or takes the opening of its test (R117 to R122, R126). -/
  | capture (c d : Capture) (inFlight : w.capture = some c) (seq : d.seq = c.seq) (t0 : d.t0 = c.t0)
      (opening : d.opening = c.opening ∨ ∃ known, d.opening = some (w.k, known))
      (sides : c.t0 = none → unfired c → unfired d) : WorkStep w { w with capture := some d }
  /-- The capture in flight passes its test (R97, R98, R119). -/
  | trigger (c d : Capture) (p : Prediction) (known : Bool) (inFlight : w.capture = some c) (t0 : c.t0 = none)
      (seq : d.seq = c.seq) (triggered : d.t0.isSome = true) (opening : d.opening = some (w.k, known))
      (credits : creditsOpening p w.k) (fits : predictionFits w p) :
      WorkStep w { w with capture := some d, prediction := some p }
  /-- The capture in flight ends, and its prediction with it (R99, R123). -/
  | endCapture (c : Capture) (inFlight : w.capture = some c) (made : c.seq ∉ w.granted) :
      WorkStep w { w with capture := none, prediction := none }
  /-- A firing is granted to the capture in flight (R74, R121). -/
  | ask (c : Capture) (inFlight : w.capture = some c) (triggered : c.t0.isSome = true) :
      WorkStep w { w with granted := w.granted ++ [c.seq] }
  /-- Granted firings are made or withdrawn (R75). -/
  | release (ns : List Nat) (sub : ns ⊆ w.granted) : WorkStep w { w with granted := ns }
  /-- A firing made is credited (R100). -/
  | credit (bk : Bank) (p : Prediction) (e : Entry) (standing : w.prediction = some p)
      (entry : p.entries.find? (fun e => decide (e.bank = bk) && !e.credited) = some e) :
      WorkStep w { w with
        leaves := lightLeaf e.spillLeaf e.spillAmount (lightLeaf e.ownLeaf e.ownAmount w.leaves)
        totalDose := w.totalDose + e.ownAmount + e.spillAmount
        prediction := some { p with entries := markCredited bk p.entries } }
  /-- A side of the capture in flight is confirmed (R24, R122). -/
  | confirm (c : Capture) (sd : Side) (inFlight : w.capture = some c) :
      WorkStep w { w with
        leaves := w.leaves.modify (sidePage (c.opening.getD (w.k, false)).1 sd).1
          (takeLeaf c.seq (sidePage (c.opening.getD (w.k, false)).1 sd).2)
        confirmed := w.confirmed + 1 }
  /-- A turn is accepted (R12, R51, R52). -/
  | startTurn (t : Turn) (opened : w.state = .opened) (turn : w.turn = none) (capture : w.capture = none)
      (leaf : t.leaf = leafToTurn t.direction w.k) (atEnd : t.direction = .forward → w.k ≠ w.leafCount)
      (atStart : t.direction = .backward → w.k ≠ 0) :
      WorkStep w { w with turn := some t, turnSeq := nextTurnSeq w.turnSeq }
  /-- The turn in flight goes on (R53 to R57, R59, R61). -/
  | turn (t u : Turn) (inFlight : w.turn = some t) (leaf : u.leaf = t.leaf) (direction : u.direction = t.direction)
      (stage : beforePark u.stage = true → beforePark t.stage = true) : WorkStep w { w with turn := some u }
  /-- A turn is verified: it changes the opening (R5, R56). -/
  | verified (t u : Turn) (inFlight : w.turn = some t) (before : beforePark t.stage = true) (leaf : u.leaf = t.leaf)
      (direction : u.direction = t.direction) (after : beforePark u.stage = false) :
      WorkStep w { w with k := turnedOpening t.direction w.k, turn := some u }
  /-- A turn ends (R58, R62, R63). -/
  | endTurn : WorkStep w { w with turn := none }
  /-- A leaf of the text block is handled: the turned one, or the one that a RESEAT names (R10, R26). -/
  | handle (i : Nat) (leaf : (∃ t, w.turn = some t ∧ i = t.leaf) ∨ 1 ≤ i ∧ i ≤ w.leafCount) :
      WorkStep w { w with leaves := w.leaves.modify i fun l => { l with handled := satSucc 255 l.handled } }
  /-- A leaf is marked (R29 to R31). -/
  | mark (i : Nat) (a : LeafAction) (r : SkipReason) (recto verso : Bool) :
      WorkStep w { w with leaves := w.leaves.modify i (markLeaf a r recto verso) }
  /-- The opening is set by hand (R9, R10). -/
  | reseat (k : Nat) (turn : w.turn = none) (capture : w.capture = none) (inVolume : k ≤ w.leafCount) :
      WorkStep w { w with k := k }
  /-- VOLUME_OPEN (R4). -/
  | openVolume (k : Nat) (loaded : w.state = .loaded) (inVolume : k ≤ w.leafCount) :
      WorkStep w { w with state := .opened, k := k }
  /-- VOLUME_CLOSE (R14, R15). -/
  | closeVolume (opened : w.state = .opened) (turn : w.turn = none) (capture : w.capture = none)
      (orders : w.orders = []) : WorkStep w { w with state := .closed }
  /-- VOLUME_LOAD (R2, R3, R20). -/
  | loadVolume (n leafCeiling volumeCeiling : Nat) (closed : w.state ≠ .opened) :
      WorkStep w { w with
        state := .loaded, leafCount := n, k := 0, leafCeiling := leafCeiling, volumeCeiling := volumeCeiling
        captureSeq := 0, issued := 0, turnSeq := 0, confirmed := 0, totalDose := 0, leaves := freshTable n }
  /-- VOLUME_DISCARD (R17). -/
  | discardVolume (closed : w.state ≠ .opened) :
      WorkStep w { noWork with
        turn := w.turn, orders := w.orders, capture := w.capture, granted := w.granted, prediction := w.prediction }
  /-- VOLUME_SET (R6, R7). -/
  | setCeilings (leafCeiling volumeCeiling : Nat)
      (leaf : leafCeiling = w.leafCeiling ∨ ∀ i, i < w.leaves.length →
        doseAt w.leaves i + entriesFor (pendingOf w.prediction) i ≤ leafCeiling)
      (volume : volumeCeiling = w.volumeCeiling
        ∨ w.totalDose + entriesTotal (pendingOf w.prediction) ≤ volumeCeiling) :
      WorkStep w { w with leafCeiling := leafCeiling, volumeCeiling := volumeCeiling }
  /-- The light of an aim tick: none outside an OPEN volume, and never above a ceiling (R103 to R106). -/
  | light (a b : Nat) (opened : a + b = 0 ∨ w.state = .opened) (fits : lightFits w a b) :
      WorkStep w { w with
        leaves := lightLeaf (w.k + 1) b (lightLeaf w.k a w.leaves), totalDose := w.totalDose + a + b }
  /-- The soft reset (R19, R109, R128). -/
  | softReset :
      WorkStep w { w with turn := none, orders := [], capture := none, granted := [], prediction := none }
  /-- Power-on reset (R19). -/
  | powerOn : WorkStep w noWork

/-- The work of `s` goes on to that of `t`. -/
def Works (s t : State) : Prop := Relation.ReflTransGen WorkStep (work s) (work t)

theorem Works.of_eq {s t : State} (h : work t = work s) : Works s t := by rw [Works, h]

theorem Works.refl (s : State) : Works s s := .of_eq rfl

theorem Works.trans {s t u : State} (h : Works s t) (g : Works t u) : Works s u := Relation.ReflTransGen.trans h g

theorem Works.then_eq {s t u : State} (h : Works s t) (g : work u = work t) : Works s u := h.trans (.of_eq g)

theorem Works.step {s t : State} {w : Work} (h : WorkStep (work s) w) (g : work t = w) : Works s t := by
  subst g; exact .single h

/-- What every way of going on keeps, the work of a state keeps. -/
theorem Works.keeps {P : Work → Prop} (step : ∀ w v, P w → WorkStep w v → P v) {s t : State} (h : Works s t)
    (hs : P (work s)) : P (work t) := by
  unfold Works at h
  generalize work t = v at h
  induction h with
  | refl => exact hs
  | tail _ h ih => exact step _ _ ih h

end Sys2Proof.Machine
end

