-- ==== Sys2Proof/Proofs/VolumeLaws.lean ====
section
/-! The laws of the volume under every way in which the work goes on (R5, R12, R13, R52). -/
namespace Sys2Proof.Machine

/-- The laws of a volume and the work on it, of `volumeInv`, one by one. -/
structure VolumeOk (w : Work) : Prop where
  issued : w.issued = w.captureSeq
  numbers : w.captureSeq + w.orders.length ≤ 65535
  turnSeq : w.turnSeq ≤ 65535
  apart : w.turn.isSome = true → w.capture = none
  opened : w.turn.isSome = true ∨ w.capture.isSome = true ∨ w.orders ≠ [] → w.state = .opened
  length : w.leaves.length = if w.state = .empty then 0 else w.leafCount + 2
  opening : w.k ≤ w.leafCount
  turn : ∀ t, w.turn = some t → 1 ≤ t.leaf ∧ t.leaf ≤ w.leafCount
    ∧ (t.direction = .forward → beforePark t.stage = true → w.k < w.leafCount)
  capture : ∀ c, w.capture = some c →
    (∀ o, c.opening = some o → o.1 ≤ w.leafCount) ∧ (c.t0 = none → unfired c)
  granted : ∀ n ∈ w.granted, ∃ c, w.capture = some c ∧ c.seq = n ∧ c.t0.isSome = true

theorem volumeInv_iff (s : State) : volumeInv s ↔ VolumeOk (work s) := by
  constructor
  · rintro ⟨issued, numbers, turnSeq, apart, opened, length, opening, turn, capture, granted⟩
    refine ⟨issued, numbers, turnSeq, apart, opened, length, opening, turn, capture, fun n hn => ?_⟩
    obtain ⟨g, hg, hc⟩ := List.mem_filterMap.mp hn
    exact granted g hg n hc
  · intro h
    exact ⟨h.issued, h.numbers, h.turnSeq, h.apart, h.opened, h.length, h.opening, h.turn, h.capture,
      fun g hg n hc => h.granted n (List.mem_filterMap.mpr ⟨g, hg, hc⟩)⟩

namespace VolumeOk
variable {w : Work}

/-- With no capture in flight no firing is granted to one. -/
theorem granted_nil (h : VolumeOk w) (hc : w.capture = none) : w.granted = [] :=
  List.eq_nil_iff_forall_not_mem.mpr fun n hn => by
    obtain ⟨c, h1, -⟩ := h.granted n hn
    simp [hc] at h1

/-- Outside an OPEN volume there is no turn, no order and no capture. -/
theorem idle (h : VolumeOk w) (hs : w.state ≠ .opened) : w.turn = none ∧ w.orders = [] ∧ w.capture = none := by
  have := mt h.opened hs
  simpa [not_or, and_assoc, and_comm, and_left_comm] using this

theorem leaves_length (h : VolumeOk w) (hs : w.state = .opened) : w.leaves.length = w.leafCount + 2 := by
  simpa [hs] using h.length

end VolumeOk

@[simp] theorem lightLeaf_length (i x : Nat) (ls : List Leaf) : (lightLeaf i x ls).length = ls.length := by
  simp [lightLeaf]

/-- Every way in which the work goes on keeps the laws of the volume. -/
theorem WorkStep.volumeOk {w v : Work} (h : VolumeOk w) (hs : WorkStep w v) : VolumeOk v := by
  cases hs with
  | order o opened numbered => exact { h with numbers := by simp; omega, opened := fun _ => opened }
  | discard o rest head =>
    have hn := h.numbers
    rw [head, List.length_cons] at hn
    exact { h with numbers := by simp; omega, opened := fun _ => h.opened (by simp [head]) }
  | flush =>
    have hn := h.numbers
    exact { h with numbers := by simp; omega, opened := fun ho => h.opened (by simp at ho; tauto) }
  | arm o rest c head turn capture seq t0 opening sides =>
    have hn := h.numbers
    rw [head, List.length_cons] at hn
    exact { h with
      issued := congrArg (· + 1) h.issued
      numbers := by simp; omega
      apart := by simp [turn]
      opened := fun _ => h.opened (by simp [head])
      capture := fun d hd => by cases hd; exact ⟨by simp [opening], fun _ => sides⟩
      granted := by simp [h.granted_nil capture] }
  | capture c d inFlight seq t0 opening sides =>
    exact { h with
      apart := fun ht => by simp [h.apart ht] at inFlight
      opened := fun _ => h.opened (by simp [inFlight])
      capture := fun e he => by
        cases he
        obtain ⟨inVolume, hu⟩ := h.capture c inFlight
        refine ⟨?_, fun ht => ?_⟩
        · rcases opening with ho | ⟨known, ho⟩
          · exact ho ▸ inVolume
          · rw [ho]; rintro _ ⟨⟩; exact h.opening
        · exact sides (t0 ▸ ht) (hu (t0 ▸ ht))
      granted := fun n hn => by
        obtain ⟨e, he, hs, ht⟩ := h.granted n hn
        rw [inFlight] at he; cases he
        exact ⟨d, rfl, seq.trans hs, t0 ▸ ht⟩ }
  | trigger c d p known inFlight t0 seq triggered opening credits fits =>
    exact { h with
      apart := fun ht => by simp [h.apart ht] at inFlight
      opened := fun _ => h.opened (by simp [inFlight])
      capture := fun e he => by
        cases he
        exact ⟨by rw [opening]; rintro _ ⟨⟩; exact h.opening, fun hn => by simp [hn] at triggered⟩
      granted := fun n hn => by
        obtain ⟨e, he, hs, -⟩ := h.granted n hn
        rw [inFlight] at he; cases he
        exact ⟨d, rfl, seq.trans hs, triggered⟩ }
  | endCapture c inFlight made =>
    exact { h with
      apart := fun _ => rfl
      opened := fun ho => h.opened (by simp at ho; tauto)
      capture := by simp
      granted := fun n hn => by
        obtain ⟨e, he, hs, -⟩ := h.granted n hn
        rw [inFlight] at he; cases he
        exact absurd (hs ▸ hn) made }
  | ask c inFlight triggered =>
    exact { h with
      granted := fun n hn => by
        rcases List.mem_append.mp hn with hn | hn
        · exact h.granted n hn
        · exact ⟨c, inFlight, (List.mem_singleton.mp hn).symm, triggered⟩ }
  | release ns sub => exact { h with granted := fun n hn => h.granted n (sub hn) }
  | credit bk p e standing entry => exact { h with length := by simpa using h.length }
  | confirm c sd inFlight => exact { h with length := by simpa using h.length }
  | startTurn t opened turn capture leaf atEnd atStart =>
    have hk := h.opening
    have hleaf : 1 ≤ t.leaf ∧ t.leaf ≤ w.leafCount := by
      cases hd : t.direction <;> simp only [hd, leafToTurn] at leaf
      · have := atEnd hd; omega
      · have := atStart hd; omega
    exact { h with
      turnSeq := by unfold nextTurnSeq; split <;> simp; omega
      apart := fun _ => capture
      opened := fun _ => opened
      turn := fun u hu => by
        cases hu
        exact ⟨hleaf.1, hleaf.2, fun hd _ => by have := atEnd hd; show w.k < w.leafCount; omega⟩ }
  | turn t u inFlight leaf direction stage =>
    have ht : w.turn.isSome = true := by simp [inFlight]
    obtain ⟨h1, h2, h3⟩ := h.turn t inFlight
    exact { h with
      apart := fun _ => h.apart ht
      opened := fun _ => h.opened (.inl ht)
      turn := fun x hx => by
        cases hx
        exact ⟨leaf ▸ h1, leaf ▸ h2, fun hd hb => h3 (direction ▸ hd) (stage hb)⟩ }
  | verified t u inFlight before leaf direction after =>
    have ht : w.turn.isSome = true := by simp [inFlight]
    obtain ⟨h1, h2, h3⟩ := h.turn t inFlight
    have hk := h.opening
    exact { h with
      apart := fun _ => h.apart ht
      opened := fun _ => h.opened (.inl ht)
      opening := by
        cases hd : t.direction <;> simp only [turnedOpening]
        · exact h3 hd before
        · omega
      turn := fun x hx => by
        cases hx
        exact ⟨leaf ▸ h1, leaf ▸ h2, fun _ hb => by simp [after] at hb⟩ }
  | endTurn =>
    exact { h with
      apart := by simp
      opened := fun ho => h.opened (by simp at ho; tauto)
      turn := by simp }
  | handle i leaf => exact { h with length := by simpa using h.length }
  | mark i a r recto verso => exact { h with length := by simpa using h.length }
  | reseat k turn capture inVolume => exact { h with opening := inVolume, turn := by simp [turn] }
  | openVolume k loaded inVolume =>
    obtain ⟨ht, -, -⟩ := h.idle (by simp [loaded])
    exact { h with
      opened := fun _ => rfl
      length := by simpa [loaded] using h.length
      opening := inVolume
      turn := by simp [ht] }
  | closeVolume opened turn capture orders =>
    exact { h with
      opened := by simp [turn, capture, orders]
      length := by simpa [opened] using h.length }
  | loadVolume n leafCeiling volumeCeiling closed =>
    obtain ⟨ht, ho, hc⟩ := h.idle closed
    exact { h with
      issued := rfl
      numbers := by simp [ho]
      turnSeq := by simp
      opened := by simp [ht, ho, hc]
      length := by simp [freshTable]
      opening := by simp
      turn := by simp [ht]
      capture := by simp [hc] }
  | discardVolume closed =>
    obtain ⟨ht, ho, hc⟩ := h.idle closed
    exact { h with
      issued := rfl
      numbers := by simp [noWork, ho]
      turnSeq := by simp [noWork]
      opened := by simp [ht, ho, hc]
      length := by simp [noWork]
      opening := by simp [noWork]
      turn := by simp [ht]
      capture := by simp [hc] }
  | setCeilings leafCeiling volumeCeiling leaf volume => exact { h with }
  | light a b opened fits => exact { h with length := by simpa using h.length }
  | softReset =>
    have hn := h.numbers
    exact { h with
      numbers := by simp; omega
      apart := by simp
      opened := by simp
      turn := by simp
      capture := by simp
      granted := by simp }
  | powerOn =>
    exact { issued := rfl, numbers := by simp [noWork], turnSeq := by simp [noWork], apart := by simp [noWork]
            opened := by simp [noWork], length := by simp [noWork], opening := by simp [noWork]
            turn := by simp [noWork], capture := by simp [noWork], granted := by simp [noWork] }

/-- The laws of the volume are kept while the work goes on. -/
theorem Works.volumeInv {s t : State} (h : Works s t) (hs : volumeInv s) : volumeInv t :=
  (volumeInv_iff t).mpr (h.keeps (P := VolumeOk) (fun _ _ hw hv => hv.volumeOk hw) ((volumeInv_iff s).mp hs))

end Sys2Proof.Machine
end

