-- ==== Sys2Proof/Proofs/DoseAccounts.lean ====
section
/-! The accounts of light and takes under every way in which the work goes on (R13, R24, R100). -/
namespace Sys2Proof.Machine

/-! ### Sums over the leaf table -/

/-- A change of one leaf that keeps a figure of it keeps that figure of every leaf. -/
theorem map_modify_same (g : Leaf → Nat) (f : Leaf → Leaf) (h : ∀ l, g (f l) = g l) (i : Nat) (ls : List Leaf) :
    (ls.modify i f).map g = ls.map g := by
  induction ls generalizing i with
  | nil => cases i <;> rfl
  | cons l ls ih => cases i with
    | zero => simp [h]
    | succ i => simp [ih]

/-- A change of one leaf that raises a figure of it by `x` raises the sum by `x`. -/
theorem sum_modify_add (g : Leaf → Nat) (f : Leaf → Leaf) (x : Nat) (h : ∀ l, g (f l) = g l + x) {i : Nat}
    {ls : List Leaf} (hi : i < ls.length) : ((ls.modify i f).map g).sum = (ls.map g).sum + x := by
  induction ls generalizing i with
  | nil => simp at hi
  | cons l ls ih => cases i with
    | zero => simp [h]; omega
    | succ i => simp [ih (Nat.lt_of_succ_lt_succ hi)]; omega

theorem doseAt_eq (ls : List Leaf) (i : Nat) : doseAt ls i = (ls.map fun l => l.dose).getD i 0 := by
  cases h : ls[i]? with
  | none => simp [doseAt, List.getD_eq_getElem?_getD, h]; rfl
  | some l => simp [doseAt, List.getD_eq_getElem?_getD, h]

/-- A change of one leaf that keeps its dose keeps every dose. -/
theorem doseAt_modify_same (f : Leaf → Leaf) (h : ∀ l, (f l).dose = l.dose) (i j : Nat) (ls : List Leaf) :
    doseAt (ls.modify i f) j = doseAt ls j := by
  rw [doseAt_eq, doseAt_eq, map_modify_same (fun l => l.dose) f h]

theorem doseAt_lightLeaf {i : Nat} {ls : List Leaf} (hi : i < ls.length) (x j : Nat) :
    doseAt (lightLeaf i x ls) j = doseAt ls j + if j = i then x else 0 := by
  by_cases h : j = i
  · subst h; simp [doseAt, lightLeaf, hi]
  · simp [doseAt, lightLeaf, List.getD_eq_getElem?_getD, Ne.symm h, h]

theorem sum_dose_lightLeaf {i : Nat} {ls : List Leaf} (hi : i < ls.length) (x : Nat) :
    ((lightLeaf i x ls).map fun l => l.dose).sum = (ls.map fun l => l.dose).sum + x :=
  sum_modify_add (fun l => l.dose) _ x (fun _ => rfl) hi

theorem sum_takes_lightLeaf (i x : Nat) (ls : List Leaf) :
    ((lightLeaf i x ls).map fun l => l.recto.takes + l.verso.takes) =
      ls.map fun l => l.recto.takes + l.verso.takes :=
  map_modify_same (fun l => l.recto.takes + l.verso.takes) (fun l => { l with dose := l.dose + x }) (fun _ => rfl) i ls

/-- No light is no change. -/
@[simp] theorem lightLeaf_zero (i : Nat) (ls : List Leaf) : lightLeaf i 0 ls = ls :=
  List.modify_id i ls

/-! ### What is still predicted -/

@[simp] theorem pendingOf_none : pendingOf none = [] := rfl

@[simp] theorem entriesFor_nil (i : Nat) : entriesFor [] i = 0 := rfl

@[simp] theorem entriesTotal_nil : entriesTotal [] = 0 := rfl

theorem entriesFor_cons (e : Entry) (es : List Entry) (i : Nat) :
    entriesFor (e :: es) i =
      (if e.ownLeaf = i then e.ownAmount else 0) + (if e.spillLeaf = i then e.spillAmount else 0)
        + entriesFor es i := by simp [entriesFor]

theorem entriesTotal_cons (e : Entry) (es : List Entry) :
    entriesTotal (e :: es) = e.ownAmount + e.spillAmount + entriesTotal es := by simp [entriesTotal]

/-- Fewer entries credit no more to a leaf. -/
theorem entriesFor_filter_le (q : Entry → Bool) (es : List Entry) (i : Nat) :
    entriesFor (es.filter q) i ≤ entriesFor es i := by
  induction es with
  | nil => simp
  | cons e es ih =>
    rw [List.filter_cons]
    split <;> simp only [entriesFor_cons] <;> omega

theorem entriesTotal_filter_le (q : Entry → Bool) (es : List Entry) :
    entriesTotal (es.filter q) ≤ entriesTotal es := by
  induction es with
  | nil => simp
  | cons e es ih =>
    rw [List.filter_cons]
    split <;> simp only [entriesTotal_cons] <;> omega

/-- Entries of opening `k` credit its two leaves and nothing else. -/
theorem entriesTotal_opening {es : List Entry} {k : Nat}
    (h : ∀ e ∈ es, (e.ownLeaf = k ∨ e.ownLeaf = k + 1) ∧ (e.spillLeaf = k ∨ e.spillLeaf = k + 1)) :
    entriesTotal es = entriesFor es k + entriesFor es (k + 1) := by
  induction es with
  | nil => rfl
  | cons e es ih =>
    rw [List.forall_mem_cons] at h
    rw [entriesTotal_cons, entriesFor_cons, entriesFor_cons, ih h.2]
    split_ifs <;> omega

theorem entriesFor_other {es : List Entry} {k i : Nat}
    (h : ∀ e ∈ es, (e.ownLeaf = k ∨ e.ownLeaf = k + 1) ∧ (e.spillLeaf = k ∨ e.spillLeaf = k + 1))
    (hk : i ≠ k) (hk' : i ≠ k + 1) : entriesFor es i = 0 := by
  induction es with
  | nil => rfl
  | cons e es ih =>
    rw [List.forall_mem_cons] at h
    rw [entriesFor_cons, ih h.2, if_neg (by omega), if_neg (by omega)]

/-- Entries once credited are no longer predicted. -/
theorem pending_markCredited_le (bk : Bank) (es : List Entry) (i : Nat) :
    entriesFor ((markCredited bk es).filter fun e => !e.credited) i ≤
        entriesFor (es.filter fun e => !e.credited) i
      ∧ entriesTotal ((markCredited bk es).filter fun e => !e.credited) ≤
        entriesTotal (es.filter fun e => !e.credited) := by
  induction es with
  | nil => simp [markCredited]
  | cons e es ih =>
    simp only [markCredited, List.map_cons, List.filter_cons] at ih ⊢
    by_cases hb : e.bank = bk <;> cases hc : e.credited <;>
      simp only [hb, hc, if_true, if_false, entriesFor_cons, entriesTotal_cons, Bool.not_true, Bool.not_false,
        Bool.false_eq_true] <;> omega

/-- The entry that a firing credits leaves the prediction with its amounts. -/
theorem pending_credited {bk : Bank} {es : List Entry} {e : Entry}
    (h : es.find? (fun e => decide (e.bank = bk) && !e.credited) = some e) (i : Nat) :
    entriesFor ((markCredited bk es).filter fun e => !e.credited) i
        + ((if e.ownLeaf = i then e.ownAmount else 0) + if e.spillLeaf = i then e.spillAmount else 0)
        ≤ entriesFor (es.filter fun e => !e.credited) i
      ∧ entriesTotal ((markCredited bk es).filter fun e => !e.credited) + (e.ownAmount + e.spillAmount)
        ≤ entriesTotal (es.filter fun e => !e.credited) := by
  induction es with
  | nil => simp at h
  | cons x es ih =>
    have hrest := pending_markCredited_le bk es i
    rw [List.find?_cons] at h
    split at h
    · rename_i hx
      cases h
      obtain ⟨hb, hc⟩ := by simpa using hx
      simp only [markCredited, List.map_cons, List.filter_cons, hb, hc, if_true, Bool.not_true, Bool.not_false,
        Bool.false_eq_true, if_false, entriesFor_cons, entriesTotal_cons] at hrest ⊢
      omega
    · have ih := ih h
      simp only [markCredited, List.map_cons, List.filter_cons] at ih ⊢
      by_cases hb : x.bank = bk <;> cases hc : x.credited <;>
        simp only [hb, hc, if_true, if_false, entriesFor_cons, entriesTotal_cons, Bool.not_true, Bool.not_false,
          Bool.false_eq_true] <;> omega

theorem find_mem_entry {bk : Bank} {es : List Entry} {e : Entry}
    (h : es.find? (fun e => decide (e.bank = bk) && !e.credited) = some e) : e ∈ es := List.mem_of_find?_eq_some h

/-! ### The accounts -/

/-- The laws of the prediction and of the accounts of light and takes, of `predictionInv` and `accountInv`, one by one. -/
structure AccountOk (w : Work) : Prop where
  prediction : ∀ p, w.prediction = some p →
    (∃ c, w.capture = some c ∧ c.t0.isSome = true) ∧ p.k ≤ w.leafCount ∧ creditsOpening p p.k
  total : w.totalDose = (w.leaves.map fun l => l.dose).sum
  leaf : ∀ i, i < w.leaves.length → doseAt w.leaves i + entriesFor (pendingOf w.prediction) i ≤ w.leafCeiling
  volume : w.totalDose + entriesTotal (pendingOf w.prediction) ≤ w.volumeCeiling
  confirmed : w.confirmed = (w.leaves.map fun l => l.recto.takes + l.verso.takes).sum

theorem accounts_iff (s : State) : predictionInv s ∧ accountInv s ↔ AccountOk (work s) := by
  constructor
  · rintro ⟨prediction, total, leaf, volume, confirmed⟩
    refine ⟨fun p hp => ?_, total, fun i hi => ?_, ?_, confirmed⟩
    · obtain ⟨hc, hk, he⟩ := prediction p hp
      exact ⟨hc, hk, rfl, he⟩
    · exact pendingEntries_eq s ▸ leaf i hi
    · exact pendingEntries_eq s ▸ volume
  · intro h
    refine ⟨fun p hp => ?_, h.total, fun i hi => ?_, ?_, h.confirmed⟩
    · obtain ⟨hc, hk, -, he⟩ := h.prediction p hp
      exact ⟨hc, hk, he⟩
    · rw [outstanding, pendingEntries_eq]; exact h.leaf i hi
    · rw [outstandingTotal, pendingEntries_eq]; exact h.volume

namespace AccountOk
variable {w : Work}

/-- Without a capture past its test nothing is predicted. -/
theorem prediction_none (h : AccountOk w) (hc : ∀ c, w.capture = some c → c.t0 = none) : w.prediction = none := by
  cases hp : w.prediction with
  | none => rfl
  | some p =>
    obtain ⟨⟨c, h1, h2⟩, -⟩ := h.prediction p hp
    simp [hc c h1] at h2

/-- A leaf changed in neither dose nor takes changes no account. -/
theorem modify (h : AccountOk w) (i : Nat) (f : Leaf → Leaf) (hd : ∀ l, (f l).dose = l.dose)
    (ht : ∀ l, (f l).recto.takes + (f l).verso.takes = l.recto.takes + l.verso.takes) :
    AccountOk { w with leaves := w.leaves.modify i f } :=
  { h with
    total := by simpa only [map_modify_same (fun l => l.dose) f hd] using h.total
    leaf := fun j hj => by
      rw [doseAt_modify_same f hd]
      exact h.leaf j (by simpa using hj)
    confirmed := by
      simpa only [map_modify_same (fun l => l.recto.takes + l.verso.takes) f ht] using h.confirmed }

/-- Without a prediction, and with the accounts as they were, nothing is above a ceiling. -/
theorem forget (h : AccountOk w) : AccountOk { w with prediction := none } :=
  { h with
    prediction := by simp
    leaf := fun i hi => by have := h.leaf i hi; simp; omega
    volume := by have := h.volume; simp; omega }

end AccountOk

@[simp] theorem markFace_takes (a : LeafAction) (r : SkipReason) (m : Bool) (f : Face) :
    (markFace a r m f).takes = f.takes := by unfold markFace; split <;> rfl

@[simp] theorem markLeaf_dose (a : LeafAction) (r : SkipReason) (x y : Bool) (l : Leaf) :
    (markLeaf a r x y l).dose = l.dose := by cases a <;> rfl

theorem markLeaf_takes (a : LeafAction) (r : SkipReason) (x y : Bool) (l : Leaf) :
    (markLeaf a r x y l).recto.takes + (markLeaf a r x y l).verso.takes = l.recto.takes + l.verso.takes := by
  cases a <;> simp [markLeaf]

@[simp] theorem takeLeaf_dose (n : Nat) (verso : Bool) (l : Leaf) : (takeLeaf n verso l).dose = l.dose := by
  unfold takeLeaf; split <;> rfl

theorem takeLeaf_takes (n : Nat) (verso : Bool) (l : Leaf) :
    (takeLeaf n verso l).recto.takes + (takeLeaf n verso l).verso.takes = l.recto.takes + l.verso.takes + 1 := by
  unfold takeLeaf; split <;> simp only [takeFace] <;> omega

/-- The firing made of an entry: what is credited is what was predicted (R100). -/
theorem WorkStep.credit_accountOk {w : Work} (hv : VolumeOk w) (h : AccountOk w) {bk : Bank} {p : Prediction}
    {e : Entry} (standing : w.prediction = some p)
    (entry : p.entries.find? (fun e => decide (e.bank = bk) && !e.credited) = some e) :
    AccountOk { w with
      leaves := lightLeaf e.spillLeaf e.spillAmount (lightLeaf e.ownLeaf e.ownAmount w.leaves)
      totalDose := w.totalDose + e.ownAmount + e.spillAmount
      prediction := some { p with entries := markCredited bk p.entries } } := by
  obtain ⟨⟨c, hc, ht⟩, hk, -, hp⟩ := h.prediction p standing
  have hlen := hv.leaves_length (hv.opened (.inr (.inl (by simp [hc]))))
  obtain ⟨hown, hspill⟩ := hp e (find_mem_entry entry)
  have ho : e.ownLeaf < w.leaves.length := by omega
  have hs : e.spillLeaf < (lightLeaf e.ownLeaf e.ownAmount w.leaves).length := by rw [lightLeaf_length]; omega
  have hpend : pendingOf w.prediction = p.entries.filter fun e => !e.credited := by rw [standing]; rfl
  refine ⟨?_, ?_, ?_, ?_, ?_⟩
  · rintro _ ⟨⟩
    refine ⟨⟨c, hc, ht⟩, hk, rfl, fun x hx => ?_⟩
    obtain ⟨y, hy, rfl⟩ := List.mem_map.mp hx
    have hyk := hp y hy
    show _
    split <;> exact hyk
  · simp only [sum_dose_lightLeaf hs, sum_dose_lightLeaf ho, h.total]
  · intro i hi
    have hle := h.leaf i (by simpa using hi)
    rw [hpend] at hle
    have := (pending_credited entry i).1
    rw [doseAt_lightLeaf hs, doseAt_lightLeaf ho]
    simp only [eq_comm (a := i)]
    show _ + entriesFor ((markCredited bk p.entries).filter fun e => !e.credited) i ≤ _
    omega
  · have hle := h.volume
    rw [hpend] at hle
    have := (pending_credited entry 0).2
    show _ + entriesTotal ((markCredited bk p.entries).filter fun e => !e.credited) ≤ _
    dsimp only
    omega
  · simp only [sum_takes_lightLeaf, h.confirmed]

/-- The light of a tick that fits (R104, R106). -/
theorem WorkStep.light_accountOk {w : Work} (hv : VolumeOk w) (h : AccountOk w) {a b : Nat}
    (opened : a + b = 0 ∨ w.state = .opened) (fits : lightFits w a b) :
    AccountOk { w with
      leaves := lightLeaf (w.k + 1) b (lightLeaf w.k a w.leaves), totalDose := w.totalDose + a + b } := by
  rcases opened with h0 | opened
  · obtain ⟨rfl, rfl⟩ : a = 0 ∧ b = 0 := by omega
    simpa using h
  have hlen := hv.leaves_length opened
  have hk := hv.opening
  have hl : w.k < w.leaves.length := by omega
  have hr : w.k + 1 < (lightLeaf w.k a w.leaves).length := by rw [lightLeaf_length]; omega
  obtain ⟨fitL, fitR, fitV⟩ := fits
  refine ⟨h.prediction, ?_, ?_, ?_, ?_⟩
  · simp only [sum_dose_lightLeaf hr, sum_dose_lightLeaf hl, h.total]
  · intro i hi
    have hle := h.leaf i (by simpa using hi)
    rw [doseAt_lightLeaf hr, doseAt_lightLeaf hl]
    dsimp only
    by_cases h1 : i = w.k
    · subst h1; simp; omega
    · by_cases h2 : i = w.k + 1
      · subst h2; simp; omega
      · simp [h1, h2]; omega
  · have := h.volume
    dsimp only
    omega
  · simp only [sum_takes_lightLeaf, h.confirmed]

/-- A prediction that passes the precheck fits (R98). -/
theorem WorkStep.trigger_accountOk {w : Work} (hv : VolumeOk w) (h : AccountOk w) {d : Capture} {p : Prediction}
    (triggered : d.t0.isSome = true) (credits : creditsOpening p w.k) (fits : predictionFits w p) :
    AccountOk { w with capture := some d, prediction := some p } := by
  obtain ⟨hk, hp⟩ := credits
  rw [predictionFits, hk] at fits
  obtain ⟨fitL, fitR, fitV⟩ := fits
  refine { h with prediction := ?_, leaf := fun i hi => ?_, volume := ?_ }
  · rintro _ ⟨⟩
    exact ⟨⟨d, rfl, triggered⟩, hk ▸ hv.opening, rfl, hk ▸ hp⟩
  · have hle := h.leaf i hi
    have hf := entriesFor_filter_le (fun e => !e.credited) p.entries i
    show doseAt w.leaves i + entriesFor (p.entries.filter fun e => !e.credited) i ≤ _
    by_cases h1 : i = w.k
    · subst h1; dsimp only; omega
    · by_cases h2 : i = w.k + 1
      · subst h2; dsimp only; omega
      · rw [entriesFor_other hp h1 h2] at hf; dsimp only; omega
  · have hf := entriesTotal_filter_le (fun e => !e.credited) p.entries
    rw [entriesTotal_opening hp] at hf
    show w.totalDose + entriesTotal (p.entries.filter fun e => !e.credited) ≤ _
    dsimp only; omega

/-- A confirmed side adds one take to a leaf and to the count of faces confirmed (R24). -/
theorem WorkStep.confirm_accountOk {w : Work} (hv : VolumeOk w) (h : AccountOk w) {c : Capture} (sd : Side)
    (inFlight : w.capture = some c) :
    AccountOk { w with
      leaves := w.leaves.modify (sidePage (c.opening.getD (w.k, false)).1 sd).1
        (takeLeaf c.seq (sidePage (c.opening.getD (w.k, false)).1 sd).2)
      confirmed := w.confirmed + 1 } := by
  have hlen := hv.leaves_length (hv.opened (.inr (.inl (by simp [inFlight]))))
  have ho : (c.opening.getD (w.k, false)).1 ≤ w.leafCount := by
    cases ho : c.opening with
    | none => exact hv.opening
    | some o => exact (hv.capture c inFlight).1 o ho
  have hi : (sidePage (c.opening.getD (w.k, false)).1 sd).1 < w.leaves.length := by
    cases sd <;> simp only [sidePage] <;> omega
  exact { h with
    total := by
      simpa only [map_modify_same (fun l => l.dose) _ (takeLeaf_dose c.seq _)] using h.total
    leaf := fun j hj => by
      rw [doseAt_modify_same _ (takeLeaf_dose c.seq _)]
      exact h.leaf j (by simpa using hj)
    confirmed := by
      simp only [sum_modify_add (fun l => l.recto.takes + l.verso.takes) _ 1 (takeLeaf_takes c.seq _) hi,
        h.confirmed] }

/-- Every way in which the work goes on keeps the accounts, under the laws of the volume. -/
theorem WorkStep.accountOk {w v : Work} (hv : VolumeOk w) (h : AccountOk w) (hs : WorkStep w v) : AccountOk v := by
  cases hs with
  | order | discard | flush | startTurn | turn | endTurn | reseat | closeVolume => exact { h with }
  | verified | openVolume | release | ask => exact { h with }
  | arm o rest c head turn capture seq t0 opening sides =>
    have hp := h.prediction_none (by simp [capture])
    exact { h with prediction := by simp [hp] }
  | capture c d inFlight seq t0 opening sides =>
    exact { h with
      prediction := fun p hp => by
        obtain ⟨⟨e, he, ht⟩, hk, hc⟩ := h.prediction p hp
        rw [inFlight] at he; cases he
        exact ⟨⟨d, rfl, t0 ▸ ht⟩, hk, hc⟩ }
  | trigger c d p known inFlight t0 seq triggered opening credits fits =>
    exact trigger_accountOk hv h triggered credits fits
  | endCapture c inFlight made => exact { h.forget with prediction := by simp }
  | credit bk p e standing entry => exact credit_accountOk hv h standing entry
  | confirm c sd inFlight => exact confirm_accountOk hv h sd inFlight
  | handle i leaf => exact h.modify i _ (fun _ => rfl) fun _ => rfl
  | mark i a r recto verso => exact h.modify i _ (markLeaf_dose a r recto verso) (markLeaf_takes a r recto verso)
  | loadVolume n leafCeiling volumeCeiling closed =>
    have hp := h.prediction_none (by simp [(hv.idle closed).2.2])
    have hd : (freshTable n).map (fun l => l.dose) = List.replicate (n + 2) 0 := by
      simp [freshTable, List.eq_replicate_iff, freshLeaf]
    refine ⟨by simp [hp], ?_, fun i hi => ?_, by simp [hp], ?_⟩
    · simp [hd]
    · simp [doseAt_eq, hd, hp, List.getD_eq_getElem?_getD, List.getElem?_replicate]
      split <;> simp
    · have ht : (freshTable n).map (fun l => l.recto.takes + l.verso.takes) = List.replicate (n + 2) 0 := by
        simp only [freshTable, List.map_map, List.eq_replicate_iff, List.length_map, List.length_range, true_and]
        intro x hx
        obtain ⟨i, -, rfl⟩ := List.mem_map.mp hx
        simp only [Function.comp, freshLeaf]
        split_ifs <;> rfl
      simp [ht]
  | discardVolume closed =>
    have hp := h.prediction_none (by simp [(hv.idle closed).2.2])
    exact ⟨by simp [hp], by simp [noWork], by simp [noWork], by simp [noWork, hp], by simp [noWork]⟩
  | setCeilings leafCeiling volumeCeiling leaf volume =>
    refine { h with leaf := fun i hi => ?_, volume := ?_ }
    · rcases leaf with rfl | leaf
      · exact h.leaf i hi
      · exact leaf i hi
    · rcases volume with rfl | volume
      · exact h.volume
      · exact volume
  | light a b opened fits => exact light_accountOk hv h opened fits
  | softReset => exact { h.forget with prediction := by simp }
  | powerOn =>
    exact ⟨by simp [noWork], by simp [noWork], by simp [noWork], by simp [noWork], by simp [noWork]⟩

/-- The accounts are kept while the work goes on, under the laws of the volume. -/
theorem Works.accounts {s t : State} (h : Works s t) (hv : Machine.volumeInv s) (hs : predictionInv s ∧ accountInv s) :
    predictionInv t ∧ accountInv t :=
  (accounts_iff t).mpr (h.keeps (P := fun w => VolumeOk w ∧ AccountOk w)
    (fun _ _ hw hs => ⟨hs.volumeOk hw.1, hs.accountOk hw.1 hw.2⟩)
    ⟨(volumeInv_iff s).mp hv, (accounts_iff s).mp hs⟩).2

end Sys2Proof.Machine
end

