-- ==== Sys2Proof/Proofs/AimLight.lean ====
section
/-! The light of an aim tick as a way in which the work goes on (R103 to R106). -/
namespace Sys2Proof.Machine

/-! ### The light of an aim tick -/

/-- Candidate levels `w` come from `v` by darkening lamps. -/
def darkened (v w : Pair Nat) : Prop := ∀ lamp, w.get lamp = v.get lamp ∨ w.get lamp = 0

theorem aimOwn_zero (s : State) (sd : Side) : aimOwn s sd 0 = 0 := rfl

theorem aimSpill_zero (s : State) (sd : Side) : aimSpill s sd 0 = 0 := by
  simp [aimSpill, aimOwn_zero, spillDose, ceilDiv]

/-- A dark lamp credits nothing. -/
theorem aimCredit_dark (s : State) {v : Pair Nat} {lamp : Side} (h : v.get lamp = 0) (page : Side) :
    aimCredit s v lamp page = 0 := by
  unfold aimCredit
  split <;> simp [h, aimOwn_zero, aimSpill_zero]

theorem aimCredit_same (s : State) {v w : Pair Nat} {lamp : Side} (h : w.get lamp = v.get lamp) (page : Side) :
    aimCredit s w lamp page = aimCredit s v lamp page := by simp [aimCredit, h]

theorem aimCredit_darkened (s : State) {v w : Pair Nat} (h : darkened v w) (lamp page : Side) :
    aimCredit s w lamp page ≤ aimCredit s v lamp page := by
  rcases h lamp with h | h
  · exact (aimCredit_same s h page).le
  · simp [aimCredit_dark s h]

theorem pageCredit_darkened (s : State) {v w : Pair Nat} (h : darkened v w) (page : Side) :
    pageCredit s w page ≤ pageCredit s v page :=
  Nat.add_le_add (aimCredit_darkened s h .left page) (aimCredit_darkened s h .right page)

theorem pageFails_iff (s : State) (v : Pair Nat) (page : Side) : pageFails s v page = true ↔
    0 < pageCredit s v page
      ∧ s.volume.leafCeiling < pageUsed s page + pageCredit s v page + s.volume.reserve := by
  simp [pageFails]

theorem volumeFails_iff (s : State) (v : Pair Nat) : volumeFails s v = true ↔
    0 < tickCredit s v
      ∧ s.volume.volumeCeiling < s.volume.totalDose + outstandingTotal s + tickCredit s v := by
  simp [volumeFails]

/-- Less light fails no constraint that more light met. -/
theorem pageFails_darkened (s : State) {v w : Pair Nat} (h : darkened v w) {page : Side}
    (hw : pageFails s w page = true) : pageFails s v page = true := by
  have := pageCredit_darkened s h page
  rw [pageFails_iff] at hw ⊢
  omega

theorem volumeFails_darkened (s : State) {v w : Pair Nat} (h : darkened v w) (hw : volumeFails s w = true) :
    volumeFails s v = true := by
  have hl := pageCredit_darkened s h .left
  have hr := pageCredit_darkened s h .right
  rw [volumeFails_iff, tickCredit] at hw ⊢
  omega

/-- A constraint fails only where there is light. -/
theorem pageFails_credit {s : State} {v : Pair Nat} {page : Side} (h : pageFails s v page = true) :
    0 < pageCredit s v page := ((pageFails_iff s v page).mp h).1

theorem volumeFails_credit {s : State} {v : Pair Nat} (h : volumeFails s v = true) : 0 < tickCredit s v :=
  ((volumeFails_iff s v).mp h).1

/-- A lamp credits a page after a pass only where it contributed to it and the pass left it as it was. -/
theorem contributes_of_credit {s : State} {v w : Pair Nat} (h : darkened v w) {lamp page : Side}
    (hc : 0 < aimCredit s w lamp page) : contributes s v lamp page = true ∧ w.get lamp ≠ 0 := by
  refine ⟨?_, fun h0 => ?_⟩
  · have := aimCredit_darkened s h lamp page
    simp [contributes]; omega
  · simp [aimCredit_dark s h0] at hc

/-- The candidates of a pass. -/
theorem aimPass_get (s : State) (pass : State → Pair Nat → Side → Nat) (x : Pair Nat × Pair (Option Constraint))
    (lamp : Side) : (aimPass s pass x).1.get lamp = pass s x.1 lamp := by cases lamp <;> rfl

theorem passOwn_darkened (s : State) (x : Pair Nat × Pair (Option Constraint)) :
    darkened x.1 (aimPass s passOwn x).1 := fun lamp => by
  rw [aimPass_get, passOwn]; split <;> simp

theorem passSpill_darkened (s : State) (x : Pair Nat × Pair (Option Constraint)) :
    darkened x.1 (aimPass s passSpill x).1 := fun lamp => by
  rw [aimPass_get, passSpill]; split <;> simp

/-- After pass 3 the volume constraint holds: where it failed, every lamp that contributed is dark (R105). -/
theorem passOwn_volume (s : State) (x : Pair Nat × Pair (Option Constraint)) :
    volumeFails s (aimPass s passOwn x).1 = false := by
  by_contra hf
  rw [Bool.not_eq_false] at hf
  have hd := passOwn_darkened s x
  have hv := volumeFails_darkened s hd hf
  have dark : ∀ lamp page, aimCredit s (aimPass s passOwn x).1 lamp page = 0 := fun lamp page => by
    by_contra hc
    obtain ⟨h1, h2⟩ := contributes_of_credit hd (Nat.pos_of_ne_zero hc)
    have : contributesAny s x.1 lamp = true := by cases page <;> simp [contributesAny, h1]
    exact h2 (by rw [aimPass_get, passOwn]; simp [hv, this])
  have := volumeFails_credit hf
  simp [tickCredit, pageCredit, dark] at this

/-- After pass 4 both leaf constraints hold: where one failed, every lamp that contributed is dark (R105). -/
theorem passSpill_page (s : State) (x : Pair Nat × Pair (Option Constraint)) (page : Side) :
    pageFails s (aimPass s passSpill x).1 page = false := by
  by_contra hf
  rw [Bool.not_eq_false] at hf
  have hd := passSpill_darkened s x
  have hv := pageFails_darkened s hd hf
  have dark : ∀ lamp, aimCredit s (aimPass s passSpill x).1 lamp page = 0 := fun lamp => by
    by_contra hc
    obtain ⟨h1, h2⟩ := contributes_of_credit hd (Nat.pos_of_ne_zero hc)
    have : (allSides.any fun page => pageFails s x.1 page && contributes s x.1 lamp page) = true :=
      List.any_eq_true.mpr ⟨page, by cases page <;> simp [allSides], by simp [hv, h1]⟩
    exact h2 (by rw [aimPass_get, passSpill, if_pos this])
  have := pageFails_credit hf
  simp [pageCredit, dark] at this

/-- The chosen levels always fit (R104, R105). -/
theorem chooseLevels_fits (s : State) (v : Pair Nat) : aimFits s (chooseLevels s v).1 = true := by
  unfold chooseLevels
  dsimp only
  split
  · assumption
  · split
    · assumption
    · split
      · assumption
      · simp only [aimFits, passSpill_page, Bool.not_false, Bool.true_and, Bool.not_eq_true']
        by_contra hf
        rw [Bool.not_eq_false] at hf
        have := volumeFails_darkened s (passSpill_darkened s _) hf
        simp [passOwn_volume] at this

/-- What the constraints of R104 let through stays under the ceilings. -/
theorem lightFits_of_aimFits {s : State} {v : Pair Nat} (h : aimFits s v = true) :
    lightFits (work s) (pageCredit s v .left) (pageCredit s v .right) := by
  simp only [aimFits, Bool.and_eq_true, Bool.not_eq_true', ← Bool.not_eq_true, pageFails_iff, volumeFails_iff, pageUsed,
    outstanding, outstandingTotal, pendingEntries_eq, tickCredit, pageLeaf] at h
  obtain ⟨⟨hl, hr⟩, hv⟩ := h
  refine ⟨fun h0 => ?_, fun h0 => ?_, fun h0 => ?_⟩ <;> simp only [work, doseAt] <;> unfold getLeaf at hl hr <;> omega

/-- With both lamps asked for nothing no light is credited. -/
theorem chooseLevels_dark (s : State) (page : Side) : pageCredit s (chooseLevels s ⟨0, 0⟩).1 page = 0 := by
  have dark : ∀ lamp page, aimCredit s ⟨0, 0⟩ lamp page = 0 := fun lamp page =>
    aimCredit_dark s (by cases lamp <;> rfl) page
  have fits : aimFits s ⟨0, 0⟩ = true := by simp [aimFits, pageFails, volumeFails, tickCredit, pageCredit, dark]
  simp [chooseLevels, fits, pageCredit, dark]

/-- Outside an OPEN volume no aim lamp is evaluated at a tick (R86, R103). -/
theorem evaluated_opened {s : State} (h : aimInv s) {sd : Side} (he : evaluated s sd = true) :
    s.volume.state = .opened := by
  obtain ⟨hl, hr⟩ := h
  have lit : (s.lamps.aims.get sd).lit = true := by simp [evaluated] at he; exact he.1
  cases sd with
  | left => rw [show (s.lamps.aims.get .left).lit = _ from hl.1] at lit; simp at lit; tauto
  | right => rw [show (s.lamps.aims.get .right).lit = _ from hr.1] at lit; simp at lit; tauto

@[simp] theorem guardLamp_prediction (t0 : State) (v : Pair Nat) (n : Pair (Option Constraint)) (s : State)
    (sd : Side) : (guardLamp t0 v n s sd).dose.prediction = s.dose.prediction := by
  unfold guardLamp; dsimp only; (repeat' split) <;> simp

/-- The levels that the constraints leave at a 10 ms tick start (R103, R104). -/
def tickLevels (s : State) : Pair Nat :=
  (chooseLevels s
    ⟨if evaluated s .left then (s.lamps.aims.get .left).requested else 0,
      if evaluated s .right then (s.lamps.aims.get .right).requested else 0⟩).1

/-- The 10 ms tick start lights the leaves of the opening, and touches no other work (R106). -/
theorem work_aimTickStart (s : State) :
    work (aimTickStart s) = { work s with
      leaves := lightLeaf (s.volume.k + 1) (pageCredit s (tickLevels s) .right)
        (lightLeaf s.volume.k (pageCredit s (tickLevels s) .left) s.leaves)
      totalDose :=
        s.volume.totalDose + pageCredit s (tickLevels s) .left + pageCredit s (tickLevels s) .right } := by
  simp [work, aimTickStart, tickLevels, creditLeaf, modifyLeaf, lightLeaf]

/-- The light of a tick stays under the ceilings (R103 to R106). -/
theorem aimTickStart_works {s : State} (h : aimInv s) : Works s (aimTickStart s) := by
  refine .step (.light (pageCredit s (tickLevels s) .left) (pageCredit s (tickLevels s) .right) ?_
    (lightFits_of_aimFits (chooseLevels_fits s _))) (work_aimTickStart s)
  by_cases ho : s.volume.state = .opened
  · exact .inr ho
  · have hl : ¬ evaluated s .left = true := fun he => ho (evaluated_opened h he)
    have hr : ¬ evaluated s .right = true := fun he => ho (evaluated_opened h he)
    left
    rw [tickLevels, if_neg hl, if_neg hr]
    simp [chooseLevels_dark]

/-- The light of a tick keeps the laws of the volume, whatever its lamps. -/
theorem aimTickStart_volumeInv {s : State} (h : volumeInv s) : volumeInv (aimTickStart s) := by
  have h := (volumeInv_iff s).mp h
  rw [volumeInv_iff, work_aimTickStart]
  exact { h with length := by rw [lightLeaf_length, lightLeaf_length]; exact h.length }

end Sys2Proof.Machine
end

