-- ==== Sys2Proof/Proofs/WorkMotion.lean ====
section
/-! The work under the sequencer, the safe state and the turn cycle. -/
namespace Sys2Proof.Machine

/-! ### Granted firings under the lamp controller's operations -/

theorem mem_captureNames {gs : List Grant} {n : Nat} : n ∈ captureNames gs ↔ ∃ g ∈ gs, g.capture = some n := by
  simp [captureNames]

theorem captureNames_filter (q : Grant → Bool) (gs : List Grant) : captureNames (gs.filter q) ⊆ captureNames gs :=
  fun n hn => by
    obtain ⟨g, hg, hc⟩ := mem_captureNames.mp hn
    exact mem_captureNames.mpr ⟨g, (List.mem_filter.mp hg).1, hc⟩

/-- Dropping a conditioning flash touches no firing of a capture. -/
@[simp] theorem captureNames_dropConditioning (s : State) (bk : Bank) :
    captureNames (dropConditioning s bk).lamps.grants = captureNames s.lamps.grants := by
  show captureNames (s.lamps.grants.filter _) = _
  induction s.lamps.grants with
  | nil => rfl
  | cons g gs ih =>
    rw [List.filter_cons]
    cases hc : g.capture with
    | none => split <;> simpa [captureNames, List.filterMap_cons, hc] using ih
    | some n => simpa [captureNames, List.filterMap_cons, hc] using ih

@[simp] theorem captureNames_enterStandby (s : State) (bk : Bank) (c : BankCause) :
    captureNames (enterStandby s bk c).lamps.grants = captureNames s.lamps.grants := by simp [enterStandby]

@[simp] theorem captureNames_powerOff (s : State) (bk : Bank) :
    captureNames (powerOff s bk).lamps.grants = captureNames s.lamps.grants := by simp [powerOff]

@[simp] theorem captureNames_endCharge (s : State) (bk : Bank) :
    captureNames (endCharge s bk).lamps.grants = captureNames s.lamps.grants := by unfold endCharge; split <;> simp

@[simp] theorem captureNames_startCharging (s : State) (bk : Bank) :
    captureNames (startCharging s bk).lamps.grants = captureNames s.lamps.grants := by
  unfold startCharging; split <;> simp

@[simp] theorem captureNames_idleBank (s : State) (bk : Bank) :
    captureNames (idleBank s bk).lamps.grants = captureNames s.lamps.grants := by unfold idleBank; split <;> simp

@[simp] theorem captureNames_returnReady (s : State) (bk : Bank) :
    captureNames (returnReady s bk).lamps.grants = captureNames s.lamps.grants := by
  unfold returnReady; split <;> simp

@[simp] theorem captureNames_enterIdle (s : State) :
    captureNames (enterIdle s).lamps.grants = captureNames s.lamps.grants := by simp [enterIdle]

/-! ### Operations that leave the work as it was -/

@[simp] theorem work_restartIdle (s : State) : work (restartIdle s) = work s := by simp [work]

@[simp] theorem work_judgeLit (s : State) : work (judgeLit s) = work s := by simp [work]

@[simp] theorem work_judgeReady (s : State) : work (judgeReady s) = work s := by simp [work]

@[simp] theorem work_endInterval (s : State) : work (endInterval s) = work s := by simp [work]

@[simp] theorem work_wakeIfIdle (s : State) (c : WakeCause) : work (wakeIfIdle s c) = work s := by simp [work]

@[simp] theorem work_offerMinor (s : State) (b : Body) : work (offerMinor s b) = work s := by simp [work]

@[simp] theorem work_offerMajor (s : State) (b : Body) : work (offerMajor s b) = work s := by simp [work]

@[simp] theorem work_driveFn (s : State) (f : Fn) (v : Bool) : work (driveFn s f v) = work s := by simp [work]

@[simp] theorem work_modifyLine (s : State) (i : Nat) (f : Line → Line) : work (modifyLine s i f) = work s := by
  simp [work]

@[simp] theorem work_offerEvent (s : State) (i : Nat) (c : EventCause) (t : Nat) :
    work (offerEvent s i c t) = work s := by simp [work]

@[simp] theorem work_startRaise (s : State) (b : Bool) : work (startRaise s b) = work s := by simp [work]

@[simp] theorem work_startLowering (s : State) : work (startLowering s) = work s := by simp [work]

@[simp] theorem work_followPlaten (s : State) : work (followPlaten s) = work s := by simp [work]

@[simp] theorem work_startAdjust (s : State) (k : Nat) : work (startAdjust s k) = work s := rfl

@[simp] theorem work_suctionOff (s : State) : work (suctionOff s) = work s := rfl

@[simp] theorem work_judgeSilence (s : State) : work (judgeSilence s) = work s := by simp [work]

@[simp] theorem work_enterReady (s : State) (bk : Bank) (c : Option BankCause) :
    work (enterReady s bk c) = work s := by simp [work]

@[simp] theorem work_enterConditioning (s : State) (bk : Bank) (c : BankCause) :
    work (enterConditioning s bk c) = work s := by simp [work]

@[simp] theorem work_returnReady (s : State) (bk : Bank) : work (returnReady s bk) = work s := by simp [work]

@[simp] theorem work_endCharge (s : State) (bk : Bank) : work (endCharge s bk) = work s := by simp [work]

@[simp] theorem work_enterIdle (s : State) : work (enterIdle s) = work s := by simp [work]

@[simp] theorem work_modifyBank (s : State) (bk : Bank) (f : BankRec → BankRec) :
    work (modifyBank s bk f) = work s := by simp [work]

@[simp] theorem work_topUp (s : State) (bk : Bank) : work (topUp s bk) = work s := by simp [work]

@[simp] theorem work_foldl_requestHood (s : State) (n : Nat) (bs : List Bank) :
    work (bs.foldl (requestHood n) s) = work s := by simp [work]

/-! ### The capture in flight -/

theorem unfired_mapSides {f : SideRec → SideRec} (hf : ∀ x, unfiredSide x → unfiredSide (f x)) {c : Capture}
    (h : unfired c) : unfired (mapSides f c) := by
  have key : ∀ {x : Option SideRec}, (∀ y, x = some y → unfiredSide y) → ∀ y, x.map f = some y → unfiredSide y :=
    fun hx y hy => by
      obtain ⟨z, hz, rfl⟩ := Option.map_eq_some_iff.mp hy
      exact hf z (hx z hz)
  intro sd x hx
  cases sd with
  | left => exact key (h .left) x hx
  | right => exact key (h .right) x hx

/-- A change of the capture in flight that keeps its number, its test and its opening. -/
theorem works_mapCapture (s : State) (f : Capture → Capture) (seq : ∀ c, (f c).seq = c.seq)
    (t0 : ∀ c, (f c).t0 = c.t0) (opening : ∀ c, (f c).opening = c.opening)
    (sides : ∀ c, s.seq.capture = some c → c.t0 = none → unfired c → unfired (f c)) :
    Works s { s with seq.capture := s.seq.capture.map f } := by
  cases hc : s.seq.capture with
  | none => exact .of_eq (by simp [work, hc])
  | some c =>
    exact .step (.capture c (f c) hc (seq c) (t0 c) (.inl (opening c)) (sides c hc)) (by simp [work])

theorem modifySide_works (s : State) (sd : Side) (f : SideRec → SideRec)
    (hf : ∀ c x, s.seq.capture = some c → c.t0 = none → c.sides.get sd = some x → unfiredSide x →
      unfiredSide (f x)) : Works s (modifySide s sd f) := by
  refine works_mapCapture s (fun c => { c with sides := c.sides.set sd ((c.sides.get sd).map f) }) (fun _ => rfl)
    (fun _ => rfl) (fun _ => rfl) fun c hc ht hu y x hx => ?_
  by_cases hy : y = sd
  · subst hy
    obtain ⟨z, hz, rfl⟩ := Option.map_eq_some_iff.mp (pair_get_set .. ▸ hx)
    exact hf c z hc ht hz (hu y z hz)
  · exact hu y x (pair_get_set_ne c.sides hy _ ▸ hx)

theorem unfiredSide_ended {x : SideRec} {o : SideOutcome} (h : x.stage = .ended o) : unfiredSide x := .inr ⟨o, h⟩

theorem unfiredSide_endArming (o : SideOutcome) (x : SideRec) (h : unfiredSide x) : unfiredSide (endArming o x) := by
  unfold endArming
  split
  · exact unfiredSide_ended rfl
  · exact h

theorem unfiredSide_endUnsynced (o : SideOutcome) (x : SideRec) (h : unfiredSide x) :
    unfiredSide (endUnsynced o x) := by
  unfold endUnsynced
  split
  · exact unfiredSide_ended rfl
  · exact unfiredSide_ended rfl
  · exact h

/-- A hold or the safe state ends the sides of the capture in flight that have not been synced (R126, R127). -/
theorem endUnsynced_works (s : State) (o : SideOutcome) :
    Works s { s with seq.capture := s.seq.capture.map fun c =>
      { mapSides (endUnsynced o) c with deadline := none } } :=
  works_mapCapture s _ (fun _ => rfl) (fun _ => rfl) (fun _ => rfl) fun _ _ _ hu =>
    unfired_mapSides (unfiredSide_endUnsynced o) hu

theorem holdCapture_works (s : State) : Works s (holdCapture s) := endUnsynced_works s .abortedHold

/-- The end of the capture in flight (R123). -/
theorem endCapture_works {s : State} {c : Capture} (hc : s.seq.capture = some c)
    (made : captureGranted s c.seq = false) : Works s (endCapture s c) := by
  refine .step (.endCapture c hc fun hn => ?_) (by simp [work, endCapture])
  obtain ⟨g, hg, he⟩ := mem_captureNames.mp hn
  have : captureGranted s c.seq = true := List.any_eq_true.mpr ⟨g, hg, by simp [he]⟩
  simp [this] at made

theorem captureDone_granted {s : State} {c : Capture} (h : captureDone s c = true) :
    captureGranted s c.seq = false := by simp [captureDone] at h; exact h.2

/-! ### The sequencer -/

theorem unfired_freshSides (s : State) (x : Sides) (c : Capture)
    (hl : c.sides.l = if wants x .left then some (freshSide s .left) else none)
    (hr : c.sides.r = if wants x .right then some (freshSide s .right) else none) : unfired c := by
  intro sd y hy
  left
  cases sd with
  | left =>
    rw [show c.sides.get .left = _ from hl] at hy
    split at hy <;> cases hy
    rfl
  | right =>
    rw [show c.sides.get .right = _ from hr] at hy
    split at hy <;> cases hy
    rfl

theorem discardLate_works {s : State} {o : Order} {rest : List Order} (h : s.seq.orders = o :: rest) :
    Works s (discardLate s o rest) :=
  .step (.discard o rest h) (by simp [work, discardLate])

/-- The head order enters ARMING (R116). -/
theorem enterArming_works {s : State} {o : Order} {rest : List Order} (h : s.seq.orders = o :: rest)
    (hc : s.seq.capture = none) (ht : s.motion.turn = none) :
    Works s (enterArming { s with seq.orders := rest } o) := by
  unfold enterArming
  extract_lets _ s0 r side c _ s1
  have h0 : work s0 = { work s with orders := rest } := work_wakeIfIdle _ _
  have seq : s0.volume.captureSeq = s.volume.captureSeq := congrArg Work.captureSeq h0
  have h1 : work s1 = { work s with
      orders := rest, captureSeq := s.volume.captureSeq + 1, issued := s.volume.capturesIssued + 1 } :=
    (work_restartIdle _).trans (congrArg (fun w : Work =>
      { w with captureSeq := w.captureSeq + 1, issued := w.issued + 1 }) h0)
  have hu : unfired c := unfired_freshSides s0 o.sides c rfl rfl
  have armed : ∀ d : Capture, d.seq = c.seq → d.t0 = none → d.opening = none → unfired d →
      Works s { s1 with seq.capture := some d } := fun d hd ht0 ho hu =>
    .step (.arm o rest d h ht hc (by rw [hd]; exact congrArg (· + 1) seq) ht0 ho hu)
      (congrArg (fun w : Work => { w with capture := some d }) h1)
  split
  · exact armed _ rfl rfl rfl (unfired_mapSides (unfiredSide_endArming .recipeDark) hu)
  · exact (armed c rfl rfl rfl hu).then_eq (work_foldl_requestHood _ _ _)

theorem makeEntry_leaves (s : State) (k : Nat) (levels : Quad Nat) (duration : Nat) (bk : Bank) :
    let e := makeEntry s k levels duration bk
    (e.ownLeaf = k ∨ e.ownLeaf = k + 1) ∧ (e.spillLeaf = k ∨ e.spillLeaf = k + 1) := by
  cases bk <;> simp [makeEntry, Bank.side, Side.other, pageLeaf]

/-- A prediction that the precheck makes credits the opening and fits (R97, R98). -/
theorem precheck_ok {s : State} {n : Nat} {x : Sides} {levels : Quad Nat} {duration : Nat} {p : Prediction}
    (h : precheck s n s.volume.k x levels duration = .ok p) :
    creditsOpening p s.volume.k ∧ predictionFits (work s) p := by
  unfold precheck at h
  dsimp only at h
  split at h
  · contradiction
  · split_ifs at h with hl hr hv
    cases h
    refine ⟨⟨rfl, fun e he => ?_⟩, Nat.not_lt.mp hl, Nat.not_lt.mp hr, Nat.not_lt.mp hv⟩
    obtain ⟨bk, -, rfl⟩ := List.mem_map.mp he
    exact makeEntry_leaves s s.volume.k levels duration bk

/-- The capture in flight passes its test (R119). -/
theorem enterTriggered_works {s : State} {c d : Capture} {x : Sides} {levels : Quad Nat} {duration : Nat}
    {p : Prediction} (hc : s.seq.capture = some c) (ht : c.t0 = none) (seq : d.seq = c.seq)
    (opening : d.opening = some (s.volume.k, s.volume.known))
    (h : precheck s c.seq s.volume.k x levels duration = .ok p) : Works s (enterTriggered s d p) := by
  obtain ⟨credits, fits⟩ := precheck_ok h
  exact .step (.trigger c { d with
      deadline := none, t0 := some (now s)
      sides := ⟨d.sides.l.map (triggerSide s .left), d.sides.r.map (triggerSide s .right)⟩ }
    p s.volume.known hc ht seq rfl opening credits fits) (by simp [work, enterTriggered])

/-- The arming test of the capture in flight (R118). -/
theorem armTest_works {s : State} {c : Capture} (hc : s.seq.capture = some c) (ht : c.t0 = none) :
    Works s (armTest s c) := by
  have failed : ∀ (o : SideOutcome) (g : Option Figures), Works s { s with
      seq.capture := some { endCaptureArming o
        { c with opening := some (s.volume.k, s.volume.known), deadline := none } with figures := g } } := fun o g =>
    .step (.capture c _ hc (by rfl) (by rfl) (.inr ⟨s.volume.known, by rfl⟩) fun _ hu => by
      exact unfired_mapSides (unfiredSide_endArming o) hu) rfl
  unfold armTest
  dsimp only
  split
  · exact failed .notEquipped c.figures
  · split
    · rename_i p hp
      obtain ⟨credits, fits⟩ := precheck_ok hp
      exact enterTriggered_works (d := { c with opening := some (s.volume.k, s.volume.known), deadline := none })
        hc ht rfl rfl hp
    · exact failed .notCalibrated _
    · exact failed .doseCeiling _

theorem advanceOnce_works {s t : State} (h : advanceOnce s = some t) : Works s t := by
  rcases advanceOnce_cases h with ⟨c, hc, hd, rfl⟩ | ⟨c, hc, -, ht, -, rfl⟩ | ⟨o, rest, -, ho, -, -, rfl⟩ |
    ⟨o, rest, hc, ho, hg, -, rfl⟩
  · exact endCapture_works hc (captureDone_granted hd)
  · exact armTest_works hc ht
  · exact discardLate_works ho
  · have ht : s.motion.turn = none := by
      simp only [headMayGo, turnInFlight, Bool.and_eq_true, Bool.not_eq_true', Option.isSome_eq_false_iff,
        Option.isNone_iff_eq_none] at hg
      exact hg.1.1.2
    exact enterArming_works ho hc ht

theorem advance_works (n : Nat) (s : State) : Works s (advance n s) := by
  induction n generalizing s with
  | zero => exact .refl s
  | succ n ih =>
    unfold advance
    split
    · exact .refl s
    · rename_i h; exact (advanceOnce_works h).trans (ih _)

theorem settle_works (s : State) : Works s (settle s) :=
  (advance_works (advanceFuel s) s).then_eq (by simp [settle])

/-- What is settled after some work is more work. -/
theorem Works.settled {s t : State} (h : Works s t) : Works s (settle t) := h.trans (settle_works t)

/-! ### The turn in flight and the safe state -/

theorem modifyTurn_works (s : State) (f : Turn → Turn) (leaf : ∀ t, (f t).leaf = t.leaf)
    (direction : ∀ t, (f t).direction = t.direction)
    (stage : ∀ t, s.motion.turn = some t → beforePark (f t).stage = true → beforePark t.stage = true) :
    Works s (modifyTurn s f) := by
  cases ht : s.motion.turn with
  | none => exact .of_eq (by simp [work, ht])
  | some t =>
    exact .step (.turn t (f t) ht (leaf t) (direction t) (stage t ht)) (by simp [work, ht])

theorem endTurn_works (s : State) (r : TurnReport) : Works s (endTurn s r) :=
  .step .endTurn (by simp [work, endTurn])

theorem abandonSafe_works (s : State) (k : FaultKind) : Works s (abandonSafe s k) := by
  unfold abandonSafe
  split
  · exact .refl s
  · exact (Works.of_eq (by rfl)).trans (endTurn_works _ _)

theorem safeMotion_works (s : State) (k : FaultKind) : Works s (safeMotion s k) := by
  refine (abandonSafe_works s k).then_eq ?_
  unfold safeMotion
  dsimp only
  split <;> simp [work]

theorem safeSequencer_works (s : State) : Works s (safeSequencer s) := by
  have flush : ∀ t : State, Works t { t.seq.orders.foldl flushOrder t with seq.orders := [] } := fun t =>
    .step .flush (by simp [work])
  unfold safeSequencer
  dsimp only
  refine (endUnsynced_works s .abortedSafe).trans (.trans ?_ (flush _))
  split
  · exact .refl _
  · rename_i c hc
    split
    · rename_i hd; exact endCapture_works hc (captureDone_granted hd)
    · exact .refl _

theorem safeEntry_works (s : State) (k : FaultKind) : Works s (safeEntry s k) :=
  ((safeMotion_works s k).trans (safeSequencer_works _)).then_eq (by simp [safeEntry, work])

theorem raiseFault_works (s : State) (k : FaultKind) (bk : Option Bank) : Works s (raiseFault s k bk) := by
  rcases raiseFault_cases k bk s with ⟨-, h⟩ | ⟨-, h⟩
  · exact .of_eq (by rw [h]; simp [work])
  · rw [h]
    exact (Works.of_eq (by simp [work])).trans (safeEntry_works _ k)

/-! ### The turn cycle -/

theorem setStage_works (s : State) (g : Stage) (d : Option Nat)
    (stage : ∀ t, s.motion.turn = some t → beforePark g = true → beforePark t.stage = true) :
    Works s (setStage s g d) :=
  (modifyTurn_works s (fun t => { t with stage := g, recovery := false, regripAir := false, deadline := d })
    (fun _ => rfl) (fun _ => rfl) stage).then_eq (work_restartIdle _)

theorem startGrip_works (s : State) : Works s (startGrip s) :=
  (modifyTurn_works s (fun t => { t with
    attempts := t.attempts + 1, regripAir := false, deadline := some (now s + gripTime) })
    (fun _ => rfl) (fun _ => rfl) fun _ _ h => h).then_eq rfl

theorem startStage_works (s : State) (g : Stage)
    (stage : ∀ t, s.motion.turn = some t → beforePark g = true → beforePark t.stage = true) :
    Works s (startStage s g) := by
  cases g with
  | raise =>
    refine (setStage_works s .raise none stage).then_eq ?_
    simp only [startStage]; split <;> simp
  | air => exact (setStage_works s .air _ stage).then_eq rfl
  | reach => exact (setStage_works s .reach _ stage).then_eq rfl
  | grip => exact (setStage_works s .grip none stage).trans (startGrip_works _)
  | sweep => exact setStage_works s .sweep _ stage
  | release =>
    exact ((setStage_works s .release _ stage).then_eq (work_suctionOff _)).trans
      (modifyTurn_works _ _ (fun _ => rfl) (fun _ => rfl) fun _ _ h => h)
  | verify => exact setStage_works s .verify _ stage
  | park => exact setStage_works s .park _ stage
  | adjust =>
    exact ((setStage_works s .adjust none stage).then_eq (work_startAdjust _ _)).trans
      (modifyTurn_works _ _ (fun _ => rfl) (fun _ => rfl) fun _ _ h => h)
  | lower => exact (setStage_works s .lower none stage).then_eq (work_startLowering _)

theorem doublePick_works (s : State) (t : Turn) : Works s (doublePick s t) := by
  unfold doublePick
  split
  · exact raiseFault_works s .doublePick none
  · exact modifyTurn_works s _ (fun _ => rfl) (fun _ => rfl) fun _ _ h => h

theorem returnToAir_works {s : State} {t : Turn} (ht : s.motion.turn = some t) (hb : beforePark t.stage = true) :
    Works s (returnToAir s) := by
  refine .trans (t := { modifyTurn (suctionOff s) fun t =>
    { t with doublePicks := t.doublePicks + 1, retries := t.retries - 1 } with
      volume.doublePicks := satSucc counterMax s.volume.doublePicks }) ?_
    (startStage_works _ .air fun u hu _ => ?_)
  · exact (modifyTurn_works (suctionOff s) _ (fun _ => by rfl) (fun _ => by rfl) fun _ _ h => by exact h).then_eq rfl
  · simp [ht] at hu
    subst hu; exact hb

theorem turnDone_works (s : State) (t : Turn) : Works s (turnDone s t) :=
  (Works.of_eq (by rfl)).trans (endTurn_works _ _)

/-- A verified turn changes the opening and parks the arm (R56). -/
theorem verified_works {s : State} {t : Turn} (ht : s.motion.turn = some t) (hs : t.stage = .verify) :
    Works s (startStage { s with volume.k := turnedOpening t.direction s.volume.k } .park) :=
  .step (.verified t { t with
      stage := .park, recovery := false, regripAir := false, deadline := some (now s + armTime) } ht
    (by simp [hs, beforePark]) rfl rfl rfl) (by simp [work, startStage, setStage, ht, now])

theorem turnStep_works {s u : State} {t : Turn} (ht : s.motion.turn = some t) (h : turnStep s t = some u) :
    Works s u := by
  have start : ∀ g, (beforePark g = true → beforePark t.stage = true) → Works s (startStage s g) := fun g hg =>
    startStage_works s g fun x hx => by rw [ht] at hx; cases hx; exact hg
  unfold turnStep at h
  split at h
  · contradiction
  · split at h <;> rename_i hs <;> try simp only [hs, beforePark] at start
    case h_1 => split_ifs at h; cases h; exact start .air (by simp)
    case h_2 => contradiction
    case h_3 => split_ifs at h; cases h; exact start .grip (by simp)
    case h_4 =>
      split_ifs at h; cases h
      refine .trans (t := countHandling s t.leaf) (.step (.handle t.leaf (.inl ⟨t, ht, rfl⟩)) ?_)
        (startStage_works _ .sweep fun x hx _ => ?_)
      · simp [work, countHandling, modifyLeaf]
      · simp [ht] at hx; subst hx; simp [hs, beforePark]
    case h_5 =>
      split_ifs at h <;> cases h
      · exact returnToAir_works ht (by simp [hs, beforePark])
      · exact doublePick_works s t
      · exact start .release (by simp)
    case h_6 => split_ifs at h; cases h; exact start .verify (by simp)
    case h_7 => split_ifs at h; cases h; exact verified_works ht hs
    case h_8 => split_ifs at h; cases h; exact start .adjust (by simp)
    case h_9 => split_ifs at h; cases h; exact start .lower (by simp)
    case h_10 => split_ifs at h; cases h; exact turnDone_works s t

theorem runTurn_works (n : Nat) (s : State) : Works s (runTurn n s) := by
  induction n generalizing s with
  | zero => exact .refl s
  | succ n ih =>
    unfold runTurn
    split
    · exact .refl s
    · rename_i ht
      split
      · exact .refl s
      · rename_i h; exact (turnStep_works ht h).trans (ih _)

theorem runMotion_works (s : State) : Works s (runMotion s) :=
  (Works.of_eq (work_followPlaten s)).trans (runTurn_works 16 _)

/-- What every event ends with: the motion controller acts, and the rest settles. -/
theorem Works.moved {s t : State} (h : Works s t) : Works s (settle (runMotion t)) :=
  (h.trans (runMotion_works t)).settled

/-- A chain of checks refuses nothing where no check of it failed. -/
theorem firstRefusal_none {α : Type} {p : Prop} [Decidable p] {x : α} {y : Option α} :
    (if p then some x else y) = none ↔ ¬p ∧ y = none := by
  split <;> simp [*]

/-- What a turn that passes its checks finds (R51). -/
theorem turnCheck_none {s : State} {d : Direction} {o : Bool} (h : turnCheck s d o = none) :
    s.volume.state = .opened ∧ s.motion.turn = none ∧ s.seq.capture = none
      ∧ (d = .forward → s.volume.k ≠ s.volume.leafCount) ∧ (d = .backward → s.volume.k ≠ 0) := by
  simp only [turnCheck, firstRefusal_none, volumeOpened, turnInFlight, captureInFlight, Bool.not_eq_true',
    decide_eq_false_iff_not, not_not, Bool.or_eq_true, not_or, Bool.not_eq_true, Option.isSome_eq_false_iff,
    Option.isNone_iff_eq_none] at h
  obtain ⟨opened, -, -, -, ⟨⟨⟨turn, -⟩, -⟩, -⟩, capture, -, -, atEnd, atStart, -⟩ := h
  exact ⟨opened, turn, capture, fun hd hk => atEnd ⟨hd, hk⟩, fun hd hk => atStart ⟨hd, hk⟩⟩

theorem acceptTurn_works {s : State} {d : Direction} {b : Bool} (o : Origin) (h : turnCheck s d b = none) :
    Works s (acceptTurn s d o b) := by
  obtain ⟨opened, turn, capture, atEnd, atStart⟩ := turnCheck_none h
  unfold acceptTurn
  refine Works.moved (.trans (.step (.startTurn _ opened turn capture ?_ ?_ ?_) (by simp [work]; rfl))
    (startStage_works _ .raise fun u hu _ => by cases hu; rfl))
  · rfl
  · exact atEnd
  · exact atStart

theorem resumeStage_works {s : State} {t : Turn} (h : ∀ u, s.motion.turn = some u → u.stage = t.stage) :
    Works s (resumeStage s t) := by
  have tick : ∀ (u : State) (f : Turn → Turn), (∀ t, (f t).leaf = t.leaf) → (∀ t, (f t).direction = t.direction) →
      (∀ t, (f t).stage = t.stage) → Works u (modifyTurn u f) := fun u f hl hd hs =>
    modifyTurn_works u f hl hd fun t _ hb => hs t ▸ hb
  unfold resumeStage
  split
  · split
    · exact (tick s _ (fun _ => by rfl) (fun _ => by rfl) fun _ => by rfl).then_eq rfl
    · exact (tick s _ (fun _ => by rfl) (fun _ => by rfl) fun _ => by rfl).then_eq rfl
  · exact tick s _ (fun _ => rfl) (fun _ => rfl) fun _ => rfl
  · exact (Works.of_eq (work_suctionOff s)).trans (tick _ _ (fun _ => rfl) (fun _ => rfl) fun _ => rfl)
  · exact .of_eq rfl
  · exact startStage_works s _ fun u hu hb => h u hu ▸ hb

theorem resumeTurn_works {s : State} {t : Turn} (ht : s.motion.turn = some t) : Works s (resumeTurn s t) := by
  unfold resumeTurn
  refine Works.moved (.then_eq (.trans (modifyTurn_works s (fun t => { t with held := false }) (fun _ => rfl)
    (fun _ => rfl) fun _ _ h => h) (resumeStage_works fun u hu => ?_)) (work_restartIdle _))
  simp [ht] at hu
  subst hu; rfl

end Sys2Proof.Machine
end

