-- ==== Sys2Proof/Proofs/WorkCaptures.lean ====
section
/-! The work under captures, the hold, the lines and the resets. -/
namespace Sys2Proof.Machine

/-! ### Captures under the camera edges, the firings and their answers -/

/-- What an order that passes its checks finds (R111). -/
theorem orderCheck_none {s : State} {x : Sides} {r : Nat} (h : orderCheck s x r = none) :
    s.volume.state = .opened ∧ s.volume.captureSeq + s.seq.orders.length + 1 ≤ 65535 := by
  simp only [orderCheck, firstRefusal_none, volumeOpened, Bool.not_eq_true', decide_eq_false_iff_not, not_not,
    Nat.not_lt] at h
  obtain ⟨opened, -, -, -, numbered, -⟩ := h
  exact ⟨opened, numbered⟩

theorem acceptOrder_works {s : State} {x : Sides} {r : Nat} (o : Order) (h : orderCheck s x r = none) :
    Works s (acceptOrder s o) :=
  .settled (.step (.order o (orderCheck_none h).1 (orderCheck_none h).2) (by simp [work]))

theorem keyShoot_works (s : State) : Works s (keyShoot s) := by
  refine (Works.of_eq (work_restartIdle s)).trans ?_
  unfold keyShoot
  dsimp only
  split
  · exact .of_eq (work_offerMinor _ _)
  · rename_i h; exact acceptOrder_works _ h

theorem keyTurn_works (s : State) (k : Fn) (d : Direction) : Works s (keyTurn s k d) := by
  refine (Works.of_eq (work_restartIdle s)).trans ?_
  unfold keyTurn
  dsimp only
  split
  · exact .of_eq (work_offerMinor _ _)
  · rename_i h; exact acceptTurn_works .key h

/-- A side of the capture in flight ends with an outcome. -/
theorem endSide_works (s : State) (sd : Side) (f : SideRec → SideRec) (o : SideOutcome)
    (hf : ∀ x, (f x).stage = .ended o) : Works s (modifySide s sd f) :=
  modifySide_works s sd f fun _ x _ _ _ _ => unfiredSide_ended (hf x)

/-- A side of a capture that has passed its test goes on. -/
theorem firedSide_works {s : State} {c : Capture} {t : Nat} (hc : s.seq.capture = some c) (ht : c.t0 = some t)
    (sd : Side) (f : SideRec → SideRec) : Works s (modifySide s sd f) :=
  modifySide_works s sd f fun d x hd h _ _ => by
    rw [hc] at hd; cases hd
    rw [ht] at h; cases h

/-- A change of a side that keeps its stage. -/
theorem keptSide_works (s : State) (sd : Side) (f : SideRec → SideRec) (hf : ∀ x, (f x).stage = x.stage) :
    Works s (modifySide s sd f) :=
  modifySide_works s sd f fun _ x _ _ _ h => by unfold unfiredSide; rw [hf]; exact h

theorem confirmSide_works {s : State} {c d : Capture} (hd : s.seq.capture = some d) (seq : d.seq = c.seq)
    (opening : d.opening = c.opening) (sd : Side) : Works s (confirmSide s c sd) := by
  unfold confirmSide
  refine .trans (.step (.confirm d sd hd) ?_) (endSide_works _ sd _ .confirmed fun _ => rfl)
  simp only [work, modifyLeaf, seq, opening]

/-- The capture that asks for firings is in flight, its test passed. -/
def asks (s : State) (c : Capture) : Prop := ∃ d, s.seq.capture = some d ∧ d.seq = c.seq ∧ d.t0.isSome = true

theorem asks_modifySide {s : State} {c : Capture} (h : asks s c) (sd : Side) (f : SideRec → SideRec) :
    asks (modifySide s sd f) c := by
  obtain ⟨d, hd, seq, t0⟩ := h
  exact ⟨{ d with sides := d.sides.set sd ((d.sides.get sd).map f) }, by simp [hd], seq, t0⟩

theorem askOne_works {s : State} {c : Capture} (h : asks s c) (sd : Side) (bk : Bank) (t : Nat) :
    Works s (askOne s c sd bk t) ∧ asks (askOne s c sd bk t) c := by
  obtain ⟨d, hd, seq, t0⟩ := h
  have asked : Works s (askFiring s bk t (c.levels.get bk) c.duration (some c.seq)) :=
    .step (.ask d hd t0) (by simp [work, askFiring, captureNames, seq])
  exact ⟨asked.trans (keptSide_works _ sd _ fun _ => rfl), asks_modifySide ⟨d, by simp [hd], seq, t0⟩ _ _⟩

theorem askBanks_works {s : State} {c : Capture} (h : asks s c) (sd : Side) (bs : List Bank) (t : Nat) :
    Works s (askBanks c sd bs t s) := by
  induction bs generalizing s t with
  | nil => exact .refl s
  | cons bk rest ih =>
    obtain ⟨asked, goesOn⟩ := askOne_works h sd bk t
    exact asked.trans (ih goesOn _)

theorem syncEdge_works (s : State) (sd : Side) (t : Nat) : Works s (syncEdge s sd t) := by
  unfold syncEdge
  split
  · exact .refl s
  · rename_i c hc
    split
    · rename_i t0 x ht hx
      dsimp only
      split_ifs
      · exact endSide_works s sd _ .earlySync fun _ => rfl
      · refine ((firedSide_works hc ht sd _).then_eq (work_restartIdle _)).trans (askBanks_works ?_ _ _ _)
        obtain ⟨d, hd, seq, hd0⟩ := asks_modifySide ⟨c, hc, rfl, by simp [ht]⟩ sd fun x =>
          { x with stage := .firing, syncTime := some t }
        exact ⟨d, by simpa using hd, seq, hd0⟩
      · exact .refl s
      · exact .refl s
    · exact .refl s

theorem storedEdge_works (s : State) (sd : Side) : Works s (storedEdge s sd) := by
  unfold storedEdge
  split
  · exact .refl s
  · rename_i c hc
    split
    · exact .refl s
    · split
      · exact keptSide_works s sd _ fun _ => rfl
      · exact confirmSide_works hc rfl rfl sd
      · exact .refl s

theorem leaveFiring_works (s : State) (sd : Side) : Works s (leaveFiring s sd) := by
  unfold leaveFiring
  split
  · exact .refl s
  · rename_i c hc
    split
    · exact .refl s
    · rename_i x hx
      have storing : x.stage = .firing → Works s (restartIdle (modifySide s sd fun x =>
          { x with stage := .storing, storedDeadline := some (now s + ms x.camera.stored) })) := fun firing => by
        refine (modifySide_works s sd _ fun d y hd _ hy hu => ?_).then_eq (work_restartIdle _)
        rw [hc] at hd; cases hd
        rw [hx] at hy; cases hy
        rcases hu with h | ⟨o, h⟩ <;> simp [firing] at h
      dsimp only
      split_ifs with firing fired noted
      · exact (storing firing.1).trans (confirmSide_works (d := { c with
          sides := c.sides.set sd ((c.sides.get sd).map fun x =>
            { x with stage := .storing, storedDeadline := some (now s + ms x.camera.stored) }) })
          (by simp [hc]) rfl rfl sd)
      · exact storing firing.1
      · exact endSide_works s sd _ .unlit fun _ => rfl
      · exact .refl s

theorem answerAsk_works (s : State) (bk : Bank) (a : Answer) : Works s (answerAsk s bk a) :=
  (keptSide_works s bk.side _ fun _ => by rfl).trans (leaveFiring_works _ _)

/-- A firing made is credited (R100). -/
theorem creditFiring_works (s : State) (bk : Bank) : Works s (creditFiring s bk) := by
  unfold creditFiring
  split
  · exact .refl s
  · rename_i p hp
    split
    · exact .refl s
    · rename_i e he
      exact .step (.credit bk p e hp he) rfl

theorem removeGrant_works (s : State) (bk : Bank) : Works s (removeGrant s bk) :=
  .step (.release _ (captureNames_filter _ _)) rfl

theorem captureFiring_works (s : State) (bk : Bank) (g : Grant) : Works s (captureFiring s bk g) := by
  refine .settled ((removeGrant_works s bk).trans ?_)
  split
  · exact (Works.of_eq (work_modifyBank _ _ _)).trans ((creditFiring_works _ _).trans (answerAsk_works _ _ _))
  · exact answerAsk_works _ _ _

theorem conditioningFlash_works (s : State) (bk : Bank) (g : Grant) : Works s (conditioningFlash s bk g) := by
  refine (removeGrant_works s bk).then_eq ?_
  unfold conditioningFlash
  dsimp only
  split <;> simp [work]

/-! ### The hold, the lines and the resets -/

theorem holdMotion_works (s : State) : Works s (holdMotion s) := by
  refine (modifyTurn_works s (fun t => { t with held := true, deadline := none }) (fun _ => rfl) (fun _ => rfl)
    fun _ _ h => h).then_eq ?_
  unfold holdMotion
  dsimp only
  split <;> try split
  all_goals simp [work, modifyTurn, stopPlaten]

@[simp] theorem work_stopHoods (s : State) : work (stopHoods s) = work s := by simp [work]

theorem holdOn_works (s : State) (i t : Nat) : Works s (holdOn s i t) := by
  refine .trans (t := offerMajor { s with lines.hold := some ⟨i, t⟩ } (.holdOn i t)) (.of_eq (by simp [work])) ?_
  exact ((holdMotion_works _).trans (holdCapture_works _)).then_eq (work_stopHoods _)

theorem holdOff_works (s : State) (i t : Nat) (h : Hold) : Works s (holdOff s i t h) := .of_eq (by simp [work])

theorem evalHold_works (s : State) (i t : Nat) : Works s (evalHold s i t) := by
  rcases evalHold_cases i t s with h | ⟨-, -, h⟩ | ⟨x, -, -, h⟩ <;> rw [h]
  · exact .refl s
  · exact holdOn_works s i t
  · exact holdOff_works s i t x

theorem holdAfresh_works (s : State) : Works s (holdAfresh s) := by
  unfold holdAfresh
  dsimp only
  split
  · exact .of_eq rfl
  · exact (Works.of_eq (by rfl)).trans (holdOn_works _ _ _)

theorem noteLeaf_works (s : State) (f : Fn) : Works s (noteLeaf s f) := by
  refine modifyTurn_works s _ (fun t => ?_) (fun t => ?_) fun t _ h => ?_
  · split <;> rfl
  · split <;> rfl
  · split at h <;> exact h

theorem handEdge_works (s : State) (f : Fn) (t : Nat) : Works s (handEdge s f t) := by
  unfold handEdge
  split
  · exact syncEdge_works s .left t
  · exact syncEdge_works s .right t
  · exact storedEdge_works s .left
  · exact storedEdge_works s .right
  · exact noteLeaf_works s _
  · exact noteLeaf_works s _
  · split
    · exact .refl s
    · exact keyShoot_works s
  · split
    · exact .refl s
    · exact keyTurn_works s _ _
  · split
    · exact .refl s
    · exact keyTurn_works s _ _
  · exact .refl s

theorem handLine_works (s : State) (i : Nat) (a : Bool) (t : Nat) : Works s (handLine s i a t) := by
  unfold handLine
  split
  · exact .refl s
  · split
    · exact handEdge_works s _ t
    · exact .refl s

theorem acceptEdge_works (s : State) (i : Nat) (high : Bool) (t : Nat) : Works s (acceptEdge s i high t) := by
  have taken : Works s (offerEvent (modifyLine s i (takeEdge high)) i .edge t) := .of_eq (by simp)
  refine Works.moved (.trans ?_ (handLine_works _ _ _ _))
  split <;> split
  · exact (taken.trans (evalHold_works _ _ _)).then_eq (work_wakeIfIdle _ _)
  · exact taken.then_eq (work_wakeIfIdle _ _)
  · exact taken.trans (evalHold_works _ _ _)
  · exact taken

theorem acceptDue_works (s : State) (i : Nat) : Works s (acceptDue s i) := by
  rcases acceptDue_cases i s with ⟨-, h⟩ | ⟨high, t, -, h⟩ <;> rw [h]
  · exact .refl s
  · exact acceptEdge_works s i high t

theorem configureLine_works (s : State) (i : Nat) (c : LineSettings) : Works s (configureLine s i c) := by
  unfold configureLine
  extract_lets l s1 s2 s3 s4 s5
  have h2 : work s2 = work s := by unfold s2; split <;> simp [work, s1]
  have h3 : Works s s3 := .of_eq ((work_offerEvent _ _ _ _).trans h2)
  have h4 : Works s s4 := by
    unfold s4; split
    · exact h3.trans (evalHold_works _ _ _)
    · exact h3
  have h5 : Works s s5 := by
    unfold s5; split
    · exact h4
    · split
      · exact h4
      · exact h4.trans (acceptEdge_works _ _ _ _)
  exact h5.moved

theorem rebind_works (s : State) (f : Fn) (l : Option Nat) : Works s (rebind s f l) := by
  unfold rebind
  split
  · exact Works.moved (.of_eq (by simp [work]))
  · split
    · exact .refl s
    · exact Works.moved (.of_eq (by simp [work]))

theorem work_clearLine (s : State) (i : Nat) : work (clearLine s i) = work s := by simp [work]

/-- The soft reset ends the turn, the capture and the orders, and keeps the volume (R19, R128). -/
theorem softReset_works (s : State) : Works s (softReset s) := by
  have blocks : Works s (resetEvents (resetBlocks s)) := by
    refine (Works.step .softReset ?_ : Works s (resetBlocks s)).then_eq
      (foldl_keeps work _ (fun u i => work_offerEvent u i _ _) _ _)
    simp [work, resetBlocks, resetVolume, resetMotion, resetLamps, resetDose, resetSequencer, captureNames]
  exact (blocks.trans (holdAfresh_works _)).then_eq (by simp [softReset])

theorem powerOn_works (s : State) : Works s (powerOn s) :=
  .trans (.step .powerOn rfl) (holdAfresh_works _)

end Sys2Proof.Machine
end

