-- ==== Sys2Proof/Proofs/WorkRequests.lean ====
section
/-! The work under the requests and the timed events. -/
namespace Sys2Proof.Machine

/-! ### The requests -/

/-- A request of the link: whatever its owner does goes on from the part woken. -/
theorem serve_works {owner : State → Decision} (h : ∀ u, Works u (owner u).1) (kind tag : Byte) (s : State) :
    Works s (serve kind tag owner s) := by
  refine .trans (t := restartIdle (wakeIfIdle s (.request kind))) (.of_eq (by simp)) ?_
  exact (h _).then_eq rfl

theorem observe_works {owner : State → Decision} (h : ∀ u, Works u (owner u).1) (kind tag : Byte) (s : State) :
    Works s (observe kind tag owner s) := (h s).then_eq rfl

/-- A request that leaves the work as it was. -/
theorem serve_works_of_eq {owner : State → Decision} (h : ∀ u, work (owner u).1 = work u) (kind tag : Byte)
    (s : State) : Works s (serve kind tag owner s) := serve_works (fun u => .of_eq (h u)) kind tag s

/-- A decision refused at a check that fails does nothing; where the check passes, the rest decides. -/
theorem ite_fst {s : State} {p : Prop} [Decidable p] {x y : Decision} (refused : Works s x.1)
    (rest : ¬p → Works s y.1) : Works s (if p then x else y).1 := by
  split
  · exact refused
  · exact rest ‹_›

theorem decideVolumeLoad_works (mark : Text) (part leaves thickness leafCeiling volumeCeiling limit reserve : Nat)
    (s : State) : Works s (decideVolumeLoad mark part leaves thickness leafCeiling volumeCeiling limit reserve s).1 := by
  unfold decideVolumeLoad
  split_ifs with hv
  case neg => exact .step (.loadVolume leaves leafCeiling volumeCeiling fun h => hv (decide_eq_true h)) rfl
  all_goals exact .refl s

theorem decideVolumeOpen_works (k : Nat) (s : State) : Works s (decideVolumeOpen k s).1 := by
  unfold decideVolumeOpen
  split_ifs with hl hk
  case neg =>
    split
    · exact .refl s
    · exact .settled (.step (.openVolume k (not_not.mp hl) (Nat.not_lt.mp hk))
      ((work_judgeSilence _).trans (work_startAdjust _ _)))
  all_goals exact .refl s

/-- No leaf of a list stands above a ceiling that the check of R7 passes. -/
theorem firstOver_none {s : State} {c i : Nat} {ls : List Leaf} (h : firstOver s c ls i = none) :
    ∀ j, j < ls.length → doseAt ls j + outstanding s (i + j) ≤ c := by
  induction ls generalizing i with
  | nil => intro j hj; simp at hj
  | cons l ls ih =>
    unfold firstOver at h
    split at h
    · contradiction
    · rename_i hl
      intro j hj
      cases j with
      | zero => simpa [doseAt] using hl
      | succ j =>
        have := ih h j (by simpa using hj)
        simpa [doseAt, Nat.add_assoc, Nat.add_comm 1 j] using this

/-- What a VOLUME_SET that passes its ceiling check finds (R7). -/
theorem ceilingCheck_none {s : State} {lc vc : Option Nat} (h : ceilingCheck s lc vc = none) :
    (∀ c, lc = some c → ∀ i, i < s.leaves.length → doseAt s.leaves i + outstanding s i ≤ c)
      ∧ ∀ c, vc = some c → s.volume.totalDose + outstandingTotal s ≤ c := by
  unfold ceilingCheck at h
  split at h
  · contradiction
  · rename_i hl
    refine ⟨fun c hc i hi => ?_, fun c hc => ?_⟩
    · subst hc
      simpa using firstOver_none hl i hi
    · subst hc
      dsimp only at h
      split_ifs at h with hv
      exact Nat.not_lt.mp hv

theorem decideVolumeSet_works (lc vc limit reserve thickness : Option Nat) (s : State) :
    Works s (decideVolumeSet lc vc limit reserve thickness s).1 := by
  unfold decideVolumeSet
  split
  · exact .refl s
  · split
    · exact .refl s
    · split
      · exact .refl s
      · rename_i h
        obtain ⟨leaf, volume⟩ := ceilingCheck_none h
        refine .step (.setCeilings (lc.getD s.volume.leafCeiling) (vc.getD s.volume.volumeCeiling) ?_ ?_) rfl
        · cases lc with
          | none => exact .inl rfl
          | some c => exact .inr fun i hi => by have := leaf c rfl i hi; rwa [outstanding, pendingEntries_eq] at this
        · cases vc with
          | none => exact .inl rfl
          | some c => exact .inr (by have := volume c rfl; rwa [outstandingTotal, pendingEntries_eq] at this)

theorem closeVolume_works {s : State} (opened : s.volume.state = .opened) (turn : s.motion.turn = none)
    (capture : s.seq.capture = none) (orders : s.seq.orders = []) : Works s (closeVolume s) :=
  .settled (.step (.closeVolume opened turn capture orders) (by simp [work, closedVolume]))

theorem decideVolumeClose_works (force : Bool) (s : State) : Works s (decideVolumeClose force s).1 := by
  unfold decideVolumeClose
  refine ite_fst (.refl s) fun hv => ite_fst (.refl s) fun hb => ite_fst (.refl s) fun hc => ite_fst (.refl s) fun _ =>
    ite_fst (.refl s) fun _ => ?_
  simp only [volumeOpened, Bool.not_eq_true', decide_eq_false_iff_not, not_not] at hv
  simp only [closeBusy, turnInFlight, Bool.or_eq_true, not_or, Bool.not_eq_true, Option.isSome_eq_false_iff,
    Option.isNone_iff_eq_none] at hb
  simp only [captureInFlight, Bool.or_eq_true, not_or, Bool.not_eq_true, Option.isSome_eq_false_iff,
    Option.isNone_iff_eq_none, Bool.not_eq_eq_eq_not, Bool.not_true, Bool.not_eq_false, List.isEmpty_iff] at hc
  exact closeVolume_works hv hb.1.1.1.1 hc.1 hc.2

theorem decideVolumeDiscard_works (s : State) : Works s (decideVolumeDiscard s).1 := by
  have discard : s.volume.state ≠ .opened →
      Works s { s with volume := emptyVolume, leaves := [], plan := [] } := fun h => .step (.discardVolume h) rfl
  unfold decideVolumeDiscard
  split
  · exact .refl s
  · exact .refl s
  · rename_i h _; exact discard h

theorem countManual_works {s : State} {leaf : Option Nat} (h : optInRange leaf 1 s.volume.leafCount = true) :
    Works s (countManual s leaf) := by
  unfold countManual
  split
  · exact .refl s
  · simp only [optInRange, inRange, Bool.and_eq_true, decide_eq_true_eq] at h
    exact .step (.handle _ (.inr h)) (by simp [work, countHandling, modifyLeaf])

theorem reseatAt_works {s : State} {k : Nat} {leaf : Option Nat} (turn : s.motion.turn = none)
    (capture : s.seq.capture = none) (hk : k ≤ s.volume.leafCount)
    (hl : optInRange leaf 1 s.volume.leafCount = true) : Works s (reseatAt s k leaf) := by
  refine .settled (.then_eq (.trans (t := { s with volume.k := k, volume.known := true })
    (.step (.reseat k turn capture hk) rfl) (countManual_works hl)) ?_)
  split <;> split <;> simp <;> rfl

theorem decideReseat_works (k : Nat) (leaf : Option Nat) (s : State) : Works s (decideReseat k leaf s).1 := by
  unfold decideReseat
  split_ifs with hv hk hl
  case neg =>
    split
    · exact .refl s
    · rename_i h
      rw [reseatRefusal, firstRefusal_none, firstRefusal_none] at h
      obtain ⟨turn, capture, -⟩ := h
      exact reseatAt_works (by simpa [turnInFlight] using turn) (by simpa [captureInFlight] using capture)
        (Nat.not_lt.mp hk) (by simpa using hl)
  all_goals exact .refl s

theorem decideLeafMark_works (leaf : Nat) (recto verso : Bool) (action : Option LeafAction)
    (reason : Option (Option SkipReason)) (s : State) : Works s (decideLeafMark leaf recto verso action reason s).1 := by
  unfold decideLeafMark
  split
  · exact .refl s
  · split
    · exact .refl s
    · split
      · exact .refl s
      · exact .step (.mark leaf _ _ recto verso) rfl

theorem decideTurn_works (d : Direction) (o : Bool) (s : State) : Works s (decideTurn d o s).1 := by
  unfold decideTurn
  split
  · exact .refl s
  · rename_i h; exact acceptTurn_works .link h

theorem heldTurn_some {s : State} {t : Turn} (h : heldTurn s = some t) : s.motion.turn = some t :=
  (Option.filter_eq_some_iff.mp h).1

theorem decideTurnResume_works (s : State) : Works s (decideTurnResume s).1 := by
  unfold decideTurnResume
  split
  · exact .refl s
  · rename_i h
    split
    · exact .refl s
    · exact resumeTurn_works (heldTurn_some h)

theorem decideTurnAbandon_works (s : State) : Works s (decideTurnAbandon s).1 := by
  unfold decideTurnAbandon
  split
  · exact .refl s
  · exact .settled (.trans (.of_eq (by rfl)) (endTurn_works _ _))

theorem decideShoot_works (t : Nat) (x : Option Sides) (r : Nat) (p : Option Purpose) (n : Option Nat) (s : State) :
    Works s (decideShoot t x r p n s).1 := by
  unfold decideShoot
  split
  · exact .refl s
  · dsimp only
    split
    · exact .refl s
    · exact .refl s
    · rename_i h; exact acceptOrder_works _ h

theorem decideLower_works (s : State) : Works s (decideLower s).1 := by
  unfold decideLower
  split
  · exact .refl s
  · exact .of_eq (work_startLowering s)

theorem decideRaise_works (s : State) : Works s (decideRaise s).1 := by
  unfold decideRaise
  split
  · exact .refl s
  · split
    · exact .refl s
    · exact .refl s
    · exact .settled (.of_eq (work_startRaise s false))

theorem decideSafe_works (s : State) : Works s (decideSafe s).1 := (raiseFault_works s .operator none).settled

theorem decideClearSafe_works (s : State) : Works s (decideClearSafe s).1 := by
  unfold decideClearSafe
  refine ite_fst (.refl s) fun _ => ite_fst (.refl s) fun _ => ite_fst (.refl s) fun _ => .settled (.of_eq ?_)
  split
  · exact work_startAdjust _ _
  · rfl

theorem decideBankPower_works (mask : Quad Bool) (command : Option Bool) (s : State) :
    Works s (decideBankPower mask command s).1 := by
  have power : ∀ on u bk, work (powerBank on mask u bk) = work u := fun on u bk => by
    unfold powerBank
    repeat' split
    all_goals simp [work]
  unfold decideBankPower
  split
  · exact .refl s
  · split_ifs
    · exact .refl s
    · exact .refl s
    · exact .of_eq (foldl_keeps work _ (power _) _ _)

theorem work_setRecharge (v : Nat) (mask : Quad Bool) (s : State) (bk : Bank) :
    work (setRecharge v mask s bk) = work s := by
  unfold setRecharge
  dsimp only
  repeat' split
  all_goals simp

theorem decideBankSet_works (mask : Quad Bool) (recharge : Nat) (s : State) :
    Works s (decideBankSet mask recharge s).1 :=
  .settled (.of_eq (foldl_keeps work _ (work_setRecharge _ mask) _ _))

theorem decideLineConfig_works (line : Nat) (dir : Option LineDir) (pull : Option Pull) (drive : Option Drive)
    (sense : Option Sense) (polarity : Option Polarity) (both : Bool) (debounce : Nat) (event wake hold : Bool)
    (s : State) :
    Works s (decideLineConfig line dir pull drive sense polarity both debounce event wake hold s).1 := by
  unfold decideLineConfig
  split
  · exact .refl s
  · split
    · exact .refl s
    · dsimp only
      split_ifs
      · exact .refl s
      · exact .refl s
      · exact configureLine_works s line _

theorem decideLineBind_works (f : Option Fn) (line : Option Nat) (s : State) :
    Works s (decideLineBind f line s).1 := by
  unfold decideLineBind
  split
  · exact .refl s
  · split
    · exact rebind_works s _ none
    · split
      · exact .refl s
      · split
        · exact .refl s
        · exact rebind_works s _ _

theorem decideFetch_works (s : State) : Works s (decideFetch s).1 := by
  refine .of_eq ?_
  unfold decideFetch reofferFirst
  dsimp only
  repeat' split
  all_goals simp [work, accept]

/-! ### The events -/

theorem expiredTurn_some {s : State} {t : Turn} (h : expiredTurn s = some t) : s.motion.turn = some t :=
  (Option.filter_eq_some_iff.mp h).1

theorem stageFault_works (s : State) (k : FaultKind) : Works s (stageFault s k) := (raiseFault_works s k none).settled

theorem endAir_works {s : State} {t : Turn} (ht : s.motion.turn = some t) : Works s (endAir s t) := by
  refine Works.moved (.trans (t := { s with motion.air := false }) (.of_eq rfl) ?_)
  split
  · rename_i hs
    exact startStage_works _ .reach fun u hu _ => by rw [show u = t from Option.some.inj (hu.symm.trans ht), hs]; rfl
  · exact startGrip_works _

theorem failGrip_works (s : State) (t : Turn) : Works s (failGrip s t) := by
  unfold failGrip
  split
  · exact stageFault_works s .gripFailed
  · refine .then_eq (modifyTurn_works (suctionOff s) (fun t => { t with
      retries := t.retries - 1, regripAir := true, deadline := some (now s + ms s.motion.profile.airTime) })
      (fun _ => rfl) (fun _ => rfl) fun _ _ h => h) ?_
    exact work_restartIdle _

theorem takeReading_works (s : State) (n : Nat) : Works s (takeReading s n) := by
  unfold takeReading
  dsimp only
  split_ifs
  · exact .trans (.of_eq (by rfl)) (raiseFault_works _ .pressureHigh none)
  · exact .of_eq rfl
  · exact .of_eq rfl
  · exact .of_eq rfl

theorem expireDwell_works (s : State) (d : Dwell) : Works s (expireDwell s d) := by
  unfold expireDwell
  dsimp only
  split
  · exact .settled (.of_eq (by simp [work]))
  · exact .of_eq (by simp [work])
  · exact .of_eq (by simp [work])

theorem endNotReady_works {s : State} {c : Capture} (hc : s.seq.capture = some c) : Works s (endNotReady s c) :=
  .settled (.step (.capture c { endCaptureArming .notReady c with unmet := some (unmetOf s c) } hc rfl rfl (.inl rfl)
    fun _ hu => unfired_mapSides (unfiredSide_endArming .notReady) hu) rfl)

theorem replySent_works (s : State) : ∀ t, execReplySent s = .next t → Works s t := by
  rintro t h
  cases h
  split
  · exact .refl s
  · split
    · exact softReset_works s
    · exact .of_eq (by simp [work])

end Sys2Proof.Machine
end

