-- ==== Sys2Proof/Proofs/WorkEvents.lean ====
section
/-! The work under every command. -/
namespace Sys2Proof.Machine

/-! ### The step -/

/-- What a guarded event does, its guard met or not. -/
theorem Works.guarded {s t : State} {p : Prop} [Decidable p] (h : p → Works s t) : Works s (if p then t else s) := by
  split
  · exact h ‹_›
  · exact .refl s

/-- The event of a running turn whose timer has expired. -/
theorem Works.expired {s : State} {f : Turn → State} (h : ∀ t, s.motion.turn = some t → Works s (f t)) :
    Works s (match expiredTurn s with
      | none => s
      | some t => f t) := by
  split
  · exact .refl s
  · exact h _ (expiredTurn_some ‹_›)

/-- A fault that an event raises, on a state with the same work. -/
theorem fault_works {s u : State} (h : work u = work s) (k : FaultKind) (bk : Option Bank) :
    Works s (settle (raiseFault u k bk)) := .settled ((Works.of_eq h).trans (raiseFault_works u k bk))

/-- Every command but the aim tick takes the work on by the steps of its owners. -/
theorem exec_works (c : Instr) (s : State) (hc : c ≠ .aimTick) : ∃ t, exec c s = .next t ∧ Works s t := by
  cases c <;> refine ⟨_, rfl, ?_⟩
  case aimTick => contradiction
  case powerOnReset => exact powerOn_works s
  case softReset => exact softReset_works s
  case byteReceived => exact .of_eq (by simp only [work]; split <;> simp)
  case gapError => exact .guarded fun _ => .of_eq (by simp [work])
  case replySent => exact replySent_works s _ rfl
  case fetch => exact observe_works decideFetch_works ..
  case linkSet =>
    refine serve_works_of_eq (fun u => ?_) ..
    unfold decideLinkSet
    dsimp only
    split_ifs <;> first | rfl | exact work_judgeSilence _
  case safe => exact serve_works decideSafe_works ..
  case clearSafe => exact serve_works decideClearSafe_works ..
  case idleSet => exact serve_works_of_eq (fun u => work_restartIdle _) ..
  case volumeLoad => exact serve_works (fun u => decideVolumeLoad_works ..) ..
  case volumeOpen => exact serve_works (decideVolumeOpen_works _) ..
  case volumeSet => exact serve_works (fun u => decideVolumeSet_works ..) ..
  case volumeClose => exact serve_works (decideVolumeClose_works _) ..
  case volumeDiscard => exact serve_works decideVolumeDiscard_works ..
  case reseat => exact serve_works (decideReseat_works _ _) ..
  case leafMark => exact serve_works (fun u => decideLeafMark_works ..) ..
  case lower => exact serve_works decideLower_works ..
  case raise => exact serve_works decideRaise_works ..
  case turn => exact serve_works (decideTurn_works _ _) ..
  case turnBack => exact serve_works (decideTurn_works _ _) ..
  case turnResume => exact serve_works decideTurnResume_works ..
  case turnAbandon => exact serve_works decideTurnAbandon_works ..
  case bankPower => exact serve_works (decideBankPower_works _ _) ..
  case bankSet => exact serve_works (decideBankSet_works _ _) ..
  case shoot => exact serve_works (fun u => decideShoot_works ..) ..
  case lineConfig => exact serve_works (fun u => decideLineConfig_works ..) ..
  case lineClear => exact serve_works_of_eq (fun u => foldl_keeps work _ work_clearLine _ _) ..
  case lineBind => exact serve_works (decideLineBind_works _ _) ..
  case pinLevelChange =>
    exact ((acceptDue_works s _).then_eq (work_modifyLine _ _ _)).trans (acceptDue_works _ _)
  case acceptedEdge => exact acceptDue_works s _
  case tick1ms =>
    exact .guarded fun _ => .moved (.trans (.of_eq (by simp [work])) (takeReading_works _ _))
  case chargeGood => exact .of_eq (by simp only [work]; split <;> simp)
  case linkSilent => exact .guarded fun _ => fault_works (by rfl) _ _
  case idleTimerExpiry => exact .guarded fun _ => .of_eq (by split <;> simp)
  case loweringTimeout => exact .guarded fun _ => fault_works (by rfl) _ _
  case pressingTimeout => exact .guarded fun _ => fault_works (by rfl) _ _
  case raiseTimeout => exact .guarded fun _ => fault_works (by rfl) _ _
  case dwellExpiry =>
    split
    · exact .refl s
    · exact .guarded fun _ => expireDwell_works s _
  case platesAtTarget => exact .guarded fun _ => .moved (.of_eq rfl)
  case plateTimeout => exact .guarded fun _ => fault_works (by rfl) _ _
  case airTimeEnd => exact .expired fun t ht => .guarded fun _ => endAir_works ht
  case armTimeout => exact .expired fun t _ => .guarded fun _ => stageFault_works s _
  case gripTimeout => exact .expired fun t _ => .guarded fun _ => failGrip_works s t
  case releaseTimeout => exact .expired fun t _ => .guarded fun _ => stageFault_works s _
  case verifyTimeout => exact .expired fun t _ => .guarded fun _ => stageFault_works s _
  case bankChargeTimeout =>
    exact .guarded fun _ => fault_works (by simp [work]) _ _
  case conditioningFlash =>
    split
    · exact .refl s
    · exact conditioningFlash_works s _ _
  case conditioningComplete => exact .guarded fun _ => .settled (.of_eq (by simp))
  case captureFiring =>
    split
    · exact .refl s
    · exact captureFiring_works s _ _
  case flashEnd => exact .guarded fun _ => .settled (.of_eq (work_modifyBank _ _ _))
  case recoveryEnd => exact .guarded fun _ => .settled (.of_eq (work_returnReady _ _))
  case topUpStart => exact .of_eq (work_topUp s _)
  case topUpEnd => exact .guarded fun _ => .settled (.of_eq (work_returnReady _ _))
  case wakingEnd => exact .guarded fun _ => .settled (.of_eq (by split <;> simp))
  case hoodTravelEnd hood => exact .guarded fun _ => .settled (.of_eq (by cases hood <;> simp [setHood]; rfl))
  case notBeforeTime => exact .guarded fun _ => settle_works s
  case armingTimeout =>
    split
    · exact .refl s
    · exact endNotReady_works (Option.filter_eq_some_iff.mp ‹_›).1
  case triggerPulseEnd => exact .guarded fun _ => .of_eq (work_driveFn _ _ _)
  case syncWindowClose => exact .guarded fun _ => .settled (endSide_works s _ _ .noSync fun _ => rfl)
  case storedTimeout => exact .guarded fun _ => .settled (endSide_works s _ _ .notStored fun _ => rfl)
  case conditioningFlashDue => exact .guarded fun _ => .of_eq (by simp [work, askFiring, captureNames])
  case ident => exact observe_works (fun u => .refl u) ..
  case status => exact observe_works (fun u => .refl u) ..
  case time => exact observe_works (fun u => .refl u) ..
  case motionQuery => exact observe_works (fun u => .refl u) ..
  case lampQuery => exact observe_works (fun u => .refl u) ..
  case captureQuery => exact observe_works (fun u => .refl u) ..
  case reset => exact serve_works_of_eq (fun u => rfl) ..
  case volumeQuery => exact serve_works_of_eq (fun u => rfl) ..
  case leafQuery => exact serve_works_of_eq (fun u => by unfold decideLeafQuery; split_ifs <;> rfl) ..
  case gapsQuery => exact serve_works_of_eq (fun u => by unfold decideGapsQuery; split_ifs <;> rfl) ..
  case planSet =>
    refine serve_works_of_eq (fun u => ?_) ..
    unfold decidePlanSet
    repeat' split
    all_goals rfl
  case planQuery => exact serve_works_of_eq (fun u => by unfold decidePlanQuery; split_ifs <;> rfl) ..
  case motionSet => exact serve_works_of_eq (fun u => rfl) ..
  case aimSet => exact serve_works_of_eq (fun u => rfl) ..
  case recipeSet => exact serve_works_of_eq (fun u => by unfold decideRecipeSet; split_ifs <;> rfl) ..
  case recipeQuery => exact serve_works_of_eq (fun u => by unfold decideRecipeQuery; split_ifs <;> rfl) ..
  case lampCal =>
    refine serve_works_of_eq (fun u => ?_) ..
    unfold decideLampCal
    repeat' split
    all_goals first | rfl | (unfold setCal; split <;> rfl)
  case calQuery => exact serve_works_of_eq (fun u => by unfold decideCalQuery; split <;> rfl) ..
  case doseQuery => exact serve_works_of_eq (fun u => rfl) ..
  case cameraSet => exact serve_works_of_eq (fun u => rfl) ..
  case lineWrite => exact serve_works_of_eq (fun u => rfl) ..
  case lineRead => exact serve_works_of_eq (fun u => rfl) ..
  case lineCounts => exact serve_works_of_eq (fun u => rfl) ..
  case lineQuery => exact serve_works_of_eq (fun u => by unfold decideLineQuery; split_ifs <;> rfl) ..

end Sys2Proof.Machine
end

