-- ==== Sys2Proof/Proofs/VolumeAndDoses.lean ====
section
/-! The step lemmas of the volume and of its doses. -/
namespace Sys2Proof.Machine

theorem work_idleStep (s : State) : work (idleStep s) = work s := by
  unfold idleStep passMicrosecond
  split
  · split <;> rfl
  · rfl

/-- A step is an aim tick that is due, or takes the work on by the steps of its owners. -/
theorem step_works {s t : State} (h : step s = .next t) :
    Works s t ∨ ∃ rest, t = aimTickStart { s with pending := rest, time.aimDue := false } := by
  unfold step at h
  split at h
  · cases h
    exact .inl (.of_eq (work_idleStep s))
  · rename_i c rest _
    by_cases hc : c = .aimTick
    · subst hc
      obtain rfl := Host.Outcome.next.inj h
      split
      · exact .inr ⟨rest, rfl⟩
      · exact .inl (.of_eq rfl)
    · obtain ⟨u, hu, w⟩ := exec_works c { s with pending := rest } hc
      obtain rfl := Host.Outcome.next.inj (hu.symm.trans h)
      exact .inl w

end Sys2Proof.Machine

namespace Sys2Proof
open Machine

/-- Settles O8: every step takes the work on a volume from one way of going on to the next, and each keeps the laws of the
volume; the light of an aim tick touches none of them. -/
theorem openingAndNumbersStayInTheVolume : Obligations.OpeningAndNumbersStayInTheVolume := by
  intro s t hs h
  rcases step_works h with w | ⟨rest, rfl⟩
  · exact w.volumeInv hs
  · exact aimTickStart_volumeInv hs

/-- Settles O10: each way in which the work goes on keeps the dose accounts, and the light of an aim tick, which a lit lamp
alone gives, stays under the ceilings by the constraints of R104. -/
theorem noDoseEverExceedsItsCeiling : Obligations.NoDoseEverExceedsItsCeiling := by
  intro s t hs h
  obtain ⟨volume, prediction, aims, account⟩ := hs
  rcases step_works h with w | ⟨rest, rfl⟩
  · exact w.accounts volume ⟨prediction, account⟩
  · have w : Works { s with pending := rest, time.aimDue := false }
        (aimTickStart { s with pending := rest, time.aimDue := false }) := aimTickStart_works aims
    exact w.accounts volume ⟨prediction, account⟩

end Sys2Proof
end

