-- ==== Sys2Proof/Proofs/Counts.lean ====
section
/-! The wrapping and saturating counts, and the operations that leave them as they were (R1, R73, R175, R182, R183). -/
namespace Sys2Proof.Machine

/-! ### The counts -/

/-- The wrapping and saturating counts of a state, with the banks whose conditioning flash is granted and not yet made. -/
structure Counts where
  phase : Nat
  ms : Nat
  tenth : Nat
  errorCount : Nat
  buffered : Nat
  boundaries : Nat
  silence : Silence
  missed : Nat
  lastSeq : Nat
  lateCount : Nat
  turnsDone : Nat
  gripRetries : Nat
  doublePicks : Nat
  manualTurns : Nat
  segments : Nat
  edges : List Nat
  flashes : Quad Nat
  conditioning : List Bank

/-- The edge counts of lines. -/
def edgeCounts (ls : List Line) : List Nat := ls.map fun l => l.count

/-- The conditioning counts of the banks. -/
def flashCounts (q : Quad BankRec) : Quad Nat := ⟨q.a.count, q.b.count, q.c.count, q.d.count⟩

/-- The bank of a grant for conditioning. -/
def conditioningBank (g : Grant) : Option Bank := if g.capture = none then some g.bank else none

/-- The banks of the granted conditioning flashes. -/
def conditioningBanks (gs : List Grant) : List Bank := gs.filterMap conditioningBank

def counts (s : State) : Counts :=
  { phase := s.time.phase, ms := s.time.ms, tenth := s.time.tenth, errorCount := s.link.errorCount
    buffered := s.link.buffer.length, boundaries := s.link.boundaries, silence := s.link.silence
    missed := s.queue.missed, lastSeq := s.queue.lastSeq, lateCount := s.seq.lateCount
    turnsDone := s.volume.turnsDone, gripRetries := s.volume.gripRetries, doublePicks := s.volume.doublePicks
    manualTurns := s.volume.manualTurns, segments := s.plan.length, edges := edgeCounts s.lines.records
    flashes := flashCounts s.lamps.banks, conditioning := conditioningBanks s.lamps.grants }

/-- The laws of `countsInv`, one by one. -/
structure CountsOk (c : Counts) : Prop where
  phase : c.phase ≤ 1000
  ms : c.ms < 4294967296
  tenth : c.tenth < 10
  errorCount : c.errorCount ≤ 65535
  buffered : c.buffered ≤ 2
  boundaries : c.boundaries ≤ 7
  silent : c.silence ≠ .armed → c.boundaries = 0
  missed : c.missed ≤ 255
  lastSeq : c.lastSeq ≤ 65535
  lateCount : c.lateCount ≤ 65535
  turnsDone : c.turnsDone ≤ counterMax
  gripRetries : c.gripRetries ≤ counterMax
  doublePicks : c.doublePicks ≤ counterMax
  manualTurns : c.manualTurns ≤ counterMax
  segments : c.segments ≤ 24
  edges : ∀ n ∈ c.edges, n ≤ 65535
  flashes : ∀ bk, c.flashes.get bk ≤ 2
  conditioning : ∀ bk ∈ c.conditioning, c.flashes.get bk < 2

theorem flashCounts_get (q : Quad BankRec) (bk : Bank) : (flashCounts q).get bk = (q.get bk).count := by
  cases bk <;> rfl

theorem mem_conditioningBanks {gs : List Grant} {bk : Bank} :
    bk ∈ conditioningBanks gs ↔ ∃ g ∈ gs, g.capture = none ∧ g.bank = bk := by
  simp [conditioningBanks, conditioningBank]

theorem countsInv_iff (s : State) : countsInv s ↔ CountsOk (counts s) := by
  constructor
  · rintro ⟨h1, h2, h3, h4, h5, h6, h7, h8, h9, h10, h11, h12, h13, h14, h15, edges, flashes, granted⟩
    refine ⟨h1, h2, h3, h4, h5, h6, h7, h8, h9, h10, h11, h12, h13, h14, h15, fun n hn => ?_, fun bk => ?_,
      fun bk hbk => ?_⟩
    · obtain ⟨l, hl, rfl⟩ := List.mem_map.mp hn
      exact edges l hl
    · exact (flashCounts_get s.lamps.banks bk).symm ▸ flashes bk
    · obtain ⟨g, hg, hc, rfl⟩ := mem_conditioningBanks.mp hbk
      exact (flashCounts_get s.lamps.banks g.bank).symm ▸ granted g hg hc
  · intro h
    exact ⟨h.phase, h.ms, h.tenth, h.errorCount, h.buffered, h.boundaries, h.silent, h.missed, h.lastSeq, h.lateCount,
      h.turnsDone, h.gripRetries, h.doublePicks, h.manualTurns, h.segments,
      fun l hl => h.edges _ (List.mem_map_of_mem hl), fun bk => (flashCounts_get s.lamps.banks bk) ▸ h.flashes bk,
      fun g hg hc => (flashCounts_get s.lamps.banks g.bank) ▸
        h.conditioning _ (mem_conditioningBanks.mpr ⟨g, hg, hc, rfl⟩)⟩

/-- The counts of `t` are in their ranges if those of `s` are. -/
def Ranged (s t : State) : Prop := CountsOk (counts s) → CountsOk (counts t)

namespace Ranged
variable {s t u : State}

theorem refl (s : State) : Ranged s s := id

theorem of_eq (h : counts t = counts s) : Ranged s t := fun hs => h.symm ▸ hs

theorem trans (h : Ranged s t) (g : Ranged t u) : Ranged s u := fun hs => g (h hs)

theorem then_eq (h : Ranged s t) (g : counts u = counts t) : Ranged s u := h.trans (.of_eq g)

/-- What each operation of a list keeps in range, the whole list does. -/
theorem foldl {α : Type} {f : State → α → State} (h : ∀ u a, Ranged u (f u a)) (l : List α) (s : State) :
    Ranged s (l.foldl f s) := by
  induction l generalizing s with
  | nil => exact refl s
  | cons a l ih => exact (h s a).trans (ih _)

end Ranged

/-! ### Operations that leave the counts as they were -/

theorem edgeCounts_modify {f : Line → Line} (h : ∀ l, (f l).count = l.count) (i : Nat) (ls : List Line) :
    edgeCounts (ls.modify i f) = edgeCounts ls := by
  refine List.ext_getElem (by simp [edgeCounts]) fun j h1 h2 => ?_
  simp only [edgeCounts, List.getElem_map, List.getElem_modify]
  split
  · exact h _
  · rfl

theorem counts_modifyLine (s : State) (i : Nat) (f : Line → Line) (h : ∀ l, (f l).count = l.count) :
    counts (modifyLine s i f) = counts s := by
  simp [counts, modifyLine, edgeCounts_modify h]

theorem flashCounts_set (q : Quad BankRec) (bk : Bank) (r : BankRec) (h : r.count = (q.get bk).count) :
    flashCounts (q.set bk r) = flashCounts q := by
  cases bk <;> simp_all [flashCounts, Quad.set, Quad.get]

theorem counts_setBank (s : State) (bk : Bank) (r : BankRec) (h : r.count = (getBank s bk).count) :
    counts (setBank s bk r) = counts s := by
  simp only [counts, setBank, flashCounts_set _ _ _ h]

theorem counts_modifyBank (s : State) (bk : Bank) (f : BankRec → BankRec) (h : ∀ r, (f r).count = r.count) :
    counts (modifyBank s bk f) = counts s := counts_setBank s bk _ (h _)

@[simp] theorem counts_restartIdle (s : State) : counts (restartIdle s) = counts s := by
  unfold restartIdle; split <;> rfl

@[simp] theorem counts_driveFn (s : State) (f : Fn) (v : Bool) : counts (driveFn s f v) = counts s := by
  unfold driveFn; split
  · rfl
  · exact counts_modifyLine _ _ _ fun _ => rfl

@[simp] theorem counts_judgeLit (s : State) : counts (judgeLit s) = counts s := rfl

@[simp] theorem counts_judgeReady (s : State) : counts (judgeReady s) = counts s := counts_driveFn _ _ _

@[simp] theorem counts_modifyTurn (s : State) (f : Turn → Turn) : counts (modifyTurn s f) = counts s := rfl

@[simp] theorem counts_modifySide (s : State) (sd : Side) (f : SideRec → SideRec) :
    counts (modifySide s sd f) = counts s := rfl

@[simp] theorem counts_modifyLeaf (s : State) (i : Nat) (f : Leaf → Leaf) : counts (modifyLeaf s i f) = counts s := rfl

@[simp] theorem counts_suctionOff (s : State) : counts (suctionOff s) = counts s := rfl

@[simp] theorem counts_startRaise (s : State) (b : Bool) : counts (startRaise s b) = counts s := rfl

@[simp] theorem counts_startAdjust (s : State) (k : Nat) : counts (startAdjust s k) = counts s := rfl

@[simp] theorem counts_startLowering (s : State) : counts (startLowering s) = counts s := by
  unfold startLowering; split <;> rfl

@[simp] theorem counts_followPlaten (s : State) : counts (followPlaten s) = counts s := by
  unfold followPlaten; split <;> try split
  all_goals rfl

@[simp] theorem counts_carryOutDwell (s : State) : counts (carryOutDwell s) = counts s := by
  unfold carryOutDwell; split <;> try split
  all_goals rfl

@[simp] theorem counts_holdMotion (s : State) : counts (holdMotion s) = counts s := by
  unfold holdMotion; dsimp only; split <;> try split
  all_goals rfl

@[simp] theorem counts_releaseMotion (s : State) : counts (releaseMotion s) = counts s := by
  unfold releaseMotion; dsimp only; split <;> split <;> rfl

@[simp] theorem counts_holdCapture (s : State) : counts (holdCapture s) = counts s := rfl

@[simp] theorem counts_confirmSide (s : State) (c : Capture) (sd : Side) : counts (confirmSide s c sd) = counts s := rfl

@[simp] theorem counts_creditFiring (s : State) (bk : Bank) : counts (creditFiring s bk) = counts s := by
  unfold creditFiring; split
  · rfl
  · split <;> rfl

@[simp] theorem counts_recordFault (s : State) (r : FaultRec) : counts (recordFault s r) = counts s := by
  unfold recordFault; split <;> rfl

@[simp] theorem counts_closeBankHoods (s : State) : counts (closeBankHoods s) = counts s :=
  foldl_keeps counts _ (fun _ _ => by exact counts_modifyBank _ _ _ fun _ => rfl) _ _

@[simp] theorem counts_clearHoodRequests (s : State) : counts (clearHoodRequests s) = counts s :=
  foldl_keeps counts _ (fun _ _ => by exact counts_modifyBank _ _ _ fun _ => rfl) _ _

@[simp] theorem counts_stopHoods (s : State) : counts (stopHoods s) = counts s := by
  unfold stopHoods; split
  · exact counts_clearHoodRequests s
  · simp

@[simp] theorem counts_topUp (s : State) (bk : Bank) : counts (topUp s bk) = counts s := by
  unfold topUp; split
  · exact counts_modifyBank _ _ _ fun _ => rfl
  · rfl

@[simp] theorem counts_endInterval (s : State) : counts (endInterval s) = counts s := by
  have toppedUp : ∀ u, counts (forBanks topUp u) = counts u := fun u => foldl_keeps counts _ counts_topUp _ _
  unfold endInterval
  split
  · rfl
  · split
    · rw [toppedUp]
      split
      · exact counts_closeBankHoods _
      · rfl
    · rfl

@[simp] theorem counts_startPulse (s : State) (c : Capture) (sd : Side) : counts (startPulse c s sd) = counts s := by
  unfold startPulse; split
  · exact counts_driveFn _ _ _
  · rfl

@[simp] theorem counts_enterTriggered (s : State) (c : Capture) (p : Prediction) :
    counts (enterTriggered s c p) = counts s :=
  (counts_restartIdle _).trans (foldl_keeps counts _ (fun _ _ => counts_startPulse _ _ _) _ _)

@[simp] theorem counts_armTest (s : State) (c : Capture) : counts (armTest s c) = counts s := by
  unfold armTest; dsimp only; split
  · rfl
  · split
    · exact counts_enterTriggered _ _ _
    · rfl
    · rfl

@[simp] theorem counts_noteLeaf (s : State) (f : Fn) : counts (noteLeaf s f) = counts s := rfl

@[simp] theorem counts_storedEdge (s : State) (sd : Side) : counts (storedEdge s sd) = counts s := by
  unfold storedEdge; split
  · rfl
  · split
    · rfl
    · split <;> simp

@[simp] theorem counts_leaveFiring (s : State) (sd : Side) : counts (leaveFiring s sd) = counts s := by
  unfold leaveFiring; split
  · rfl
  · split
    · rfl
    · dsimp only; split_ifs <;> simp

@[simp] theorem counts_answerAsk (s : State) (bk : Bank) (a : Answer) : counts (answerAsk s bk a) = counts s :=
  (counts_leaveFiring _ _).trans (counts_modifySide _ _ _)

@[simp] theorem counts_restage (s : State) (i : Nat) : counts (restage s i) = counts s := by
  unfold restage; split
  · rfl
  · split <;> simp

@[simp] theorem counts_bindFn (s : State) (f : Fn) (i : Nat) : counts (bindFn s f i) = counts s := by
  unfold bindFn; dsimp only; split
  · exact counts_driveFn _ _ _
  · rfl

@[simp] theorem counts_unbindFn (s : State) (f : Fn) : counts (unbindFn s f) = counts s := by
  show counts (if isOutputFn f then driveFn s f false else s) = counts s
  split <;> simp

end Sys2Proof.Machine
end

