-- ==== Sys2Proof/Proofs/CountsOfBlocks.lean ====
section
/-! The counts under reports, banks, the sequencer, the safe state and the turn cycle. -/
namespace Sys2Proof.Machine

/-! ### Reports and banks -/

theorem satSucc_le (top n : Nat) : satSucc top n ≤ top := by unfold satSucc; split <;> omega

theorem counts_enqueue (s : State) (b : Body) (n : Nat) :
    counts (enqueue s b n) = { counts s with lastSeq := (s.queue.lastSeq + 1) % 65536 } := counts_driveFn _ _ _

theorem enqueue_ranged (s : State) (b : Body) (n : Nat) : Ranged s (enqueue s b n) := fun h => by
  rw [counts_enqueue]
  exact { h with lastSeq := by dsimp only; omega }

theorem offerMinor_ranged (s : State) (b : Body) : Ranged s (offerMinor s b) := by
  unfold offerMinor
  split
  · exact .trans (t := { s with queue.missed := 0 }) (fun h => { h with missed := by simp [counts] })
      (enqueue_ranged _ _ _)
  · exact fun h => { h with missed := satSucc_le _ _ }

theorem offerMajor_ranged (s : State) (b : Body) : Ranged s (offerMajor s b) := by
  unfold offerMajor
  split
  · exact enqueue_ranged _ _ _
  · exact .refl s

theorem enterReserved_ranged (s : State) (b : Body) : Ranged s (enterReserved s b) :=
  .trans (t := { s with queue.reserved := s.queue.reserved - 1 }) (.of_eq rfl) (enqueue_ranged _ _ _)

theorem flashCounts_set_get (q : Quad BankRec) (bk x : Bank) (r : BankRec) :
    (flashCounts (q.set bk r)).get x = if x = bk then r.count else (flashCounts q).get x := by
  cases bk <;> cases x <;> rfl

/-- A bank record whose count has not risen. -/
theorem setBank_ranged (s : State) (bk : Bank) (r : BankRec) (h : r.count ≤ (getBank s bk).count) :
    Ranged s (setBank s bk r) := fun hs => by
  have lower : ∀ x, (flashCounts (s.lamps.banks.set bk r)).get x ≤ (flashCounts s.lamps.banks).get x := fun x => by
    rw [flashCounts_set_get]
    split
    · rename_i hx; subst hx; rw [flashCounts_get]; exact h
    · exact le_rfl
  exact { hs with
    flashes := fun x => (lower x).trans (hs.flashes x)
    conditioning := fun x hx => (lower x).trans_lt (hs.conditioning x hx) }

theorem conditioningBanks_filter (q : Grant → Bool) (gs : List Grant) :
    conditioningBanks (gs.filter q) ⊆ conditioningBanks gs := fun bk h => by
  obtain ⟨g, hg, hc⟩ := mem_conditioningBanks.mp h
  exact mem_conditioningBanks.mpr ⟨g, (List.mem_filter.mp hg).1, hc⟩

theorem dropConditioning_ranged (s : State) (bk : Bank) : Ranged s (dropConditioning s bk) := fun h =>
  { h with conditioning := fun x hx => h.conditioning x (conditioningBanks_filter _ _ hx) }

theorem removeGrant_ranged (s : State) (bk : Bank) : Ranged s (removeGrant s bk) := fun h =>
  { h with conditioning := fun x hx => h.conditioning x (conditioningBanks_filter _ _ hx) }

theorem reportBank_ranged (s : State) (bk : Bank) (x y : BankState) (c : BankCause) :
    Ranged s (reportBank s bk x y c) := offerMinor_ranged _ _

theorem enterReady_ranged (s : State) (bk : Bank) (c : Option BankCause) : Ranged s (enterReady s bk c) := by
  have ready : ∀ r : BankRec, r.count = (getBank s bk).count → Ranged s (setBank s bk r) := fun r h =>
    .of_eq (counts_setBank s bk r h)
  unfold enterReady
  dsimp only
  split
  · exact ready _ (by rfl)
  · exact .trans (ready _ (by rfl)) (reportBank_ranged _ _ _ _ _)

theorem enterStandby_ranged (s : State) (bk : Bank) (c : BankCause) : Ranged s (enterStandby s bk c) := by
  refine ((dropConditioning_ranged s bk).trans (setBank_ranged _ bk _ ?_)).trans (reportBank_ranged _ _ _ _ _)
  dsimp only
  split
  · exact Nat.zero_le _
  · exact le_rfl

theorem enterConditioning_ranged (s : State) (bk : Bank) (c : BankCause) : Ranged s (enterConditioning s bk c) :=
  (setBank_ranged s bk _ (Nat.zero_le _)).trans (reportBank_ranged _ _ _ _ _)

theorem endCharge_ranged (s : State) (bk : Bank) : Ranged s (endCharge s bk) := by
  unfold endCharge
  split
  · exact enterStandby_ranged _ _ _
  · exact enterConditioning_ranged _ _ _

theorem startCharging_ranged (s : State) (bk : Bank) : Ranged s (startCharging s bk) := by
  have charging : ∀ r : BankRec, r.count = 0 → ∀ x, Ranged s (reportBank (setBank s bk r) bk x .charging .power) :=
    fun r hr x => (setBank_ranged s bk r (hr ▸ Nat.zero_le _)).trans (reportBank_ranged _ _ _ _ _)
  unfold startCharging
  dsimp only
  split
  · exact (charging _ rfl _).trans (endCharge_ranged _ _)
  · exact charging _ rfl _

theorem powerOff_ranged (s : State) (bk : Bank) : Ranged s (powerOff s bk) :=
  ((dropConditioning_ranged s bk).trans (setBank_ranged _ bk _ (Nat.zero_le _))).trans (reportBank_ranged _ _ _ _ _)

theorem wakeBank_ranged (s : State) (bk : Bank) : Ranged s (wakeBank s bk) := by
  unfold wakeBank
  dsimp only
  split
  · exact .trans (setBank_ranged s bk _ (by exact le_rfl)) (reportBank_ranged _ _ _ _ _)
  · exact .refl s

theorem idleBank_ranged (s : State) (bk : Bank) : Ranged s (idleBank s bk) := by
  unfold idleBank
  split <;> first | exact enterStandby_ranged _ _ _ | exact .refl s

theorem returnReady_ranged (s : State) (bk : Bank) : Ranged s (returnReady s bk) := by
  unfold returnReady
  split
  · exact enterStandby_ranged _ _ _
  · exact enterReady_ranged _ _ _

/-- A conditioning flash takes a count below 2, and its grant with it (R73). -/
theorem conditioningFlash_ranged {s : State} {bk : Bank} {g : Grant} (hg : dueGrant s bk false = some g) :
    Ranged s (conditioningFlash s bk g) := by
  have := (Option.filter_eq_some_iff.mp hg)
  obtain ⟨found, due⟩ := this
  have granted : bk ∈ conditioningBanks s.lamps.grants := mem_conditioningBanks.mpr
    ⟨g, List.mem_of_find?_eq_some found, by simpa using (Bool.and_eq_true_iff.mp due).2,
      by simpa using List.find?_some found⟩
  unfold conditioningFlash
  dsimp only
  split
  · intro hs
    have below : (getBank s bk).count < 2 := flashCounts_get s.lamps.banks bk ▸ hs.conditioning bk granted
    refine { hs with flashes := fun x => ?_, conditioning := fun x hx => ?_ }
    · show (flashCounts (s.lamps.banks.set bk _)).get x ≤ 2
      rw [flashCounts_set_get]
      split
      · exact below
      · exact hs.flashes x
    · obtain ⟨y, hy, hc, rfl⟩ := mem_conditioningBanks.mp hx
      have other : y.bank ≠ bk := by simpa using (List.mem_filter.mp hy).2
      show (flashCounts (s.lamps.banks.set bk _)).get y.bank < 2
      rw [flashCounts_set_get, if_neg other]
      exact hs.conditioning _ (mem_conditioningBanks.mpr ⟨y, (List.mem_filter.mp hy).1, hc, rfl⟩)
  · exact removeGrant_ranged s bk

/-- A conditioning flash is asked for below a count of 2 alone (R73). -/
theorem conditioningAsk_ranged {s : State} {bk : Bank} (h : conditioningDue s bk = true) (t l d : Nat) :
    Ranged s (askFiring s bk t l d none) := fun hs => by
  have below : (getBank s bk).count < 2 := by
    simp only [conditioningDue, Bool.and_eq_true, decide_eq_true_eq] at h
    exact h.1.1.1.2
  have same : counts (askFiring s bk t l d none) =
      { counts s with conditioning := conditioningBanks (askFiring s bk t l d none).lamps.grants } :=
    congrArg (fun q => { counts s with
      flashes := q, conditioning := conditioningBanks (askFiring s bk t l d none).lamps.grants })
      (flashCounts_set s.lamps.banks bk _ (by rfl))
  rw [same]
  refine { hs with conditioning := fun x hx => ?_ }
  obtain ⟨y, hy, hc, rfl⟩ := mem_conditioningBanks.mp hx
  rcases List.mem_append.mp hy with hy | hy
  · exact hs.conditioning _ (mem_conditioningBanks.mpr ⟨y, hy, hc, rfl⟩)
  · rw [List.mem_singleton.mp hy]
    exact (flashCounts_get s.lamps.banks bk).symm ▸ below

/-- A firing asked for a capture touches no conditioning. -/
theorem counts_captureAsk (s : State) (bk : Bank) (t l d n : Nat) :
    counts (askFiring s bk t l d (some n)) = counts s := by
  have flashes : flashCounts (askFiring s bk t l d (some n)).lamps.banks = flashCounts s.lamps.banks :=
    flashCounts_set _ _ _ rfl
  have conditioning : conditioningBanks (askFiring s bk t l d (some n)).lamps.grants
      = conditioningBanks s.lamps.grants := by simp [askFiring, conditioningBanks, conditioningBank]
  refine (congrArg₂ (fun q c => { counts s with flashes := q, conditioning := c }) flashes conditioning).trans rfl

/-! ### Wake, idle and the sequencer -/

theorem wake_ranged (s : State) (c : WakeCause) : Ranged s (wake s c) := by
  unfold wake
  dsimp only
  refine .then_eq ?_ ((counts_judgeReady _).trans (counts_judgeLit _))
  refine .trans (.trans ?_ (offerMinor_ranged _ _)) (Ranged.foldl wakeBank_ranged _ _)
  exact .of_eq ((counts_restartIdle _).trans rfl)

theorem wakeIfIdle_ranged (s : State) (c : WakeCause) : Ranged s (wakeIfIdle s c) := by
  unfold wakeIfIdle
  split
  · exact wake_ranged s c
  · exact .refl s

theorem enterIdle_ranged (s : State) : Ranged s (enterIdle s) := by
  unfold enterIdle
  dsimp only
  refine .then_eq ?_ ((counts_judgeReady _).trans ((counts_judgeLit _).trans
    ((counts_closeBankHoods _).trans (counts_clearHoodRequests _))))
  refine .trans (.trans ?_ (offerMinor_ranged _ _)) (Ranged.foldl idleBank_ranged _ _)
  exact .of_eq rfl

theorem discardLate_ranged (s : State) (o : Order) (r : List Order) : Ranged s (discardLate s o r) :=
  .trans (t := { s with seq.orders := r, seq.lateCount := satSucc 65535 s.seq.lateCount })
    (fun h => { h with lateCount := satSucc_le _ _ }) (enterReserved_ranged _ _)

theorem counts_requestHood (n : Nat) (s : State) (bk : Bank) : counts (requestHood n s bk) = counts s :=
  counts_modifyBank _ _ _ fun _ => rfl

theorem enterArming_ranged (s : State) (o : Order) : Ranged s (enterArming s o) := by
  unfold enterArming
  extract_lets s0 r side c _ s1
  have armed : ∀ d, Ranged s { s1 with seq.capture := some d } := fun d =>
    (wakeIfIdle_ranged s _).then_eq ((rfl : counts { s1 with seq.capture := some d } = counts s1).trans
      ((counts_restartIdle _).trans rfl))
  split
  · exact armed _
  · exact (armed c).then_eq (foldl_keeps counts _ (counts_requestHood _) _ _)

theorem counts_withdrawHood (n : Nat) (s : State) (bk : Bank) : counts (withdrawHood n s bk) = counts s :=
  counts_modifyBank _ _ _ fun r => by split <;> rfl

theorem endCapture_ranged (s : State) (c : Capture) : Ranged s (endCapture s c) := by
  refine .then_eq (.trans (.of_eq (by rfl)) (enterReserved_ranged
    { removePrediction s with volume.sidesFailed := (removePrediction s).volume.sidesFailed
        + ((outcomes c).filter fun o => decide (o ≠ .confirmed)).length } (.capture (captureReport s c)))) ?_
  refine (counts_carryOutDwell _).trans ((counts_restartIdle _).trans ?_)
  exact foldl_keeps counts _ (counts_withdrawHood _) _ _

theorem advanceOnce_ranged {s t : State} (h : advanceOnce s = some t) : Ranged s t := by
  rcases advanceOnce_cases h with ⟨c, -, -, rfl⟩ | ⟨c, -, -, -, -, rfl⟩ | ⟨o, rest, -, -, -, -, rfl⟩ |
    ⟨o, rest, -, -, -, -, rfl⟩
  · exact endCapture_ranged s c
  · exact .of_eq (counts_armTest s c)
  · exact discardLate_ranged s o rest
  · exact .trans (t := { s with seq.orders := rest }) (.of_eq rfl) (enterArming_ranged _ o)

theorem advance_ranged (n : Nat) (s : State) : Ranged s (advance n s) := by
  induction n generalizing s with
  | zero => exact .refl s
  | succ n ih =>
    unfold advance
    split
    · exact .refl s
    · rename_i h; exact (advanceOnce_ranged h).trans (ih _)

theorem settle_ranged (s : State) : Ranged s (settle s) :=
  (advance_ranged (advanceFuel s) s).then_eq (by simp [settle])

theorem Ranged.settled {s t : State} (h : Ranged s t) : Ranged s (settle t) := h.trans (settle_ranged t)

/-! ### The safe state and the turn cycle -/

theorem endTurn_ranged (s : State) (r : TurnReport) : Ranged s (endTurn s r) :=
  .then_eq (.trans (t := { s with motion.turn := none }) (.of_eq rfl) (enterReserved_ranged _ (.turn r)))
    (counts_restartIdle _)

theorem abandonSafe_ranged (s : State) (k : FaultKind) : Ranged s (abandonSafe s k) := by
  unfold abandonSafe
  split
  · exact .refl s
  · exact .trans (.of_eq (by rfl)) (endTurn_ranged _ _)

theorem safeMotion_ranged (s : State) (k : FaultKind) : Ranged s (safeMotion s k) := by
  refine (abandonSafe_ranged s k).then_eq ?_
  unfold safeMotion
  dsimp only
  split <;> rfl

theorem safeSequencer_ranged (s : State) : Ranged s (safeSequencer s) := by
  have flushed : ∀ u : State, Ranged u { u.seq.orders.foldl flushOrder u with seq.orders := [] } := fun u =>
    .then_eq (Ranged.foldl (fun v o => enterReserved_ranged v _) u.seq.orders u) rfl
  unfold safeSequencer
  dsimp only
  refine .trans (.trans (t := { s with
    seq.capture := s.seq.capture.map fun c => { mapSides (endUnsynced .abortedSafe) c with deadline := none } })
    (.of_eq rfl) ?_) (flushed _)
  split
  · exact .refl _
  · split
    · exact endCapture_ranged _ _
    · exact .refl _

theorem safeEntry_ranged (s : State) (k : FaultKind) : Ranged s (safeEntry s k) :=
  ((safeMotion_ranged s k).trans (safeSequencer_ranged _)).then_eq (counts_stopHoods _)

theorem offerFirstFault_ranged (s : State) (f : FaultReport) : Ranged s (offerFirstFault s f) := by
  unfold offerFirstFault
  split
  · exact enqueue_ranged _ _ _
  · exact .of_eq rfl

theorem raiseFault_ranged (s : State) (k : FaultKind) (bk : Option Bank) : Ranged s (raiseFault s k bk) := by
  rcases raiseFault_cases k bk s with ⟨-, h⟩ | ⟨-, h⟩ <;> rw [h]
  · exact .trans (.of_eq (counts_recordFault s _)) (offerMajor_ranged _ _)
  · refine .trans (.trans ?_ (offerFirstFault_ranged _ _)) (safeEntry_ranged _ k)
    exact .of_eq (counts_recordFault s (faultRecord s k bk))

/-- A fault that an event raises. -/
theorem fault_ranged {s u : State} (h : counts u = counts s) (k : FaultKind) (bk : Option Bank) :
    Ranged s (settle (raiseFault u k bk)) := .settled ((Ranged.of_eq h).trans (raiseFault_ranged u k bk))

@[simp] theorem counts_setStage (s : State) (g : Stage) (d : Option Nat) : counts (setStage s g d) = counts s :=
  (counts_restartIdle _).trans rfl

@[simp] theorem counts_startGrip (s : State) : counts (startGrip s) = counts s := rfl

@[simp] theorem counts_startStage (s : State) (g : Stage) : counts (startStage s g) = counts s := by
  cases g with
  | raise => simp only [startStage]; split <;> simp
  | air => exact counts_setStage s _ _
  | reach => exact counts_setStage s _ _
  | grip => exact (counts_startGrip _).trans (counts_setStage s _ _)
  | sweep => exact counts_setStage s _ _
  | release => exact counts_setStage s _ _
  | verify => exact counts_setStage s _ _
  | park => exact counts_setStage s _ _
  | adjust => exact counts_setStage s _ _
  | lower => exact (counts_startLowering _).trans (counts_setStage s _ _)

theorem doublePick_ranged (s : State) (t : Turn) : Ranged s (doublePick s t) := by
  unfold doublePick
  split
  · exact raiseFault_ranged _ _ _
  · exact .of_eq rfl

theorem returnToAir_ranged (s : State) : Ranged s (returnToAir s) := by
  refine .trans (t := { modifyTurn (suctionOff s) fun t =>
    { t with doublePicks := t.doublePicks + 1, retries := t.retries - 1 } with
      volume.doublePicks := satSucc counterMax s.volume.doublePicks }) (fun h => ?_) (.of_eq (counts_startStage _ _))
  exact { h with doublePicks := satSucc_le _ _ }

theorem turnDone_ranged (s : State) (t : Turn) : Ranged s (turnDone s t) := by
  refine .trans (t := { s with volume.turnsDone := satSucc counterMax s.volume.turnsDone }) (fun h => ?_)
    (endTurn_ranged _ _)
  exact { h with turnsDone := satSucc_le _ _ }

theorem turnStep_ranged {s u : State} {t : Turn} (h : turnStep s t = some u) : Ranged s u := by
  have start : ∀ g, Ranged s (startStage s g) := fun g => .of_eq (counts_startStage s g)
  unfold turnStep at h
  split at h
  · contradiction
  · split at h
    case h_1 => split_ifs at h; cases h; exact start _
    case h_2 => contradiction
    case h_3 => split_ifs at h; cases h; exact start _
    case h_4 => split_ifs at h; cases h; exact .of_eq ((counts_startStage _ _).trans rfl)
    case h_5 =>
      split_ifs at h <;> cases h
      · exact returnToAir_ranged s
      · exact doublePick_ranged s t
      · exact start _
    case h_6 => split_ifs at h; cases h; exact start _
    case h_7 => split_ifs at h; cases h; exact .of_eq ((counts_startStage _ _).trans rfl)
    case h_8 => split_ifs at h; cases h; exact start _
    case h_9 => split_ifs at h; cases h; exact start _
    case h_10 => split_ifs at h; cases h; exact turnDone_ranged s t

theorem runTurn_ranged (n : Nat) (s : State) : Ranged s (runTurn n s) := by
  induction n generalizing s with
  | zero => exact .refl s
  | succ n ih =>
    unfold runTurn
    split
    · exact .refl s
    · split
      · exact .refl s
      · rename_i h; exact (turnStep_ranged h).trans (ih _)

theorem Ranged.moved {s t : State} (h : Ranged s t) : Ranged s (settle (runMotion t)) :=
  ((h.then_eq (counts_followPlaten t)).trans (runTurn_ranged 16 _)).settled

theorem acceptTurn_ranged (s : State) (d : Direction) (o : Origin) (b : Bool) : Ranged s (acceptTurn s d o b) :=
  .moved (.of_eq ((counts_startStage _ _).trans rfl))

theorem counts_resumeStage (s : State) (t : Turn) : counts (resumeStage s t) = counts s := by
  unfold resumeStage
  split
  · split <;> rfl
  · rfl
  · rfl
  · rfl
  · exact counts_startStage _ _

theorem resumeTurn_ranged (s : State) (t : Turn) : Ranged s (resumeTurn s t) :=
  .moved (.of_eq ((counts_restartIdle _).trans ((counts_resumeStage _ _).trans rfl)))

end Sys2Proof.Machine
end

