-- ==== Sys2Proof/Proofs/CountsOfLines.lean ====
section
/-! The counts under captures, lines and resets. -/
namespace Sys2Proof.Machine

/-! ### Captures, lines and resets -/

theorem acceptOrder_ranged (s : State) (o : Order) : Ranged s (acceptOrder s o) := .settled (.of_eq (by rfl))

theorem keyShoot_ranged (s : State) : Ranged s (keyShoot s) := by
  refine (Ranged.of_eq (counts_restartIdle s)).trans ?_
  unfold keyShoot
  dsimp only
  split
  · exact offerMinor_ranged _ _
  · exact acceptOrder_ranged _ _

theorem keyTurn_ranged (s : State) (k : Fn) (d : Direction) : Ranged s (keyTurn s k d) := by
  refine (Ranged.of_eq (counts_restartIdle s)).trans ?_
  unfold keyTurn
  dsimp only
  split
  · exact offerMinor_ranged _ _
  · exact acceptTurn_ranged _ _ _ _

theorem counts_askBanks (c : Capture) (sd : Side) (bs : List Bank) (t : Nat) (s : State) :
    counts (askBanks c sd bs t s) = counts s := by
  induction bs generalizing s t with
  | nil => rfl
  | cons bk rest ih =>
    refine (ih _ _).trans ?_
    exact (counts_modifySide _ _ _).trans (counts_captureAsk _ _ _ _ _ _)

@[simp] theorem counts_syncEdge (s : State) (sd : Side) (t : Nat) : counts (syncEdge s sd t) = counts s := by
  unfold syncEdge
  split
  · rfl
  · split
    · dsimp only
      split_ifs
      · rfl
      · exact (counts_askBanks _ _ _ _ _).trans (counts_restartIdle _)
      · rfl
      · rfl
    · rfl

theorem holdOn_ranged (s : State) (i t : Nat) : Ranged s (holdOn s i t) := by
  refine .then_eq ?_ ((counts_stopHoods _).trans ((counts_holdCapture _).trans (counts_holdMotion _)))
  exact .trans (.of_eq (by rfl)) (offerMajor_ranged _ _)

theorem holdOff_ranged (s : State) (i t : Nat) (h : Hold) : Ranged s (holdOff s i t h) := by
  refine .then_eq ?_ (counts_releaseMotion _)
  exact .trans (.of_eq (by rfl)) (offerMajor_ranged _ _)

theorem evalHold_ranged (s : State) (i t : Nat) : Ranged s (evalHold s i t) := by
  rcases evalHold_cases i t s with h | ⟨-, -, h⟩ | ⟨x, -, -, h⟩ <;> rw [h]
  · exact .refl s
  · exact holdOn_ranged s i t
  · exact holdOff_ranged s i t x

theorem holdAfresh_ranged (s : State) : Ranged s (holdAfresh s) := by
  unfold holdAfresh
  dsimp only
  split
  · exact .of_eq rfl
  · exact .trans (.of_eq (by rfl)) (holdOn_ranged _ _ _)

theorem handEdge_ranged (s : State) (f : Fn) (t : Nat) : Ranged s (handEdge s f t) := by
  unfold handEdge
  split
  · exact .of_eq (counts_syncEdge s .left t)
  · exact .of_eq (counts_syncEdge s .right t)
  · exact .of_eq (counts_storedEdge s .left)
  · exact .of_eq (counts_storedEdge s .right)
  · exact .of_eq (counts_noteLeaf s _)
  · exact .of_eq (counts_noteLeaf s _)
  · split
    · exact .refl s
    · exact keyShoot_ranged s
  · split
    · exact .refl s
    · exact keyTurn_ranged s _ _
  · split
    · exact .refl s
    · exact keyTurn_ranged s _ _
  · exact .refl s

theorem handLine_ranged (s : State) (i : Nat) (a : Bool) (t : Nat) : Ranged s (handLine s i a t) := by
  unfold handLine
  split
  · exact .refl s
  · split
    · exact handEdge_ranged s _ t
    · exact .refl s

theorem offerEvent_ranged (s : State) (i : Nat) (c : EventCause) (t : Nat) : Ranged s (offerEvent s i c t) := by
  unfold offerEvent
  dsimp only
  split
  · exact .trans (.of_eq (counts_modifyLine _ _ _ fun _ => by rfl)) (offerMinor_ranged _ _)
  · exact .refl s

/-- Lines whose edge counts stay in their range. -/
theorem lines_ranged {s t : State} (h : counts t = { counts s with edges := edgeCounts t.lines.records })
    (edges : (∀ l ∈ s.lines.records, l.count ≤ 65535) → ∀ l ∈ t.lines.records, l.count ≤ 65535) : Ranged s t :=
  fun hs => by
    rw [h]
    refine { hs with edges := fun n hn => ?_ }
    obtain ⟨l, hl, rfl⟩ := List.mem_map.mp hn
    exact edges (fun l hl => hs.edges _ (List.mem_map_of_mem hl)) l hl

theorem modifyLine_ranged (s : State) (i : Nat) (f : Line → Line) (h : ∀ l, l.count ≤ 65535 → (f l).count ≤ 65535) :
    Ranged s (modifyLine s i f) :=
  lines_ranged rfl fun hl l hm => by
    obtain ⟨j, hj, rfl⟩ := List.getElem_of_mem hm
    simp only [modifyLine, List.getElem_modify]
    split
    · exact h _ (hl _ (List.getElem_mem _))
    · exact hl _ (List.getElem_mem _)

theorem takeEdge_count (high : Bool) (l : Line) (h : l.count ≤ 65535) : (takeEdge high l).count ≤ 65535 := by
  simp only [takeEdge]
  split <;> omega

theorem acceptEdge_ranged (s : State) (i : Nat) (high : Bool) (t : Nat) : Ranged s (acceptEdge s i high t) := by
  have taken : Ranged s (offerEvent (modifyLine s i (takeEdge high)) i .edge t) :=
    (modifyLine_ranged s i _ (takeEdge_count high)).trans (offerEvent_ranged _ _ _ _)
  refine Ranged.moved (.trans ?_ (handLine_ranged _ _ _ _))
  split <;> split
  · exact (taken.trans (evalHold_ranged _ _ _)).trans (wakeIfIdle_ranged _ _)
  · exact taken.trans (wakeIfIdle_ranged _ _)
  · exact taken.trans (evalHold_ranged _ _ _)
  · exact taken

theorem acceptDue_ranged (s : State) (i : Nat) : Ranged s (acceptDue s i) := by
  rcases acceptDue_cases i s with ⟨-, h⟩ | ⟨high, t, -, h⟩ <;> rw [h]
  · exact .refl s
  · exact acceptEdge_ranged s i high t

theorem sampleLine_count (l : Line) : (sampleLine l).count = l.count := by unfold sampleLine; split <;> rfl

theorem comparePin_count (t : Nat) (l : Line) : (comparePin t l).count = l.count := by
  unfold comparePin
  split
  · rfl
  · split
    · rfl
    · split <;> rfl

theorem configured_count (t : Nat) (l : Line) (c : LineSettings) : (configured t l c).count = l.count := by
  simp only [configured]
  split
  · exact sampleLine_count _
  · exact comparePin_count _ _

theorem configureLine_ranged (s : State) (i : Nat) (c : LineSettings) : Ranged s (configureLine s i c) := by
  unfold configureLine
  extract_lets l s1 s2 s3 s4 s5
  have h1 : counts s1 = counts s := counts_modifyLine _ _ _ fun _ => configured_count _ _ _
  have h2 : counts s2 = counts s := by unfold s2; split <;> simp [h1]
  have h3 : Ranged s s3 := (Ranged.of_eq h2).trans (offerEvent_ranged _ _ _ _)
  have h4 : Ranged s s4 := by
    unfold s4; split
    · exact h3.trans (evalHold_ranged _ _ _)
    · exact h3
  have h5 : Ranged s s5 := by
    unfold s5; split
    · exact h4
    · split
      · exact h4
      · exact h4.trans (acceptEdge_ranged _ _ _ _)
  exact h5.moved

theorem rebind_ranged (s : State) (f : Fn) (l : Option Nat) : Ranged s (rebind s f l) := by
  unfold rebind
  split
  · exact .moved (.of_eq (counts_unbindFn _ _))
  · split
    · exact .refl s
    · exact .moved (.of_eq (counts_bindFn _ _ _))

theorem clearLine_ranged (s : State) (i : Nat) : Ranged s (clearLine s i) :=
  .trans (.of_eq (counts_modifyLine _ _ _ fun _ => by rfl)) (offerEvent_ranged _ _ _ _)

/-- Lines changed with their indices, their counts as they were or cleared. -/
theorem mapLinesFrom_ranged (s : State) (f : Nat → Line → Line) (h : ∀ i l, (f i l).count ≤ l.count) :
    Ranged s { s with lines.records := mapLinesFrom f 0 s.lines.records } := by
  have mapped : ∀ i ls, (∀ l ∈ ls, l.count ≤ 65535) → ∀ l ∈ mapLinesFrom f i ls, l.count ≤ 65535 := fun i ls => by
    induction ls generalizing i with
    | nil => intro _ l hl; cases hl
    | cons x xs ih =>
      intro hx l hl
      rcases List.mem_cons.mp hl with rfl | hl
      · exact (h i x).trans (hx x List.mem_cons_self)
      · exact ih (i + 1) (fun y hy => hx y (List.mem_cons_of_mem _ hy)) l hl
  exact lines_ranged rfl (mapped 0 _)

theorem resetLine_count (l : Line) : (resetLine l).count = l.count := sampleLine_count l

/-- What a soft reset leaves of the counts before its reports: those of the volume, the lines and the plan stand. -/
theorem resetBlocks_ranged (s : State) : Ranged s (resetBlocks s) := fun h => by
  have edges : edgeCounts (s.lines.records.map resetLine) = edgeCounts s.lines.records := by
    simp only [edgeCounts, List.map_map, Function.comp_def, resetLine_count]
  have same : counts (resetBlocks s) = { counts s with
      errorCount := 0, buffered := 0, boundaries := 0, silence := .waiting, missed := 0, lastSeq := 0
      edges := edgeCounts (s.lines.records.map resetLine), flashes := ⟨0, 0, 0, 0⟩, conditioning := [] } := by
    simp only [resetBlocks, counts_driveFn]
    rfl
  rw [same, edges]
  exact { h with
    errorCount := Nat.zero_le _, buffered := Nat.zero_le _, boundaries := Nat.zero_le _, silent := fun _ => rfl
    missed := Nat.zero_le _, lastSeq := Nat.zero_le _, flashes := fun bk => by cases bk <;> exact Nat.zero_le _
    conditioning := fun _ hb => by cases hb }

theorem softReset_ranged (s : State) : Ranged s (softReset s) := by
  refine .then_eq ?_ ((counts_judgeReady _).trans (counts_judgeLit _))
  exact ((resetBlocks_ranged s).trans (.foldl (fun u i => offerEvent_ranged u i _ _) _ _)).trans
    (holdAfresh_ranged _)

theorem powerOnRecords_count (pin : Nat → Option Bool) : ∀ l ∈ powerOnRecords pin, l.count = 0 := fun l hl => by
  obtain ⟨i, -, rfl⟩ := List.mem_map.mp hl
  simp only [powerOnLine, tableLine]
  split_ifs <;> rfl

/-- Every count at 0. -/
theorem countsOk_zero {edges : List Nat} (h : ∀ n ∈ edges, n = 0) :
    CountsOk ⟨0, 0, 0, 0, 0, 0, .off, 0, 0, 0, 0, 0, 0, 0, 0, edges, ⟨0, 0, 0, 0⟩, []⟩ := by
  constructor
  case edges => exact fun n hn => by simp [h n hn]
  case flashes => exact fun bk => by cases bk <;> exact Nat.zero_le _
  case conditioning => simp
  all_goals simp [counterMax]

theorem edgeCounts_powerOnRecords (pin : Nat → Option Bool) : ∀ n ∈ edgeCounts (powerOnRecords pin), n = 0 :=
  fun n hn => by
    obtain ⟨l, hl, rfl⟩ := List.mem_map.mp hn
    exact powerOnRecords_count pin l hl

theorem powerOn_ranged (s : State) : Ranged s (powerOn s) :=
  .trans (fun _ => by exact countsOk_zero (edgeCounts_powerOnRecords fun i => (getLine s i).pin)) (holdAfresh_ranged _)

end Sys2Proof.Machine
end

