-- ==== Sys2Proof/Proofs/CountsOfRequests.lean ====
section
/-! The counts under the link, the requests and the timed events. -/
namespace Sys2Proof.Machine

/-! ### The link and the tick -/

theorem dropFrame_ranged (s : State) : Ranged s (dropFrame s) := fun h =>
  { h with errorCount := satSucc_le _ _ }

theorem takeUp_ranged (s : State) : Ranged s (takeUp s) := by
  rcases takeUp_cases s with h | ⟨f, rest, -, -, hb, ⟨-, h⟩ | ⟨r, -, h⟩⟩ <;> rw [h]
  · exact .refl s
  all_goals
    intro hs
    have := hs.buffered
    simp only [counts, hb, List.length_cons] at this
    exact { hs with buffered := by simp only [counts]; omega }

theorem validFrame_ranged (s : State) : Ranged s (validFrame s) := by
  unfold validFrame
  split
  · exact .refl s
  · rename_i ha
    exact fun h => { h with
      boundaries := by simp only [counts]; split <;> omega
      silent := fun hn => absurd ha hn }
  · exact fun h => { h with boundaries := Nat.zero_le _, silent := fun _ => rfl }

theorem goodFrame_ranged (s : State) (f : Frame) : Ranged s (goodFrame s f) := by
  unfold goodFrame
  split
  · rename_i hl
    refine .trans (.trans (t := { s with link.buffer := s.link.buffer ++ [f] }) (fun h => ?_)
      (validFrame_ranged _)) (takeUp_ranged _)
    exact { h with buffered := by simp only [counts, List.length_append, List.length_singleton]; omega }
  · exact dropFrame_ranged s

theorem takeByte_ranged (s : State) (b : Byte) (badStop : Bool) : Ranged s (takeByte s b badStop) := by
  unfold takeByte
  split
  · split
    · exact .of_eq rfl
    · exact .refl s
  · split
    · exact dropFrame_ranged s
    · unfold storeByte checkFrame
      dsimp only
      split_ifs
      · exact dropFrame_ranged s
      · exact .trans (.of_eq (by rfl)) (goodFrame_ranged _ _)
      · exact dropFrame_ranged s
      · exact .of_eq rfl

theorem judgeSilence_ranged (s : State) : Ranged s (judgeSilence s) := by
  have cleared : ∀ q, Ranged s { s with link.silence := q, link.boundaries := 0, link.boundaryDue := false } :=
    fun q h => { h with boundaries := Nat.zero_le _, silent := fun _ => rfl }
  unfold judgeSilence
  split <;> try split
  all_goals first | exact .refl s | exact cleared _

theorem periodBoundary_ranged (s : State) : Ranged s (periodBoundary s) := by
  unfold periodBoundary
  split
  · have : Ranged s { s with link := countBoundary s.link } := by
      unfold countBoundary
      split
      · rename_i ha
        split
        · exact fun h => { h with boundaries := by simp only [counts]; omega, silent := fun hn => absurd ha hn }
        · exact .of_eq rfl
      · exact .of_eq rfl
      · exact .of_eq rfl
    exact this.then_eq rfl
  · exact .refl s

/-- A complete millisecond is counted (R134). -/
theorem countMs_ranged (s : State) : Ranged s { s with time := countMs s.time } := fun h =>
  { h with
    phase := Nat.zero_le _
    ms := Nat.mod_lt _ (by decide)
    tenth := Nat.mod_lt _ (by decide) }

theorem takeReading_ranged (s : State) (n : Nat) : Ranged s (takeReading s n) := by
  unfold takeReading
  dsimp only
  split_ifs
  · exact .trans (.of_eq (by rfl)) (raiseFault_ranged _ .pressureHigh none)
  · exact .of_eq rfl
  · exact .of_eq rfl
  · exact .of_eq rfl

theorem idleStep_ranged (s : State) : Ranged s (idleStep s) := by
  unfold idleStep passMicrosecond
  split
  · split
    · exact fun h => { h with phase := by simp only [counts]; omega }
    · exact .refl s
  · exact .of_eq rfl

/-! ### The requests -/

theorem serve_ranged {owner : State → Decision} (h : ∀ u, Ranged u (owner u).1) (kind tag : Byte) (s : State) :
    Ranged s (serve kind tag owner s) :=
  .then_eq (.trans ((wakeIfIdle_ranged s _).then_eq (counts_restartIdle _)) (h _)) rfl

theorem observe_ranged {owner : State → Decision} (h : ∀ u, Ranged u (owner u).1) (kind tag : Byte) (s : State) :
    Ranged s (observe kind tag owner s) := (h s).then_eq rfl

/-- A request that leaves the counts as they were. -/
theorem serve_ranged_of_eq {owner : State → Decision} (h : ∀ u, counts (owner u).1 = counts u) (kind tag : Byte)
    (s : State) : Ranged s (serve kind tag owner s) := serve_ranged (fun u => .of_eq (h u)) kind tag s

/-- A decision refused at a check that fails does nothing; where the check passes, the rest decides. -/
theorem Ranged.ite {s : State} {p : Prop} [Decidable p] {x y : Decision} (refused : Ranged s x.1)
    (rest : ¬p → Ranged s y.1) : Ranged s (if p then x else y).1 := by
  split
  · exact refused
  · exact rest ‹_›

theorem decideFetch_ranged (s : State) : Ranged s (decideFetch s).1 := by
  have offered : ∀ u, Ranged u (reofferFirst u) := fun u => by
    unfold reofferFirst
    split
    · exact .refl u
    · split
      · exact .trans (.of_eq (by rfl)) (enqueue_ranged _ _ _)
      · exact .refl u
  exact .trans (.of_eq ((counts_driveFn _ _ _).trans (by rfl))) (offered _)

theorem decideLinkSet_ranged (e t c : Nat) (s : State) : Ranged s (decideLinkSet e t c s).1 := by
  unfold decideLinkSet
  refine .ite (.refl s) fun _ => .ite (.refl s) fun _ => .ite (.refl s) fun _ => ?_
  refine .trans (fun h => ?_) (judgeSilence_ranged _)
  have kept : (if c = 1 then 0 else s.link.errorCount) ≤ 65535 := by
    split
    · exact Nat.zero_le _
    · exact h.errorCount
  exact { h with errorCount := kept }

theorem decideClearSafe_ranged (s : State) : Ranged s (decideClearSafe s).1 := by
  unfold decideClearSafe
  refine .ite (.refl s) fun _ => .ite (.refl s) fun _ => .ite (.refl s) fun _ => .settled (.of_eq ?_)
  split <;> rfl

theorem decideVolumeLoad_ranged (mark : Text) (part leaves thickness leafCeiling volumeCeiling limit reserve : Nat)
    (s : State) :
    Ranged s (decideVolumeLoad mark part leaves thickness leafCeiling volumeCeiling limit reserve s).1 := by
  unfold decideVolumeLoad
  split_ifs
  case neg =>
    exact fun h => { h with
      turnsDone := Nat.zero_le _, gripRetries := Nat.zero_le _, doublePicks := Nat.zero_le _
      manualTurns := Nat.zero_le _, segments := Nat.zero_le _ }
  all_goals exact .refl s

theorem decideVolumeOpen_ranged (k : Nat) (s : State) : Ranged s (decideVolumeOpen k s).1 := by
  unfold decideVolumeOpen
  split_ifs
  case neg =>
    split
    · exact .refl s
    · exact .settled (.trans (.of_eq (by rfl)) (judgeSilence_ranged _))
  all_goals exact .refl s

theorem decideVolumeSet_ranged (lc vc limit reserve thickness : Option Nat) (s : State) :
    Ranged s (decideVolumeSet lc vc limit reserve thickness s).1 := by
  unfold decideVolumeSet
  split
  · exact .refl s
  · split
    · exact .refl s
    · split
      · exact .refl s
      · exact .of_eq rfl

theorem closeVolume_ranged (s : State) : Ranged s (closeVolume s) := by
  refine .settled (.trans (.trans ?_ (enqueue_ranged _ _ _)) (judgeSilence_ranged _))
  exact .of_eq ((counts_closeBankHoods _).trans ((counts_clearHoodRequests _).trans rfl))

theorem decideVolumeClose_ranged (force : Bool) (s : State) : Ranged s (decideVolumeClose force s).1 := by
  unfold decideVolumeClose
  exact .ite (.refl s) fun _ => .ite (.refl s) fun _ => .ite (.refl s) fun _ => .ite (.refl s) fun _ =>
    .ite (.refl s) fun _ => closeVolume_ranged s

theorem decideVolumeDiscard_ranged (s : State) : Ranged s (decideVolumeDiscard s).1 := by
  unfold decideVolumeDiscard
  split
  · exact .refl s
  · exact .refl s
  · exact fun h => { h with
      turnsDone := Nat.zero_le _, gripRetries := Nat.zero_le _, doublePicks := Nat.zero_le _
      manualTurns := Nat.zero_le _, segments := Nat.zero_le _ }

theorem countManual_ranged (s : State) (leaf : Option Nat) : Ranged s (countManual s leaf) := by
  unfold countManual
  split
  · exact .refl s
  · exact fun h => { h with turnsDone := satSucc_le _ _, manualTurns := satSucc_le _ _ }

theorem decideReseat_ranged (k : Nat) (leaf : Option Nat) (s : State) : Ranged s (decideReseat k leaf s).1 := by
  have taken : Ranged s (reseatAt s k leaf) := by
    refine .settled (.then_eq (.trans (t := { s with volume.k := k, volume.known := true }) (.of_eq rfl)
      (countManual_ranged _ leaf)) ?_)
    split <;> split <;> rfl
  unfold decideReseat
  refine .ite (.refl s) fun _ => .ite (.refl s) fun _ => .ite (.refl s) fun _ => ?_
  split
  · exact .refl s
  · exact taken

theorem decidePlanSet_ranged (segments : List SegmentField) (s : State) :
    Ranged s (decidePlanSet segments s).1 := by
  unfold decidePlanSet
  refine .ite (.refl s) fun _ => .ite (.refl s) fun hc => ?_
  split
  · exact .refl s
  · exact fun h => { h with segments := (List.length_map toSegment).trans_le (Nat.not_lt.mp hc) }

theorem decideShoot_ranged (t : Nat) (x : Option Sides) (r : Nat) (p : Option Purpose) (n : Option Nat) (s : State) :
    Ranged s (decideShoot t x r p n s).1 := by
  unfold decideShoot
  split
  · exact .refl s
  · dsimp only
    split
    · exact .refl s
    · exact .refl s
    · exact acceptOrder_ranged _ _

theorem decideTurn_ranged (d : Direction) (o : Bool) (s : State) : Ranged s (decideTurn d o s).1 := by
  unfold decideTurn
  split
  · exact .refl s
  · exact acceptTurn_ranged _ _ _ _

theorem decideTurnResume_ranged (s : State) : Ranged s (decideTurnResume s).1 := by
  unfold decideTurnResume
  split
  · exact .refl s
  · split
    · exact .refl s
    · exact resumeTurn_ranged _ _

theorem decideTurnAbandon_ranged (s : State) : Ranged s (decideTurnAbandon s).1 := by
  unfold decideTurnAbandon
  split
  · exact .refl s
  · exact .settled (.trans (.of_eq (by rfl)) (endTurn_ranged _ _))

theorem decideRaise_ranged (s : State) : Ranged s (decideRaise s).1 := by
  unfold decideRaise
  split
  · exact .refl s
  · split
    · exact .refl s
    · exact .refl s
    · exact .settled (.of_eq (counts_startRaise s false))

theorem decideBankPower_ranged (mask : Quad Bool) (command : Option Bool) (s : State) :
    Ranged s (decideBankPower mask command s).1 := by
  have power : ∀ on u bk, Ranged u (powerBank on mask u bk) := fun on u bk => by
    unfold powerBank
    split_ifs
    · exact .refl u
    · exact startCharging_ranged u bk
    · exact .refl u
    · exact powerOff_ranged u bk
  unfold decideBankPower
  split
  · exact .refl s
  · exact .ite (.refl s) fun _ => .ite (.refl s) fun _ => .foldl (power _) _ _

theorem decideBankSet_ranged (mask : Quad Bool) (recharge : Nat) (s : State) :
    Ranged s (decideBankSet mask recharge s).1 := by
  refine .settled (.foldl (fun u bk => ?_) _ _)
  have set : ∀ v, Ranged u (modifyBank u bk fun r => { r with recharge := v }) := fun v =>
    .of_eq (counts_modifyBank _ _ _ fun _ => rfl)
  unfold setRecharge
  dsimp only
  split_ifs
  · exact (set _).trans (returnReady_ranged _ _)
  · exact set _
  · exact .refl u

theorem decideLineConfig_ranged (line : Nat) (dir : Option LineDir) (pull : Option Pull) (drive : Option Drive)
    (sense : Option Sense) (polarity : Option Polarity) (both : Bool) (debounce : Nat) (event wake hold : Bool)
    (s : State) :
    Ranged s (decideLineConfig line dir pull drive sense polarity both debounce event wake hold s).1 := by
  unfold decideLineConfig
  refine .ite (.refl s) fun _ => ?_
  split
  · exact .refl s
  · exact .ite (.refl s) fun _ => .ite (.refl s) fun _ => configureLine_ranged s line _

theorem decideLineWrite_ranged (mask values : LineMask) (s : State) : Ranged s (decideLineWrite mask values s).1 :=
  mapLinesFrom_ranged s _ fun i l => by unfold writeLine; split <;> exact le_rfl

theorem decideLineCounts_ranged (clear : LineMask) (s : State) : Ranged s (decideLineCounts clear s).1 :=
  mapLinesFrom_ranged s _ fun i l => by
    unfold clearCount
    split
    · exact Nat.zero_le _
    · exact le_rfl

theorem decideLineBind_ranged (f : Option Fn) (line : Option Nat) (s : State) :
    Ranged s (decideLineBind f line s).1 := by
  unfold decideLineBind
  split
  · exact .refl s
  · split
    · exact rebind_ranged s _ none
    · refine .ite (.refl s) fun _ => ?_
      split
      · exact .refl s
      · exact rebind_ranged s _ _

/-! ### The events -/

theorem captureFiring_ranged (s : State) (bk : Bank) (g : Grant) : Ranged s (captureFiring s bk g) := by
  refine .settled ((removeGrant_ranged s bk).then_eq ?_)
  split
  · refine (counts_answerAsk _ _ _).trans ((counts_creditFiring _ _).trans ?_)
    exact counts_modifyBank _ _ _ fun _ => rfl
  · exact counts_answerAsk _ _ _

theorem failGrip_ranged (s : State) (t : Turn) : Ranged s (failGrip s t) := by
  unfold failGrip
  split
  · exact fault_ranged rfl _ _
  · refine .then_eq (t := { suctionOff s with volume.gripRetries := satSucc counterMax s.volume.gripRetries })
      (fun h => ?_) ((counts_restartIdle _).trans rfl)
    exact { h with gripRetries := satSucc_le _ _ }

theorem expireDwell_ranged (s : State) (d : Dwell) : Ranged s (expireDwell s d) := by
  have offered : ∀ b, Ranged s (offerMajor { s with motion.dwell := none } b) := fun b =>
    .trans (.of_eq (by rfl)) (offerMajor_ranged _ _)
  unfold expireDwell
  dsimp only
  split
  · exact ((offered _).then_eq (counts_startRaise _ _)).settled
  · exact (offered _).then_eq rfl
  · exact (offered _).then_eq rfl

theorem endAir_ranged (s : State) (t : Turn) : Ranged s (endAir s t) := by
  refine .moved (.of_eq ?_)
  split
  · exact (counts_startStage _ _).trans rfl
  · rfl

theorem guardLamp_ranged (t0 : State) (v : Pair Nat) (n : Pair (Option Constraint)) (s : State) (sd : Side) :
    Ranged s (guardLamp t0 v n s sd) := by
  unfold guardLamp
  split
  · dsimp only
    split <;> split
    · exact .refl s
    · exact .of_eq rfl
    · exact .trans (.of_eq (by rfl)) (offerMinor_ranged _ _)
    · exact .trans (.of_eq (by rfl)) (offerMinor_ranged _ _)
  · exact .refl s

theorem aimTickStart_ranged (s : State) : Ranged s (aimTickStart s) :=
  .trans (.of_eq (by rfl)) (Ranged.foldl (guardLamp_ranged s _ _) allSides _)

end Sys2Proof.Machine
end

