-- ==== Sys2Proof/Proofs/CountsInRange.lean ====
section
/-! The counts under every command, and the step lemma. -/
namespace Sys2Proof.Machine

/-! ### The step -/

/-- What a guarded event does, its guard met or not. -/
theorem Ranged.guarded {s t : State} {p : Prop} [Decidable p] (h : p → Ranged s t) :
    Ranged s (if p then t else s) := by
  split
  · exact h ‹_›
  · exact .refl s

/-- The event of a running turn whose timer has expired. -/
theorem Ranged.expired {s : State} {f : Turn → State} (h : ∀ t, Ranged s (f t)) :
    Ranged s (match expiredTurn s with
      | none => s
      | some t => f t) := by
  split
  · exact .refl s
  · exact h _

/-- Every command keeps the counts in their ranges. -/
theorem exec_ranged (c : Instr) (s : State) : ∃ t, exec c s = .next t ∧ Ranged s t := by
  cases c <;> refine ⟨_, rfl, ?_⟩
  case powerOnReset => exact powerOn_ranged s
  case softReset => exact softReset_ranged s
  case byteReceived =>
    refine .trans ?_ (takeByte_ranged _ _ _)
    split
    · exact dropFrame_ranged s
    · exact .refl s
  case gapError => exact .guarded fun _ => dropFrame_ranged s
  case replySent =>
    split
    · exact .refl s
    · split
      · exact softReset_ranged s
      · exact .trans (.of_eq (by rfl)) (takeUp_ranged _)
  case ident => exact observe_ranged (fun u => .refl u) _ _ _
  case status => exact observe_ranged (fun u => .refl u) _ _ _
  case time => exact observe_ranged (fun u => .refl u) _ _ _
  case fetch => exact observe_ranged decideFetch_ranged _ _ _
  case linkSet => exact serve_ranged (decideLinkSet_ranged _ _ _) _ _ _
  case reset => exact serve_ranged (fun u => .refl u) _ _ _
  case safe => exact serve_ranged (fun u => (raiseFault_ranged u .operator none).settled) _ _ _
  case clearSafe => exact serve_ranged decideClearSafe_ranged _ _ _
  case idleSet => exact serve_ranged_of_eq (fun u => counts_restartIdle _) _ _ _
  case volumeLoad => exact serve_ranged (decideVolumeLoad_ranged _ _ _ _ _ _ _ _) _ _ _
  case volumeOpen => exact serve_ranged (decideVolumeOpen_ranged _) _ _ _
  case volumeSet => exact serve_ranged (decideVolumeSet_ranged _ _ _ _ _) _ _ _
  case volumeClose => exact serve_ranged (decideVolumeClose_ranged _) _ _ _
  case volumeDiscard => exact serve_ranged decideVolumeDiscard_ranged _ _ _
  case volumeQuery => exact serve_ranged (fun u => .refl u) _ _ _
  case reseat => exact serve_ranged (decideReseat_ranged _ _) _ _ _
  case leafMark =>
    refine serve_ranged_of_eq (fun u => ?_) _ _ _
    unfold decideLeafMark
    split
    · rfl
    · split
      · rfl
      · split <;> rfl
  case leafQuery => exact serve_ranged_of_eq (fun u => by unfold decideLeafQuery; split_ifs <;> rfl) _ _ _
  case gapsQuery => exact serve_ranged_of_eq (fun u => by unfold decideGapsQuery; split_ifs <;> rfl) _ _ _
  case planSet => exact serve_ranged (decidePlanSet_ranged _) _ _ _
  case planQuery => exact serve_ranged_of_eq (fun u => by unfold decidePlanQuery; split_ifs <;> rfl) _ _ _
  case lower =>
    refine serve_ranged_of_eq (fun u => ?_) _ _ _
    unfold decideLower
    split
    · rfl
    · exact counts_startLowering u
  case raise => exact serve_ranged decideRaise_ranged _ _ _
  case turn => exact serve_ranged (decideTurn_ranged _ _) _ _ _
  case turnBack => exact serve_ranged (decideTurn_ranged _ _) _ _ _
  case turnResume => exact serve_ranged decideTurnResume_ranged _ _ _
  case turnAbandon => exact serve_ranged decideTurnAbandon_ranged _ _ _
  case motionSet => exact serve_ranged_of_eq (fun u => rfl) _ _ _
  case motionQuery => exact observe_ranged (fun u => .refl u) _ _ _
  case bankPower => exact serve_ranged (decideBankPower_ranged _ _) _ _ _
  case bankSet => exact serve_ranged (decideBankSet_ranged _ _) _ _ _
  case aimSet => exact serve_ranged_of_eq (fun u => rfl) _ _ _
  case recipeSet => exact serve_ranged_of_eq (fun u => by unfold decideRecipeSet; split_ifs <;> rfl) _ _ _
  case recipeQuery => exact serve_ranged_of_eq (fun u => by unfold decideRecipeQuery; split_ifs <;> rfl) _ _ _
  case lampQuery => exact observe_ranged (fun u => .refl u) _ _ _
  case lampCal =>
    refine serve_ranged_of_eq (fun u => ?_) _ _ _
    unfold decideLampCal
    repeat' split
    all_goals first | rfl | (unfold setCal; split <;> rfl)
  case calQuery => exact serve_ranged_of_eq (fun u => by unfold decideCalQuery; split <;> rfl) _ _ _
  case doseQuery => exact serve_ranged (fun u => .refl u) _ _ _
  case shoot => exact serve_ranged (decideShoot_ranged _ _ _ _ _) _ _ _
  case cameraSet => exact serve_ranged_of_eq (fun u => rfl) _ _ _
  case captureQuery => exact observe_ranged (fun u => .refl u) _ _ _
  case lineConfig => exact serve_ranged (decideLineConfig_ranged _ _ _ _ _ _ _ _ _ _ _) _ _ _
  case lineWrite => exact serve_ranged (decideLineWrite_ranged _ _) _ _ _
  case lineRead => exact serve_ranged (fun u => .refl u) _ _ _
  case lineCounts => exact serve_ranged (decideLineCounts_ranged _) _ _ _
  case lineQuery => exact serve_ranged_of_eq (fun u => by unfold decideLineQuery; split_ifs <;> rfl) _ _ _
  case lineClear => exact serve_ranged (fun u => .foldl clearLine_ranged _ u) _ _ _
  case lineBind => exact serve_ranged (decideLineBind_ranged _ _) _ _ _
  case pinLevelChange line high =>
    refine .trans (.then_eq (acceptDue_ranged s line) ?_) (acceptDue_ranged _ _)
    exact counts_modifyLine _ _ _ fun _ => comparePin_count _ _
  case acceptedEdge => exact acceptDue_ranged s _
  case chargeGood =>
    split
    · exact .trans (.of_eq (by rfl)) (endCharge_ranged _ _)
    · exact .of_eq rfl
  case tick1ms =>
    exact .guarded fun _ => .moved (((countMs_ranged s).trans (periodBoundary_ranged _)).trans (takeReading_ranged _ _))
  case linkSilent =>
    refine .guarded fun _ => .trans (t := { s with
      link.silence := .waiting, link.boundaries := 0, link.boundaryDue := false }) (fun h => ?_) (fault_ranged rfl _ _)
    exact { h with boundaries := Nat.zero_le _, silent := fun _ => rfl }
  case aimTick => exact .guarded fun _ => .trans (.of_eq (by rfl)) (aimTickStart_ranged _)
  case idleTimerExpiry =>
    refine .guarded fun _ => ?_
    split
    · exact .of_eq (counts_restartIdle s)
    · exact enterIdle_ranged s
  case loweringTimeout => exact .guarded fun _ => fault_ranged (by rfl) _ _
  case pressingTimeout => exact .guarded fun _ => fault_ranged (by rfl) _ _
  case raiseTimeout => exact .guarded fun _ => fault_ranged (by rfl) _ _
  case dwellExpiry =>
    split
    · exact .refl s
    · exact .guarded fun _ => expireDwell_ranged s _
  case platesAtTarget => exact .guarded fun _ => .moved (.of_eq rfl)
  case plateTimeout => exact .guarded fun _ => fault_ranged (by rfl) _ _
  case airTimeEnd => exact .expired fun t => .guarded fun _ => endAir_ranged s t
  case armTimeout => exact .expired fun t => .guarded fun _ => fault_ranged rfl _ _
  case gripTimeout => exact .expired fun t => .guarded fun _ => failGrip_ranged s t
  case releaseTimeout => exact .expired fun t => .guarded fun _ => fault_ranged rfl _ _
  case verifyTimeout => exact .expired fun t => .guarded fun _ => fault_ranged rfl _ _
  case bankChargeTimeout =>
    refine .guarded fun _ => .settled (.trans (.trans (.of_eq ?_) (reportBank_ranged _ _ _ _ _)) (raiseFault_ranged _ _ _))
    exact counts_modifyBank _ _ _ fun _ => rfl
  case conditioningFlash =>
    split
    · exact .refl s
    · exact conditioningFlash_ranged ‹_›
  case conditioningComplete =>
    refine .guarded fun _ => .settled (.trans (.of_eq ?_) (enterReady_ranged _ _ _))
    exact counts_modifyBank _ _ _ fun _ => rfl
  case captureFiring =>
    split
    · exact .refl s
    · exact captureFiring_ranged s _ _
  case flashEnd => exact .guarded fun _ => .settled (.of_eq (counts_modifyBank _ _ _ fun _ => rfl))
  case recoveryEnd => exact .guarded fun _ => (returnReady_ranged s _).settled
  case topUpStart => exact .of_eq (counts_topUp s _)
  case topUpEnd => exact .guarded fun _ => (returnReady_ranged s _).settled
  case wakingEnd =>
    refine .guarded fun _ => .settled ?_
    split
    · exact enterReady_ranged _ _ _
    · exact enterConditioning_ranged _ _ _
  case hoodTravelEnd hood =>
    refine .guarded fun _ => .settled (.of_eq ?_)
    cases hood with
    | bank bk => exact counts_modifyBank _ _ _ fun _ => rfl
    | aim sd => rfl
  case notBeforeTime => exact .guarded fun _ => settle_ranged s
  case armingTimeout =>
    split
    · exact .refl s
    · exact .settled (.of_eq rfl)
  case triggerPulseEnd => exact .guarded fun _ => .of_eq ((counts_driveFn _ _ _).trans rfl)
  case syncWindowClose => exact .guarded fun _ => .settled (.of_eq (counts_modifySide _ _ _))
  case storedTimeout => exact .guarded fun _ => .settled (.of_eq (counts_modifySide _ _ _))
  case conditioningFlashDue => exact .guarded fun h => conditioningAsk_ranged h _ _ _

theorem step_ranged {s t : State} (h : step s = .next t) : Ranged s t := by
  unfold step at h
  split at h
  · cases h
    exact idleStep_ranged s
  · rename_i c rest _
    obtain ⟨u, hu, r⟩ := exec_ranged c { s with pending := rest }
    obtain rfl := Host.Outcome.next.inj (hu.symm.trans h)
    exact r

end Sys2Proof.Machine

namespace Sys2Proof
open Machine

/-- Settles O17: each operation of each owner keeps the counts in their ranges; a conditioning flash is granted below a count
of 2 alone, and leaves the schedule with the flash that it counts. -/
theorem countsStayInTheirRanges : Obligations.CountsStayInTheirRanges := by
  intro s t hs h
  exact (countsInv_iff t).mpr (step_ranged h ((countsInv_iff s).mp hs))

end Sys2Proof
end

