-- ==== Sys2Proof/Proofs/Tables.lean ====
section
/-! Requests and their tables of checks, and VOLUME_LOAD (R2, R3, R20). -/
namespace Sys2Proof.Machine

/-! ### Requests and their tables of checks -/

/-- What a table of checks decides in state `a`: the refusal of the first check that failed, or the request taken. -/
def chosen (checks : List Check) (a u : State) (f : Fields) : Decision :=
  match checks.find? fun c => c.1 with
  | some c => (a, c.2)
  | none => accept u f

theorem decided_eq (kind tag : Byte) (checks : List Check) (a u : State) (f : Fields) :
    decided kind tag checks a u f = answer kind tag (chosen checks a u f) := by
  unfold decided chosen
  cases checks.find? fun c => c.1 <;> rfl

/-- A request of the link is decided in the part awake (R142, R144). -/
theorem restartIdle_wakeIfIdle (kind : Byte) (s : State) :
    restartIdle (wakeIfIdle s (.request kind)) = awake kind s := by
  rw [restartIdle, wakeIfIdle_idle]
  rfl

theorem awake_idle (kind : Byte) (s : State) : (awake kind s).time.idle = false := by
  rw [← restartIdle_wakeIfIdle]
  simp

/-- A request whose owner decides by a table of checks leaves what the table decides. -/
theorem serve_decided {kind tag : Byte} {owner : State → Decision} {checks : List Check} {s u : State} {f : Fields}
    (h : owner (awake kind s) = chosen checks (awake kind s) u f) :
    serve kind tag owner s = decided kind tag checks (awake kind s) u f := by
  rw [serve, restartIdle_wakeIfIdle, h, decided_eq]

theorem chosen_nil (a u : State) (f : Fields) : chosen [] a u f = accept u f := rfl

theorem chosen_cons (c : Check) (cs : List Check) (a u : State) (f : Fields) :
    chosen (c :: cs) a u f = if c.1 = true then (a, c.2) else chosen cs a u f := by
  unfold chosen
  rw [List.find?_cons]
  cases hc : c.1 <;> simp

/-- The first check of a table, whatever its refusal carries, and the rest of it where the check passes. -/
theorem chosen_check {p : Prop} [Decidable p] {c : Check} {cs : List Check} {a u : State} {f : Fields} {d : Decision}
    (check : c.1 = true ↔ p) (rest : ¬p → d = chosen cs a u f) :
    (if p then (a, c.2) else d) = chosen (c :: cs) a u f := by
  rw [chosen_cons]
  by_cases hp : p
  · rw [if_pos hp, if_pos (check.mpr hp)]
  · rw [if_neg hp, if_neg (mt check.mp hp), rest hp]

/-- A check whose refusal names nothing. -/
theorem chosen_orElse {p : Prop} [Decidable p] {failed : Bool} {r : Result} {cs : List Check} {a u : State} {f : Fields}
    {d : Decision} (check : failed = true ↔ p) (rest : ¬p → d = chosen cs a u f) :
    (if p then refuse a r else d) = chosen (orElse failed r :: cs) a u f := chosen_check (c := orElse failed r) check rest

/-- A check whose refusal names a field. -/
theorem chosen_orField {p : Prop} [Decidable p] {failed : Bool} {n : FieldName} {cs : List Check} {a u : State}
    {f : Fields} {d : Decision} (check : failed = true ↔ p) (rest : ¬p → d = chosen cs a u f) :
    (if p then refuseField a n else d) = chosen (orField failed n :: cs) a u f :=
  chosen_check (c := orField failed n) check rest

/-- A value outside a range, as the checks of the statements and of the model write it. -/
theorem outside_iff (v a b : Nat) : (decide (v < a) || decide (b < v)) = true ↔ (!inRange v a b) = true := by
  simp [inRange]

theorem above_iff (v b : Nat) : decide (b < v) = true ↔ (!inRange v 0 b) = true := by simp [inRange]

theorem optOutside_iff (v : Option Nat) (a b : Nat) :
    (v.any fun v => decide (v < a) || decide (b < v)) = true ↔ (!optInRange v a b) = true := by
  cases v with
  | none => simp [optInRange]
  | some v => simpa [optInRange] using outside_iff v a b

theorem optAbove_iff (v : Option Nat) (b : Nat) :
    (v.any fun v => decide (b < v)) = true ↔ (!optInRange v 0 b) = true := by
  cases v with
  | none => simp [optInRange]
  | some v => simpa [optInRange] using above_iff v b

theorem volumeOpened_iff (s : State) : decide (s.volume.state = .opened) = true ↔ volumeOpened s = true := Iff.rfl

theorem notOpened_iff (s : State) : decide (s.volume.state ≠ .opened) = true ↔ (!volumeOpened s) = true := by
  simp [volumeOpened]

/-! ### VOLUME_LOAD, VOLUME_DISCARD and VOLUME_SET -/

/-- The check of a shelf mark (R2 check 2). -/
theorem shelfMark_iff (mark : Text) :
    (decide (mark.length < 1) || decide (40 < mark.length) || mark.any (fun b => !isMarkChar b)
      || mark.all fun b => b == 0x20#8) = true ↔ (!validShelfMark mark) = true := by
  rw [Bool.or_eq_true, Bool.or_eq_true, outside_iff]
  rw [validShelfMark, Bool.not_and, Bool.not_and, Bool.not_not, Bool.or_eq_true, Bool.or_eq_true,
    List.not_all_eq_any_not]

theorem getD_freshTable {n i : Nat} (h : i < n + 2) :
    (freshTable n).getD i default =
      { manual := false, dose := 0, handled := 0
        recto := ⟨if i = 0 then .external else .opened, 0, none⟩
        verso := ⟨if i = n + 1 then .external else .opened, 0, none⟩ } := by
  simp only [freshTable]
  rw [List.getD_eq_getElem _ _ (by simpa using h)]
  simp only [List.getElem_map, List.getElem_range, freshLeaf, externalFace, openFace]
  split <;> split <;> rfl

end Sys2Proof.Machine

namespace Sys2Proof
open Machine

/-- Settles O30: the owner's checks are the table's, in its order, and a load that is taken makes the fresh record and
table. -/
theorem volumeLoadMakesAFreshRecord : Obligations.VolumeLoadMakesAFreshRecord := by
  intro tag mark part n thick leafMax volMax limit g s a ha
  subst ha
  refine ⟨{ awake 0x10#8 s with
    volume := loadedVolume (awake 0x10#8 s) mark part n thick leafMax volMax limit g
    leaves := freshTable n, plan := [] }, congrArg _ (serve_decided ?_), rfl, rfl, by simp [freshTable],
    fun i hi => getD_freshTable hi⟩
  refine chosen_orElse (volumeOpened_iff _) fun _ => chosen_orField (shelfMark_iff mark) fun _ => ?_
  refine chosen_orField (above_iff _ _) fun _ => chosen_orField (outside_iff _ _ _) fun _ => ?_
  refine chosen_orField (outside_iff _ _ _) fun _ => chosen_orField (outside_iff _ _ _) fun _ => ?_
  refine chosen_orField (outside_iff _ _ _) fun _ => chosen_orField (outside_iff _ _ _) fun _ => ?_
  exact chosen_orField (above_iff _ _) fun _ => rfl

end Sys2Proof
end

