-- ==== Sys2Proof/Proofs/VolumeDiscard.lean ====
section
/-! VOLUME_DISCARD, and what of the part no load, close or discard changes (R17). -/
namespace Sys2Proof.Machine

/-- What belongs to the part and not to its volume: the calibration, the recipes, the motion profile, the cameras (R17). -/
def partSettings (s : State) : Quad Cal × Pair Cal × List Recipe × Profile × Pair Camera :=
  (s.dose.banks, s.dose.aims, s.lamps.recipes, s.motion.profile, s.seq.cameras)

theorem partSettings_awake (kind : Byte) (s : State) : partSettings (awake kind s) = partSettings s := by
  rw [← restartIdle_wakeIfIdle]
  simp [partSettings]

/-- A request of the link leaves what belongs to the part as it was where its owner does. -/
theorem serve_partSettings {owner : State → Decision} (h : ∀ u, partSettings (owner u).1 = partSettings u)
    (kind tag : Byte) (s : State) : partSettings (serve kind tag owner s) = partSettings s := by
  rw [serve, restartIdle_wakeIfIdle]
  exact (h _).trans (partSettings_awake kind s)

theorem decideVolumeLoad_settings (mark : Text) (part leaves thickness leafCeiling volumeCeiling limit reserve : Nat)
    (s : State) : partSettings (decideVolumeLoad mark part leaves thickness leafCeiling volumeCeiling limit reserve s).1
      = partSettings s := by
  unfold decideVolumeLoad
  split_ifs <;> rfl

theorem decideVolumeClose_settings (force : Bool) (s : State) :
    partSettings (decideVolumeClose force s).1 = partSettings s := by
  have closed : partSettings (closeVolume s) = partSettings s := by simp [partSettings, closeVolume]
  unfold decideVolumeClose
  split
  · rfl
  · split
    · rfl
    · split
      · rfl
      · split
        · rfl
        · split
          · rfl
          · exact closed

theorem decideVolumeDiscard_settings (s : State) : partSettings (decideVolumeDiscard s).1 = partSettings s := by
  unfold decideVolumeDiscard
  split <;> rfl

/-- A discard makes no report. -/
theorem decideVolumeDiscard_queue (s : State) : (decideVolumeDiscard s).1.queue = s.queue := by
  unfold decideVolumeDiscard
  split <;> rfl

theorem awake_queue {s : State} (h : s.time.idle = false) (kind : Byte) : (awake kind s).queue = s.queue := by
  simp [awake, h]

end Sys2Proof.Machine

namespace Sys2Proof
open Machine

/-- Settles O31: the discard by its table, and the settings that belong to the part under each of the three requests. -/
theorem volumeDiscardEmptiesTheRecord : Obligations.VolumeDiscardEmptiesTheRecord := by
  refine ⟨fun tag s a ha => ?_, fun c s t hc h => ?_⟩
  · subst ha
    refine ⟨congrArg _ (serve_decided ?_), fun hi t h => ?_⟩
    · generalize awake 0x14#8 s = a
      rw [chosen_cons, chosen_cons, chosen_nil]
      cases h : a.volume.state <;> simp [decideVolumeDiscard, h, orElse, refuse, emptyVolume]
    · obtain rfl := Host.Outcome.next.inj h
      rw [serve, restartIdle_wakeIfIdle]
      exact (decideVolumeDiscard_queue _).trans (awake_queue hi _)
  · have kept : partSettings t = partSettings s := by
      cases c <;> try exact hc.elim
      case volumeLoad =>
        obtain rfl := Host.Outcome.next.inj h
        exact serve_partSettings (decideVolumeLoad_settings _ _ _ _ _ _ _ _) _ _ s
      case volumeClose =>
        obtain rfl := Host.Outcome.next.inj h
        exact serve_partSettings (decideVolumeClose_settings _) _ _ s
      case volumeDiscard =>
        obtain rfl := Host.Outcome.next.inj h
        exact serve_partSettings decideVolumeDiscard_settings _ _ s
    simpa [partSettings] using kept

end Sys2Proof
end

