-- ==== Sys2Proof/Proofs/VolumeSet.lean ====
section
/-! VOLUME_SET (R6, R7). -/
namespace Sys2Proof.Machine

/-! ### VOLUME_SET -/

/-- The leaf that the check of R7 names is the first one above the ceiling. -/
theorem firstOver_first {s : State} {c i j : Nat} {ls : List Leaf} (hj : j < ls.length)
    (above : c < doseAt ls j + outstanding s (i + j))
    (below : ∀ m, m < j → doseAt ls m + outstanding s (i + m) ≤ c) :
    firstOver s c ls i = some (i + j, doseAt ls j + outstanding s (i + j)) := by
  induction ls generalizing i j with
  | nil => cases hj
  | cons l ls ih =>
    unfold firstOver
    cases j with
    | zero => rw [if_pos (by simpa [doseAt] using above)]; simp [doseAt]
    | succ j =>
      have first := below 0 (Nat.succ_pos j)
      rw [if_neg (by simpa [doseAt] using first)]
      have shift : ∀ m, i + 1 + m = i + (m + 1) := fun m => by omega
      have := ih (i := i + 1) (j := j) (by simpa using hj) (by rw [shift]; simpa [doseAt] using above)
        fun m hm => by rw [shift]; simpa [doseAt] using below (m + 1) (by omega)
      rw [this, shift]
      simp [doseAt]

/-- A leaf stands above a ceiling exactly where the check of R7 finds one. -/
theorem firstOver_isSome {s : State} {c : Nat} :
    (firstOver s c s.leaves 0).isSome = true ↔
      ∃ i, i < s.leaves.length ∧ c < (getLeaf s i).dose + outstanding s i := by
  constructor
  · intro h
    by_contra hn
    push Not at hn
    suffices h0 : ∀ (ls : List Leaf) (i : Nat),
        (∀ j, j < ls.length → doseAt ls j + outstanding s (i + j) ≤ c) → firstOver s c ls i = none by
      rw [h0 s.leaves 0 fun j hj => by rw [Nat.zero_add]; exact hn j hj] at h
      cases h
    intro ls
    induction ls with
    | nil => exact fun _ _ => rfl
    | cons l ls ih =>
      intro i hl
      unfold firstOver
      have first := hl 0 (by simp)
      rw [if_neg (by simpa [doseAt] using first)]
      refine ih (i + 1) fun j hj => ?_
      have := hl (j + 1) (by simpa using hj)
      rw [show i + 1 + j = i + (j + 1) by omega]
      simpa [doseAt] using this
  · rintro ⟨i, hi, above⟩
    by_contra hn
    rw [Bool.not_eq_true, Option.isSome_eq_false_iff, Option.isNone_iff_eq_none] at hn
    have := firstOver_none hn i hi
    rw [Nat.zero_add] at this
    exact absurd above (Nat.not_lt.mpr this)

/-- The check of R7 as a row of the table of VOLUME_SET. -/
def ceilingRow (s : State) (leafMax volMax : Option Nat) : Check :=
  match ceilingCheck s leafMax volMax with
  | some x => (true, .ceilingBelowDose, .ceilingBelow x.1 x.2)
  | none => (false, .ceilingBelowDose, .none)

theorem ceilingRow_result (s : State) (leafMax volMax : Option Nat) :
    (ceilingRow s leafMax volMax).2.1 = .ceilingBelowDose := by unfold ceilingRow; split <;> rfl

theorem ceilingRow_fails (s : State) (leafMax volMax : Option Nat) :
    (ceilingRow s leafMax volMax).1 = true ↔ (ceilingCheck s leafMax volMax).isSome = true := by
  unfold ceilingRow; split <;> simp [*]

/-- The check with no leaf above the new ceiling. -/
theorem ceilingCheck_volume {s : State} {leafMax : Option Nat}
    (h : ∀ d i, leafMax = some d → i < s.leaves.length → (getLeaf s i).dose + outstanding s i ≤ d)
    (volMax : Option Nat) :
    ceilingCheck s leafMax volMax = volMax.bind fun c =>
      if c < s.volume.totalDose + outstandingTotal s then some (none, s.volume.totalDose + outstandingTotal s)
      else none := by
  have none_above : (leafMax.bind fun c => firstOver s c s.leaves 0) = none := by
    cases leafMax with
    | none => rfl
    | some d =>
      refine Option.not_isSome_iff_eq_none.mp fun hs => ?_
      obtain ⟨i, hi, above⟩ := firstOver_isSome.mp hs
      exact absurd above (Nat.not_lt.mpr (h d i rfl hi))
  unfold ceilingCheck
  rw [none_above]
  cases volMax <;> rfl

/-- The check with a leaf above the new ceiling. -/
theorem ceilingCheck_leaf {s : State} {leafMax volMax : Option Nat} {c : Nat} {x : Nat × Nat} (hc : leafMax = some c)
    (hx : firstOver s c s.leaves 0 = some x) : ceilingCheck s leafMax volMax = some (some x.1, x.2) := by
  unfold ceilingCheck
  rw [hc, Option.bind_some, hx]

theorem ceilingCheck_isSome (s : State) (leafMax volMax : Option Nat) :
    (ceilingCheck s leafMax volMax).isSome = true ↔
      (∃ c, leafMax = some c ∧ ∃ i, i < s.leaves.length ∧ c < (getLeaf s i).dose + outstanding s i)
        ∨ ∃ c, volMax = some c ∧ c < s.volume.totalDose + outstandingTotal s := by
  by_cases hl : ∃ c, leafMax = some c ∧ ∃ i, i < s.leaves.length ∧ c < (getLeaf s i).dose + outstanding s i
  · obtain ⟨c, hc, above⟩ := hl
    obtain ⟨x, hx⟩ := Option.isSome_iff_exists.mp (firstOver_isSome.mpr above)
    rw [ceilingCheck_leaf hc hx]
    exact ⟨fun _ => .inl ⟨c, hc, above⟩, fun _ => rfl⟩
  · rw [ceilingCheck_volume (fun d i hd hi => Nat.not_lt.mp fun h => hl ⟨d, hd, i, hi, h⟩), or_iff_right hl]
    cases volMax with
    | none => simp
    | some c => by_cases hc : c < s.volume.totalDose + outstandingTotal s <;> simp [hc]

/-- A request that is refused where a field fails, and otherwise decided by `d`. -/
def afterField (a : State) (d : Decision) : Option FieldName → Decision
  | some f => refuseField a f
  | none => d

/-- The check of a field as a row of a table, the further checks of fields behind it. -/
theorem chosen_fieldOr {p : Prop} [Decidable p] {failed : Bool} {n : FieldName} {fs : Option FieldName} {cs : List Check}
    {a u : State} {f : Fields} {d : Decision} (check : failed = true ↔ p) (rest : ¬p → afterField a d fs = chosen cs a u f) :
    afterField a d (if p then some n else fs) = chosen (orField failed n :: cs) a u f := by
  rw [← chosen_orField check rest]
  split <;> rfl

/-- What a VOLUME_SET that is taken makes of the record (R6). -/
theorem decideVolumeSet_chosen (leafMax volMax limit g thick : Option Nat) (a : State) :
    decideVolumeSet leafMax volMax limit g thick a = chosen
      [ orElse (decide (a.volume.state = .empty) || decide (a.volume.state = .closed)) .wrongState,
        orField (leafMax.any fun v => decide (v < 1) || decide (4000000000 < v)) .leafCeiling,
        orField (volMax.any fun v => decide (v < 1) || decide (2 ^ 48 - 1 < v)) .volumeCeiling,
        orField (limit.any fun v => decide (v < 1) || decide (255 < v)) .handlingLimit,
        orField (g.any fun v => decide (4000000000 < v)) .reserve,
        orField (thick.any fun v => decide (v < 20) || decide (2000 < v)) .thickness,
        ceilingRow a leafMax volMax ] a
      { a with
        volume.leafCeiling := leafMax.getD a.volume.leafCeiling
        volume.volumeCeiling := volMax.getD a.volume.volumeCeiling
        volume.handlingLimit := limit.getD a.volume.handlingLimit
        volume.reserve := g.getD a.volume.reserve
        volume.thickness := thick.getD a.volume.thickness }
      (.volumeSet (leafMax.getD a.volume.leafCeiling) (volMax.getD a.volume.volumeCeiling)
        (limit.getD a.volume.handlingLimit) (g.getD a.volume.reserve) (thick.getD a.volume.thickness)) := by
  refine chosen_orElse (by simp) fun _ => ?_
  show afterField a _ (volumeSetField leafMax volMax limit g thick) = _
  refine chosen_fieldOr (optOutside_iff _ _ _) fun _ => chosen_fieldOr (optOutside_iff _ _ _) fun _ => ?_
  refine chosen_fieldOr (optOutside_iff _ _ _) fun _ => chosen_fieldOr (optAbove_iff _ _) fun _ => ?_
  refine chosen_fieldOr (optOutside_iff _ _ _) fun _ => ?_
  rw [chosen_cons, chosen_nil, afterField, ceilingRow]
  cases ceilingCheck a leafMax volMax <;> rfl

end Sys2Proof.Machine

namespace Sys2Proof
open Machine

/-- Settles O33: the owner's checks are the table's, its last row the ceiling check, which names the first leaf above the
new ceiling, or the total. -/
theorem volumeSetKeepsCeilingsAboveDoses : Obligations.VolumeSetKeepsCeilingsAboveDoses := by
  intro tag leafMax volMax limit g thick s a ha
  subst ha
  refine ⟨ceilingRow (awake 0x12#8 s) leafMax volMax, (ceilingRow_fails _ _ _).trans (ceilingCheck_isSome _ _ _),
    ceilingRow_result _ _ _, fun c i hc hi above below => ?_, fun c hc above within => ?_,
    congrArg _ (serve_decided (decideVolumeSet_chosen leafMax volMax limit g thick _))⟩
  · have first := firstOver_first (i := 0) hi (by rw [Nat.zero_add]; exact above) fun j hj => by
      rw [Nat.zero_add]; exact below j hj
    rw [Nat.zero_add] at first
    rw [ceilingRow, ceilingCheck_leaf hc first]
    rfl
  · rw [ceilingRow, ceilingCheck_volume within, hc, Option.bind_some, if_pos above]

end Sys2Proof
end

