-- ==== Sys2Proof/Proofs/VolumeOpen.lean ====
section
/-! VOLUME_OPEN and RESEAT (R4, R9, R10, R11, R26, R64). -/
namespace Sys2Proof.Machine

/-! ### VOLUME_OPEN and RESEAT -/

/-- The silence timer is judged as R138 says. -/
theorem judgeSilence_eq (s : State) : judgeSilence s = silenceJudged s := by
  obtain ⟨time, ⟨receiver, assembly, buffer, deciding, reply, flag, errors, supervision, silence, boundaries, due⟩, queue,
    volume, leaves, plan, motion, lamps, dose, seq, lines, safe, good, pending⟩ := s
  have called : calledFor ⟨time, ⟨receiver, assembly, buffer, deciding, reply, flag, errors, supervision, silence,
      boundaries, due⟩, queue, volume, leaves, plan, motion, lamps, dose, seq, lines, safe, good, pending⟩
        = (supervision && decide (volume.state = .opened)) := rfl
  cases silence <;> simp only [judgeSilence, silenceJudged, called] <;>
    cases supervision && decide (volume.state = .opened) <;> simp

/-- A request that is refused where a further check fails, and otherwise decided by `d`. -/
def afterCheck (a : State) (d : Decision) : Option Result → Decision
  | some r => refuse a r
  | none => d

/-- A check as a row of a table, the further checks behind it. -/
theorem chosen_checkOr {p : Prop} [Decidable p] {failed : Bool} {r : Result} {rs : Option Result} {cs : List Check}
    {a u : State} {f : Fields} {d : Decision} (check : failed = true ↔ p)
    (rest : ¬p → afterCheck a d rs = chosen cs a u f) :
    afterCheck a d (if p then some r else rs) = chosen (orElse failed r :: cs) a u f := by
  rw [← chosen_orElse check rest]
  split <;> rfl

/-- The platen's checks of VOLUME_OPEN and RESEAT (R4, R9). -/
theorem chosen_platen (a u : State) (f : Fields) :
    afterCheck a (accept u f) (platenRefusal a.motion.platen) = chosen
      [ orElse (platenIn a [.lowering, .raising]) .busyMotion,
        orElse (platenIn a [.pressing, .down, .stopped]) .wrongState ] a u f := by
  rw [chosen_cons, chosen_cons, chosen_nil]
  cases h : a.motion.platen <;> simp [platenRefusal, afterCheck, orElse, platenIn, h, refuse]

end Sys2Proof.Machine

namespace Sys2Proof
open Machine

/-- Settles O32: both owners' checks are their tables', in order, and what is taken is settled. -/
theorem volumeOpenAndReseat : Obligations.VolumeOpenAndReseat := by
  intro tag k s
  refine ⟨fun a ha => ?_, fun leaf a u ha hu => ?_⟩ <;> subst ha <;> refine congrArg _ (serve_decided ?_)
  · generalize awake 0x11#8 s = a
    rw [← judgeSilence_eq]
    refine chosen_orElse (by simp) fun _ => chosen_orField (by simp) fun _ => ?_
    refine chosen_orElse Iff.rfl fun _ => chosen_orElse Iff.rfl fun _ => ?_
    exact (rfl : _ = afterCheck a _ (platenRefusal a.motion.platen)).trans (chosen_platen a _ _)
  · generalize awake 0x16#8 s = a at hu ⊢
    have taken : reseatAt a k leaf = settle
        (let w : State := if a.motion.keptOn then { u with motion.suction := false, motion.keptOn := false } else u
          if a.safe.flag then { w with volume.platesPending := true } else startAdjust w k) := by
      subst hu
      cases leaf <;> rfl
    refine chosen_orElse (notOpened_iff _) fun _ => chosen_orField (by simp) fun _ => ?_
    refine chosen_orField (optOutside_iff _ _ _) fun _ => ?_
    show afterCheck a _ (reseatRefusal a) = _
    refine chosen_checkOr Iff.rfl fun _ => chosen_checkOr Iff.rfl fun _ => chosen_checkOr Iff.rfl fun _ => ?_
    rw [taken]
    exact chosen_platen a _ _

end Sys2Proof
end

