-- ==== Sys2Proof/Proofs/Turns.lean ====
section
/-! TURN and TURN_BACK (R12, R51, R52, R53). -/
namespace Sys2Proof.Machine

/-! ### TURN and TURN_BACK -/

/-- A running turn in its RAISE stage goes to AIR under a RAISED platen, and waits there (R53). -/
theorem runTurn_raised {s : State} {t : Turn} (ht : s.motion.turn = some t) (stage : t.stage = .raise)
    (running : t.held = false) (platen : s.motion.platen = .raised) (n : Nat) :
    runTurn (n + 2) s = startStage s .air := by
  have first : turnStep s t = some (startStage s .air) := by simp [turnStep, running, stage, platen]
  have waits : ∀ u : Turn, (startStage s .air).motion.turn = some u → turnStep (startStage s .air) u = none := by
    intro u hu
    simp only [startStage, setStage, restartIdle_frame, modifyTurn_turn, ht, Option.map_some, Option.some.injEq] at hu
    subst hu
    simp [turnStep]
  unfold runTurn
  simp only [ht, first]
  show runTurn (n + 1) (startStage s .air) = _
  unfold runTurn
  split
  · rfl
  · rename_i u hu
    simp only [waits u hu]

/-- A running turn waits in its RAISE stage until the platen is RAISED (R53). -/
theorem runTurn_waits {s : State} {t : Turn} (ht : s.motion.turn = some t) (stage : t.stage = .raise)
    (platen : s.motion.platen ≠ .raised) (n : Nat) : runTurn (n + 1) s = s := by
  have waits : turnStep s t = none := by
    unfold turnStep
    split
    · rfl
    · simp only [stage]
  unfold runTurn
  simp only [ht, waits]

/-- A stage starts in a part that is awake (R53, R142). -/
theorem setStage_awake {s : State} (awake : s.time.idle = false) (g : Stage) (d : Option Nat) :
    setStage s g d = { s with
      time.idleStart := if s.time.idleSetting = 0 then none else some s.time.clock
      motion.turn := s.motion.turn.map fun t =>
        { t with stage := g, recovery := false, regripAir := false, deadline := d } } := by
  unfold setStage restartIdle
  rw [if_neg (by simp [awake])]
  rfl

/-- RAISE under a RAISED platen is over at once: the turn is in AIR (R53). -/
theorem runMotion_raised {s : State} {t : Turn} (ht : s.motion.turn = some t) (running : t.held = false)
    (awake : s.time.idle = false) (platen : s.motion.platen = .raised) :
    runMotion (setStage s .raise none) = startStage s .air := by
  have still : followPlaten (setStage s .raise none) = setStage s .raise none := by
    simp [followPlaten, setStage_awake awake, platen]
  rw [runMotion, still, runTurn_raised (t := { t with
    stage := .raise, recovery := false, regripAir := false, deadline := none })
    (by simp [setStage_awake awake, ht]) rfl running (by simp [setStage_awake awake, platen])]
  simp [startStage, setStage_awake, awake, ht, now]

/-- The state of a raise that starts (R47). -/
theorem startRaise_top {s : State} (top : fnActive s .platenTop = true) (b : Bool) :
    startRaise s b = { s with
      motion.platen := .raised, motion.platenDeadline := none, motion.raisePending := false
      motion.safeRaise := false, motion.dwell := none, motion.dwellDeferred := false } := by
  simp [startRaise, top]

theorem startRaise_below {s : State} (top : fnActive s .platenTop = false) :
    startRaise s false = { s with
      motion.platen := .raising, motion.platenDeadline := some (now s + raiseTime), motion.raisePending := false
      motion.safeRaise := false, motion.dwell := none, motion.dwellDeferred := false } := by
  simp [startRaise, top]

/-- RAISE with PLATEN_TOP active is over at once (R47, R53). -/
theorem runMotion_top {s : State} {t : Turn} (ht : s.motion.turn = some t) (running : t.held = false)
    (awake : s.time.idle = false) (top : fnActive s .platenTop = true) :
    runMotion (startRaise (setStage s .raise none) false) = startStage (startRaise s false) .air := by
  have swap : startRaise (setStage s .raise none) false = setStage (startRaise s false) .raise none := by
    have top' : fnActive (setStage s .raise none) .platenTop = true := by
      rw [setStage_awake awake]; exact top
    rw [startRaise_top top', startRaise_top top, setStage_awake awake, setStage_awake (by exact awake)]
  rw [swap]
  exact runMotion_raised (t := t) (by simp [ht]) running (by simp [awake]) (by rw [startRaise_top top])

/-- RAISE under a platen that has to rise waits for it (R47, R53). -/
theorem runMotion_below {s : State} {t : Turn} (ht : s.motion.turn = some t) (awake : s.time.idle = false)
    (top : fnActive s .platenTop = false) :
    runMotion (startRaise (setStage s .raise none) false) = startRaise (setStage s .raise none) false := by
  have top' : fnActive (setStage s .raise none) .platenTop = false := by
    rw [setStage_awake awake]; exact top
  have rising := startRaise_below top'
  have still : followPlaten (startRaise (setStage s .raise none) false) = startRaise (setStage s .raise none) false := by
    have platen : (startRaise (setStage s .raise none) false).motion.platen = .raising := by rw [rising]
    have low : fnActive (startRaise (setStage s .raise none) false) .platenTop = false := by rw [rising]; exact top'
    simp [followPlaten, platen, low]
  rw [runMotion, still]
  exact runTurn_waits (t := { t with stage := .raise, recovery := false, regripAir := false, deadline := none })
    (by simp [setStage_awake awake, ht]) rfl (by rw [rising]; exact nofun) 15

/-- What an accepted turn comes to at once: AIR under a RAISED platen, or with PLATEN_TOP active; otherwise the raise is
under way (R52, R53). -/
theorem acceptTurn_eq {s : State} (awake : s.time.idle = false) (d : Direction) (o : Origin) (b : Bool) :
    acceptTurn s d o b = settle (turnAccepted s d o b) := by
  refine congrArg settle ?_
  by_cases hr : s.motion.platen = .raised
  · refine (congrArg runMotion (if_pos (by exact hr))).trans ((runMotion_raised (by rfl) (by rfl) (by exact awake) (by exact hr)).trans ?_)
    cases d <;> simp [startStage, setStage_awake, awake, hr, turnAccepted, reserve, nextTurnSeq, leafToTurn, now]
  · refine (congrArg runMotion (if_neg (by exact hr))).trans ?_
    cases ht : fnActive s .platenTop with
    | true =>
      refine (runMotion_top (by rfl) (by rfl) (by exact awake) (by exact ht)).trans ?_
      rw [startRaise_top (by exact ht)]
      cases d <;> simp [startStage, setStage_awake, awake, hr, ht, turnAccepted, reserve, nextTurnSeq, leafToTurn, now]
    | false =>
      refine (runMotion_below (by rfl) (by exact awake) (by exact ht)).trans ?_
      rw [setStage_awake (by exact awake), startRaise_below (by exact ht)]
      cases d <;> simp [hr, ht, turnAccepted, reserve, nextTurnSeq, leafToTurn, now, raiseTime, ms] <;> rfl

theorem isGap_eq (f : Face) : (decide (f.state = .opened) || decide (f.state = .wanted)) = isGap f := by
  unfold isGap; cases f.state <;> rfl

/-- A face of the table that waits for its capture (R32). -/
theorem gapAt_iff (s : State) (f : Nat) :
    ((faceList s.leaves)[f]?.any fun x => decide (x.state = .opened) || decide (x.state = .wanted)) = gapAt s f := by
  unfold gapAt
  cases (faceList s.leaves)[f]? with
  | none => rfl
  | some x => exact isGap_eq x

/-- A turn request as its table of checks decides it (R51). -/
theorem decideTurn_chosen {a : State} (awake : a.time.idle = false) (d : Direction) (o : Bool) :
    decideTurn d o a = chosen (turnChecks a d o) a (settle (turnAccepted a d .link o))
      (.turn (nextTurnSeq a.volume.turnSeq) d (leafToTurn d a.volume.k) (getLeaf a (leafToTurn d a.volume.k)).handled) := by
  have leaf : leafToTurn d a.volume.k = if decide (d = .forward) = true then a.volume.k + 1 else a.volume.k := by
    cases d <;> rfl
  unfold decideTurn
  rw [acceptTurn_eq awake]
  show afterCheck a _ (turnCheck a d o) = _
  unfold turnCheck turnChecks
  dsimp only
  rw [← leaf]
  simp only [gapAt_iff]
  refine chosen_checkOr (notOpened_iff a) fun _ => chosen_checkOr Iff.rfl fun _ => chosen_checkOr Iff.rfl fun _ => ?_
  refine chosen_checkOr Iff.rfl fun _ => chosen_checkOr ?_ fun _ => chosen_checkOr Iff.rfl fun _ => ?_
  · simp [platenIn, turnInFlight, adjusting]; tauto
  refine chosen_checkOr ?_ fun _ => chosen_checkOr Iff.rfl fun _ => chosen_checkOr ?_ fun _ => ?_
  · simp [turnFunctions, fnBound]
  · simp
  refine chosen_checkOr ?_ fun _ => chosen_checkOr Iff.rfl fun _ => chosen_checkOr ?_ fun _ => ?_
  · cases d <;> simp
  · cases d <;> cases o <;> simp
  refine chosen_checkOr ?_ fun _ => chosen_checkOr ?_ fun _ => rfl
  · cases o <;> simp
  · simp only [hasRoom, Bool.not_eq_true', decide_eq_false_iff_not, decide_eq_true_eq, Nat.not_lt]
    exact Iff.rfl

end Sys2Proof.Machine

namespace Sys2Proof
open Machine

/-- Settles O40: the owner's fourteen checks are the table's, in order, and an accepted turn stands in AIR at once, or in
RAISE with the raise under way. -/
theorem turnsAreAcceptedByTheirChecks : Obligations.TurnsAreAcceptedByTheirChecks := by
  intro tag override s
  refine ⟨fun a ha => ?_, fun a ha => ?_⟩ <;> subst ha
  · exact congrArg _ (serve_decided (decideTurn_chosen (awake_idle _ _) .forward override))
  · exact congrArg _ (serve_decided (decideTurn_chosen (awake_idle _ _) .backward override))

end Sys2Proof
end

