-- ==== Sys2Proof/Proofs/Queries.lean ====
section
/-! The queries (R18, R33, R34, R38, R67, R87, R88, R108, R131, R133, R135, R178). -/
namespace Sys2Proof.Machine

/-! ### The queries -/

/-- A request that is always taken. -/
theorem serve_accepted {kind tag : Byte} {owner : State → Decision} {s : State} {f : Fields}
    (h : owner (awake kind s) = accept (awake kind s) f) :
    serve kind tag owner s = replied kind tag .accepted f (awake kind s) := by
  rw [serve, restartIdle_wakeIfIdle, h]
  rfl

theorem leafViews_eq (n : Nat) (ls : List Leaf) (i : Nat) :
    leafViews n ls i = (ls.zipIdx i).map fun x =>
      ⟨x.2, if x.2 = 0 then .frontBoard else if x.2 = n + 1 then .backBoard else .leaf, x.1⟩ := by
  induction ls generalizing i with
  | nil => rfl
  | cons l ls ih => rw [leafViews, ih, List.zipIdx_cons, List.map_cons]; rfl

theorem idleRemaining_eq (s : State) :
    idleRemaining s = if s.time.idle then none else
      s.time.idleStart.map fun t => (t + s.time.idleSetting * 1000000 - s.time.clock + 999) / 1000 := by
  unfold idleRemaining
  cases s.time.idleStart with
  | none => simp
  | some t => rfl

theorem sideView_eq (x : SideRec) :
    sideView x =
      { stage := x.stage, syncTime := x.syncTime.map stamp
        asks := x.asks.map fun a =>
          { a with
            granted := stamp a.granted
            answer := a.answer.map fun y =>
              match y with
              | .fired t => .fired (stamp t)
              | .withdrawn => .withdrawn } } := rfl

end Sys2Proof.Machine

namespace Sys2Proof
open Machine

/-- Settles O22: each query's reply is read off its owner's view; the checks of the five that can be refused are their
tables'. -/
theorem queriesAnswerWhatStands : Obligations.QueriesAnswerWhatStands := by
  intro tag s st hst
  obtain rfl : st = stamp := funext hst
  refine ⟨rfl, rfl, ?_, rfl, fun bank aim hb ha => ?_, fun order side ho hx => ?_, fun a ha => ?_, fun i c a ha => ?_,
    fun f a ha => ?_, fun p a ha => ?_, fun n a ha => ?_, fun a guard ha hg => ?_⟩
  · rw [← idleRemaining_eq]
    rfl
  · simp only [hb _ _ rfl, ha _ _ rfl]
    rfl
  · obtain rfl : order = orderView := funext ho
    obtain rfl : side = sideView := funext fun x => (hx x).trans (sideView_eq x).symm
    rfl
  all_goals subst ha
  · exact congrArg _ (serve_accepted rfl)
  · refine congrArg _ (serve_decided ?_)
    rw [← leafViews_eq]
    refine chosen_orElse (by simp) fun _ => chosen_orField (by simp) fun _ => ?_
    exact chosen_orField (outside_iff _ _ _) fun _ => rfl
  · refine congrArg _ (serve_decided ?_)
    exact chosen_orElse (by simp) fun _ => chosen_orField (by simp) fun _ => rfl
  · refine congrArg _ (serve_decided ?_)
    exact chosen_orElse (by simp) fun _ => chosen_orField (outside_iff _ _ _) fun _ => rfl
  · refine congrArg _ (serve_decided ?_)
    exact chosen_orField (decide_eq_true_iff) fun _ => rfl
  · refine congrArg _ (serve_accepted ?_)
    simp only [hg]
    rfl

end Sys2Proof
end

