-- ==== Sys2Proof/Proofs/Census.lean ====
section
/-! The census of a table and the greatest figures of a summary (R16, R20). -/
namespace Sys2Proof.Machine

/-! ### The census of a table (R16) -/

/-- Every face is counted by one figure of the census, or is EXTERNAL. -/
theorem census_sum (fs : List Face) :
    (census fs).shot + (census fs).wanted + (census fs).openFaces + (census fs).blank + (census fs).missing
      + (census fs).restricted + fs.countP (fun f => decide (f.state = .external)) = fs.length := by
  simp only [census]
  induction fs with
  | nil => rfl
  | cons f fs ih =>
    simp only [List.countP_cons, List.length_cons]
    cases h : f.state with
    | skipped r => cases r <;> simp <;> omega
    | _ => simp; omega

theorem census_gaps (fs : List Face) : (census fs).openFaces + (census fs).wanted = fs.countP isGap := by
  simp only [census]
  induction fs with
  | nil => rfl
  | cons f fs ih =>
    simp only [List.countP_cons, ← isGap_eq]
    cases h : f.state <;> simp <;> omega

/-- The faces of a table are its rectos and its versos. -/
theorem countP_faceList (p : Face → Bool) (ls : List Leaf) :
    (faceList ls).countP p = ls.countP (fun l => p l.recto) + ls.countP fun l => p l.verso := by
  unfold faceList
  induction ls with
  | nil => rfl
  | cons l ls ih =>
    simp only [List.flatMap_cons, List.countP_append, ih, List.countP_cons, List.countP_nil]
    omega

theorem faceList_length (ls : List Leaf) : (faceList ls).length = 2 * ls.length := by
  unfold faceList
  induction ls with
  | nil => rfl
  | cons l ls ih => simp only [List.flatMap_cons, List.length_append, ih, List.length_cons, List.length_nil]; omega

/-- A property that one entry of a list has, and no other, counts 1. -/
theorem countP_eq_one {α : Type} {p : α → Bool} {xs : List α} {j : Nat} (hj : j < xs.length)
    (h : ∀ i (hi : i < xs.length), p xs[i] = true ↔ i = j) : xs.countP p = 1 := by
  induction xs generalizing j with
  | nil => cases hj
  | cons x xs ih =>
    rw [List.countP_cons]
    cases j with
    | zero =>
      have first : p x = true := (h 0 (Nat.succ_pos _)).mpr rfl
      have rest : xs.countP p = 0 := List.countP_eq_zero.mpr fun y hy => by
        obtain ⟨i, hi, rfl⟩ := List.getElem_of_mem hy
        exact fun hp => Nat.succ_ne_zero i ((h (i + 1) (Nat.succ_lt_succ hi)).mp hp)
      simp [first, rest]
    | succ j =>
      have first : ¬p x = true := fun hp => Nat.succ_ne_zero j ((h 0 (Nat.succ_pos _)).mp hp).symm
      rw [ih (Nat.lt_of_succ_lt_succ hj) fun i hi => by
        simpa using h (i + 1) (Nat.succ_lt_succ hi)]
      simp [first]

theorem getLeaf_eq_getElem {s : State} {i : Nat} (h : i < s.leaves.length) : getLeaf s i = s.leaves[i] :=
  List.getD_eq_getElem _ _ h

/-- The EXTERNAL faces of a table are the two outer faces of its boards (R20). -/
theorem external_two {s : State} (length : s.leaves.length = s.volume.leafCount + 2) (h : leafInv s) :
    (faceList s.leaves).countP (fun f => decide (f.state = .external)) = 2 := by
  rw [countP_faceList, countP_eq_one (j := 0) (by omega), countP_eq_one (j := s.volume.leafCount + 1) (by omega)]
  · intro i hi
    rw [decide_eq_true_iff, ← getLeaf_eq_getElem hi]
    obtain ⟨-, -, -, verso, -⟩ := h i hi
    exact verso
  · intro i hi
    rw [decide_eq_true_iff, ← getLeaf_eq_getElem hi]
    obtain ⟨-, -, recto, -⟩ := h i hi
    exact recto

/-! ### The greatest figures of a summary (R16) -/

/-- The greatest value so far, or the first place in a list that holds a greater one. -/
theorem highest_spec (xs : List Nat) (i : Nat) (best : Nat × Nat) :
    best.1 ≤ (highest xs i best).1 ∧ (∀ x ∈ xs, x ≤ (highest xs i best).1)
      ∧ (highest xs i best = best
        ∨ ∃ j, ∃ hj : j < xs.length, highest xs i best = (xs[j], i + j) ∧ best.1 < xs[j]
          ∧ ∀ m, ∀ hm : m < j, xs[m] < xs[j]) := by
  induction xs generalizing i best with
  | nil => simp [highest]
  | cons x xs ih =>
    have next := ih (i + 1) (if best.1 < x then (x, i) else best)
    have step : highest (x :: xs) i best = highest xs (i + 1) (if best.1 < x then (x, i) else best) := rfl
    rw [step]
    generalize highest xs (i + 1) (if best.1 < x then (x, i) else best) = r at next
    obtain ⟨least, most, place⟩ := next
    by_cases hx : best.1 < x
    · simp only [if_pos hx] at least place
      refine ⟨by omega, fun y hy => ?_, .inr ?_⟩
      · rcases List.mem_cons.mp hy with rfl | hy
        · exact least
        · exact most y hy
      · rcases place with rfl | ⟨j, hj, rfl, greater, first⟩
        · exact ⟨0, Nat.succ_pos _, rfl, hx, fun m hm => absurd hm (Nat.not_lt_zero m)⟩
        · refine ⟨j + 1, Nat.succ_lt_succ hj, by simp; omega, by simp; omega, fun m hm => ?_⟩
          cases m with
          | zero => simpa using greater
          | succ m => simpa using first m (by omega)
    · simp only [if_neg hx] at least place
      refine ⟨least, fun y hy => ?_, ?_⟩
      · rcases List.mem_cons.mp hy with rfl | hy
        · omega
        · exact most y hy
      · rcases place with rfl | ⟨j, hj, rfl, greater, first⟩
        · exact .inl rfl
        · refine .inr ⟨j + 1, Nat.succ_lt_succ hj, by simp; omega, by simpa using greater, fun m hm => ?_⟩
          cases m with
          | zero => simp; omega
          | succ m => simpa using first m (by omega)

/-- The greatest figure of a leaf table, on the first leaf that has it. -/
theorem highest_leaves (s : State) (g : Leaf → Nat) (h0 : g default = 0) :
    let r := highest (s.leaves.map g) 0 (0, 0)
    r.1 = g (getLeaf s r.2) ∧ (∀ i, g (getLeaf s i) ≤ r.1) ∧ ∀ i, i < r.2 → g (getLeaf s i) < r.1 := by
  intro r
  obtain ⟨-, most, place⟩ := highest_spec (s.leaves.map g) 0 (0, 0)
  have all : ∀ i, g (getLeaf s i) ≤ r.1 := fun i => by
    by_cases hi : i < s.leaves.length
    · rw [getLeaf_eq_getElem hi]
      exact most _ (List.mem_map_of_mem (List.getElem_mem hi))
    · have : getLeaf s i = default := List.getD_eq_default _ _ (Nat.not_lt.mp hi)
      rw [this, h0]
      exact Nat.zero_le _
  rcases place with hr | ⟨j, hj, hr, -, first⟩
  · have hr : r = (0, 0) := hr
    have := all 0
    rw [hr] at this ⊢
    exact ⟨(Nat.le_zero.mp this).symm, fun i => hr ▸ all i, fun i hi => absurd hi (Nat.not_lt_zero i)⟩
  · have hl : j < s.leaves.length := by simpa using hj
    have hr : r = (g s.leaves[j], j) := by simpa using hr
    refine ⟨by rw [hr]; exact congrArg g (getLeaf_eq_getElem hl).symm, all, fun i hi => ?_⟩
    rw [hr] at hi ⊢
    rw [getLeaf_eq_getElem (Nat.lt_trans hi hl)]
    simpa using first i hi

end Sys2Proof.Machine
end

