-- ==== Sys2Proof/Proofs/VolumeClose.lean ====
section
/-! VOLUME_CLOSE (R14, R15, R16). -/
namespace Sys2Proof.Machine

/-! ### VOLUME_CLOSE -/

/-- With no capture in flight and no order waiting, the sequencer has nothing to do. -/
theorem advance_idle {s : State} (capture : s.seq.capture = none) (orders : s.seq.orders = []) (n : Nat) :
    advance n s = s := by
  have once : advanceOnce s = none := by simp [advanceOnce, capture, orders]
  cases n with
  | zero => rfl
  | succ n => unfold advance; simp only [once]

/-- A lighting interval whose flash is still lit goes on, and outside an interval there is none to end (R76). -/
theorem endInterval_lit {s : State} (h : s.lamps.interval = none ∨ ∃ m bk f, s.lamps.interval = some m
    ∧ (getBank s bk).flash = some f ∧ f.capture = some m) : endInterval s = s := by
  unfold endInterval
  rcases h with h | ⟨m, bk, f, hm, hf, hc⟩
  · simp only [h]
  · have flashing : captureFlashing s m = true :=
      List.any_eq_true.mpr ⟨bk, by cases bk <;> simp [allBanks], by simp [hf, hc]⟩
    simp only [hm, intervalOver, flashing]
    simp

theorem getBank_clearHoodRequests (s : State) (bk : Bank) :
    getBank (clearHoodRequests s) bk = { getBank s bk with hoodRequest := none } := by cases bk <;> rfl

theorem getBank_closeBankHoods (s : State) (bk : Bank) :
    getBank (closeBankHoods s) bk = { getBank s bk with hood := closeHood s.time.clock (getBank s bk).hood } := by
  cases bk <;> rfl

/-- The four hood requests cleared and the four hoods commanded to close (R83, R84). -/
theorem getBank_closedHoods (s : State) (bk : Bank) :
    getBank (closeBankHoods (clearHoodRequests s)) bk = { getBank s bk with
      hoodRequest := none, hood := closeHood s.time.clock (getBank s bk).hood } := by
  rw [getBank_closeBankHoods, getBank_clearHoodRequests, (clearHoodRequests_frame s).1]

/-- An aim lamp that is found outside its lit condition (R86). -/
theorem relight_unmet (t : Nat) (a : Aim) :
    (relight t false a).applied = (if a.lit then 0 else a.applied) ∧ (relight t false a).lit = false := by
  unfold relight
  cases h : a.lit <;> simp [h]

/-- A volume that closes before the rest settles: its record, the hoods, the silence timer and the summary (R15). -/
def closing (s : State) : State :=
  judgeSilence (enqueue
    (closeBankHoods (clearHoodRequests { s with volume := closedVolume s (gapCount s) }))
    (.volumeSummary (summaryOf s (closedVolume s (gapCount s)))) 0)

/-- With nothing in flight, a close is settled by the aim lamps and READY_LAMP alone (R15, R86). -/
theorem closeVolume_eq {s : State} (capture : s.seq.capture = none) (orders : s.seq.orders = [])
    (interval : s.lamps.interval = none ∨ ∃ m bk f, s.lamps.interval = some m ∧ (getBank s bk).flash = some f
      ∧ f.capture = some m) : closeVolume s = judgeReady (judgeLit (closing s)) := by
  have bank : ∀ bk, (getBank (closing s) bk).flash = (getBank s bk).flash := fun bk => by
    have same : getBank (closing s) bk = getBank (closeBankHoods (clearHoodRequests
        { s with volume := closedVolume s (gapCount s) })) bk := by simp [closing, getBank]
    rw [same, getBank_closedHoods]
    rfl
  have sequencer : (closing s).seq = s.seq := by simp [closing]
  show judgeReady (judgeLit (endInterval (advance _ (closing s)))) = _
  rw [advance_idle (by rw [sequencer, capture]) (by rw [sequencer, orders]), endInterval_lit]
  rcases interval with h | ⟨m, bk, f, hm, hf, hc⟩
  · exact .inl (by simp [closing, h])
  · exact .inr ⟨m, bk, f, by simp [closing, hm], (bank bk).trans hf, hc⟩

/-- What a close leaves of the lamps: the banks' hoods close, and the aim lamps are dark (R15, R84, R86). -/
theorem closed_lamps {s u : State} (hu : u = judgeReady (judgeLit (closing s))) :
    u.lamps.interval = s.lamps.interval ∧ u.lamps.grants = s.lamps.grants
      ∧ (∀ bk, getBank u bk = { getBank s bk with
          hoodRequest := none, hood := closeHood s.time.clock (getBank s bk).hood })
      ∧ ∀ sd, (u.lamps.aims.get sd).applied = (if (s.lamps.aims.get sd).lit then 0 else (s.lamps.aims.get sd).applied)
          ∧ (u.lamps.aims.get sd).lit = false := by
  subst hu
  have unmet : litCondition (closing s) = false := by simp [litCondition, closing, volumeOpened, closedVolume]
  have aims : (closing s).lamps.aims = s.lamps.aims := by simp [closing]
  refine ⟨by simp [closing], by simp [closing], fun bk => ?_, fun sd => ?_⟩
  · have same : getBank (judgeReady (judgeLit (closing s))) bk = getBank (closeBankHoods (clearHoodRequests
        { s with volume := closedVolume s (gapCount s) })) bk := by simp [closing, getBank]
    exact same.trans (getBank_closedHoods _ _)
  · have lamp : (judgeReady (judgeLit (closing s))).lamps.aims.get sd
        = relight (now (closing s)) false (s.lamps.aims.get sd) := by
      simp only [judgeReady_frame, judgeLit, unmet, aims]
      cases sd <;> rfl
    rw [lamp]
    exact relight_unmet _ _

/-- The silence timer looks at the link and at the volume's state alone (R138). -/
theorem silenceJudged_link {s t : State} (link : s.link = t.link) (state : s.volume.state = t.volume.state) :
    (silenceJudged s).link = (silenceJudged t).link := by
  simp only [silenceJudged, link, state]

/-- What a close leaves of the other blocks: the closed record, the link with the silence timer judged, the queue with the
summary behind it (R15). -/
theorem closed_blocks {s u : State} (hu : u = judgeReady (judgeLit (closing s))) :
    u.volume = closedVolume s (gapCount s) ∧ u.leaves = s.leaves ∧ u.plan = s.plan ∧ u.motion = s.motion
      ∧ u.dose = s.dose ∧ u.seq = s.seq ∧ u.safe = s.safe ∧ u.time = s.time
      ∧ u.link = (silenceJudged { s with volume.state := .closed }).link
      ∧ u.queue.reserved = s.queue.reserved
      ∧ u.queue.reports = s.queue.reports ++ [⟨(s.queue.lastSeq + 1) % 65536, s.time.clock % 2 ^ 48, 0,
          .volumeSummary (summaryOf s (closedVolume s (gapCount s)))⟩] := by
  subst hu
  refine ⟨by simp [closing], by simp [closing], by simp [closing], by simp [closing], by simp [closing],
    by simp [closing], by simp [closing], by simp [closing], ?_, by simp [closing], ?_⟩
  · rw [(judgeReady_frame _).2.1, (judgeLit_frame _).2.1, closing, judgeSilence_eq]
    exact silenceJudged_link (by simp) (by simp [closedVolume])
  · simp [closing, count, stamp, timebaseModulus]

/-- The checks of a VOLUME_CLOSE as its table writes them (R14). -/
theorem decideVolumeClose_chosen (force : Bool) (a : State) :
    decideVolumeClose force a = chosen
      [ orElse (decide (a.volume.state ≠ .opened)) .wrongState,
        orElse (a.motion.turn.isSome || decide (a.motion.plateState = .moving)
          || platenIn a [.lowering, .pressing, .raising]) .busyMotion,
        orElse (a.seq.capture.isSome || decide (a.seq.orders ≠ [])) .busyCapture,
        orElse (decide (64 ≤ a.queue.reports.length)) .queueFull,
        (decide (gapCount a ≠ 0) && !force, .gaps,
          .gapsFound (gapCount a) ((gapRuns (faceList a.leaves) 0 none).headD (0, 0)).1
            ((gapRuns (faceList a.leaves) 0 none).headD (0, 0)).2) ] a (closeVolume a)
      (.volumeClose (if gapCount a = 0 then .complete else .incomplete) (gapCount a)
        ((a.queue.lastSeq + 1) % 65536)) := by
  refine chosen_orElse (notOpened_iff a) fun _ => chosen_orElse ?_ fun _ => chosen_orElse ?_ fun _ => ?_
  · simp [closeBusy, platenIn, turnInFlight, adjusting]; tauto
  · simp [captureInFlight]
  refine chosen_orElse decide_eq_true_iff fun _ => ?_
  have gaps : (decide (gapCount a ≠ 0) && !force) = true ↔ gapCount a ≠ 0 ∧ force = false := by simp
  exact chosen_check (c := (_, .gaps, _)) gaps fun _ => rfl

end Sys2Proof.Machine

namespace Sys2Proof
open Machine

/-- Settles O34: the owner's checks are the table's; with nothing in flight the close settles by the lamps alone, and each
figure of the summary is read off the table. -/
theorem volumeCloseProvesTheWork : Obligations.VolumeCloseProvesTheWork := by
  refine ⟨fun tag force s a n ha hn => ?_, fun s loaded hv hl => ?_⟩
  · obtain rfl : n = gapCount a := by rw [hn]; simp only [isGap_eq]; rfl
    clear hn
    refine ⟨closeVolume a, ?_, fun capture orders interval => ?_⟩
    · subst ha
      exact congrArg _ (serve_decided (decideVolumeClose_chosen force _))
    clear ha
    have closed := closeVolume_eq capture orders interval
    obtain ⟨hi, hg, hb, hs⟩ := closed_lamps closed
    obtain ⟨dose, most, first⟩ := highest_leaves a (fun l => l.dose) rfl
    obtain ⟨handled, mostHandled, firstHandled⟩ := highest_leaves a (fun l => l.handled) rfl
    obtain ⟨volume, leaves, plan, motion, meter, sequencer, safe, time, link, reserved, reports⟩ := closed_blocks closed
    refine ⟨volume, leaves, plan, motion, meter, sequencer, safe, time, hi, hg, hb, hs, link, reserved,
      summaryOf a (closedVolume a (gapCount a)), reports, volume.symm, rfl, rfl, fun count hc => ?_, dose, most, first,
      handled, mostHandled, firstHandled, rfl, rfl⟩
    simp [summaryOf, census, hc]
  · obtain ⟨-, -, -, -, -, length, -⟩ := hv
    rw [if_neg loaded] at length
    have sum := census_sum (faceList s.leaves)
    rw [external_two length hl, faceList_length, length] at sum
    exact ⟨by omega, census_gaps _⟩

end Sys2Proof
end

