-- ==== Sys2Proof/Proofs/ResetInvariants.lean ====
section
/-! The lines after power-on reset, and the invariants of the state after it (R19, R68, R89, R109, R132, R145, R160, R173, R185). -/
namespace Sys2Proof.Machine

/-! ### The lines after power-on reset -/

theorem getLine_powerOn {s : State} {pin : Nat → Option Bool} (records : s.lines.records = powerOnRecords pin) {i : Nat}
    (hi : i < 32) : getLine s i = powerOnLine i (pin i) := by
  simp [getLine, records, powerOnRecords, hi, Config.lineCount]

/-- Each function is bound to the line of its own code (R160). -/
theorem lineOf_powerOn {s : State} (binding : s.lines.binding = powerOnBinding) (f : Fn) :
    lineOf s f = some (fnCode f) := by
  rw [lineOf, binding]
  cases f <;> rfl

theorem fnCode_lt (f : Fn) : fnCode f < 20 := by cases f <;> decide

/-- The code of a function is its place in the list of the functions (R187). -/
theorem allFns_fnCode (f : Fn) : allFns[fnCode f]? = some f := by cases f <;> rfl

theorem fnCode_inj {f g : Fn} (h : fnCode f = fnCode g) : f = g :=
  Option.some.inj ((allFns_fnCode f).symm.trans (h ▸ allFns_fnCode g))

/-- The lines and the binding table after power-on reset (R160). -/
theorem bindingInv_powerOn {s : State} {pin : Nat → Option Bool} (records : s.lines.records = powerOnRecords pin)
    (binding : s.lines.binding = powerOnBinding) : bindingInv s := by
  refine ⟨by simp [records, powerOnRecords, Config.lineCount], by simp [binding, powerOnBinding],
    fun f i hi => ?_, fun f g i hf hg => ?_⟩
  · rw [lineOf_powerOn binding] at hi
    cases hi
    exact (fnCode_lt f).trans (by decide)
  · rw [lineOf_powerOn binding] at hf hg
    exact fnCode_inj (Option.some.inj (hf.trans hg.symm))

/-! ### The state after reset -/

/-- The empty volume, with no work on it, keeps the laws of a volume. -/
theorem volumeInv_reset : volumeInv State.reset := by
  simp [volumeInv, State.reset, emptyVolume, powerOnMotion, powerOnSequencer, powerOnLamps]

/-- An output function bound to line `fnCode f` shows its state after reset where that line's staged value does. -/
theorem outputShown_reset (f : Fn) (active : Bool)
    (h : (powerOnLine (fnCode f) none).dir = .out ∧ (powerOnLine (fnCode f) none).staged
      = (if (powerOnLine (fnCode f) none).polarity = .risingHigh then active else !active)) :
    outputShown State.reset f active := fun i hi => by
  rw [lineOf_powerOn rfl] at hi
  cases hi
  rw [getLine_powerOn (pin := fun _ => none) rfl ((fnCode_lt f).trans (by decide))]
  exact h

theorem outputInv_reset : outputInv State.reset :=
  ⟨bindingInv_powerOn (pin := fun _ => none) rfl rfl, outputShown_reset _ _ (by decide), outputShown_reset _ _ (by decide),
    outputShown_reset _ _ (by decide), outputShown_reset _ _ (by decide), rfl⟩

theorem powerOnRecords_debounce (pin : Nat → Option Bool) : ∀ l ∈ powerOnRecords pin, l.debounce ≤ 50 := fun l hl => by
  obtain ⟨i, -, rfl⟩ := List.mem_map.mp hl
  simp only [powerOnLine, tableLine]
  split_ifs <;> simp

/-- Every setting has its power-on value, which lies in its range. -/
theorem settingsInv_reset : settingsInv State.reset := by
  unfold settingsInv profileLaw within
  refine ⟨by decide, fun bk => ?_, fun sd => ?_, rfl, fun r hr => ?_, fun sd => ?_, by decide, by decide, by decide,
    fun t ht => (by cases ht), powerOnRecords_debounce fun _ => none⟩
  · cases bk <;> decide
  · cases sd <;> decide
  · obtain rfl : r = powerOnRecipe := List.eq_of_mem_replicate hr
    exact ⟨by decide, fun bk => by cases bk <;> decide⟩
  · cases sd <;> decide

/-- No bank has fired and none is granted a firing. -/
theorem spacingInv_reset : spacingInv State.reset := by
  have none_yet : firings State.reset = [] := rfl
  simp [spacingInv, none_yet]

end Sys2Proof.Machine

namespace Sys2Proof
open Machine

/-- Settles O6, invariant by invariant: there is no work under way, and every setting and count has its power-on value. -/
theorem resetMeetsTheInvariants : Obligations.ResetMeetsTheInvariants := by
  refine ⟨?queue, volumeInv_reset, fun i hi => (by cases hi), fun p hp => (by cases hp), ?account, ?aims, ?safe, ?platen,
    outputInv_reset, spacingInv_reset, settingsInv_reset,
    (countsInv_iff _).mpr (countsOk_zero (edgeCounts_powerOnRecords fun _ => none))⟩
  case queue => exact ⟨by decide, by decide, by decide⟩
  case account => exact ⟨rfl, fun i hi => (by cases hi), by decide, rfl⟩
  case aims => exact ⟨⟨rfl, by decide, by decide⟩, ⟨rfl, by decide, by decide⟩⟩
  case safe => exact ⟨by decide, by decide, by decide, by decide⟩
  case platen => exact ⟨by decide, by decide, fun t ht => (by cases ht)⟩

end Sys2Proof
end

