-- ==== Sys2Proof/Proofs/HoldAfresh.lean ====
section
/-! A line that a function drives, and the hold set afresh where nothing is under way that it could stop (R157, R158, R160). -/
namespace Sys2Proof.Machine

/-! ### A line that a function drives -/

/-- Driving an output function that is bound to line `i` changes that line's staged value alone. -/
theorem getLine_driveFn {s : State} {f : Fn} {i : Nat} (bound : lineOf s f = some i) (hi : i < s.lines.records.length)
    (v : Bool) (j : Nat) : getLine (driveFn s f v) j
      = if j = i then { getLine s i with staged := drivenValue (getLine s i).polarity v } else getLine s j := by
  simp only [driveFn, bound]
  split
  next h => rw [h, getLine_modifyLine _ _ _ hi]
  next h => exact getLine_modifyLine_ne h _ _

theorem getLine_of_lines {s t : State} (h : t.lines = s.lines) (j : Nat) : getLine t j = getLine s j := by
  rw [getLine, h, getLine]

theorem enqueue_lines (s : State) (b : Body) (n : Nat) : (enqueue s b n).lines = (driveFn s .attention true).lines := by
  simp only [enqueue, driveFn, lineOf]
  split <;> rfl

/-- A report that enters the queue makes ATTENTION active on its line (R157). -/
theorem getLine_enqueue {s : State} {i : Nat} (bound : lineOf s .attention = some i) (hi : i < s.lines.records.length)
    (b : Body) (n j : Nat) : getLine (enqueue s b n) j
      = if j = i then { getLine s i with staged := drivenValue (getLine s i).polarity true } else getLine s j :=
  (getLine_of_lines (enqueue_lines s b n) j).trans (getLine_driveFn bound hi true j)

/-! ### The hold, where nothing is under way that it could stop -/

/-- Nothing is under way that a hold stops: no motion, no capture, no lighting interval, and every bank's hood is CLOSED or
closing. -/
structure Still (s : State) : Prop where
  turn : s.motion.turn = none
  platen : s.motion.platen = .raised ∨ s.motion.platen = .stopped
  air : s.motion.air = false
  plates : s.motion.plateDeadline = none
  capture : s.seq.capture = none
  interval : s.lamps.interval = none
  request : ∀ bk, (getBank s bk).hoodRequest = none
  hood : ∀ bk, closeHood s.time.clock (getBank s bk).hood = (getBank s bk).hood

theorem setBank_getBank (s : State) (bk : Bank) : setBank s bk (getBank s bk) = s := by cases bk <;> rfl

/-- What leaves each bank's record as it is leaves the state as it is. -/
theorem forBanks_modifyBank_self {s : State} {g : State → BankRec → BankRec}
    (same : ∀ bk, g s (getBank s bk) = getBank s bk) : forBanks (fun s bk => modifyBank s bk (g s)) s = s := by
  have once : ∀ bk, modifyBank s bk (g s) = s := fun bk => by rw [modifyBank, same, setBank_getBank]
  simp only [forBanks, allBanks, List.foldl_cons, List.foldl_nil, once]

namespace Still
variable {s : State}

theorem holdMotion_eq (h : Still s) : holdMotion s = s := by
  obtain ⟨turn, platen, air, plates, -, -, -, -⟩ := h
  have parts : { s.motion with turn := none, air := false, plateDeadline := none } = s.motion := by
    rw [← turn, ← air, ← plates]
  have stopped : holdMotion s
      = { s with motion := { s.motion with turn := none, air := false, plateDeadline := none } } := by
    rcases platen with platen | platen <;> simp only [holdMotion, modifyTurn, platen, turn, Option.map_none]
  rw [stopped, parts]

theorem holdCapture_eq (h : Still s) : holdCapture s = s := by
  have parts : { s.seq with capture := none } = s.seq := by rw [← h.capture]
  simp only [holdCapture, h.capture, Option.map_none, parts]

theorem stopHoods_eq (h : Still s) : stopHoods s = s := by
  have requests : clearHoodRequests s = s :=
    forBanks_modifyBank_self (g := fun _ r => { r with hoodRequest := none }) fun bk => by simp only [← h.request bk]
  have hoods : closeBankHoods s = s :=
    forBanks_modifyBank_self (g := fun s r => { r with hood := closeHood (now s) r.hood }) fun bk => by
      simp only [now, h.hood bk]
  simp [stopHoods, requests, hoods, h.interval]

/-- What a hold looks at is no report. -/
theorem afterReport (h : Still s) (b : Body) (n : Nat) : Still (enqueue s b n) := by
  obtain ⟨turn, platen, air, plates, capture, interval, request, hood⟩ := h
  exact ⟨by simpa, by simpa, by simpa, by simpa, by simpa, by simpa, by simpa [getBank], by simpa [getBank]⟩

/-- A hold then comes into force with its record and its report (R158). -/
theorem holdOn_eq (h : Still s) (room : hasRoom s = true) (i t : Nat) :
    holdOn s i t = enqueue { s with lines.hold := some ⟨i, t⟩ } (.holdOn i t) 0 := by
  have offered : offerMajor { s with lines.hold := some ⟨i, t⟩ } (.holdOn i t)
      = enqueue { s with lines.hold := some ⟨i, t⟩ } (.holdOn i t) 0 := if_pos room
  have held : Still (enqueue { s with lines.hold := some ⟨i, t⟩ } (.holdOn i t) 0) :=
    afterReport (s := { s with lines.hold := some ⟨i, t⟩ })
      ⟨h.turn, h.platen, h.air, h.plates, h.capture, h.interval, h.request, h.hood⟩ _ _
  rw [holdOn, offered, held.holdMotion_eq, held.holdCapture_eq, held.stopHoods_eq]

end Still

/-- The first line that holds, in line order. -/
def firstHolding (s : State) : Option Nat := (List.range 32).find? fun i => lineHolds (getLine s i)

/-- At a reset the first line that holds becomes the holding line (R160, R161; log 47). -/
theorem holdAfresh_eq {s : State} (still : Still s) (room : hasRoom s = true) : holdAfresh s =
    match firstHolding s with
    | none => { s with lines.hold := none }
    | some i => enqueue { s with lines.hold := some ⟨i, s.time.clock⟩ } (.holdOn i s.time.clock) 0 := by
  have first : firstHolding s = (holdingLines { s with lines.hold := none }).head? := List.head?_filter.symm
  have still' : Still { s with lines.hold := none } :=
    ⟨still.turn, still.platen, still.air, still.plates, still.capture, still.interval, still.request, still.hood⟩
  rw [first]
  unfold holdAfresh
  cases h : holdingLines { s with lines.hold := none } with
  | nil => simp only [h, List.head?_nil]
  | cons i _ =>
    simp only [h, List.head?_cons]
    exact still'.holdOn_eq room i _

end Sys2Proof.Machine
end

