-- ==== Sys2Proof/Proofs/PowerOnLines.lean ====
section
/-! The lines and the blocks after power-on reset (R157, R160). -/
namespace Sys2Proof.Machine

/-! ### Power-on reset -/

/-- The lines after power-on reset, before the hold group is looked at (R160). -/
def powerOnLines (s : State) : Lines :=
  { records := powerOnRecords fun i => (getLine s i).pin, binding := powerOnBinding, hold := none, ready := false }

/-- The state after power-on reset, before the hold group is looked at. -/
def poweredOn (s : State) : State :=
  { State.reset with
    lines := powerOnLines s, chargeGood := s.chargeGood, pending := s.pending
    motion := powerOnMotion (decide ((getLine s 4).pin = some false)) ⟨0, 0⟩ }

/-- An input function reads as its line of the power-on table does. -/
theorem fnActive_powerOn {s : State} {pin : Nat → Option Bool} (records : s.lines.records = powerOnRecords pin)
    (binding : s.lines.binding = powerOnBinding) (f : Fn) :
    fnActive s f = lineActive (powerOnLine (fnCode f) (pin (fnCode f))) := by
  simp only [fnActive, lineOf_powerOn binding, getLine_powerOn records ((fnCode_lt f).trans (by decide))]

/-- PLATEN_TOP is active while its pin is low (R160). -/
theorem lineActive_platenTop (pin : Option Bool) : lineActive (powerOnLine 4 pin) = decide (pin = some false) := by
  rcases pin with _ | _ | _ <;> rfl

theorem powerOn_eq (s : State) : powerOn s = holdAfresh (poweredOn s) :=
  congrArg (fun top => holdAfresh { poweredOn s with motion := powerOnMotion top ⟨0, 0⟩ })
    ((fnActive_powerOn (s := { State.reset with lines := powerOnLines s, chargeGood := s.chargeGood, pending := s.pending })
      (pin := fun i => (getLine s i).pin) rfl rfl .platenTop).trans (lineActive_platenTop _))

theorem still_poweredOn (s : State) : Still (poweredOn s) := by
  refine ⟨rfl, ?_, rfl, rfl, rfl, rfl, fun bk => ?_, fun bk => ?_⟩
  · show (if _ then Platen.raised else .stopped) = _ ∨ (if _ then Platen.raised else .stopped) = _
    split <;> simp
  · cases bk <;> rfl
  · cases bk <;> rfl

/-- A line of the power-on table holds if it is one of the hold switches and its pin is low (R160). -/
theorem lineHolds_powerOnLine {i : Nat} (hi : i < 32) (pin : Option Bool) :
    lineHolds (powerOnLine i pin) = decide (20 ≤ i ∧ i < 24 ∧ pin = some false) := by
  rcases pin with _ | _ | _ <;> interval_cases i <;> rfl

/-- What power-on reset leaves: all as before the hold group is looked at, but for the hold that the first active hold switch
brings into force, and its report. -/
theorem powerOn_cases (s : State) :
    (firstHolding (poweredOn s) = none ∧ powerOn s = poweredOn s)
      ∨ ∃ i, firstHolding (poweredOn s) = some i
          ∧ powerOn s = enqueue { poweredOn s with lines.hold := some ⟨i, 0⟩ } (.holdOn i 0) 0 := by
  have afresh := (powerOn_eq s).trans (holdAfresh_eq (still_poweredOn s) rfl)
  cases h : firstHolding (poweredOn s) with
  | none => exact .inl ⟨rfl, by rw [afresh, h]; rfl⟩
  | some i => exact .inr ⟨i, rfl, by rw [afresh, h]; rfl⟩

/-- Power-on reset leaves every block but the queue and the lines as it is before the hold group is looked at. -/
theorem powerOn_blocks (s : State) : (powerOn s).time = powerOnTime ∧ (powerOn s).link = powerOnLink
    ∧ (powerOn s).volume = emptyVolume ∧ (powerOn s).leaves = [] ∧ (powerOn s).plan = []
    ∧ (powerOn s).motion = powerOnMotion (decide ((getLine s 4).pin = some false)) ⟨0, 0⟩
    ∧ (powerOn s).lamps = powerOnLamps ∧ (powerOn s).dose = powerOnDose ∧ (powerOn s).seq = powerOnSequencer
    ∧ (powerOn s).safe = powerOnSafe ∧ (powerOn s).lines.binding = powerOnBinding
    ∧ (powerOn s).lines.ready = false := by
  rcases powerOn_cases s with ⟨-, h⟩ | ⟨i, -, h⟩ <;> rw [h]
  · exact ⟨rfl, rfl, rfl, rfl, rfl, rfl, rfl, rfl, rfl, rfl, rfl, rfl⟩
  · simp [poweredOn, powerOnLines, State.reset, enqueue]

theorem powerOnLine_staged (i : Nat) (pin : Option Bool) : (powerOnLine i pin).staged = decide (i = 18) := by
  simp only [powerOnLine, tableLine]
  split_ifs <;> simp <;> omega

/-- ATTENTION's line shows the queue, which holds a report where a hold is in force; every other line of the table has its
power-on record (R157, R160). -/
theorem getLine_powerOn_reset (s : State) {i : Nat} (hi : i < 32) : getLine (powerOn s) i =
    { powerOnLine i (getLine s i).pin with staged := decide (i = 18) && (powerOn s).lines.hold.isNone } := by
  have table : ∀ j, j < 32 → getLine (poweredOn s) j = powerOnLine j (getLine s j).pin := fun j hj =>
    getLine_powerOn (pin := fun i => (getLine s i).pin) rfl hj
  rcases powerOn_cases s with ⟨-, h⟩ | ⟨j, -, h⟩ <;> rw [h]
  · rw [table i hi, show (poweredOn s).lines.hold = none from rfl, Option.isNone_none, Bool.and_true,
      ← powerOnLine_staged i (getLine s i).pin]
  · have attention : lineOf (poweredOn s) .attention = some 18 := lineOf_powerOn rfl _
    have length : 18 < (poweredOn s).lines.records.length := by simp [poweredOn, powerOnLines, powerOnRecords, Config.lineCount]
    have driven := getLine_enqueue (s := { poweredOn s with lines.hold := some ⟨j, 0⟩ }) attention length (.holdOn j 0) 0 i
    rw [driven, (enqueue_frame _ _ _).2.2.2.2.2.2.2.2.2.2.2.1, Option.isNone_some, Bool.and_false]
    split
    next at18 =>
      subst at18
      exact congrArg (fun l : Line => { l with staged := drivenValue l.polarity true }) (table 18 hi)
    next other =>
      refine (table i hi).trans ?_
      rw [← (decide_eq_false other : decide (i = 18) = false), ← powerOnLine_staged i (getLine s i).pin]

end Sys2Proof.Machine
end

