-- ==== Sys2Proof/Proofs/PowerOn.lean ====
section
/-! Power-on reset (R1, R19, R42, R68, R89, R109, R132, R145, R160, R173, R185). -/
namespace Sys2Proof.Machine

/-- The settings of a line after power-on reset, read from R160's table. -/
theorem powerOnLine_settings {i : Nat} (hi : i < 32) (pin : Option Bool) {l : Line} (hl : l = powerOnLine i pin) :
    l.dir = (if 16 ≤ i ∧ i < 20 then .out else .inp)
      ∧ l.pull = (if i < 16 ∨ 20 ≤ i ∧ i < 24 then .up else if i < 20 then .none else .down)
      ∧ l.drive = (if i = 18 then .openLow else .pushPull)
      ∧ l.sense = (if 20 ≤ i ∧ i < 24 then .level else .edge)
      ∧ l.polarity = (if i < 16 ∨ i = 18 ∨ 20 ≤ i ∧ i < 24 then .fallingLow else .risingHigh)
      ∧ l.bothEdges = false ∧ l.debounce = (if 13 ≤ i ∧ i < 16 then 20 else 0)
      ∧ l.event = decide (13 ≤ i ∧ i < 16) ∧ l.wake = decide (13 ≤ i ∧ i < 16)
      ∧ l.hold = decide (20 ≤ i ∧ i < 24) ∧ l.change = none ∧ l.count = 0 ∧ l.latch = false ∧ l.pin = pin := by
  subst hl
  interval_cases i <;> exact ⟨rfl, rfl, rfl, rfl, rfl, rfl, rfl, rfl, rfl, rfl, rfl, rfl, rfl, rfl⟩

/-- The level at an IN line's pin, and with it the raw status of the LEVEL lines, after power-on reset (R160). -/
theorem powerOnLine_sampled {i : Nat} (hi : i < 32) (pin : Option Bool) {l : Line} (hl : l = powerOnLine i pin) :
    (l.dir = .inp → l.level = if i < 24 then decide (pin ≠ some false) else decide (pin = some true))
      ∧ l.raw = decide (20 ≤ i ∧ i < 24 ∧ pin = some false) := by
  subst hl
  rcases pin with _ | _ | _ <;> interval_cases i <;> decide

/-- With no hold switch low, no line holds after power-on reset. -/
theorem firstHolding_poweredOn_none {s : State} (h : ∀ i, 20 ≤ i → i < 24 → (getLine s i).pin ≠ some false) :
    firstHolding (poweredOn s) = none := by
  refine List.find?_eq_none.mpr fun i hi holds => ?_
  have hi : i < 32 := List.mem_range.mp hi
  rw [getLine_powerOn (pin := fun i => (getLine s i).pin) rfl hi, lineHolds_powerOnLine hi, decide_eq_true_iff] at holds
  obtain ⟨h20, h24, low⟩ := holds
  exact h i h20 h24 low

/-- The first hold switch that is low is the first line that holds after power-on reset (log 47). -/
theorem firstHolding_poweredOn_some {s : State} {i : Nat} (h20 : 20 ≤ i) (h24 : i < 24) (low : (getLine s i).pin = some false)
    (first : ∀ j, 20 ≤ j → j < i → (getLine s j).pin ≠ some false) : firstHolding (poweredOn s) = some i := by
  have holds : ∀ j, j < 32 → lineHolds (getLine (poweredOn s) j)
      = decide (20 ≤ j ∧ j < 24 ∧ (getLine s j).pin = some false) := fun j hj => by
    rw [getLine_powerOn (pin := fun i => (getLine s i).pin) rfl hj, lineHolds_powerOnLine hj]
  have hi : i < 32 := h24.trans (by decide)
  refine List.find?_range_eq_some.mpr ⟨?_, List.mem_range.mpr hi, fun j hj => ?_⟩
  · rw [holds i hi]
    exact decide_eq_true ⟨h20, h24, low⟩
  · rw [holds j (hj.trans hi), decide_eq_false fun h => first j h.1 hj h.2.2]
    rfl

/-- A bank after power-on reset (R89). -/
theorem getBank_powerOnLamps (bk : Bank) : powerOnLamps.banks.get bk = powerOnBank := by cases bk <;> rfl

end Sys2Proof.Machine

namespace Sys2Proof
open Machine

/-- Settles O4: every block has its power-on value, and the first hold switch that is low brings its hold and its report. -/
theorem powerOnResetGivesThePowerOnValues : Obligations.PowerOnResetGivesThePowerOnValues := by
  intro s
  obtain ⟨time, link, volume, leaves, plan, motion, lamps, dose, seq, safe, binding, ready⟩ := powerOn_blocks s
  refine ⟨powerOn s, rfl, time, link, volume, leaves, plan, ?_⟩
  rw [motion, lamps, dose, seq, safe, ready]
  refine ⟨by simp [powerOnMotion], rfl, rfl, rfl, rfl, rfl, rfl, rfl, rfl, rfl, rfl, rfl, fun bk => ?_, rfl, rfl, rfl, rfl,
    fun bk => by cases bk <;> rfl, fun sd => by cases sd <;> rfl, rfl, rfl, rfl, rfl, rfl, rfl, rfl,
    fun f => lineOf_powerOn binding f, fun i hi l hl => ?_, fun none_low => ?_, fun i h20 h24 low first => ?_⟩
  · rw [getBank, lamps, getBank_powerOnLamps]
    exact ⟨rfl, rfl, rfl, rfl, rfl, rfl, rfl, rfl, rfl⟩
  · rw [getLine_powerOn_reset s hi] at hl
    obtain ⟨dir, pull, drive, sense, polarity, bothEdges, debounce, event, wake, hold, change, count, latch, pin⟩ :=
      powerOnLine_settings hi (getLine s i).pin rfl
    obtain ⟨level, raw⟩ := powerOnLine_sampled hi (getLine s i).pin rfl
    subst hl
    exact ⟨dir, pull, drive, sense, polarity, bothEdges, debounce, event, wake, hold, change, count, latch, pin, level,
      raw, rfl⟩
  · rcases powerOn_cases s with ⟨-, h⟩ | ⟨i, holding, -⟩
    · rw [h]
      exact ⟨rfl, rfl⟩
    · rw [firstHolding_poweredOn_none none_low] at holding
      cases holding
  · have holding := firstHolding_poweredOn_some h20 h24 low first
    rcases powerOn_cases s with ⟨h, -⟩ | ⟨j, h, on⟩ <;> rw [holding] at h
    · cases h
    · cases h
      rw [on]
      exact ⟨by simp, enqueue_queue _ _ _⟩

end Sys2Proof
end

