-- ==== Sys2Proof/Proofs/OfferedEvents.lean ====
section
/-! The lines that functions drive, the queue numbered from 1, and the LINE_EVENTs of a soft reset (R149, R151, R161, R182). -/
namespace Sys2Proof.Machine

/-! ### The lines that functions drive -/

/-- The record of line `i` when a function bound to `bound` is driven to `active` (R151). -/
def driven (bound : Option Nat) (active : Bool) (i : Nat) (l : Line) : Line :=
  if bound = some i then { l with staged := drivenValue l.polarity active } else l

theorem getLine_driveFn_driven {s : State} {i : Nat} (hi : i < s.lines.records.length) (f : Fn) (v : Bool) :
    getLine (driveFn s f v) i = driven (lineOf s f) v i (getLine s i) := by
  unfold driven
  split
  next bound => rw [getLine_driveFn bound hi, if_pos rfl]
  next other =>
    unfold driveFn
    cases bound : lineOf s f with
    | none => rfl
    | some j =>
      rw [bound, Option.some_inj] at other
      exact getLine_modifyLine_ne (Ne.symm other) _ _

theorem getLine_enqueue_driven {s : State} {i : Nat} (hi : i < s.lines.records.length) (b : Body) (n : Nat) :
    getLine (enqueue s b n) i = driven (lineOf s .attention) true i (getLine s i) :=
  (getLine_of_lines (enqueue_lines s b n) i).trans (getLine_driveFn_driven hi _ _)

/-- Driving a function changes the staged value alone. -/
theorem driven_eq (bound : Option Nat) (v : Bool) (i : Nat) (l : Line) :
    driven bound v i l = { l with staged := (driven bound v i l).staged } := by
  unfold driven
  split <;> rfl

theorem driven_bound (v : Bool) (i : Nat) (l : Line) :
    driven (some i) v i l = { l with staged := drivenValue l.polarity v } := if_pos rfl

theorem driven_other {bound : Option Nat} {i : Nat} (h : bound ≠ some i) (v : Bool) (l : Line) : driven bound v i l = l :=
  if_neg h

/-! ### Reports that enter an empty queue -/

/-- A queue that holds the reports of `bodies` alone, entered at clock value `t` and numbered from 1. -/
def numbered (t : Nat) (bodies : List Body) : Queue :=
  { reports := bodies.zipIdx.map fun x => ⟨x.2 + 1, t % 2 ^ 48, 0, x.1⟩
    reserved := 0, lastSeq := bodies.length, missed := 0 }

theorem numbered_append (t : Nat) (bodies : List Body) (b : Body) : numbered t (bodies ++ [b]) =
    { numbered t bodies with
      reports := (numbered t bodies).reports ++ [⟨bodies.length + 1, t % 2 ^ 48, 0, b⟩], lastSeq := bodies.length + 1 } := by
  simp [numbered, List.zipIdx_append]

theorem enqueue_numbered {s : State} {bodies : List Body} (h : s.queue = numbered s.time.clock bodies)
    (few : bodies.length < 48) (b : Body) : (enqueue s b 0).queue = numbered s.time.clock (bodies ++ [b]) := by
  have next : (bodies.length + 1) % 65536 = bodies.length + 1 := Nat.mod_eq_of_lt (by omega)
  have last : s.queue.lastSeq = bodies.length := by rw [h]; rfl
  rw [enqueue_queue, last, next, h, numbered_append]
  rfl

theorem room_of_numbered {s : State} {bodies : List Body} (h : s.queue = numbered s.time.clock bodies)
    (few : bodies.length < 48) : hasMinorRoom s = true ∧ hasRoom s = true := by
  simp [hasMinorRoom, hasRoom, h, numbered, Config.minorThreshold, Config.queueCapacity]
  omega

/-- While there is room and none was missed, a minor report enters the queue (R182). -/
theorem offerMinor_numbered {s : State} {bodies : List Body} (h : s.queue = numbered s.time.clock bodies)
    (few : bodies.length < 48) (b : Body) : offerMinor s b = enqueue s b 0 := by
  have missed : s.queue.missed = 0 := by rw [h]; rfl
  have kept : { s with queue := { s.queue with missed := 0 } } = s := by rw [← missed]
  rw [offerMinor, if_pos (room_of_numbered h few).1, kept, missed]

/-! ### The LINE_EVENTs of a soft reset -/

/-- The LINE_EVENT that line `i` offers at a soft reset (R149, R161). -/
def eventBody (a : State) (i : Nat) : Body :=
  .lineEvent i (fnOf a i) (getLine a i).sense .level (getLine a i).level (getLine a i).count a.time.clock

/-- The LINE_EVENTs that the first `n` lines offer: those of the lines with their masked status set. -/
def eventBodies (a : State) (n : Nat) : List Body :=
  ((List.range n).filter fun i => lineMasked (getLine a i)).map (eventBody a)

theorem eventBodies_succ (a : State) (n : Nat) : eventBodies a (n + 1)
    = eventBodies a n ++ if lineMasked (getLine a n) then [eventBody a n] else [] := by
  simp only [eventBodies, List.range_succ, List.filter_append, List.map_append, List.filter_singleton]
  split <;> simp_all

theorem eventBodies_length (a : State) (n : Nat) : (eventBodies a n).length ≤ n := by
  rw [eventBodies, List.length_map]
  exact (List.length_filter_le _ _).trans_eq List.length_range

/-- The record of line `i` once the first `n` lines have offered their LINE_EVENTs: latched if it offered one, and driven if
it carries ATTENTION and a report has entered the queue (R149, R157). -/
def offeredLine (a : State) (n i : Nat) : Line :=
  { (if (eventBodies a n).isEmpty then getLine a i else driven (lineOf a .attention) true i (getLine a i)) with
    latch := (decide (i < n) && lineMasked (getLine a i)) || (getLine a i).latch }

/-- A state without its queue and the records of its lines. -/
def apart (s : State) : State := { s with queue := powerOnQueue, lines := { s.lines with records := [] } }

theorem apart_driveFn (s : State) (f : Fn) (v : Bool) : apart (driveFn s f v) = apart s := by
  unfold driveFn
  split <;> rfl

theorem apart_enqueue (s : State) (b : Body) (n : Nat) : apart (enqueue s b n) = apart s := apart_driveFn _ _ _

theorem clock_of_apart {s t : State} (h : apart t = apart s) : t.time.clock = s.time.clock := congrArg (·.time.clock) h

theorem lineOf_of_apart {s t : State} (h : apart t = apart s) (f : Fn) : lineOf t f = lineOf s f := by
  have same : t.lines.binding = s.lines.binding := congrArg (·.lines.binding) h
  rw [lineOf, same, lineOf]

/-- State `u` is `a` once the first `n` lines have offered their LINE_EVENTs. -/
structure Offered (a : State) (n : Nat) (u : State) : Prop where
  rest : apart u = apart a
  length : u.lines.records.length = a.lines.records.length
  queue : u.queue = numbered a.time.clock (eventBodies a n)
  line : ∀ i, i < a.lines.records.length → getLine u i = offeredLine a n i

theorem offeredLine_eq (a : State) (n i : Nat) : offeredLine a n i = { getLine a i with
    staged := (offeredLine a n i).staged
    latch := (decide (i < n) && lineMasked (getLine a i)) || (getLine a i).latch } := by
  unfold offeredLine
  split
  · rfl
  · rw [driven_eq]

theorem driven_latch (bound : Option Nat) (v : Bool) (i : Nat) (l : Line) (x : Bool) :
    driven bound v i { l with latch := x } = { driven bound v i l with latch := x } := by
  unfold driven
  split <;> rfl

theorem driven_driven (bound : Option Nat) (v w : Bool) (i : Nat) (l : Line) :
    driven bound v i (driven bound w i l) = driven bound v i l := by
  unfold driven
  split <;> rfl

/-- Once ATTENTION's line is driven it does not matter whether it was before. -/
theorem driven_offeredLine (a : State) (n i : Nat) : driven (lineOf a .attention) true i (offeredLine a n i) =
    { driven (lineOf a .attention) true i (getLine a i) with
      latch := (decide (i < n) && lineMasked (getLine a i)) || (getLine a i).latch } := by
  unfold offeredLine
  split
  · rw [driven_latch]
  · rw [driven_latch, driven_driven]

/-- A line beyond the table is at its default, whose event enable is off. -/
theorem lineMasked_beyond {s : State} {i : Nat} (h : s.lines.records.length ≤ i) : lineMasked (getLine s i) = false := by
  rw [getLine, List.getD_eq_default _ _ h]
  rfl

namespace Offered
variable {a u : State} {n : Nat}

theorem clock (h : Offered a n u) : u.time.clock = a.time.clock := clock_of_apart h.rest

theorem binding (h : Offered a n u) (f : Fn) : lineOf u f = lineOf a f := lineOf_of_apart h.rest f

theorem masked (h : Offered a n u) (i : Nat) : lineMasked (getLine u i) = lineMasked (getLine a i) := by
  rcases Nat.lt_or_ge i a.lines.records.length with hi | hi
  · rw [h.line i hi, offeredLine_eq]
    rfl
  · rw [lineMasked_beyond hi, lineMasked_beyond (h.length.trans_le hi)]

theorem none_yet (queue : a.queue = powerOnQueue) : Offered a 0 a :=
  ⟨rfl, rfl, queue, fun i _ => by simp [offeredLine, eventBodies]⟩

/-- A line that is not masked offers nothing. -/
theorem skip (h : Offered a n u) (off : lineMasked (getLine a n) = false) : Offered a (n + 1) u := by
  have same : eventBodies a (n + 1) = eventBodies a n := by rw [eventBodies_succ, off]; simp
  refine ⟨h.rest, h.length, by rw [same]; exact h.queue, fun i hi => (h.line i hi).trans ?_⟩
  have latch : (decide (i < n + 1) && lineMasked (getLine a i)) = (decide (i < n) && lineMasked (getLine a i)) := by
    rcases Nat.lt_trichotomy i n with lt | rfl | gt
    · rw [decide_eq_true lt, decide_eq_true (by omega)]
    · rw [off, Bool.and_false, Bool.and_false]
    · rw [decide_eq_false (by omega), decide_eq_false (by omega)]
  rw [offeredLine, offeredLine, same, latch]

/-- A masked line that is not latched offers its LINE_EVENT and is latched. -/
theorem offer (h : Offered a n u) (hn : n < 32) (on : lineMasked (getLine a n) = true)
    (free : (getLine a n).latch = false) : Offered a (n + 1) (offerEvent u n .level (now u)) := by
  have inside : n < a.lines.records.length := by
    by_contra beyond
    rw [lineMasked_beyond (Nat.le_of_not_lt beyond)] at on
    cases on
  have inside' : n < u.lines.records.length := h.length ▸ inside
  have few : (eventBodies a n).length < 48 := (eventBodies_length a n).trans_lt (by omega)
  have line := (h.line n inside).trans (offeredLine_eq a n n)
  have free' : (getLine u n).latch = false := by rw [line]; simp [free]
  have body : Body.lineEvent n (fnOf u n) (getLine u n).sense .level (getLine u n).level (getLine u n).count (now u)
      = eventBody a n := by
    have fn : fnOf u n = fnOf a n := by simp only [fnOf, h.binding]
    rw [eventBody, fn, now, h.clock, line]
  have queue : (modifyLine u n fun l => { l with latch := true }).queue
      = numbered (modifyLine u n fun l => { l with latch := true }).time.clock (eventBodies a n) := by
    rw [(modifyLine_frame _ _ _).2.2.1, (modifyLine_frame _ _ _).1, h.clock, h.queue]
  have offered : offerEvent u n .level (now u)
      = enqueue (modifyLine u n fun l => { l with latch := true }) (eventBody a n) 0 := by
    rw [offerEvent, h.masked, on, free', body, offerMinor_numbered queue few]
    rfl
  have grown : eventBodies a (n + 1) = eventBodies a n ++ [eventBody a n] := by rw [eventBodies_succ, on]; simp
  have waits : (eventBodies a n ++ [eventBody a n]).isEmpty = false := by simp
  rw [offered]
  refine ⟨(apart_enqueue _ _ _).trans h.rest, ?_, ?_, fun i hi => ?_⟩
  · rw [enqueue_lines, driveFn_length, modifyLine_length, h.length]
  · rw [enqueue_numbered queue few, grown, (modifyLine_frame _ _ _).1, h.clock]
  · rw [getLine_enqueue_driven (by simpa [h.length] using hi), show lineOf (modifyLine u n _) .attention
        = lineOf a .attention from h.binding _, offeredLine, grown, waits, if_neg Bool.false_ne_true]
    rcases eq_or_ne i n with rfl | other
    · rw [getLine_modifyLine _ _ _ inside', h.line i hi, driven_latch, driven_offeredLine, on]
      simp
    · have upTo : decide (i < n + 1) = decide (i < n) := decide_eq_decide.mpr (by omega)
      rw [getLine_modifyLine_ne other, h.line i hi, driven_offeredLine, upTo]

end Offered

/-- At a soft reset the 32 lines offer their LINE_EVENTs in line order (R161, log 50). -/
theorem resetEvents_offered {a : State} (queue : a.queue = powerOnQueue) (free : ∀ i, (getLine a i).latch = false) :
    Offered a 32 (resetEvents a) := by
  have upTo : ∀ n, n ≤ 32 → Offered a n ((List.range n).foldl (fun s i => offerEvent s i .level (now s)) a) := by
    intro n
    induction n with
    | zero => exact fun _ => .none_yet queue
    | succ n ih =>
      intro hn
      have before := ih (by omega)
      rw [List.range_succ, List.foldl_append, List.foldl_cons, List.foldl_nil]
      cases on : lineMasked (getLine a n) with
      | true => exact before.offer hn on (free n)
      | false =>
        have skipped := before.masked n
        rw [offerEvent, skipped, on]
        exact before.skip on
  exact upTo 32 le_rfl

end Sys2Proof.Machine
end

