-- ==== Sys2Proof/Proofs/SampledLines.lean ====
section
/-! A line at a soft reset, and the blocks other than the lines (R161, R180). -/
namespace Sys2Proof.Machine

/-! ### A line at a soft reset -/

/-- The level of a line at a soft reset: an IN line is sampled, an OUT line keeps its own (R147, R161). -/
def sampledLevel (l : Line) : Bool := if l.dir = .inp then l.pin.getD (decide (l.pull = .up)) else l.level

/-- An IN line is found active at a soft reset (R146). -/
def sampledActive (l : Line) : Bool :=
  decide (l.dir = .inp) && if l.polarity = .risingHigh then sampledLevel l else !sampledLevel l

theorem lineActive_if (l : Line) : lineActive l = if l.polarity = .risingHigh then l.level else !l.level := by
  cases h : l.polarity <;> simp [lineActive, h]

theorem sampleLine_eq (l : Line) : sampleLine l = { l with level := sampledLevel l, change := none } := by
  cases dir : l.dir with
  | inp => simp only [sampleLine, dir, sampledLevel, if_true, pinLevel_inp l dir]
  | out => simp [sampleLine, dir, sampledLevel]

theorem resetLine_eq (l : Line) : resetLine l = { l with
    level := sampledLevel l, change := none, raw := sampledActive l && decide (l.sense = .level), latch := false } := by
  rw [resetLine, sampleLine_eq, clearStatus, levelActive, lineActive_if, Bool.and_right_comm, sampledActive]

/-- Neither a staged value nor a latch makes a line active. -/
theorem lineActive_sampled {l m : Line} (hm : m = { resetLine l with staged := m.staged, latch := m.latch }) :
    (decide (m.dir = .inp) && lineActive m) = sampledActive l := by
  rw [hm, resetLine_eq, lineActive_if, sampledActive]

/-! ### The blocks at a soft reset -/

/-- The lines at a soft reset, sampled and with their status set afresh (R161). -/
def sampledLines (s : State) : State := { s with lines.records := s.lines.records.map resetLine, lines.hold := none }

/-- The state at a soft reset before the output functions are driven. -/
def cleared (s : State) : State :=
  { sampledLines s with
    time := resetTime s.time
    link := resetLink s.link
    queue := powerOnQueue
    volume := resetVolume s
    motion := resetMotion s.motion (fnActive (sampledLines s) .platenTop)
    lamps := resetLamps (now s) s.lamps
    dose := resetDose s.dose
    seq := resetSequencer s.seq
    safe := powerOnSafe }

theorem resetBlocks_eq (s : State) : resetBlocks s
    = driveFn (driveFn (driveFn (cleared s) .camLTrigger false) .camRTrigger false) .attention false := rfl

theorem apart_resetBlocks (s : State) : apart (resetBlocks s) = apart (cleared s) := by
  rw [resetBlocks_eq, apart_driveFn, apart_driveFn, apart_driveFn]

theorem resetBlocks_length (s : State) : (resetBlocks s).lines.records.length = s.lines.records.length := by
  rw [resetBlocks_eq, driveFn_length, driveFn_length, driveFn_length]
  exact List.length_map _

theorem resetBlocks_queue (s : State) : (resetBlocks s).queue = powerOnQueue := by
  rw [resetBlocks_eq]
  simp [cleared]

theorem lineOf_resetBlocks (s : State) (f : Fn) : lineOf (resetBlocks s) f = lineOf s f :=
  lineOf_of_apart (apart_resetBlocks s) f

/-- What the trigger functions, inactive, leave of line `i` (R161). -/
def untriggered (s : State) (i : Nat) (l : Line) : Line :=
  driven (lineOf s .camRTrigger) false i (driven (lineOf s .camLTrigger) false i l)

theorem lineOf_driveFn (s : State) (f g : Fn) (v : Bool) : lineOf (driveFn s f v) g = lineOf s g := by
  rw [lineOf, (driveFn_frame f v s).2.2.2.2.2.2.2.2.2.2.1, lineOf]

theorem getLine_resetBlocks {s : State} {i : Nat} (hi : i < s.lines.records.length) : getLine (resetBlocks s) i =
    driven (lineOf s .attention) false i (untriggered s i (resetLine (getLine s i))) := by
  have sampled : getLine (cleared s) i = resetLine (getLine s i) := by
    simp [getLine, cleared, sampledLines, hi]
  have length : i < (cleared s).lines.records.length := hi.trans_eq (List.length_map _).symm
  rw [resetBlocks_eq, getLine_driveFn_driven (by simpa using length), getLine_driveFn_driven (by simpa using length),
    getLine_driveFn_driven length, lineOf_driveFn, lineOf_driveFn, lineOf_driveFn, sampled]
  rfl

theorem untriggered_eq (s : State) (i : Nat) (l : Line) :
    untriggered s i l = { l with staged := (untriggered s i l).staged } := by
  unfold untriggered
  rw [driven_eq, driven_eq]

end Sys2Proof.Machine
end

