-- ==== Sys2Proof/Proofs/ResetEvents.lean ====
section
/-! The LINE_EVENTs and the hold of a soft reset (R149, R158, R161). -/
namespace Sys2Proof.Machine

/-! ### The LINE_EVENTs and the hold of a soft reset -/

/-- Nothing that a hold stops lies in the queue or in the lines' records. -/
theorem Still.of_apart {s t : State} (h : apart t = apart s) (still : Still s) : Still t := by
  have motion : t.motion = s.motion := congrArg (·.motion) h
  have seq : t.seq = s.seq := congrArg (·.seq) h
  have lamps : t.lamps = s.lamps := congrArg (·.lamps) h
  have time : t.time = s.time := congrArg (·.time) h
  obtain ⟨turn, platen, air, plates, capture, interval, request, hood⟩ := still
  unfold getBank at request hood
  constructor <;> simpa only [getBank, motion, seq, lamps, time]

/-- Commanded to close a second time, a hood goes on as it did. -/
theorem closeHood_closeHood (t : Nat) (h : Hood) : closeHood t (closeHood t h) = closeHood t h := by
  rcases h with ⟨_ | _ | _ | _, _⟩ <;> rfl

theorem still_cleared (s : State) : Still (cleared s) := by
  refine ⟨rfl, ?_, rfl, rfl, rfl, rfl, fun bk => ?_, fun bk => ?_⟩
  · show (if _ then Platen.raised else .stopped) = _ ∨ (if _ then Platen.raised else .stopped) = _
    split <;> simp
  · cases bk <;> rfl
  · cases bk <;> exact closeHood_closeHood _ _

/-- The masked status of line `i` at a soft reset (R149, R161). -/
def resetMasked (s : State) (i : Nat) : Bool :=
  sampledActive (getLine s i) && decide ((getLine s i).sense = .level) && (getLine s i).event

/-- The LINE_EVENT of an active LEVEL line at a soft reset (R149, R161). -/
def resetEvent (s : State) (i : Nat) : Body :=
  .lineEvent i (fnOf s i) .level .level (sampledLevel (getLine s i)) (getLine s i).count s.time.clock

/-- The holding line of a soft reset (R161; log 47). -/
def resetHolding (s : State) : Option Nat :=
  (List.range 32).find? fun i => (getLine s i).hold && sampledActive (getLine s i)

/-- The LINE_EVENTs of a soft reset (R161). -/
def resetEventBodies (s : State) : List Body := ((List.range 32).filter (resetMasked s)).map (resetEvent s)

/-- The reports of a soft reset: the LINE_EVENTs in line order and then the HOLD_ON (R161; log 50). -/
def resetBodies (s : State) : List Body :=
  resetEventBodies s ++ (resetHolding s).toList.map fun i => .holdOn i s.time.clock

/-- Every line's record is set afresh, and of the lines that carry an output function the staged value too (R161). -/
theorem getLine_resetBlocks_fields {s : State} {i : Nat} (hi : i < s.lines.records.length) :
    getLine (resetBlocks s) i = { resetLine (getLine s i) with staged := (getLine (resetBlocks s) i).staged } := by
  rw [getLine_resetBlocks hi, driven_eq, untriggered_eq]

theorem getLine_beyond {s : State} {i : Nat} (h : s.lines.records.length ≤ i) : getLine s i = default :=
  List.getD_eq_default _ _ h

theorem resetBlocks_latch (s : State) (i : Nat) : (getLine (resetBlocks s) i).latch = false := by
  rcases Nat.lt_or_ge i s.lines.records.length with hi | hi
  · rw [getLine_resetBlocks_fields hi, resetLine_eq]
  · rw [getLine_beyond ((resetBlocks_length s).trans_le hi)]
    rfl

theorem resetBlocks_masked (s : State) (i : Nat) : lineMasked (getLine (resetBlocks s) i) = resetMasked s i := by
  rcases Nat.lt_or_ge i s.lines.records.length with hi | hi
  · rw [getLine_resetBlocks_fields hi, resetLine_eq]
    rfl
  · rw [lineMasked_beyond ((resetBlocks_length s).trans_le hi), resetMasked, getLine_beyond hi]
    rfl

theorem resetBlocks_clock (s : State) : (resetBlocks s).time.clock = s.time.clock :=
  (clock_of_apart (apart_resetBlocks s)).trans rfl

/-- The LINE_EVENTs of the active LEVEL lines whose event is enabled (R161). -/
theorem eventBodies_resetBlocks (s : State) :
    eventBodies (resetBlocks s) 32 = resetEventBodies s := by
  have masked : (fun i => lineMasked (getLine (resetBlocks s) i)) = resetMasked s := funext (resetBlocks_masked s)
  rw [eventBodies, resetEventBodies, masked]
  refine List.map_congr_left fun i hi => ?_
  have on : resetMasked s i = true := (List.mem_filter.mp hi).2
  have inside : i < s.lines.records.length := by
    by_contra beyond
    rw [resetMasked, getLine_beyond (Nat.le_of_not_lt beyond)] at on
    cases on
  have level : (getLine s i).sense = .level := by simp [resetMasked] at on; exact on.1.2
  have fn : fnOf (resetBlocks s) i = fnOf s i := by simp only [fnOf, lineOf_resetBlocks]
  rw [eventBody, resetEvent, fn, resetBlocks_clock, getLine_resetBlocks_fields inside, resetLine_eq, level]

/-- The soft reset once the active lines have offered their LINE_EVENTs. -/
theorem resetEvents_resetBlocks (s : State) : Offered (resetBlocks s) 32 (resetEvents (resetBlocks s)) :=
  resetEvents_offered (resetBlocks_queue s) (resetBlocks_latch s)

/-- A line holds at a soft reset if it is in the hold group and found active (R158, R161). -/
theorem lineHolds_resetEvents (s : State) (i : Nat) : lineHolds (getLine (resetEvents (resetBlocks s)) i)
    = ((getLine s i).hold && sampledActive (getLine s i)) := by
  have offered := resetEvents_resetBlocks s
  rcases Nat.lt_or_ge i s.lines.records.length with hi | hi
  · have line := offered.line i (hi.trans_eq (resetBlocks_length s).symm)
    rw [offeredLine_eq, getLine_resetBlocks_fields hi] at line
    have active := lineActive_sampled (l := getLine s i) (m := getLine (resetEvents (resetBlocks s)) i) (by rw [line])
    have hold : (getLine (resetEvents (resetBlocks s)) i).hold = (getLine s i).hold := by rw [line, resetLine_eq]
    rw [lineHolds, Bool.and_right_comm, active, hold, Bool.and_comm]
  · rw [getLine_beyond hi, getLine_beyond ((offered.length.trans (resetBlocks_length s)).trans_le hi)]
    rfl

theorem firstHolding_resetEvents (s : State) : firstHolding (resetEvents (resetBlocks s)) = resetHolding s := by
  simp only [firstHolding, resetHolding, lineHolds_resetEvents]

/-- State `u` is the soft reset of `s` once the active lines have offered their LINE_EVENTs. -/
structure EventsDone (s u : State) : Prop where
  rest : apart u = apart (cleared s)
  length : u.lines.records.length = s.lines.records.length
  queue : u.queue = numbered s.time.clock (resetEventBodies s)
  few : (resetEventBodies s).length < 48
  first : firstHolding u = resetHolding s
  line : ∀ i, i < s.lines.records.length → getLine u i =
    { driven (lineOf s .attention) (!(resetEventBodies s).isEmpty) i (untriggered s i (resetLine (getLine s i))) with
      latch := decide (i < 32) && resetMasked s i }

theorem eventsDone (s : State) : EventsDone s (resetEvents (resetBlocks s)) := by
  have offered := resetEvents_resetBlocks s
  refine ⟨offered.rest.trans (apart_resetBlocks s), offered.length.trans (resetBlocks_length s), ?_, ?_,
    firstHolding_resetEvents s, fun i hi => ?_⟩
  · rw [offered.queue, eventBodies_resetBlocks, resetBlocks_clock]
  · rw [← eventBodies_resetBlocks]
    exact (eventBodies_length _ 32).trans_lt (by decide)
  · rw [offered.line i (hi.trans_eq (resetBlocks_length s).symm), offeredLine, eventBodies_resetBlocks, lineOf_resetBlocks,
      resetBlocks_masked, resetBlocks_latch, getLine_resetBlocks hi, Bool.or_false]
    cases (resetEventBodies s).isEmpty
    · simp only [Bool.false_eq_true, if_false, driven_driven, Bool.not_false]
    · simp only [if_true, Bool.not_true]

end Sys2Proof.Machine
end

