-- ==== Sys2Proof/Proofs/ResetSteps.lean ====
section
/-! The soft reset, step by step (R86, R157, R158, R161). -/
namespace Sys2Proof.Machine

/-! ### The hold and the lamps of a soft reset -/

/-- The hold of a soft reset (R161). -/
def resetHold (s : State) : Option Hold := (resetHolding s).map fun i => ⟨i, s.time.clock⟩

/-- State `u` is the soft reset of `s` once the hold is set afresh: ATTENTION shows whether a report waits, and a line that
offered its LINE_EVENT is latched (R149, R157, R161). -/
structure HoldDone (s u : State) : Prop where
  rest : apart u = { apart (cleared s) with lines := { (apart (cleared s)).lines with hold := resetHold s } }
  length : u.lines.records.length = s.lines.records.length
  queue : u.queue = numbered s.time.clock (resetBodies s)
  line : ∀ i, i < s.lines.records.length → getLine u i =
    { driven (lineOf s .attention) (!(resetBodies s).isEmpty) i (untriggered s i (resetLine (getLine s i))) with
      latch := decide (i < 32) && resetMasked s i }

/-- A hold comes into force with its record and its report, since nothing is under way that it stops (R158). -/
theorem EventsDone.holdAfresh {s u : State} (h : EventsDone s u) : HoldDone s (holdAfresh u) := by
  have clock : u.time.clock = s.time.clock := (clock_of_apart h.rest).trans rfl
  have attention : lineOf u .attention = lineOf s .attention := (lineOf_of_apart h.rest _).trans rfl
  have queue : u.queue = numbered u.time.clock (resetEventBodies s) := by rw [clock, h.queue]
  rw [holdAfresh_eq ((still_cleared s).of_apart h.rest) (room_of_numbered queue h.few).2, h.first, clock]
  cases holding : resetHolding s with
  | none =>
    have bodies : resetBodies s = resetEventBodies s := by simp [resetBodies, holding]
    refine ⟨?_, h.length, by rw [bodies]; exact h.queue, fun i hi => by rw [bodies]; exact h.line i hi⟩
    rw [resetHold, holding, ← h.rest]
    rfl
  | some i =>
    have bodies : resetBodies s = resetEventBodies s ++ [.holdOn i s.time.clock] := by simp [resetBodies, holding]
    have waits : (resetBodies s).isEmpty = false := by rw [bodies]; simp
    refine ⟨?_, ?_, ?_, fun j hj => ?_⟩
    · rw [resetHold, holding, ← h.rest, apart_enqueue]
      rfl
    · rw [enqueue_lines, driveFn_length]
      exact h.length
    · rw [bodies, ← clock]
      exact enqueue_numbered (s := { u with lines.hold := some ⟨i, u.time.clock⟩ }) queue h.few _
    · have line := getLine_enqueue_driven (s := { u with lines.hold := some ⟨i, s.time.clock⟩ })
        (hj.trans_eq h.length.symm) (.holdOn i s.time.clock) 0
      have record := h.line j hj
      rw [line, waits, show lineOf { u with lines.hold := some ⟨i, s.time.clock⟩ } .attention = _ from attention,
        show getLine { u with lines.hold := some ⟨i, s.time.clock⟩ } j = _ from record, driven_latch, driven_driven]
      rfl

/-- Aim lamps that are out stay out where their lit condition is not met. -/
theorem judgeLit_dark {s : State} (unmet : litCondition s = false) (dark : ∀ sd, (s.lamps.aims.get sd).lit = false) :
    judgeLit s = s := by
  have out : ∀ sd, relight (now s) false (s.lamps.aims.get sd) = s.lamps.aims.get sd := fun sd => by
    simp [relight, dark sd]
  have left := out .left
  have right := out .right
  simp only [Pair.get] at left right
  simp only [judgeLit, unmet, left, right]

/-- After a soft reset the platen is not DOWN, so that no aim lamp is lit (R68, R86). -/
theorem HoldDone.judgeLit_eq {s u : State} (h : HoldDone s u) : judgeLit u = u := by
  have platen : u.motion.platen = .raised ∨ u.motion.platen = .stopped := by
    have motion : u.motion = (cleared s).motion := congrArg (·.motion) h.rest
    rw [motion]
    exact (still_cleared s).platen
  have lamps : u.lamps = resetLamps s.time.clock s.lamps := congrArg (·.lamps) h.rest
  refine judgeLit_dark ?_ fun sd => ?_
  · rcases platen with platen | platen <;> simp [litCondition, platen]
  · rw [lamps]
    cases sd <;> rfl

/-- The READY_LAMP condition after a soft reset, which leaves no work and no safe state (R157). -/
def resetReady (s : State) : Bool :=
  decide ((resetVolume s).state = .opened) && (resetVolume s).known && (resetHold s).isNone

theorem HoldDone.readyCondition_eq {s u : State} (h : HoldDone s u) : readyCondition u = resetReady s := by
  have parts : readyCondition u = readyCondition (apart u) := rfl
  rw [parts, h.rest, readyCondition, resetReady]
  simp [volumeOpened, held, turnInFlight, captureInFlight, apart, cleared, sampledLines, powerOnSafe, resetTime,
    resetMotion, resetSequencer, Config.orderCapacity, Option.not_isSome]
  rfl

/-- The state of each output function after a soft reset, as its line shows it (R151, R157). -/
def resetShowing (s : State) (i : Nat) (l : Line) : Line :=
  driven (lineOf s .readyLamp) (resetReady s) i (driven (lineOf s .attention) (!(resetBodies s).isEmpty) i (untriggered s i l))

/-- State `t` is the soft reset of `s`. -/
structure ResetDone (s t : State) : Prop where
  rest : apart t = { apart (cleared s) with
    lines := { (apart (cleared s)).lines with hold := resetHold s, ready := resetReady s } }
  length : t.lines.records.length = s.lines.records.length
  queue : t.queue = numbered s.time.clock (resetBodies s)
  line : ∀ i, i < s.lines.records.length → getLine t i =
    { resetShowing s i (resetLine (getLine s i)) with latch := decide (i < 32) && resetMasked s i }

theorem softReset_done (s : State) : ResetDone s (softReset s) := by
  have h := (eventsDone s).holdAfresh
  rw [softReset, h.judgeLit_eq, judgeReady, h.readyCondition_eq]
  generalize Machine.holdAfresh (resetEvents (resetBlocks s)) = u at h
  have ready : lineOf u .readyLamp = lineOf s .readyLamp := by
    have binding : u.lines.binding = s.lines.binding := congrArg (·.lines.binding) h.rest
    rw [lineOf, binding, lineOf]
  refine ⟨?_, ?_, ?_, fun i hi => ?_⟩
  · rw [apart_driveFn]
    exact congrArg (fun x : State => { x with lines := { x.lines with ready := resetReady s } }) h.rest
  · rw [driveFn_length]
    exact h.length
  · rw [(driveFn_frame _ _ _).2.2.1]
    exact h.queue
  · have line := getLine_driveFn_driven (s := { u with lines.ready := resetReady s }) (hi.trans_eq h.length.symm)
      .readyLamp (resetReady s)
    rw [line, show lineOf { u with lines.ready := resetReady s } .readyLamp = _ from ready,
      show getLine { u with lines.ready := resetReady s } i = _ from h.line i hi, driven_latch]
    rfl

end Sys2Proof.Machine
end

