-- ==== Sys2Proof/Proofs/ResetLines.lean ====
section
/-! What the lines show after a soft reset (R68, R151, R157, R161). -/
namespace Sys2Proof.Machine

/-! ### What the lines show after a soft reset -/

theorem resetShowing_eq (s : State) (i : Nat) (l : Line) :
    resetShowing s i l = { l with staged := (resetShowing s i l).staged } := by
  unfold resetShowing
  rw [driven_eq, driven_eq, untriggered_eq]

/-- A line that carries no function keeps its staged value. -/
theorem resetShowing_unbound {s : State} {i : Nat} (h : ∀ f, lineOf s f ≠ some i) (l : Line) : resetShowing s i l = l := by
  unfold resetShowing untriggered
  rw [driven_other (h _), driven_other (h _), driven_other (h _), driven_other (h _)]

/-- The output functions after a soft reset: no pulse lasts, ATTENTION is active while a report waits (R157, R161). -/
def resetShown (s : State) : Fn → Bool
  | .attention => !(resetBodies s).isEmpty
  | .readyLamp => resetReady s
  | _ => false

/-- A line that carries one function shows it if it is an output function, and keeps its staged value otherwise. -/
theorem resetShowing_bound {s : State} (inv : bindingInv s) {f : Fn} {i : Nat} (bound : lineOf s f = some i) (l : Line) :
    resetShowing s i l
      = if fnCode f < 16 then l else { l with staged := drivenValue l.polarity (resetShown s f) } := by
  have other : ∀ g, g ≠ f → lineOf s g ≠ some i := fun g hg hb => hg (inv.2.2.2 g f i hb bound)
  unfold resetShowing untriggered
  by_cases input : fnCode f < 16
  · rw [if_pos input]
    have outputs : ∀ g, 16 ≤ fnCode g → lineOf s g ≠ some i := fun g hg => other g fun h => by subst h; omega
    rw [driven_other (outputs .camLTrigger (by decide)), driven_other (outputs .camRTrigger (by decide)),
      driven_other (outputs .attention (by decide)), driven_other (outputs .readyLamp (by decide))]
  · rw [if_neg input]
    cases f with
    | camLTrigger =>
      rw [bound, driven_bound, driven_other (other .camRTrigger (by decide)), driven_other (other .attention (by decide)),
        driven_other (other .readyLamp (by decide))]
      rfl
    | camRTrigger =>
      rw [bound, driven_other (other .camLTrigger (by decide)), driven_bound, driven_other (other .attention (by decide)),
        driven_other (other .readyLamp (by decide))]
      rfl
    | attention =>
      rw [bound, driven_other (other .camLTrigger (by decide)), driven_other (other .camRTrigger (by decide)), driven_bound,
        driven_other (other .readyLamp (by decide))]
      rfl
    | readyLamp =>
      rw [bound, driven_other (other .camLTrigger (by decide)), driven_other (other .camRTrigger (by decide)),
        driven_other (other .attention (by decide)), driven_bound]
      rfl
    | _ => exact absurd (by decide) input

theorem drivenValue_if (p : Polarity) (v : Bool) : drivenValue p v = if p = .risingHigh then v else !v := by
  cases p <;> rfl

theorem isEmpty_numbered (t : Nat) (bodies : List Body) : (numbered t bodies).reports.isEmpty = bodies.isEmpty := by
  cases bodies <;> simp [numbered]

namespace ResetDone
variable {s t : State}

theorem shownState_eq (h : ResetDone s t) {f : Fn} (output : ¬ fnCode f < 16) : shownState t f = resetShown s f := by
  have seq : t.seq = resetSequencer s.seq := congrArg (·.seq) h.rest
  cases f with
  | camLTrigger => rw [shownState, seq]; rfl
  | camRTrigger => rw [shownState, seq]; rfl
  | attention => rw [shownState, h.queue, isEmpty_numbered]; rfl
  | readyLamp => exact congrArg (·.lines.ready) h.rest
  | _ => exact absurd (by decide) output

/-- The record of a line after a soft reset (R161). -/
theorem record (h : ResetDone s t) {i : Nat} (hi : i < s.lines.records.length) (h32 : i < 32) :
    ∃ staged, getLine t i = { getLine s i with
        level := sampledLevel (getLine s i), change := none, staged := staged
        raw := sampledActive (getLine s i) && decide ((getLine s i).sense = .level), latch := resetMasked s i }
      ∧ ((∀ f, lineOf s f ≠ some i) → staged = (getLine s i).staged)
      ∧ (bindingInv s → ∀ f, lineOf s f = some i → staged =
          if fnCode f < 16 then (getLine s i).staged
          else if (getLine s i).polarity = .risingHigh then shownState t f else !shownState t f) := by
  refine ⟨(resetShowing s i (resetLine (getLine s i))).staged, ?_, fun unbound => ?_, fun inv f bound => ?_⟩
  · rw [h.line i hi, resetShowing_eq, resetLine_eq, decide_eq_true h32, Bool.true_and]
  · rw [resetShowing_unbound unbound, resetLine_eq]
  · rw [resetShowing_bound inv bound]
    by_cases input : fnCode f < 16
    · rw [if_pos input, if_pos input, resetLine_eq]
    · rw [if_neg input, if_neg input, h.shownState_eq input, ← drivenValue_if, resetLine_eq]

/-- PLATEN_TOP reads as it was sampled (R68). -/
theorem platenTop (h : ResetDone s t) : fnActive t .platenTop = fnActive (sampledLines s) .platenTop := by
  have binding : t.lines.binding = s.lines.binding := congrArg (·.lines.binding) h.rest
  have bound : lineOf t .platenTop = lineOf (sampledLines s) .platenTop := by rw [lineOf, binding, lineOf, sampledLines]
  have active : ∀ i, lineActive (getLine t i) = lineActive (getLine (sampledLines s) i) := fun i => by
    have length : (sampledLines s).lines.records.length = s.lines.records.length := List.length_map _
    rcases Nat.lt_or_ge i s.lines.records.length with hi | hi
    · have sampled : getLine (sampledLines s) i = resetLine (getLine s i) := by simp [getLine, sampledLines, hi]
      rw [h.line i hi, resetShowing_eq, sampled]
      rfl
    · rw [getLine_beyond (h.length.trans_le hi), getLine_beyond (length.trans_le hi)]
  simp only [fnActive, bound, active]

end ResetDone

end Sys2Proof.Machine
end

