-- ==== Sys2Proof/Proofs/SoftReset.lean ====
section
/-! The soft reset (R19, R42, R68, R89, R109, R128, R145, R161, R173, R180, R185). -/
namespace Sys2Proof.Machine

/-- The stages of a turn before GRIP (R19). -/
theorem beforeGrip_eq (g : Stage) : beforeGrip g = (decide (g = .raise) || decide (g = .air) || decide (g = .reach)) := by
  cases g <;> rfl

/-- The opening stays KNOWN unless a turn stands at or past GRIP (R19). -/
theorem resetVolume_eq (s : State) : resetVolume s = { s.volume with
    known := s.volume.known && (s.motion.turn.all fun u =>
      decide (u.stage = .raise) || decide (u.stage = .air) || decide (u.stage = .reach))
    platesPending := false } := by
  have early : (!s.motion.turn.any fun u => !beforeGrip u.stage) = s.motion.turn.all fun u =>
      decide (u.stage = .raise) || decide (u.stage = .air) || decide (u.stage = .reach) := by
    cases s.motion.turn with
    | none => rfl
    | some u => simp [beforeGrip_eq]
  rw [resetVolume, early]

/-- What a soft reset leaves of the lamps: each bank OFF, its hood and each aim lamp's closing, and each aim lamp dark (R89). -/
theorem ResetDone.lamps {s t : State} (h : ResetDone s t) :
    (∀ bk, getBank t bk = offRecord s.time.clock (getBank s bk))
      ∧ (∀ sd, t.lamps.aims.get sd = resetAim s.time.clock (s.lamps.aims.get sd))
      ∧ t.lamps.grants = [] ∧ t.lamps.interval = none ∧ t.lamps.closePending = false
      ∧ t.lamps.recipes = s.lamps.recipes := by
  have lamps : t.lamps = resetLamps s.time.clock s.lamps := congrArg (·.lamps) h.rest
  simp only [getBank, lamps]
  exact ⟨fun bk => by cases bk <;> rfl, fun sd => by cases sd <;> rfl, rfl, rfl, rfl, rfl⟩

/-- The lines as the statement writes them: the levels sampled, the active lines, and their raw status. -/
theorem sampled_of_spec {s : State} {level active raw : Nat → Bool}
    (spec : ∀ i l, l = getLine s i →
      level i = (if l.dir = .inp then l.pin.getD (decide (l.pull = .up)) else l.level)
        ∧ active i = (decide (l.dir = .inp) && if l.polarity = .risingHigh then level i else !level i)
        ∧ raw i = (active i && decide (l.sense = .level))) :
    (level = fun i => sampledLevel (getLine s i)) ∧ (active = fun i => sampledActive (getLine s i))
      ∧ raw = fun i => sampledActive (getLine s i) && decide ((getLine s i).sense = .level) := by
  have levels : level = fun i => sampledLevel (getLine s i) := funext fun i => (spec i _ rfl).1
  have actives : active = fun i => sampledActive (getLine s i) := funext fun i => by
    rw [(spec i _ rfl).2.1, levels]
    rfl
  exact ⟨levels, actives, funext fun i => by rw [(spec i _ rfl).2.2, actives]⟩

end Sys2Proof.Machine

namespace Sys2Proof
open Machine

/-- Settles O5, step by step: the blocks are cleared, the active lines offer their LINE_EVENTs, the first line that holds brings
the hold, and READY_LAMP is judged. -/
theorem softResetKeepsAndClears : Obligations.SoftResetKeepsAndClears := by
  intro s
  refine ⟨softReset s, rfl, ?_⟩
  have h := softReset_done s
  generalize softReset s = t at h
  have motion : t.motion = resetMotion s.motion (fnActive (sampledLines s) .platenTop) := congrArg (·.motion) h.rest
  have volume : t.volume = resetVolume s := congrArg (·.volume) h.rest
  have hold : t.lines.hold = resetHold s := congrArg (·.lines.hold) h.rest
  have ready : t.lines.ready = resetReady s := congrArg (·.lines.ready) h.rest
  obtain ⟨banks, aims, grants, interval, closePending, recipes⟩ := h.lamps
  refine ⟨congrArg (·.time) h.rest, congrArg (·.link) h.rest, volume.trans (resetVolume_eq s), congrArg (·.leaves) h.rest,
    congrArg (·.plan) h.rest, ?motion, ?platen, banks, aims, grants, interval, closePending, recipes,
    congrArg (·.dose) h.rest, congrArg (·.seq) h.rest, congrArg (·.safe) h.rest, congrArg (·.chargeGood) h.rest,
    congrArg (·.lines.binding) h.rest, h.length, ?ready, fun level active raw holding bodies spec first reports => ?lines⟩
  case motion =>
    rw [motion]
    rfl
  case platen =>
    rw [motion, h.platenTop]
    rfl
  case ready =>
    rw [ready, volume, hold]
    rfl
  case lines =>
    obtain ⟨rfl, rfl, rfl⟩ := sampled_of_spec spec
    subst first reports
    exact ⟨hold, h.queue, fun i hi h32 l hl => hl ▸ h.record hi h32⟩

end Sys2Proof
end

