-- ==== Sys2Proof/Proofs/Faces.lean ====
section
/-! The laws of the leaf table under every way in which the work goes on (R20, R22, R23, R26). -/
namespace Sys2Proof.Machine

/-- The laws of leaf `i` of a table for `n` leaves, of `leafInv`, one by one. -/
structure LeafOk (n i : Nat) (l : Leaf) : Prop where
  recto : faceLaw l.recto
  verso : faceLaw l.verso
  front : l.recto.state = .external ↔ i = 0
  back : l.verso.state = .external ↔ i = n + 1
  board : i = 0 ∨ i = n + 1 → l.handled = 0
  handled : l.handled ≤ 255

/-- Every leaf of a table for `n` leaves keeps its laws. -/
def TableOk (n : Nat) (ls : List Leaf) : Prop := ∀ i, i < ls.length → LeafOk n i (ls.getD i default)

theorem leafInv_iff (s : State) : leafInv s ↔ TableOk s.volume.leafCount s.leaves := by
  constructor
  · intro h i hi
    obtain ⟨recto, verso, front, back, board, handled⟩ := h i hi
    exact ⟨recto, verso, front, back, board, handled⟩
  · intro h i hi
    have l := h i hi
    exact ⟨l.recto, l.verso, l.front, l.back, l.board, l.handled⟩

/-- A change of one leaf that keeps that leaf's laws keeps the table's. -/
theorem TableOk.modify {n j : Nat} {ls : List Leaf} {f : Leaf → Leaf} (h : TableOk n ls)
    (keeps : ∀ l, LeafOk n j l → LeafOk n j (f l)) : TableOk n (ls.modify j f) := by
  intro i hi
  rw [List.length_modify] at hi
  have hl := h i hi
  rw [List.getD_eq_getElem _ _ (by simpa using hi), List.getElem_modify]
  rw [List.getD_eq_getElem _ _ hi] at hl
  split
  · subst j; exact keeps _ hl
  · exact hl

theorem TableOk.lightLeaf {n : Nat} {ls : List Leaf} (h : TableOk n ls) (i x : Nat) :
    TableOk n (lightLeaf i x ls) :=
  h.modify fun _ hl => { hl with }

/-- A handled leaf of the text block (R26). -/
theorem LeafOk.handle {n i : Nat} {l : Leaf} (h : LeafOk n i l) (inBlock : 1 ≤ i ∧ i ≤ n) :
    LeafOk n i { l with handled := satSucc 255 l.handled } :=
  { h with
    board := fun hi => by omega
    handled := satSucc_le 255 l.handled }

/-! ### Marks -/

/-- A face action never enters or leaves EXTERNAL, and leads to WANTED or SHOT from these two alone (R23). -/
theorem markState_cases {a : LeafAction} {r : SkipReason} {st new : FaceState} (h : markState a r st = some new) :
    st ≠ .external ∧ new ≠ .external ∧ (new = .shot ∨ new = .wanted → st = .shot ∨ st = .wanted) := by
  unfold markState at h
  split at h <;> cases h <;> simp

/-- A face after a face action keeps the laws of its record and stays EXTERNAL or not (R23, R30). -/
theorem markFace_law (a : LeafAction) (r : SkipReason) (masked : Bool) {f : Face} (h : faceLaw f) :
    faceLaw (markFace a r masked f) ∧ ((markFace a r masked f).state = .external ↔ f.state = .external) := by
  obtain ⟨taken, outer, last⟩ := h
  unfold markFace
  cases masked with
  | false => exact ⟨⟨taken, outer, last⟩, Iff.rfl⟩
  | true =>
    cases hm : markState a r f.state with
    | none => exact ⟨⟨taken, outer, last⟩, Iff.rfl⟩
    | some st =>
      obtain ⟨before, after, kept⟩ := markState_cases hm
      exact ⟨⟨fun hs => taken (kept hs), fun hs => absurd hs after, last⟩,
        fun hs => absurd hs after, fun hs => absurd hs before⟩

/-- A face action marks the two faces alone, and the others the MANUAL flag alone (R30, R31). -/
theorem markLeaf_cases (a : LeafAction) (r : SkipReason) (recto verso : Bool) (l : Leaf) :
    (∃ m, markLeaf a r recto verso l = { l with manual := m })
      ∨ markLeaf a r recto verso l =
        { l with recto := markFace a r recto l.recto, verso := markFace a r verso l.verso } := by
  cases a with
  | manualOn => exact .inl ⟨true, rfl⟩
  | manualOff => exact .inl ⟨false, rfl⟩
  | skip | unskip | want | unwant => exact .inr rfl

theorem LeafOk.mark {n i : Nat} {l : Leaf} (h : LeafOk n i l) (a : LeafAction) (r : SkipReason) (recto verso : Bool) :
    LeafOk n i (markLeaf a r recto verso l) := by
  rcases markLeaf_cases a r recto verso l with ⟨m, hm⟩ | hm <;> rw [hm]
  · exact { h with }
  · obtain ⟨rectoLaw, rectoOuter⟩ := markFace_law a r recto h.recto
    obtain ⟨versoLaw, versoOuter⟩ := markFace_law a r verso h.verso
    exact { h with
      recto := rectoLaw, verso := versoLaw, front := rectoOuter.trans h.front, back := versoOuter.trans h.back }

/-! ### Takes -/

/-- A face of the text block that is given a take is SHOT and keeps the laws of its record (R23, R24). -/
theorem takeFace_law (n : Nat) {f : Face} (inner : f.state ≠ .external) :
    faceLaw (takeFace n f) ∧ (takeFace n f).state ≠ .external := by
  simp [takeFace, inner, faceLaw]

/-- The page of a side at an opening in the volume is given a take (R24). -/
theorem LeafOk.take {n k : Nat} {sd : Side} {l : Leaf} (h : LeafOk n (sidePage k sd).1 l) (inVolume : k ≤ n)
    (c : Nat) : LeafOk n (sidePage k sd).1 (takeLeaf c (sidePage k sd).2 l) := by
  cases sd with
  | left =>
    have inner : ¬ k = n + 1 := by omega
    obtain ⟨law, state⟩ := takeFace_law c (mt h.back.mp inner)
    exact { h with verso := law, back := iff_of_false state inner }
  | right =>
    have inner : ¬ k + 1 = 0 := Nat.succ_ne_zero k
    obtain ⟨law, state⟩ := takeFace_law c (mt h.front.mp inner)
    exact { h with recto := law, front := iff_of_false state inner }

/-! ### The table -/

/-- A face that was never taken, EXTERNAL or OPEN (R20, R23). -/
theorem untaken_law (p : Prop) [Decidable p] :
    faceLaw ⟨if p then .external else .opened, 0, none⟩
      ∧ ((if p then FaceState.external else .opened) = .external ↔ p) := by
  by_cases hp : p <;> simp [hp, faceLaw]

/-- A fresh table keeps the laws (R20). -/
theorem TableOk.fresh (n : Nat) : TableOk n (freshTable n) := by
  intro i hi
  rw [getD_freshTable (by simpa [freshTable] using hi)]
  obtain ⟨recto, front⟩ := untaken_law (i = 0)
  obtain ⟨verso, back⟩ := untaken_law (i = n + 1)
  exact ⟨recto, verso, front, back, fun _ => rfl, Nat.zero_le _⟩

/-- With the laws of the volume, every way in which the work goes on keeps those of the table. -/
theorem WorkStep.tableOk {w v : Work} (hv : VolumeOk w) (h : TableOk w.leafCount w.leaves) (hs : WorkStep w v) :
    TableOk v.leafCount v.leaves := by
  cases hs with
  | order | discard | flush | arm | capture | trigger | endCapture | ask | release | startTurn | turn | verified | endTurn
  | reseat | openVolume | closeVolume | setCeilings | softReset => exact h
  | credit bk p e standing entry => exact (h.lightLeaf _ _).lightLeaf _ _
  | light a b opened fits => exact (h.lightLeaf _ _).lightLeaf _ _
  | confirm c sd inFlight =>
    have inVolume : (c.opening.getD (w.k, false)).1 ≤ w.leafCount := by
      cases ho : c.opening with
      | none => exact hv.opening
      | some o => exact (hv.capture c inFlight).1 o ho
    exact h.modify fun _ hl => hl.take inVolume c.seq
  | handle i leaf =>
    have inBlock : 1 ≤ i ∧ i ≤ w.leafCount := by
      rcases leaf with ⟨t, ht, rfl⟩ | leaf
      · obtain ⟨first, last, -⟩ := hv.turn t ht
        exact ⟨first, last⟩
      · exact leaf
    exact h.modify fun _ hl => hl.handle inBlock
  | mark i a r recto verso => exact h.modify fun _ hl => hl.mark a r recto verso
  | loadVolume n leafCeiling volumeCeiling closed => exact .fresh n
  | discardVolume closed => exact fun i hi => absurd hi (Nat.not_lt_zero i)
  | powerOn => exact fun i hi => absurd hi (Nat.not_lt_zero i)

/-- The laws of the table are kept while the work goes on, under the laws of the volume. -/
theorem Works.leafInv {s t : State} (h : Works s t) (hv : Machine.volumeInv s) (hs : Machine.leafInv s) :
    Machine.leafInv t :=
  (leafInv_iff t).mpr (h.keeps (P := fun w => VolumeOk w ∧ TableOk w.leafCount w.leaves)
    (fun _ _ hw step => ⟨step.volumeOk hw.1, step.tableOk hw.1 hw.2⟩)
    ⟨(volumeInv_iff s).mp hv, (leafInv_iff s).mp hs⟩).2

/-- The light of a tick keeps the laws of the table, whatever its lamps. -/
theorem aimTickStart_leafInv {s : State} (h : leafInv s) : leafInv (aimTickStart s) := by
  have table := (leafInv_iff s).mp h
  have count : (aimTickStart s).volume.leafCount = s.volume.leafCount := congrArg Work.leafCount (work_aimTickStart s)
  have lit : (aimTickStart s).leaves = _ := congrArg Work.leaves (work_aimTickStart s)
  rw [leafInv_iff, count, lit]
  exact (table.lightLeaf _ _).lightLeaf _ _

end Sys2Proof.Machine

namespace Sys2Proof
open Machine

/-- Settles O9: each way in which the work on a volume goes on keeps the laws of the table, since a turned leaf and the pages of
an opening belong to the text block; the light of an aim tick changes doses alone. -/
theorem facesKeepTheirLaws : Obligations.FacesKeepTheirLaws := by
  rintro s t ⟨volume, leaves⟩ h
  rcases step_works h with w | ⟨rest, rfl⟩
  · exact w.leafInv volume leaves
  · exact aimTickStart_leafInv leaves

end Sys2Proof
end

