-- ==== Sys2Proof/Proofs/LeafMark.lean ====
section
/-! LEAF_MARK (R23, R29, R30, R31). -/
namespace Sys2Proof.Machine

/-! ### The table of face actions -/

/-- The state that a face action leaves, by the table of R23. -/
theorem markState_getD (a : LeafAction) (r : SkipReason) (st : FaceState) :
    (markState a r st).getD st = faceAfterMark a r st := by cases a <;> cases st <;> rfl

/-- A state that accepts a face action is changed by it (R23). -/
theorem markState_isNone (a : LeafAction) (r : SkipReason) (st : FaceState) :
    (markState a r st).isNone = decide (faceAfterMark a r st = st) := by
  cases a <;> cases st <;> simp [markState, faceAfterMark]

theorem markFace_eq (a : LeafAction) (r : SkipReason) (masked : Bool) (f : Face) :
    markFace a r masked f = if masked then { f with state := faceAfterMark a r f.state } else f := by
  rw [markFace, markState_getD]

/-- The faces that the reply shows unchanged: the masked ones whose state is as it was (R30). -/
theorem isUnchanged_eq (a : LeafAction) (r : SkipReason) (masked : Bool) (f : Face) :
    isUnchanged a r masked f = (masked && decide ((markFace a r masked f).state = f.state)) := by
  rw [isUnchanged, markState_isNone, markFace_eq]
  cases masked <;> rfl

/-- A leaf after a LEAF_MARK, as the statement writes it (R30, R31). -/
theorem markLeaf_eq (a : LeafAction) (r : SkipReason) (recto verso : Bool) (l : Leaf) :
    markLeaf a r recto verso l =
      if a = .manualOn then { l with manual := true }
      else if a = .manualOff then { l with manual := false }
      else
        { l with
          recto := if recto then { l.recto with state := faceAfterMark a r l.recto.state } else l.recto
          verso := if verso then { l.verso with state := faceAfterMark a r l.verso.state } else l.verso } := by
  cases a with
  | manualOn | manualOff => rfl
  | skip | unskip | want | unwant => simp [markLeaf, markFace_eq]

/-- What the reply says of the masked faces, for a face action and for the others (R30, R31). -/
theorem shownUnchanged_eq (a : LeafAction) (r : SkipReason) (recto verso : Bool) (l : Leaf) :
    (!isManualAction a && isUnchanged a r recto l.recto) =
        (decide (a ≠ .manualOn) && decide (a ≠ .manualOff) && recto
          && decide ((markLeaf a r recto verso l).recto.state = l.recto.state))
      ∧ (!isManualAction a && isUnchanged a r verso l.verso) =
        (decide (a ≠ .manualOn) && decide (a ≠ .manualOff) && verso
          && decide ((markLeaf a r recto verso l).verso.state = l.verso.state)) := by
  cases a with
  | manualOn | manualOff => exact ⟨rfl, rfl⟩
  | skip | unskip | want | unwant =>
    rw [isUnchanged_eq, isUnchanged_eq]
    exact ⟨rfl, rfl⟩

/-! ### The request -/

/-- A record changed in its place. -/
theorem modifyLeaf_eq_set (s : State) (i : Nat) (f : Leaf → Leaf) :
    modifyLeaf s i f = { s with leaves := s.leaves.set i (f (getLeaf s i)) } := by
  have h : s.leaves.modify i f = s.leaves.set i (f (getLeaf s i)) := by
    rw [getLeaf, List.modify_eq_set_getElem?, List.getD_eq_getElem?_getD]
    cases h : s.leaves[i]? with
    | none => exact (List.set_eq_of_length_le (List.getElem?_eq_none_iff.mp h)).symm
    | some l => rfl
  rw [modifyLeaf, h]

/-- The checks of the fields in their order (R29 checks 3 to 6). -/
theorem markField_eq (n leaf : Nat) (action : Option LeafAction) (reason : Option (Option SkipReason)) :
    markField n leaf action reason =
      if action = none then some .action
      else if isManualAction (action.getD .skip) = true ∧ (!inRange leaf 1 n) = true then some .leafIndex
      else if action.getD .skip = .skip ∧ reason.getD none = none then some .skipReason
      else if action.getD .skip ≠ .skip ∧ reason.isSome = true then some .skipReason
      else none := by
  cases action with
  | none => rfl
  | some a =>
    simp only [markField, Bool.and_eq_true, Option.getD_some, reduceCtorEq, if_false]
    refine if_congr Iff.rfl rfl ?_
    rcases reason with _ | _ | r <;> cases a <;> rfl

theorem manualAction_iff (a : LeafAction) :
    (decide (a = .manualOn) || decide (a = .manualOff)) = true ↔ isManualAction a = true := by cases a <;> decide

/-- LEAF_MARK is decided by its table of checks. -/
theorem decideLeafMark_chosen (i : Nat) (recto verso : Bool) (action : Option LeafAction)
    (reason : Option (Option SkipReason)) (s : State) {a : LeafAction} {r : SkipReason} {old new : Leaf}
    (ha : a = action.getD .skip) (hr : r = (reason.getD none).getD .blank) (hold : old = getLeaf s i)
    (hnew : new = markLeaf a r recto verso old) :
    decideLeafMark i recto verso action reason s = chosen
      [ orElse (decide (s.volume.state = .empty) || decide (s.volume.state = .closed)) .wrongState,
        orField (decide (s.volume.leafCount + 1 < i)) .leafIndex,
        orField (decide (action = none)) .action,
        orField ((decide (a = .manualOn) || decide (a = .manualOff))
          && (decide (i < 1) || decide (s.volume.leafCount < i))) .leafIndex,
        orField (decide (a = .skip) && ((reason.getD none).isNone)) .skipReason,
        orField (decide (a ≠ .skip) && reason.isSome) .skipReason ] s
      { s with leaves := s.leaves.set i new }
      (.leafMark
        (decide (a ≠ .manualOn) && decide (a ≠ .manualOff) && recto && decide (new.recto.state = old.recto.state))
        (decide (a ≠ .manualOn) && decide (a ≠ .manualOff) && verso && decide (new.verso.state = old.verso.state))
        new.recto.state new.verso.state new.manual) := by
  subst hr hold hnew
  refine chosen_orElse (by simp) fun _ => chosen_orField (by simp) fun _ => ?_
  show afterField s _ (markField s.volume.leafCount i action reason) = _
  rw [markField_eq, ← ha]
  refine chosen_fieldOr (by simp) fun _ => chosen_fieldOr ?_ fun _ => ?_
  · rw [Bool.and_eq_true, manualAction_iff, outside_iff]
  refine chosen_fieldOr (by simp) fun _ => chosen_fieldOr (by simp) fun _ => ?_
  obtain ⟨rectoShown, versoShown⟩ :=
    shownUnchanged_eq a ((reason.getD none).getD .blank) recto verso (getLeaf s i)
  rw [chosen_nil, afterField]
  dsimp only
  rw [modifyLeaf_eq_set, rectoShown, versoShown]

end Sys2Proof.Machine

namespace Sys2Proof
open Machine

/-- Settles O35: the owner's checks are the table's, in its order, and a masked face is left as it was exactly where the table
of R23 leaves it. -/
theorem leafMarkFollowsTheTableOfFaces : Obligations.LeafMarkFollowsTheTableOfFaces := by
  intro tag i onRecto onVerso action reason s a act r old new ha hact hr hold hnew
  subst ha
  exact congrArg _ (serve_decided (decideLeafMark_chosen i onRecto onVerso action reason _ hact hr hold
    (hnew.trans (markLeaf_eq ..).symm)))

end Sys2Proof
end

