-- ==== Sys2Proof/Proofs/PlanSet.lean ====
section
/-! PLAN_SET (R35, R36, R37). -/
namespace Sys2Proof.Machine

/-! ### The checks of one segment -/

/-- A segment in its ranges on a volume of `n` leaves (R35). -/
def inPlan (n : Nat) (g : SegmentField) : Prop :=
  g.scheme.isSome = true ∧ 1 ≤ g.start ∧ g.start ≤ 9999 ∧ g.pfx.length ≤ 4 ∧ g.pfx.all isMarkChar = true
    ∧ 1 ≤ g.first ∧ g.first ≤ g.last ∧ g.last ≤ n

theorem inPlan.nonempty {n : Nat} {g : SegmentField} (h : inPlan n g) : g.first ≤ g.last := by
  obtain ⟨-, -, -, -, -, -, nonempty, -⟩ := h
  exact nonempty

/-- The failure that the first failing row of a table of checks names. -/
def firstFault (rows : List (Bool × PlanFailure)) : Option PlanFailure := (rows.find? fun x => x.1).map fun x => x.2

theorem firstFault_cons (failed : Bool) (kind : PlanFailure) (rows : List (Bool × PlanFailure)) :
    firstFault ((failed, kind) :: rows) = if failed = true then some kind else firstFault rows := by
  cases failed <;> rfl

/-- The checks of a segment are the rows of the statement's table, in its order (R36 checks 3 to 8). -/
theorem segmentFailure_eq (n : Nat) (prev : Option SegmentField) (g : SegmentField) :
    segmentFailure n prev g = segmentFault n prev g := by
  show _ = firstFault _
  simp only [firstFault_cons]
  refine if_congr Iff.rfl rfl (if_congr ?_ rfl (if_congr ?_ rfl (if_congr ?_ rfl ?_)))
  · rw [← outside_iff]; simp
  · simp [validPfx]
  · simp
  · cases prev <;> simp [firstFault]

theorem firstFault_none (rows : List (Bool × PlanFailure)) : firstFault rows = none ↔ ∀ x ∈ rows, x.1 = false := by
  simp [firstFault]

/-- A segment passes its checks where it lies in its ranges and behind the segment before it (R36). -/
theorem segmentFailure_none {n : Nat} {prev : Option SegmentField} {g : SegmentField}
    (before : ∀ p, prev = some p → p.first ≤ p.last) :
    segmentFailure n prev g = none ↔ inPlan n g ∧ ∀ p, prev = some p → p.last < g.first := by
  have order : ((prev.any fun p => decide (g.first < p.first)) = false
      ∧ (prev.any fun p => decide (g.first ≤ p.last)) = false) ↔ ∀ p, prev = some p → p.last < g.first := by
    cases prev with
    | none => simp
    | some p => have := before p rfl; simp; omega
  rw [segmentFailure_eq, ← order]
  refine (firstFault_none _).trans ?_
  simp only [List.forall_mem_cons, List.not_mem_nil, false_imp_iff, implies_true, and_true, decide_eq_false_iff_not,
    Option.isNone_eq_false_iff, Bool.or_eq_false_iff, Bool.not_eq_false', not_or, Nat.not_lt, inPlan]
  tauto

/-! ### The first segment that fails -/

/-- The check that segment `j` of a list fails, the first of the list standing behind `prev`. -/
def faultAt (n : Nat) (prev : Option SegmentField) (gs : List SegmentField) (j : Nat) : Option PlanFailure :=
  gs[j]?.bind (segmentFault n (if j = 0 then prev else gs[j - 1]?))

theorem faultAt_zero (n : Nat) (prev : Option SegmentField) (g : SegmentField) (gs : List SegmentField) :
    faultAt n prev (g :: gs) 0 = segmentFailure n prev g := (segmentFailure_eq n prev g).symm

theorem faultAt_succ (n : Nat) (prev : Option SegmentField) (g : SegmentField) (gs : List SegmentField) (j : Nat) :
    faultAt n prev (g :: gs) (j + 1) = faultAt n (some g) gs j := by
  cases j <;> rfl

theorem planFailure_failed {n : Nat} {prev : Option SegmentField} {g : SegmentField} {f : PlanFailure}
    (h : segmentFailure n prev g = some f) (gs : List SegmentField) (i : Nat) :
    planFailure n prev (g :: gs) i = some (f, i) := by rw [planFailure, h]

theorem planFailure_passed {n : Nat} {prev : Option SegmentField} {g : SegmentField}
    (h : segmentFailure n prev g = none) (gs : List SegmentField) (i : Nat) :
    planFailure n prev (g :: gs) i = planFailure n (some g) gs (i + 1) := by rw [planFailure, h]

/-- The failure that a PLAN_SET names is that of the first segment that fails, with its position. -/
theorem planFailure_first {n i at_ : Nat} {prev : Option SegmentField} {gs : List SegmentField} {kind : PlanFailure}
    (fails : faultAt n prev gs i = some kind) (first : ∀ j, j < i → faultAt n prev gs j = none) :
    planFailure n prev gs at_ = some (kind, at_ + i) := by
  induction gs generalizing prev i at_ with
  | nil => cases fails
  | cons g gs ih =>
    cases i with
    | zero => exact planFailure_failed (faultAt_zero n prev g gs ▸ fails) gs at_
    | succ i =>
      have passed := first 0 (Nat.succ_pos i)
      rw [faultAt_zero] at passed
      rw [faultAt_succ] at fails
      have earlier : ∀ j, j < i → faultAt n (some g) gs j = none := fun j hj =>
        faultAt_succ n prev g gs j ▸ first (j + 1) (Nat.succ_lt_succ hj)
      rw [planFailure_passed passed, ih fails earlier, Nat.add_right_comm, Nat.add_assoc]

theorem planFailure_position {n at_ : Nat} {prev : Option SegmentField} {gs : List SegmentField}
    {x : PlanFailure × Nat} (h : planFailure n prev gs at_ = some x) : at_ ≤ x.2 := by
  induction gs generalizing prev at_ with
  | nil => cases h
  | cons g gs ih =>
    cases hg : segmentFailure n prev g with
    | some f => rw [planFailure_failed hg] at h; cases h; exact le_rfl
    | none => rw [planFailure_passed hg] at h; exact Nat.le_of_succ_le (ih h)

/-- No segment fails where all lie in their ranges, in order and sharing no leaf (R35, R36). -/
theorem planFailure_none {n at_ : Nat} {prev : Option SegmentField} {gs : List SegmentField}
    (before : ∀ p, prev = some p → p.first ≤ p.last) :
    planFailure n prev gs at_ = none ↔
      (∀ g ∈ gs, inPlan n g) ∧ (∀ p, prev = some p → ∀ g ∈ gs, p.last < g.first)
        ∧ gs.Pairwise fun x y => x.last < y.first := by
  induction gs generalizing prev at_ with
  | nil => simp [planFailure]
  | cons g gs ih =>
    have step : planFailure n prev (g :: gs) at_ = none ↔
        segmentFailure n prev g = none ∧ planFailure n (some g) gs (at_ + 1) = none := by
      cases hg : segmentFailure n prev g with
      | some f => simp [planFailure_failed hg]
      | none => simp [planFailure_passed hg]
    rw [step, segmentFailure_none before, List.forall_mem_cons, List.pairwise_cons]
    constructor
    · rintro ⟨⟨ranges, behind⟩, rest⟩
      have nonempty := ranges.nonempty
      obtain ⟨restRanges, later, ordered⟩ := (ih fun p hp => by cases hp; exact nonempty).mp rest
      refine ⟨⟨ranges, restRanges⟩, fun p hp => ?_, later g rfl, ordered⟩
      have := behind p hp
      exact List.forall_mem_cons.mpr ⟨this, fun x hx => by have := later g rfl x hx; omega⟩
    · rintro ⟨⟨ranges, restRanges⟩, behind, later, ordered⟩
      have nonempty := ranges.nonempty
      exact ⟨⟨ranges, fun p hp => behind p hp g List.mem_cons_self⟩,
        (ih fun p hp => by cases hp; exact nonempty).mpr ⟨restRanges, fun p hp => by cases hp; exact later, ordered⟩⟩

/-! ### The request -/

/-- A PLAN_SET leaves what its owner decides in the part awake. -/
theorem exec_planSet {tag : Byte} {gs : List SegmentField} {s u : State} {r : Result} {f : Fields}
    (h : decidePlanSet gs (awake 0x1B#8 s) = (u, r, f)) :
    exec (.planSet tag gs) s = .next (replied 0x1B#8 tag r f u) := by
  show Host.Outcome.next (serve 0x1B#8 tag (decidePlanSet gs) s) = _
  rw [serve, restartIdle_wakeIfIdle, h]
  rfl

theorem decidePlanSet_wrongState {gs : List SegmentField} {a : State}
    (h : a.volume.state = .empty ∨ a.volume.state = .closed) : decidePlanSet gs a = (a, .wrongState, .none) := if_pos h

section
variable {gs : List SegmentField} {a : State} (loaded : a.volume.state = .loaded ∨ a.volume.state = .opened)
include loaded

theorem decidePlanSet_count (long : 24 < gs.length) :
    decidePlanSet gs a = (a, .badField, .planFailure .count 25) := by
  rw [decidePlanSet, if_neg (by rcases loaded with h | h <;> simp [h])]
  exact if_pos long

/-- A list that is not too long is decided by its first failure. -/
theorem decidePlanSet_short (short : gs.length ≤ 24) :
    decidePlanSet gs a = (planFailure a.volume.leafCount none gs 1).elim
      ({ a with plan := gs.map toSegment }, .accepted, .planSet gs.length)
      fun x => (a, .badField, .planFailure x.1 x.2) := by
  rw [decidePlanSet, if_neg (by rcases loaded with h | h <;> simp [h])]
  refine (if_neg (Nat.not_lt.mpr short)).trans ?_
  cases planFailure a.volume.leafCount none gs 1 <;> rfl

theorem decidePlanSet_failure (short : gs.length ≤ 24) {x : PlanFailure × Nat}
    (fails : planFailure a.volume.leafCount none gs 1 = some x) :
    decidePlanSet gs a = (a, .badField, .planFailure x.1 x.2) := by
  rw [decidePlanSet_short loaded short, fails]
  rfl

theorem decidePlanSet_taken (short : gs.length ≤ 24) (passes : planFailure a.volume.leafCount none gs 1 = none) :
    decidePlanSet gs a = ({ a with plan := gs.map toSegment }, .accepted, .planSet gs.length) := by
  rw [decidePlanSet_short loaded short, passes]
  rfl

end

end Sys2Proof.Machine

namespace Sys2Proof
open Machine

/-- Settles O36: the checks of the segments, one after another, pass exactly for the ordered lists, and the first that fails is
the one named. -/
theorem planSetTakesOrderedSegmentsAlone : Obligations.PlanSetTakesOrderedSegmentsAlone := by
  intro tag gs s a ha
  subst ha
  have passes_iff := planFailure_none (n := (awake 0x1B#8 s).volume.leafCount) (at_ := 1) (prev := none) (gs := gs)
    (by simp)
  refine ⟨fun h => exec_planSet (decidePlanSet_wrongState h), fun loaded => ⟨?taken, ?refused, ?count, ?first⟩⟩
  case taken =>
    rintro ⟨short, ranges, ordered⟩
    exact exec_planSet (decidePlanSet_taken loaded short (passes_iff.mpr ⟨ranges, by simp, ordered⟩))
  case refused =>
    intro unfit
    rcases Nat.lt_or_ge 24 gs.length with long | short
    · exact ⟨_, _, by omega, exec_planSet (decidePlanSet_count loaded long)⟩
    · cases fails : planFailure (awake 0x1B#8 s).volume.leafCount none gs 1 with
      | none =>
        obtain ⟨ranges, -, ordered⟩ := passes_iff.mp fails
        exact absurd ⟨short, ranges, ordered⟩ unfit
      | some x => exact ⟨x.1, x.2, planFailure_position fails, exec_planSet (decidePlanSet_failure loaded short fails)⟩
  case count => exact fun long => exec_planSet (decidePlanSet_count loaded long)
  case first =>
    intro fault i kind short spec fails earlier
    obtain rfl : fault = faultAt (awake 0x1B#8 s).volume.leafCount none gs := funext spec
    have named := planFailure_first (at_ := 1) fails earlier
    rw [Nat.add_comm] at named
    exact exec_planSet (decidePlanSet_failure loaded short named)

end Sys2Proof
end

