-- ==== Sys2Proof/Proofs/Labels.lean ====
section
/-! The label of a face (R39, R40, R41). -/
namespace Sys2Proof.Machine

/-! ### The decimal form -/

theorem decimalDigits_append (fuel n : Nat) (acc : Text) :
    decimalDigits fuel n acc = decimalDigits fuel n [] ++ acc := by
  induction fuel generalizing n acc with
  | zero => rfl
  | succ fuel ih =>
    unfold decimalDigits
    dsimp only
    split
    · rfl
    · rw [ih, ih (n / 10) [_], List.append_assoc, List.singleton_append]

/-- More fuel than the number needs writes no more digits. -/
theorem decimalDigits_fuel {n f g : Nat} (hf : n < f) (hg : n < g) (acc : Text) :
    decimalDigits f n acc = decimalDigits g n acc := by
  induction f generalizing n g acc with
  | zero => exact absurd hf (Nat.not_lt_zero n)
  | succ f ih =>
    cases g with
    | zero => exact absurd hg (Nat.not_lt_zero n)
    | succ g =>
      unfold decimalDigits
      dsimp only
      split
      · rfl
      · exact ih (by omega) (by omega) _

theorem decimal_digit {n : Nat} (h : n < 10) : decimal n = [BitVec.ofNat 8 (48 + n)] := by
  rw [decimal, decimalDigits, Nat.mod_eq_of_lt h]
  exact if_pos h

theorem decimal_append_digit {n : Nat} (h : 10 ≤ n) :
    decimal n = decimal (n / 10) ++ [BitVec.ofNat 8 (48 + n % 10)] := by
  rw [decimal, decimalDigits]
  refine (if_neg (Nat.not_lt.mpr h)).trans ?_
  rw [decimalDigits_append, decimal, decimalDigits_fuel (by omega) (Nat.lt_succ_self (n / 10))]

/-! ### The roman form -/

/-- The roman table as the statement writes it. -/
theorem romanTable_eq : romanTable =
    ([(1000, "m"), (900, "cm"), (500, "d"), (400, "cd"), (100, "c"), (90, "xc"), (50, "l"), (40, "xl"),
      (10, "x"), (9, "ix"), (5, "v"), (4, "iv"), (1, "i")] : List (Nat × String)).map
        fun x => (x.1, ascii x.2.toList) := rfl

theorem romanTable_descending : romanTable.Pairwise fun x y => y.1 < x.1 := by decide

theorem romanTable_pos : ∀ x ∈ romanTable, 0 < x.1 := by decide

/-- A value above the number writes no letters. -/
theorem romanLetters_skip {w n : Nat} (h : n < w) (u : Text) (rest : List (Nat × Text)) :
    romanLetters ((w, u) :: rest) n = romanLetters rest n := by
  simp [romanLetters, Nat.div_eq_of_lt h, Nat.mod_eq_of_lt h]

/-- A value not above the number writes its letters, and then the table writes what remains. -/
theorem romanLetters_take {v n : Nat} (pos : 0 < v) (le : v ≤ n) (t : Text) (rest : List (Nat × Text)) :
    romanLetters ((v, t) :: rest) n = t ++ romanLetters ((v, t) :: rest) (n - v) := by
  simp [romanLetters, Nat.div_eq_sub_div pos le, Nat.mod_eq_sub_mod le, List.replicate_succ]

/-- The letters of the largest value not above the number, then those of what remains (R41). -/
theorem romanLetters_greedy {table : List (Nat × Text)} {n v : Nat} {t : Text}
    (descending : table.Pairwise fun x y => y.1 < x.1) (mem : (v, t) ∈ table) (pos : 0 < v) (le : v ≤ n)
    (largest : ∀ x ∈ table, x.1 ≤ n → x.1 ≤ v) : romanLetters table n = t ++ romanLetters table (n - v) := by
  induction table with
  | nil => cases mem
  | cons x rest ih =>
    obtain ⟨above, descending⟩ := List.pairwise_cons.mp descending
    rcases List.mem_cons.mp mem with rfl | mem
    · exact romanLetters_take pos le t rest
    · have below : v < x.1 := above _ mem
      have skipped : n < x.1 := by
        by_contra hn
        have := largest x List.mem_cons_self (by omega)
        omega
      rw [romanLetters_skip skipped, romanLetters_skip (Nat.lt_of_le_of_lt (Nat.sub_le n v) skipped)]
      exact ih descending mem fun y hy => largest y (List.mem_cons_of_mem x hy)

/-- The value that a greedy reading of the table takes off a number. -/
structure IsLargest (n v : Nat) (t : Text) : Prop where
  mem : (v, t) ∈ romanTable
  le : v ≤ n
  largest : ∀ x ∈ romanTable, x.1 ≤ n → x.1 ≤ v

theorem exists_isLargest {n : Nat} (h : 1 ≤ n) : ∃ v t, IsLargest n v t := by
  have one : (1, ascii ['i']) ∈ romanTable.toFinset.filter fun x => x.1 ≤ n := by
    simp only [Finset.mem_filter, List.mem_toFinset]
    exact ⟨by decide, h⟩
  obtain ⟨⟨v, t⟩, mem, largest⟩ := Finset.exists_max_image _ Prod.fst ⟨_, one⟩
  simp only [Finset.mem_filter, List.mem_toFinset] at mem largest
  exact ⟨v, t, mem.1, mem.2, fun x hx hn => largest x ⟨hx, hn⟩⟩

theorem roman_eq {n : Nat} (h : n ≤ 3999) : roman n = romanLetters romanTable n := if_pos h

theorem roman_greedy {n v : Nat} {t : Text} (g : IsLargest n v t) (h : n ≤ 3999) :
    roman n = t ++ roman (n - v) := by
  rw [roman_eq h, roman_eq (by omega)]
  exact romanLetters_greedy romanTable_descending g.mem (romanTable_pos _ g.mem) g.le g.largest

/-! ### Reading the roman form back -/

/-- The value of a letter, 0 for what is none. -/
def letterValue (b : Byte) : Nat := ((romanTable.find? fun x => x.2 == [b]).map fun x => x.1).getD 0

/-- The number that a roman form stands for: a letter before a greater one is taken off. -/
def readRoman : Text → Nat
  | [] => 0
  | b :: bs =>
    if letterValue b < letterValue (bs.headD 0) then readRoman bs - letterValue b else letterValue b + readRoman bs

theorem letterValue_table (b : Byte) : letterValue b = 0 ∨ ∃ x ∈ romanTable, x.1 = letterValue b := by
  unfold letterValue
  cases h : romanTable.find? fun x => x.2 == [b] with
  | none => exact .inl rfl
  | some x => exact .inr ⟨x, List.mem_of_find?_eq_some h, rfl⟩

/-- The letters of a value spell it: one letter of that value, or a letter and a greater one that it is taken off. -/
def spells (v : Nat) : Text → Bool
  | [b] => decide (letterValue b = v)
  | [a, b] => decide (letterValue a ≤ v) && decide (0 < v) && decide (v + letterValue a = letterValue b)
  | _ => false

theorem romanTable_spells : ∀ x ∈ romanTable, spells x.1 x.2 = true := by decide

/-- Letters that spell a value are read as it, before letters that begin with no greater one. -/
theorem readRoman_spells {v : Nat} {t r : Text} (h : spells v t = true) (lower : letterValue (r.headD 0) ≤ v) :
    readRoman (t ++ r) = v + readRoman r ∧ letterValue ((t ++ r).headD 0) ≤ v := by
  unfold spells at h
  split at h
  · rename_i b
    obtain rfl := of_decide_eq_true h
    exact ⟨if_neg (Nat.not_lt.mpr lower), le_rfl⟩
  · rename_i a b
    simp only [Bool.and_eq_true, decide_eq_true_eq] at h
    obtain ⟨⟨small, pos⟩, taken⟩ := h
    have second : readRoman (b :: r) = letterValue b + readRoman r := if_neg (by omega)
    have first : readRoman (a :: b :: r) = readRoman (b :: r) - letterValue a :=
      if_pos (show letterValue a < letterValue b by omega)
    refine ⟨?_, small⟩
    show readRoman (a :: b :: r) = _
    omega
  · cases h

/-- A roman form is read back as its number, and its first letter is worth no more. -/
theorem readRoman_roman (n : Nat) (h : n ≤ 3999) :
    readRoman (roman n) = n ∧ letterValue ((roman n).headD 0) ≤ n := by
  induction n using Nat.strong_induction_on with
  | _ n ih =>
    rcases Nat.eq_zero_or_pos n with rfl | pos
    · decide
    · obtain ⟨v, t, g⟩ := exists_isLargest pos
      have vpos : 0 < v := romanTable_pos _ g.mem
      have le := g.le
      obtain ⟨read, head⟩ := ih (n - v) (by omega) (by omega)
      have lower : letterValue ((roman (n - v)).headD 0) ≤ v := by
        rcases letterValue_table ((roman (n - v)).headD 0) with zero | ⟨x, hx, value⟩
        · omega
        · rw [← value]; exact g.largest x hx (by omega)
      have spelt : spells v t = true := romanTable_spells _ g.mem
      obtain ⟨whole, first⟩ := readRoman_spells spelt lower
      rw [roman_greedy g h]
      exact ⟨by omega, first.trans le⟩

theorem roman_injective {n m : Nat} (hn : n ≤ 3999) (hm : m ≤ 3999) (h : roman n = roman m) : n = m := by
  rw [← (readRoman_roman n hn).1, h, (readRoman_roman m hm).1]

/-! ### The length of the roman form -/

theorem length_romanLetters_cons (v : Nat) (t : Text) (rest : List (Nat × Text)) (n : Nat) :
    (romanLetters ((v, t) :: rest) n).length = n / v * t.length + (romanLetters rest (n % v)).length := by
  simp [romanLetters]

/-- The values of one decade and their letters: 9, 5, 4 and 1 of its unit. -/
def romanDecade (u : Nat) (one five ten : Byte) : List (Nat × Text) :=
  [(9 * u, [one, ten]), (5 * u, [five]), (4 * u, [one, five]), (u, [one])]

/-- The thousands, then the hundreds of c, d and m, the tens of x, l and c, and the units of i, v and x. -/
theorem romanTable_decades : romanTable = (1000, [0x6D#8]) ::
    (romanDecade 100 0x63#8 0x64#8 0x6D#8 ++ (romanDecade 10 0x78#8 0x6C#8 0x63#8
      ++ romanDecade 1 0x69#8 0x76#8 0x78#8)) := rfl

/-- A decade writes at most four letters and leaves less than its unit. -/
theorem romanDecade_length {u n : Nat} (unit : u = 100 ∨ u = 10 ∨ u = 1) (h : n < 10 * u) (one five ten : Byte)
    (rest : List (Nat × Text)) :
    ∃ m, m < u ∧ (romanLetters (romanDecade u one five ten ++ rest) n).length ≤ 4 + (romanLetters rest m).length := by
  refine ⟨n % (9 * u) % (5 * u) % (4 * u) % u, Nat.mod_lt _ (by omega), ?_⟩
  simp only [romanDecade, List.cons_append, List.nil_append, length_romanLetters_cons, List.length_cons, List.length_nil]
  generalize (romanLetters rest _).length = l
  rcases unit with rfl | rfl | rfl <;> omega

theorem roman_length {n : Nat} (h : n ≤ 3999) : (roman n).length ≤ 15 := by
  have hundredsBelow : n % 1000 < 10 * 100 := Nat.mod_lt n (by decide)
  obtain ⟨tens, tensBelow, hundredsLength⟩ := romanDecade_length (.inl rfl) hundredsBelow 0x63#8 0x64#8 0x6D#8
    (romanDecade 10 0x78#8 0x6C#8 0x63#8 ++ romanDecade 1 0x69#8 0x76#8 0x78#8)
  obtain ⟨units, unitsBelow, tensLength⟩ := romanDecade_length (.inr (.inl rfl)) tensBelow 0x78#8 0x6C#8 0x63#8
    (romanDecade 1 0x69#8 0x76#8 0x78#8)
  obtain ⟨nothing, -, unitsLength⟩ := romanDecade_length (.inr (.inr rfl)) unitsBelow 0x69#8 0x76#8 0x78#8 []
  have empty : (romanLetters [] nothing).length = 0 := rfl
  rw [List.append_nil] at unitsLength
  rw [roman_eq h, romanTable_decades, length_romanLetters_cons, List.length_singleton]
  omega

/-! ### The label -/

/-- A leaf in a segment of an ordered plan lies in that segment alone (R35, R39). -/
theorem segmentOf_eq {plan : List Segment} {i : Nat} {g : Segment} (mem : g ∈ plan) (first : g.first ≤ i)
    (last : i ≤ g.last) (ordered : plan.Pairwise fun x y => x.last < y.first) : segmentOf plan i = some g := by
  induction plan with
  | nil => cases mem
  | cons x plan ih =>
    obtain ⟨behind, ordered⟩ := List.pairwise_cons.mp ordered
    unfold segmentOf
    rcases List.mem_cons.mp mem with rfl | mem
    · exact List.find?_cons_of_pos (by simp [first, last])
    · have := behind g mem
      rw [List.find?_cons_of_neg (by simp; omega)]
      exact ih mem ordered

theorem faceLabel_inner {plan : List Segment} {n i : Nat} (first : 1 ≤ i) (last : i ≤ n) (verso : Bool) :
    faceLabel plan n i verso = (segmentOf plan i).elim
      (ascii ['['] ++ decimal i ++ (if verso then ascii [']', 'v'] else ascii [']', 'r']))
      fun g => g.pfx ++ labelBody g.scheme g.start (i - g.first) verso := by
  rw [faceLabel, if_neg (by omega), if_neg (by omega)]
  cases segmentOf plan i <;> rfl

/-- The body of a label as the statement writes it (R40). -/
theorem labelBody_eq (scheme : Scheme) (start d : Nat) (verso : Bool) :
    labelBody scheme start d verso =
      match scheme with
      | .foliated => decimal (start + d) ++ ascii (if verso then ['v'] else ['r'])
      | .paginated => ascii "p. ".toList ++ decimal (start + 2 * d + (if verso then 1 else 0))
      | .roman => roman (start + 2 * d + (if verso then 1 else 0))
      | .unnumbered => ascii ['['] ++ decimal (start + d) ++ ascii (if verso then [']', 'v'] else [']', 'r'])
      | .plate => ascii "pl. ".toList ++ decimal (start + d) ++ ascii (if verso then " verso".toList else []) := by
  cases scheme with
  | plate => cases verso with
    | false => exact (List.append_nil _).symm
    | true => rfl
  | foliated | paginated | roman | unnumbered => cases verso <;> rfl

end Sys2Proof.Machine

namespace Sys2Proof
open Machine

/-- Settles O37: the segment of a leaf is the only one it lies in; the roman form is greedy, and reading it back gives its
number. -/
theorem labelsFollowThePlan : Obligations.LabelsFollowThePlan := by
  refine ⟨fun plan n => ⟨rfl, ?_⟩, ?segment, ?unplanned, fun n h => decimal_digit h, fun n h => decimal_append_digit h,
    fun n h => if_neg (Nat.not_le.mpr h), rfl, ?greedy, fun n m _ hn _ hm h => roman_injective hn hm h,
    fun n _ h => roman_length h⟩
  · rw [faceLabel, if_neg (by simp), if_pos ⟨rfl, rfl⟩]
    rfl
  case segment =>
    rintro plan n i g verso h1 hn mem first last ordered d rfl
    rw [faceLabel_inner h1 hn, segmentOf_eq mem first last ordered]
    exact congrArg (g.pfx ++ ·) (labelBody_eq g.scheme g.start (i - g.first) verso)
  case unplanned =>
    intro plan n i verso h1 hn outside
    have unsegmented : segmentOf plan i = none := List.find?_eq_none.mpr fun g hg => by simpa using outside g hg
    rw [faceLabel_inner h1 hn, unsegmented]
    cases verso <;> rfl
  case greedy =>
    rintro n v letters table rfl mem le h largest
    have entry : ∀ x ∈ romanTable, x.1 ≤ n → x.1 ≤ v := by
      rw [romanTable_eq]
      simpa only [List.forall_mem_map] using largest
    exact roman_greedy ⟨romanTable_eq ▸ List.mem_map_of_mem mem, le, entry⟩ h

end Sys2Proof
end

