-- ==== Sys2Proof/Proofs/ArmingTest.lean ====
section
/-! The arming test of a capture and its entry to TRIGGERED (R98, R117, R118, R119). -/
namespace Sys2Proof.Machine

/-! ### Plain updates as records -/

/-- The idle timer restarts, and nothing else changes (R142). -/
theorem restartIdle_eq (s : State) : restartIdle s = { s with time.idleStart := idleRestarted s } := by
  unfold restartIdle idleRestarted
  split <;> rfl

/-- The lines after a function's state has been driven on its line (R151). -/
def drivenLines (ls : Lines) (f : Fn) (active : Bool) : Lines :=
  { ls with
    records := (ls.binding.getD (fnCode f) none).elim ls.records fun i =>
      ls.records.modify i fun l => { l with staged := drivenValue l.polarity active } }

theorem driveFn_eq (s : State) (f : Fn) (active : Bool) :
    driveFn s f active = { s with lines := drivenLines s.lines f active } := by
  unfold driveFn drivenLines lineOf
  cases s.lines.binding.getD (fnCode f) none <;> rfl

/-! ### What lets the test be made -/

theorem sideEnded_eq : sideEnded = fun x => (sideOutcome x).isSome := by
  funext x
  unfold sideEnded sideOutcome
  cases x.stage <;> rfl

/-- A capture can end where its sides have their outcomes and no firing of it is granted (R123). -/
theorem captureDone_eq (s : State) (c : Capture) : captureDone s c = captureOver s c := by
  simp only [captureDone, captureOver, allEnded, captureGranted, Pair.toList, List.all_cons, List.all_nil, Bool.and_true,
    List.not_any_eq_all_not, sideEnded_eq, decide_not]

theorem contains_captureBanks (c : Capture) (bk : Bank) :
    (captureBanks c).contains bk = (wants c.order.sides bk.side && decide (0 < c.levels.get bk)) := by
  have mem : bk ∈ allBanks := by cases bk <;> decide
  rw [Bool.eq_iff_iff, List.contains_iff_mem]
  simp [captureBanks, neededBanks, mem]

/-- A bank of the capture waits for neither its READY nor its hood (R117). -/
theorem bankMet_iff {s : State} {c : Capture} {bk : Bank} {needed : Bool}
    (h : needed = (wants c.order.sides bk.side && decide (0 < c.levels.get bk))) :
    (!needed || decide ((getBank s bk).state = .ready) && decide ((getBank s bk).hood.state = .opened)) = true ↔
      bankUnmet s c (fun r => decide (r.state = .ready)) bk = false
        ∧ bankUnmet s c (fun r => decide (r.hood.state = .opened)) bk = false := by
  simp only [bankUnmet, contains_captureBanks, ← h]
  cases needed <;> simp

/-- The four conditions of ARMING, as the statement writes them (R117). -/
theorem armingMet_iff {s : State} {c : Capture} {m : Bank → Bool}
    (hm : ∀ bk, m bk = (wants c.order.sides bk.side && decide (0 < c.levels.get bk))) :
    armingMet s c = true ↔ s.volume.known = true ∧ s.motion.platen = .down
      ∧ ([Bank.a, .b, .c, .d].all fun bk => !m bk
        || decide ((getBank s bk).state = .ready) && decide ((getBank s bk).hood.state = .opened)) = true := by
  simp only [List.all_cons, List.all_nil, Bool.and_true, Bool.and_eq_true (!_ || _), bankMet_iff (hm _)]
  simp only [armingMet, unmetOf, Quad.toList, List.any_cons, List.any_nil, id, Bool.and_eq_true, Bool.not_eq_true',
    Bool.or_eq_false_iff, Bool.not_eq_false', decide_eq_true_eq, and_true]
  constructor
  · rintro ⟨⟨⟨known, down⟩, readyA, readyB, readyC, readyD⟩, openA, openB, openC, openD⟩
    exact ⟨known, down, ⟨readyA, openA⟩, ⟨readyB, openB⟩, ⟨readyC, openC⟩, readyD, openD⟩
  · rintro ⟨known, down, ⟨readyA, openA⟩, ⟨readyB, openB⟩, ⟨readyC, openC⟩, readyD, openD⟩
    exact ⟨⟨⟨known, down⟩, readyA, readyB, readyC, readyD⟩, openA, openB, openC, openD⟩

/-- A capture in ARMING that cannot end goes to its test when the four conditions hold, and waits otherwise (R117). -/
theorem advanceOnce_arming {s : State} {c : Capture} (hc : s.seq.capture = some c) (ht : c.t0 = none)
    (standing : captureOver s c = false) :
    advanceOnce s = if armingMet s c = true then some (armTest s c) else none := by
  simp [advanceOnce, hc, captureDone_eq, standing, ht]

/-! ### The test -/

/-- A side in ARMING ends, as the statement writes it. -/
theorem endArming_eq (o : SideOutcome) :
    endArming o = fun y => if y.stage = .arming then { y with stage := .ended o } else y := by
  funext y
  unfold endArming
  cases h : y.stage <;> simp

/-- The capture whose test failed: every side in ARMING ends, with the figures of the failure (R118). -/
def testFailed (s : State) (c : Capture) (o : SideOutcome) (figures : Option Figures) : State :=
  { s with
    seq.capture := some
      { c with
        opening := some (s.volume.k, s.volume.known), deadline := none, figures := figures
        sides :=
          ⟨c.sides.l.map fun y => if y.stage = .arming then { y with stage := .ended o } else y,
           c.sides.r.map fun y => if y.stage = .arming then { y with stage := .ended o } else y⟩ } }

/-- The capture that a test leaves, at its opening and with its timeout over. -/
theorem testFailed_eq (s : State) (c : Capture) (o : SideOutcome) (figures : Option Figures) :
    { s with
      seq.capture := some
        { endCaptureArming o { c with opening := some (s.volume.k, s.volume.known), deadline := none } with
          figures := figures } } = testFailed s c o figures := by
  rw [endCaptureArming, endArming_eq]
  rfl

theorem camerasEquipped_iff (s : State) (x : Sides) :
    (wants x .left && ([Fn.camLTrigger, .camLSync, .camLStored].any fun f => (lineOf s f).isNone)
      || wants x .right && ([Fn.camRTrigger, .camRSync, .camRStored].any fun f => (lineOf s f).isNone)) =
      !camerasEquipped s x := by
  simp only [camerasEquipped, allSides, cameraEquipped, fnBound, List.any_cons, List.any_nil, List.all_cons, List.all_nil,
    Bool.or_false, Bool.and_true, Bool.not_and, Bool.not_or, Bool.not_not, Option.not_isSome, Bool.or_assoc]

theorem armTest_notEquipped {s : State} {c : Capture} (h : camerasEquipped s c.order.sides = false) :
    armTest s c = testFailed s c .notEquipped c.figures := by
  rw [← testFailed_eq, armTest]
  exact if_pos (by rw [h]; rfl)

section
variable {s : State} {c : Capture} (equipped : camerasEquipped s c.order.sides = true)
include equipped

/-- With the cameras bound the precheck decides (R118). -/
theorem armTest_uncalibrated {bk : Bank}
    (h : precheck s c.seq s.volume.k c.order.sides c.levels c.duration = .error (.uncalibrated bk)) :
    armTest s c = testFailed s c .notCalibrated (some (.uncalibrated bk)) := by
  rw [← testFailed_eq, armTest, h]
  exact if_neg (by rw [equipped]; decide)

theorem armTest_doseCeiling {e : Figures}
    (h : precheck s c.seq s.volume.k c.order.sides c.levels c.duration = .error e)
    (dose : ∀ bk, e ≠ .uncalibrated bk) : armTest s c = testFailed s c .doseCeiling (some e) := by
  rw [← testFailed_eq, armTest, h]
  refine (if_neg (by rw [equipped]; decide)).trans ?_
  cases e with
  | uncalibrated bk => exact absurd rfl (dose bk)
  | leftLeaf | rightLeaf | volume => rfl

theorem armTest_triggered {p : Prediction}
    (h : precheck s c.seq s.volume.k c.order.sides c.levels c.duration = .ok p) :
    armTest s c =
      enterTriggered s { c with opening := some (s.volume.k, s.volume.known), deadline := none } p := by
  rw [armTest, h]
  exact if_neg (by rw [equipped]; decide)

end

/-! ### Entry to TRIGGERED -/

/-- The end of a side's trigger pulse at T0: that of the new pulse where the side is requested (R119). -/
def pulseAt (s : State) (x : Sides) (sd : Side) : Option Nat :=
  if wants x sd then some (s.time.clock + (s.seq.cameras.get sd).pulse) else s.seq.pulses.get sd

/-- The trigger function of a requested side is driven active (R119). -/
def triggered (x : Sides) (f : Fn) (sd : Side) (s : State) : State := if wants x sd then driveFn s f true else s

theorem triggered_eq (x : Sides) (f : Fn) (sd : Side) (s : State) :
    triggered x f sd s = { s with lines := if wants x sd then drivenLines s.lines f true else s.lines } := by
  unfold triggered
  split
  · exact driveFn_eq s f true
  · rfl

theorem startPulse_eq (c : Capture) (s : State) (sd : Side) :
    startPulse c s sd = triggered c.order.sides (triggerFn sd) sd
      { s with seq.pulses := s.seq.pulses.set sd (pulseAt s c.order.sides sd) } := by
  unfold startPulse triggered pulseAt
  split
  · rfl
  · cases sd <;> rfl

/-- Entry to TRIGGERED: the profiles, the pulses, the lighting interval and the prediction, and the idle timer (R119, R129). -/
theorem enterTriggered_eq (s : State) (c : Capture) (p : Prediction) :
    enterTriggered s c p = triggered c.order.sides .camRTrigger .right (triggered c.order.sides .camLTrigger .left
      { s with
        time.idleStart := idleRestarted s
        dose.prediction := some p, dose.credit := ⟨0, 0⟩, lamps.interval := some c.seq
        seq.pulses := ⟨pulseAt s c.order.sides .left, pulseAt s c.order.sides .right⟩
        seq.capture := some
          { c with
            deadline := none, t0 := some s.time.clock
            sides :=
              ⟨c.sides.l.map fun y => { y with stage := .waiting, camera := s.seq.cameras.l },
               c.sides.r.map fun y => { y with stage := .waiting, camera := s.seq.cameras.r }⟩ } }) := by
  rw [enterTriggered, foldl_allSides, startPulse_eq, startPulse_eq, restartIdle_eq]
  simp only [triggered_eq]
  rfl

end Sys2Proof.Machine
end

