-- ==== Sys2Proof/Proofs/CameraEdges.lean ====
section
/-! The camera edges of a capture in flight and the answers to its asks (R24, R74, R120, R121, R122). -/
namespace Sys2Proof.Machine

/-! ### One side of the capture in flight -/

/-- The state whose capture in flight is `c` with the record `x` for a side. -/
def withSide (s : State) (c : Capture) (sd : Side) (x : SideRec) : State :=
  { s with seq.capture := some { c with sides := c.sides.set sd (some x) } }

theorem pair_set_set {α : Type} (p : Pair α) (sd : Side) (v w : α) : (p.set sd v).set sd w = p.set sd w := by
  cases sd <;> rfl

theorem modifySide_eq {s : State} {c : Capture} {sd : Side} {x : SideRec} (hc : s.seq.capture = some c)
    (hx : c.sides.get sd = some x) (f : SideRec → SideRec) : modifySide s sd f = withSide s c sd (f x) := by
  rw [modifySide, hc, Option.map_some, hx]
  rfl

theorem modifySide_withSide (s : State) (c : Capture) (sd : Side) (x : SideRec) (f : SideRec → SideRec) :
    modifySide (withSide s c sd x) sd f = withSide s c sd (f x) := by
  rw [modifySide_eq rfl (pair_get_set ..), withSide, withSide, pair_set_set]
  rfl

/-- The idle timer restarts over a change of one side. -/
theorem restartIdle_withSide (s : State) (c : Capture) (sd : Side) (x : SideRec) :
    restartIdle (withSide s c sd x) = withSide { s with time.idleStart := idleRestarted s } c sd x :=
  restartIdle_eq _

/-! ### The flash spacing -/

theorem later_cases {x y : Option Nat} {m : Nat} (h : later x y = some m) : x = some m ∨ y = some m := by
  cases x with
  | none => exact .inr h
  | some a => cases y with
    | none => exact .inl h
    | some b => cases h; rcases max_choice a b with e | e <;> simp [e]

theorem later_le {x y : Option Nat} {u : Nat} (h : x = some u ∨ y = some u) : ∃ m, later x y = some m ∧ u ≤ m := by
  cases x with
  | none => exact ⟨u, h.resolve_left (by simp), le_rfl⟩
  | some a => cases y with
    | none => exact ⟨u, h.resolve_right (by simp), le_rfl⟩
    | some b => exact ⟨max a b, rfl, by simp at h; omega⟩

/-- A fold of `later` is one of its times, and none of them is later. -/
theorem foldl_later (g : Bank → Option Nat) (bs : List Bank) (init : Option Nat) :
    (∀ m, bs.foldl (fun t x => later t (g x)) init = some m → init = some m ∨ ∃ x ∈ bs, g x = some m)
      ∧ ∀ u, (init = some u ∨ ∃ x ∈ bs, g x = some u) →
        ∃ m, bs.foldl (fun t x => later t (g x)) init = some m ∧ u ≤ m := by
  induction bs generalizing init with
  | nil => exact ⟨fun m h => .inl h, fun u h => ⟨u, by simpa using h, le_rfl⟩⟩
  | cons bk bs ih =>
    obtain ⟨among, last⟩ := ih (later init (g bk))
    constructor
    · intro m h
      rcases among m h with h | ⟨x, hx, h⟩
      · rcases later_cases h with h | h
        · exact .inl h
        · exact .inr ⟨bk, List.mem_cons_self, h⟩
      · exact .inr ⟨x, List.mem_cons_of_mem bk hx, h⟩
    · intro u h
      have step : (∃ m, later init (g bk) = some m ∧ u ≤ m) ∨ ∃ x ∈ bs, g x = some u := by
        rcases h with h | ⟨x, hx, h⟩
        · exact .inl (later_le (.inl h))
        · rcases List.mem_cons.mp hx with rfl | hx
          · exact .inl (later_le (.inr h))
          · exact .inr ⟨x, hx, h⟩
      rcases step with ⟨m, h, le⟩ | h
      · obtain ⟨n, hn, le'⟩ := last m (.inl h)
        exact ⟨n, hn, le.trans le'⟩
      · exact last u (.inr h)

/-- The time that the spacing grants is the earliest that keeps 1,500 µs from the other banks (R74). -/
theorem grantTime_grantedFor (s : State) (bk : Bank) (t : Nat) : grantedFor s bk t (grantTime s bk t) := by
  have others : ∀ x, x ∈ allBanks.filter (fun x => decide (x ≠ bk)) ↔ x ≠ bk := fun x => by
    cases x <;> simp [allBanks]
  obtain ⟨among, last⟩ := foldl_later (fun x => (getBank s x).latest) (allBanks.filter fun x => decide (x ≠ bk)) none
  unfold grantTime
  cases h : latestOther s bk with
  | none =>
    refine ⟨le_rfl, fun x u hx hu => ?_, .inl rfl⟩
    obtain ⟨m, hm, -⟩ := last u (.inr ⟨x, (others x).mpr hx, hu⟩)
    exact absurd (h.symm.trans hm) (by simp)
  | some m =>
    refine ⟨le_max_left _ _, fun x u hx hu => ?_, ?_⟩
    · obtain ⟨n, hn, le⟩ := last u (.inr ⟨x, (others x).mpr hx, hu⟩)
      obtain rfl : m = n := Option.some.inj (h.symm.trans hn)
      exact (Nat.add_le_add_right le 1500).trans (le_max_right _ _)
    · rcases max_choice t (m + spacing) with e | e
      · exact .inl e
      · rcases among m h with never | ⟨x, hx, hm⟩
        · cases never
        · exact .inr ⟨x, m, (others x).mp hx, hm, e.symm⟩

/-- A firing asked for is entered in the schedule at its granted time (R74). -/
theorem askFiring_eq (s : State) (bk : Bank) (t level duration n : Nat) :
    askFiring s bk t level duration (some n) = scheduled s bk (grantTime s bk t) level duration n := by
  have latest : later (getBank s bk).latest (some (grantTime s bk t))
      = some (max (grantTime s bk t) ((getBank s bk).latest.getD (grantTime s bk t))) := by
    cases (getBank s bk).latest with
    | none => exact congrArg some (max_self _).symm
    | some u => exact congrArg some (max_comm u _)
  unfold askFiring
  dsimp only
  rw [modifyBank, latest]
  rfl

/-! ### The sync edge -/

/-- A side asks for a firing of one bank (R121). -/
theorem askOne_withSide (s : State) (c : Capture) (sd : Side) (x : SideRec) (bk : Bank) (t : Nat) :
    askOne (withSide s c sd x) c sd bk t =
      withSide (scheduled s bk (grantTime s bk t) (c.levels.get bk) c.duration c.seq) c sd
        { x with asks := x.asks ++ [⟨bk, grantTime s bk t, none⟩] } := by
  unfold askOne
  dsimp only
  rw [askFiring_eq]
  exact modifySide_withSide (scheduled s bk (grantTime s bk t) (c.levels.get bk) c.duration c.seq) c sd x _

/-- A side asks for its banks one after another, each with a firing granted (R121). -/
theorem askBanks_withSide (s : State) (c : Capture) (sd : Side) (x : SideRec) (bs : List Bank) (t : Nat) :
    ∃ v asks, askBanks c sd bs t (withSide s c sd x) = withSide v c sd { x with asks := x.asks ++ asks }
      ∧ asks.map (fun k => k.bank) = bs ∧ v.lamps.grants.length = s.lamps.grants.length + bs.length := by
  induction bs generalizing s x t with
  | nil => exact ⟨s, [], by rw [List.append_nil]; rfl, rfl, rfl⟩
  | cons bk bs ih =>
    rw [askBanks, askOne_withSide]
    obtain ⟨v, asks, asked, banks, grants⟩ :=
      ih (scheduled s bk (grantTime s bk t) (c.levels.get bk) c.duration c.seq)
        { x with asks := x.asks ++ [⟨bk, grantTime s bk t, none⟩] } (t + spacing)
    refine ⟨v, ⟨bk, grantTime s bk t, none⟩ :: asks, asked.trans ?_, congrArg (bk :: ·) banks, ?_⟩
    · rw [List.append_assoc]
      rfl
    · simp only [grants, scheduled, List.length_append, List.length_cons, List.length_nil]
      omega

section
variable {s : State} {c : Capture} {sd : Side} {x : SideRec} (hc : s.seq.capture = some c)
  (hx : c.sides.get sd = some x)
include hc hx

/-- A sync edge is acted upon in WAITING alone, after T0 (R120). -/
theorem syncEdge_idle (h : c.t0 = none ∨ x.stage ≠ .waiting) (t : Nat) : syncEdge s sd t = s := by
  unfold syncEdge
  rw [hc]
  dsimp only
  rw [hx]
  cases ht : c.t0 with
  | none => rfl
  | some t0 => exact if_neg (h.resolve_left (by simp [ht]))

/-- A sync edge of a WAITING side: too early, in the window, or not acted upon (R120). -/
theorem syncEdge_waiting {t0 : Nat} (ht : c.t0 = some t0) (waiting : x.stage = .waiting) (t : Nat) :
    syncEdge s sd t =
      if t0 ≤ t ∧ t < t0 + x.camera.delay then withSide s c sd { x with stage := .ended .earlySync }
      else if t0 + x.camera.delay ≤ t ∧ t < t0 + x.camera.delay + x.camera.window then
        askBanks c sd (sideBanks sd c.levels) t
          (withSide { s with time.idleStart := idleRestarted s } c sd { x with stage := .firing, syncTime := some t })
      else s := by
  unfold syncEdge
  rw [hc]
  dsimp only
  rw [hx, ht]
  dsimp only
  rw [if_pos waiting, modifySide_eq hc hx, modifySide_eq hc hx, restartIdle_withSide]

/-! ### The stored edge -/

/-- A stored edge is noted in FIRING, confirms a STORING side, and is not acted upon otherwise (R122). -/
theorem storedEdge_eq : storedEdge s sd =
    if x.stage = .firing then withSide s c sd { x with storedNoted := true }
    else if x.stage = .storing then confirmSide s c sd else s := by
  rw [← modifySide_eq hc hx fun x => { x with storedNoted := true }]
  unfold storedEdge
  rw [hc]
  dsimp only
  rw [hx]
  cases h : x.stage <;> simp [h]

theorem storedEdge_storing (h : x.stage = .storing) : storedEdge s sd = confirmSide s c sd := by
  rw [storedEdge_eq hc hx, if_neg (by simp [h]), if_pos h]

/-- The confirmation of a side gives the face of its page a take (R24, R122). -/
theorem confirmSide_eq {k leaf : Nat} {known verso : Bool} (opening : c.opening = some (k, known))
    (page : sidePage k sd = (leaf, verso)) (inTable : leaf < s.leaves.length) :
    confirmSide s c sd = withSide
      { s with
        volume.facesConfirmed := s.volume.facesConfirmed + 1
        leaves := s.leaves.set leaf (takeLeaf c.seq verso (getLeaf s leaf)) } c sd
      { x with
        stage := .ended .confirmed, storedDeadline := none
        take := some
          { leaf := leaf, verso := verso, label := faceLabel s.plan s.volume.leafCount leaf verso
            number := (leafFace (getLeaf s leaf) verso).takes + 1 } } := by
  have taken : (leafFace (takeLeaf c.seq verso (getLeaf s leaf)) verso).takes
      = (leafFace (getLeaf s leaf) verso).takes + 1 := by cases verso <;> rfl
  unfold confirmSide
  rw [opening]
  dsimp only [Option.getD_some]
  rw [page]
  dsimp only
  rw [getLeaf_modifyLeaf leaf _ s inTable, taken, modifyLeaf_eq_set]
  exact modifySide_eq (s := { s with
    volume.facesConfirmed := s.volume.facesConfirmed + 1
    leaves := s.leaves.set leaf (takeLeaf c.seq verso (getLeaf s leaf)) }) hc hx _

/-! ### The answers -/

/-- An answer is entered with the asks of its bank, and the side may leave FIRING (R121). -/
theorem answerAsk_eq {bk : Bank} (side : bk.side = sd) (a : Answer) :
    answerAsk s bk a = leaveFiring (withSide s c sd
      { x with asks := x.asks.map fun k => if k.bank = bk then { k with answer := some a } else k }) sd := by
  subst side
  rw [answerAsk, modifySide_eq hc hx]

end

theorem isFired_iff (k : Ask) : isFired k = true ↔ ∃ t, k.answer = some (.fired t) := by
  unfold isFired
  rcases k.answer with _ | _ | _ <;> simp

section
variable (s : State) (c : Capture) (sd : Side) {x : SideRec}

/-- A side with an ask not answered stays in FIRING (R121). -/
theorem leaveFiring_unanswered (h : ∃ k ∈ x.asks, k.answer = none) :
    leaveFiring (withSide s c sd x) sd = withSide s c sd x := by
  obtain ⟨k, hk, unanswered⟩ := h
  have stays : ¬(x.stage = .firing ∧ x.asks.all isAnswered = true) := fun h => by
    have := List.all_eq_true.mp h.2 k hk
    simp [isAnswered, unanswered] at this
  unfold leaveFiring
  simp only [withSide, pair_get_set]
  exact if_neg stays

/-- A side whose asks were all withdrawn is UNLIT (R121). -/
theorem leaveFiring_unlit (firing : x.stage = .firing) (h : ∀ k ∈ x.asks, k.answer = some .withdrawn) :
    leaveFiring (withSide s c sd x) sd = withSide s c sd { x with stage := .ended .unlit } := by
  have answered : x.asks.all isAnswered = true := List.all_eq_true.mpr fun k hk => by simp [isAnswered, h k hk]
  have dark : x.asks.any isFired = false := List.any_eq_false.mpr fun k hk => by simp [isFired, h k hk]
  rw [← modifySide_withSide s c sd x fun x => { x with stage := .ended .unlit }]
  unfold leaveFiring
  simp only [withSide, pair_get_set, firing, answered, dark, and_self, if_true, Bool.false_eq_true, if_false]

/-- A side that a firing lit is STORING, and a stored edge noted in FIRING confirms it at once (R121, R122). -/
theorem leaveFiring_storing (firing : x.stage = .firing) (answered : ∀ k ∈ x.asks, k.answer.isSome = true)
    (lit : ∃ k ∈ x.asks, ∃ t, k.answer = some (.fired t)) {v : State}
    (hv : v = withSide { s with time.idleStart := idleRestarted s } c sd
      { x with stage := .storing, storedDeadline := some (s.time.clock + x.camera.stored * 1000) }) :
    leaveFiring (withSide s c sd x) sd = if x.storedNoted then storedEdge v sd else v := by
  have all : x.asks.all isAnswered = true := List.all_eq_true.mpr answered
  have fired : x.asks.any isFired = true := by
    obtain ⟨k, hk, h⟩ := lit
    exact List.any_eq_true.mpr ⟨k, hk, (isFired_iff k).mpr h⟩
  have stored : storedEdge v sd = confirmSide v { c with sides := c.sides.set sd (some x) } sd := by
    subst hv
    rw [storedEdge_storing (c := { c with sides := c.sides.set sd _ }) rfl (pair_get_set ..) rfl]
    rfl
  have entered : restartIdle (modifySide (withSide s c sd x) sd fun x =>
      { x with stage := .storing, storedDeadline := some (now s + ms x.camera.stored) }) = v := by
    rw [modifySide_withSide, restartIdle_withSide, hv]
    rfl
  rw [stored]
  unfold leaveFiring
  simp only [withSide, pair_get_set] at entered ⊢
  rw [if_pos ⟨firing, all⟩, if_pos fired]
  exact congrArg (fun w => if x.storedNoted then
    confirmSide w { c with sides := c.sides.set sd (some x) } sd else w) entered

end

end Sys2Proof.Machine
end

