-- ==== Sys2Proof/Proofs/CaptureStages.lean ====
section
/-! A capture at its arming test, its camera edges and its answers (R24, R74, R98, R117 to R122, R129). -/
namespace Sys2Proof.Machine

section
variable {s : State} {c : Capture} {sd : Side} {x : SideRec} (hc : s.seq.capture = some c)
  (hx : c.sides.get sd = some x)
include hc hx

/-- A sync edge before the window opens ends the side; one outside the window is not acted upon (R120). -/
theorem syncEdge_early {t0 t : Nat} (ht : c.t0 = some t0) (waiting : x.stage = .waiting) (after : t0 ≤ t)
    (before : t < t0 + x.camera.delay) : syncEdge s sd t = withSide s c sd { x with stage := .ended .earlySync } := by
  rw [syncEdge_waiting hc hx ht waiting, if_pos ⟨after, before⟩]

theorem syncEdge_outside {t0 t : Nat} (ht : c.t0 = some t0) (waiting : x.stage = .waiting)
    (outside : t < t0 ∨ t0 + x.camera.delay + x.camera.window ≤ t) : syncEdge s sd t = s := by
  rw [syncEdge_waiting hc hx ht waiting, if_neg (by omega), if_neg (by omega)]

/-- A sync edge in the window asks for the side's banks, and the idle timer restarts (R120, R121, R129). -/
theorem syncEdge_window {t0 t : Nat} (ht : c.t0 = some t0) (waiting : x.stage = .waiting)
    (after : t0 + x.camera.delay ≤ t) (before : t < t0 + x.camera.delay + x.camera.window) :
    syncEdge s sd t = askBanks c sd (sideBanks sd c.levels) t
      (withSide { s with time.idleStart := idleRestarted s } c sd
        { x with stage := .firing, syncTime := some t }) := by
  rw [syncEdge_waiting hc hx ht waiting, if_neg (by omega), if_pos ⟨after, before⟩]

end

/-- The one ask of a side, at the time that the spacing grants (R74, R121). -/
theorem askBanks_one (s : State) (c : Capture) (sd : Side) (x : SideRec) (bk : Bank) (t : Nat) :
    ∃ g, grantedFor s bk t g ∧ askBanks c sd [bk] t (withSide s c sd x) =
      withSide (scheduled s bk g (c.levels.get bk) c.duration c.seq) c sd
        { x with asks := x.asks ++ [⟨bk, g, none⟩] } :=
  ⟨grantTime s bk t, grantTime_grantedFor s bk t, askOne_withSide s c sd x bk t⟩

/-- The two asks of a side, the second from 1,500 µs after the sync time on (R74, R121). -/
theorem askBanks_two (s : State) (c : Capture) (sd : Side) (x : SideRec) (b1 b2 : Bank) (t : Nat) :
    ∃ g1 g2 v, grantedFor s b1 t g1 ∧ v = scheduled s b1 g1 (c.levels.get b1) c.duration c.seq
      ∧ grantedFor v b2 (t + 1500) g2
      ∧ askBanks c sd [b1, b2] t (withSide s c sd x) =
        withSide (scheduled v b2 g2 (c.levels.get b2) c.duration c.seq) c sd
          { x with asks := x.asks ++ [⟨b1, g1, none⟩, ⟨b2, g2, none⟩] } := by
  refine ⟨grantTime s b1 t, _, _, grantTime_grantedFor s b1 t, rfl, grantTime_grantedFor _ b2 (t + 1500), ?_⟩
  rw [askBanks, askOne_withSide, askBanks, askOne_withSide, List.append_assoc]
  rfl

end Sys2Proof.Machine

namespace Sys2Proof
open Machine

/-- Settles O54: the arming test and the entry to TRIGGERED as records, the sync edge by its three places against the window,
the times that the spacing grants, and the answers by what they leave of the asks. -/
theorem captureStagesFollowTheirEdges : Obligations.CaptureStagesFollowTheirEdges := by
  intro s c sd x hc hx
  refine ⟨?arming, ?equipment, ?failure, ?triggered, syncEdge_idle hc hx, ?sync, ?unanswered, ?unlit, ?stored,
    ?noted, ?other, ?confirmed⟩
  case arming =>
    intro m ht standing hm
    rw [advanceOnce_arming hc ht standing]
    exact if_congr (armingMet_iff hm) rfl rfl
  case equipment =>
    intro missing failed hmissing hfailed lacking
    obtain rfl : failed = testFailed s c := funext₂ hfailed
    obtain rfl : missing = fun fs => fs.any fun f => (lineOf s f).isNone := funext hmissing
    exact armTest_notEquipped (by simpa using (camerasEquipped_iff s c.order.sides).symm.trans lacking)
  case failure =>
    intro failed e equipped hfailed fails
    obtain rfl : failed = testFailed s c := funext₂ hfailed
    cases e with
    | uncalibrated bk => exact armTest_uncalibrated equipped fails
    | leftLeaf | rightLeaf | volume => exact armTest_doseCeiling equipped fails (by simp)
  case triggered =>
    intro p pulse trigger v equipped passes hpulse htrigger hv
    obtain rfl : pulse = pulseAt s c.order.sides := funext hpulse
    obtain rfl : trigger = triggered c.order.sides := funext fun f => funext₂ (htrigger f)
    rw [armTest_triggered equipped passes, enterTriggered_eq, hv]
  case sync =>
    rintro t0 t o ht waiting rfl
    refine ⟨syncEdge_early hc hx ht waiting, syncEdge_outside hc hx ht waiting, fun after before => ?_,
      fun after before b1 fired hfired => ?_⟩
    all_goals rw [syncEdge_window hc hx ht waiting after before]
    · obtain ⟨v, asks, asked, banks, grants⟩ := askBanks_withSide { s with time.idleStart := idleRestarted s } c sd
        { x with stage := .firing, syncTime := some t } (sideBanks sd c.levels) t
      rw [asked]
      exact ⟨{ x with stage := .firing, syncTime := some t, asks := x.asks ++ asks }, _, rfl, rfl, rfl,
        by rw [List.map_append, banks], grants⟩
    · obtain rfl : fired = fun v asks => _ := funext₂ hfired
      refine ⟨fun one => ?_, fun b2 two => ?_⟩
      · rw [one]
        exact askBanks_one { s with time.idleStart := idleRestarted s } c sd _ b1 t
      · rw [two]
        obtain ⟨g1, g2, v, granted, hv, granted', asked⟩ := askBanks_two { s with time.idleStart := idleRestarted s } c sd
          { x with stage := .firing, syncTime := some t } b1 b2 t
        subst hv
        exact ⟨g1, g2, _, granted, rfl, granted', asked⟩
  case unanswered =>
    rintro - bk ans asks side rfl unanswered
    rw [answerAsk_eq hc hx side]
    exact leaveFiring_unanswered s c sd unanswered
  case unlit =>
    rintro firing bk ans asks side rfl withdrawn
    rw [answerAsk_eq hc hx side]
    exact leaveFiring_unlit s c sd firing withdrawn
  case stored =>
    intro firing bk ans asks v side hasks answered lit hv
    rw [answerAsk_eq hc hx side, ← hasks]
    exact leaveFiring_storing s c sd (x := { x with asks := asks }) firing answered lit hv
  case noted =>
    intro firing
    rw [storedEdge_eq hc hx]
    exact if_pos firing
  case other =>
    intro firing storing
    rw [storedEdge_eq hc hx, if_neg firing, if_neg storing]
  case confirmed =>
    intro storing k leaf known verso opening hleaf hverso inTable
    have page : sidePage k sd = (leaf, verso) := by subst hleaf hverso; cases sd <;> rfl
    rw [storedEdge_storing hc hx storing, confirmSide_eq hc hx opening page inTable]
    exact ⟨⟨leaf, verso, _, _⟩, rfl, rfl, rfl, rfl, by cases verso <;> rfl⟩

end Sys2Proof
end

