-- ==== Sys2Proof/Proofs/Course.lean ====
section
/-! What the laws of the safe state, of the platen and of the settings speak of, and the ways in which it changes. -/
namespace Sys2Proof.Machine

/-! ### The settings -/

/-- The settings of a state, with the applied levels of the aim lamps: for each lamp its requested, guard and applied
level. -/
structure Settings where
  profile : Profile
  recharges : Quad Nat
  lamps : Pair (Nat × Nat × Nat)
  recipes : List Recipe
  cameras : Pair Camera
  lateLimit : Nat
  idleSetting : Nat
  tap : Nat
  pendingTap : Option Nat
  debounces : List Nat

/-- The recharge times of the banks. -/
def rechargesOf (q : Quad BankRec) : Quad Nat := ⟨q.a.recharge, q.b.recharge, q.c.recharge, q.d.recharge⟩

/-- The levels of an aim lamp. -/
def levelsOf (a : Aim) : Nat × Nat × Nat := (a.requested, a.guard, a.applied)

/-- The debounce times of lines. -/
def debouncesOf (ls : List Line) : List Nat := ls.map fun l => l.debounce

def settingsOf (s : State) : Settings :=
  { profile := s.motion.profile, recharges := rechargesOf s.lamps.banks
    lamps := ⟨levelsOf s.lamps.aims.l, levelsOf s.lamps.aims.r⟩, recipes := s.lamps.recipes
    cameras := s.seq.cameras, lateLimit := s.seq.lateLimit, idleSetting := s.time.idleSetting, tap := s.time.tap
    pendingTap := s.time.pendingTap, debounces := debouncesOf s.lines.records }

/-- The ranges of an aim lamp's levels (R85). -/
def levelsLaw (x : Nat × Nat × Nat) : Prop := x.1 ≤ 1000 ∧ x.2.1 ≤ 1000 ∧ x.2.2 ≤ 1000

/-- The ranges of a recipe (R87). -/
def recipeLaw (r : Recipe) : Prop :=
  within 100 20000 r.duration ∧ ∀ bk, r.levels.get bk = 0 ∨ within 50 1000 (r.levels.get bk)

/-- The ranges of a camera profile (R130). -/
def cameraLaw (c : Camera) : Prop :=
  within 10 10000 c.pulse ∧ c.delay ≤ 100000 ∧ within 100 200000 c.window ∧ within 100 10000 c.stored

/-- The laws of `settingsInv`, one by one. -/
structure SettingsOk (x : Settings) : Prop where
  profile : profileLaw x.profile
  recharges : ∀ bk, within 250 2000 (x.recharges.get bk)
  lamps : ∀ sd, levelsLaw (x.lamps.get sd)
  recipeCount : x.recipes.length = 8
  recipes : ∀ r ∈ x.recipes, recipeLaw r
  cameras : ∀ sd, cameraLaw (x.cameras.get sd)
  lateLimit : x.lateLimit ≤ 1000000
  idleSetting : x.idleSetting = 0 ∨ within 10 3600 x.idleSetting
  tap : x.tap ≤ 3
  pendingTap : ∀ t, x.pendingTap = some t → t ≤ 3
  debounces : ∀ n ∈ x.debounces, n ≤ 50

theorem rechargesOf_get (q : Quad BankRec) (bk : Bank) : (rechargesOf q).get bk = (q.get bk).recharge := by
  cases bk <;> rfl

theorem settingsInv_iff (s : State) : settingsInv s ↔ SettingsOk (settingsOf s) := by
  have lamps : ∀ sd, (settingsOf s).lamps.get sd = levelsOf (s.lamps.aims.get sd) := fun sd => by cases sd <;> rfl
  constructor
  · rintro ⟨profile, recharges, aims, recipeCount, recipes, cameras, lateLimit, idleSetting, tap, pendingTap, debounces⟩
    refine ⟨profile, fun bk => ?_, fun sd => ?_, recipeCount, recipes, cameras, lateLimit, idleSetting, tap, pendingTap,
      fun n hn => ?_⟩
    · exact (rechargesOf_get s.lamps.banks bk).symm ▸ recharges bk
    · exact (lamps sd).symm ▸ aims sd
    · obtain ⟨l, hl, rfl⟩ := List.mem_map.mp hn
      exact debounces l hl
  · intro h
    exact ⟨h.profile, fun bk => rechargesOf_get s.lamps.banks bk ▸ h.recharges bk, fun sd => (lamps sd ▸ h.lamps sd :),
      h.recipeCount, h.recipes, h.cameras, h.lateLimit, h.idleSetting, h.tap, h.pendingTap,
      fun l hl => h.debounces _ (List.mem_map_of_mem hl)⟩

/-! ### The course of the part -/

/-- What the laws of the safe state, of the platen and of the settings speak of. -/
structure Course where
  safe : Safe
  orders : List Order
  turn : Option Turn
  platen : Platen
  raisePending : Bool
  dwellDeferred : Bool
  dwell : Option Dwell
  settings : Settings

def course (s : State) : Course :=
  { safe := s.safe, orders := s.seq.orders, turn := s.motion.turn, platen := s.motion.platen
    raisePending := s.motion.raisePending, dwellDeferred := s.motion.dwellDeferred, dwell := s.motion.dwell
    settings := settingsOf s }

/-- The fault list with a record entered in it, or counted (R163). -/
def recorded (f : Safe) (r : FaultRec) : Safe :=
  if f.faults.length < 8 then { f with faults := f.faults ++ [r] } else { f with further := satSucc 255 f.further }

/-- The platen under a hold; `safe` says that its raise is the safe state's (R59). -/
def heldPlaten (safe : Bool) : Platen → Platen
  | .lowering => .stopped
  | .pressing => .stopped
  | .raising => if safe then .raising else .stopped
  | p => p

/-- A raise has a reason: it waited, its dwell is over, or no turn is past its RAISE stage. -/
def mayRaise (w : Course) : Prop :=
  w.raisePending = true ∨ w.dwellDeferred = true ∨ w.dwell.isSome = true ∨ ∀ t, w.turn = some t → t.stage = .raise

/-- The course with a raise under way, or over at once at the top stop (R47). -/
def raised (top : Bool) (w : Course) : Course :=
  { w with
    platen := if top then .raised else .raising, raisePending := false, dwellDeferred := false, dwell := none }

/-- The course with a lowering under way, PRESSING at once under contact (R45). -/
def lowered (contact : Bool) (w : Course) : Course := { w with platen := if contact then .pressing else .lowering }

/-- The ways in which the course of the part goes on, each under the conditions that its owner has checked. -/
inductive CourseStep (w : Course) : Course → Prop
  /-- Settings are set within their ranges. -/
  | set (x : Settings) (ok : SettingsOk w.settings → SettingsOk x) : CourseStep w { w with settings := x }
  /-- An order is accepted outside the safe state (R111, R112). -/
  | order (o : Order) (calm : w.safe.flag = false) : CourseStep w { w with orders := w.orders ++ [o] }
  /-- The head order leaves the queue (R115, R116). -/
  | leave (o : Order) (rest : List Order) (head : w.orders = o :: rest) : CourseStep w { w with orders := rest }
  /-- The pending first FAULT report is admitted (R165). -/
  | reported : CourseStep w { w with safe := { w.safe with pendingFirst := none } }
  /-- A fault in the safe state is recorded (R166). -/
  | fault (r : FaultRec) (safe : w.safe.flag = true) : CourseStep w { w with safe := recorded w.safe r }
  /-- The first fault of an episode: the turn is abandoned and the queue flushed (R63, R127, R163, R164). -/
  | episode (r : FaultRec) (t : Nat) (first : Option FaultReport) (calm : w.safe.flag = false) :
      CourseStep w { w with
        safe := { recorded w.safe r with flag := true, episodeStart := some t, pendingFirst := first }
        orders := [], turn := none, raisePending := false }
  /-- CLEAR_SAFE (R169). -/
  | clear : CourseStep w { w with safe := powerOnSafe }
  /-- A raise starts (R47). -/
  | raise (top : Bool) (reason : mayRaise w) : CourseStep w (raised top w)
  /-- A rising platen comes to its top stop (R47). -/
  | top (rising : w.platen = .raising) : CourseStep w { w with platen := .raised }
  /-- A rising platen comes to rest between positions (R47). -/
  | stop (rising : w.platen = .raising) : CourseStep w { w with platen := .stopped }
  /-- A lowered platen comes into contact (R45). -/
  | contact (lowering : w.platen = .lowering) : CourseStep w { w with platen := .pressing }
  /-- A LOWER request is taken: no turn is in flight and the platen is RAISED (R44). -/
  | lower (contact : Bool) (turn : w.turn = none) (platen : w.platen = .raised) : CourseStep w (lowered contact w)
  /-- A turn comes to LOWER, or starts it again (R57, R61). -/
  | lowerTurn (contact : Bool) (t u : Turn) (inFlight : w.turn = some t) (from_ : t.stage = .adjust ∨ t.stage = .lower)
      (stage : u.stage = .lower) (running : u.held = false) :
      CourseStep w (lowered contact { w with turn := some u })
  /-- A pressing platen comes DOWN, and a running turn that waits for it ends (R45, R48, R57). -/
  | down (d : Dwell) (u : Option Turn) (pressing : w.platen = .pressing) (turn : u = w.turn ∨ u = none)
      (ended : ∀ t, w.turn = some t → t.stage = .lower → t.held = false → u = none) :
      CourseStep w { w with platen := .down, dwell := some d, turn := u }
  /-- The dwell timer has expired and its raise waits for a capture or a hold (R48). -/
  | expire (deferred pending : Bool) (running : w.dwell.isSome = true) :
      CourseStep w { w with
        dwell := none, dwellDeferred := w.dwellDeferred || deferred, raisePending := w.raisePending || pending }
  /-- A deferred dwell raise goes on to wait for the hold (R48). -/
  | defer (deferred : w.dwellDeferred = true) : CourseStep w { w with dwellDeferred := false, raisePending := true }
  /-- A hold comes into force (R59). -/
  | hold (safe : Bool) :
      CourseStep w { w with
        turn := w.turn.map fun t => { t with held := true, deadline := none }
        platen := heldPlaten safe w.platen
        raisePending := w.raisePending || (decide (w.platen = .raising) && !safe) }
  /-- A turn is accepted outside the safe state (R51, R52). -/
  | startTurn (t : Turn) (calm : w.safe.flag = false) (stage : t.stage = .raise) : CourseStep w { w with turn := some t }
  /-- The turn in flight goes on; it comes to a stage with the arm out from another, or under a RAISED platen. -/
  | turn (t u : Turn) (inFlight : w.turn = some t)
      (arm : armStage u.stage = true → armStage t.stage = true ∨ w.platen = .raised)
      (lower : u.stage = .lower → t.stage = .lower ∧ (t.held = false → u.held = false)) :
      CourseStep w { w with turn := some u }
  /-- A turn ends (R57, R62). -/
  | endTurn : CourseStep w { w with turn := none }
  /-- A reset: no episode, no order and no turn, and the platen at rest (R68, R128, R173). -/
  | reset (p : Platen) (rest : p = .raised ∨ p = .stopped) :
      CourseStep w { w with
        safe := powerOnSafe, orders := [], turn := none, platen := p, raisePending := false, dwellDeferred := false
        dwell := none }

/-- The course of `s` goes on to that of `t`. -/
def Goes (s t : State) : Prop := Relation.ReflTransGen CourseStep (course s) (course t)

namespace Goes
variable {s t u : State}

theorem of_eq (h : course t = course s) : Goes s t := by rw [Goes, h]

theorem refl (s : State) : Goes s s := .of_eq rfl

theorem trans (h : Goes s t) (g : Goes t u) : Goes s u := Relation.ReflTransGen.trans h g

theorem then_eq (h : Goes s t) (g : course u = course t) : Goes s u := h.trans (.of_eq g)

theorem step {w : Course} (h : CourseStep (course s) w) (g : course t = w) : Goes s t := by
  subst g; exact .single h

/-- What every way of going on keeps, the course of a state keeps. -/
theorem keeps {P : Course → Prop} (step : ∀ w v, P w → CourseStep w v → P v) (h : Goes s t) (hs : P (course s)) :
    P (course t) := by
  unfold Goes at h
  generalize course t = v at h
  induction h with
  | refl => exact hs
  | tail _ h ih => exact step _ _ ih h

/-- Where each operation of a list goes on, the whole list does. -/
theorem foldl {α : Type} {f : State → α → State} (h : ∀ u a, Goes u (f u a)) (l : List α) (s : State) :
    Goes s (l.foldl f s) := by
  induction l generalizing s with
  | nil => exact refl s
  | cons a l ih => exact (h s a).trans (ih _)

end Goes

/-! ### The laws of the course -/

/-- The laws of `safeInv`, one by one. -/
structure SafeOk (w : Course) : Prop where
  calm : w.safe.flag = false →
    w.safe.faults = [] ∧ w.safe.further = 0 ∧ w.safe.episodeStart = none ∧ w.safe.pendingFirst = none
  faults : w.safe.flag = true → w.safe.faults ≠ []
  start : w.safe.flag = true → w.safe.episodeStart.isSome = true
  turn : w.safe.flag = true → w.turn = none
  orders : w.safe.flag = true → w.orders = []
  length : w.safe.faults.length ≤ 8
  further : w.safe.further ≤ 255

theorem safeInv_iff (s : State) : safeInv s ↔ SafeOk (course s) :=
  ⟨fun ⟨calm, safe, length, further⟩ => ⟨calm, fun h => (safe h).1, fun h => (safe h).2.1, fun h => (safe h).2.2.1,
      fun h => (safe h).2.2.2, length, further⟩,
    fun h => ⟨h.calm, fun hf => ⟨h.faults hf, h.start hf, h.turn hf, h.orders hf⟩, h.length, h.further⟩⟩

theorem recorded_faults (f : Safe) (r : FaultRec) (h : f.faults.length ≤ 8) :
    (recorded f r).faults ≠ [] ∧ (recorded f r).faults.length ≤ 8 := by
  unfold recorded
  split
  · simp; omega
  · rename_i full
    exact ⟨fun empty => full (by rw [show f.faults = [] from empty]; decide), h⟩

theorem recorded_further (f : Safe) (r : FaultRec) (h : f.further ≤ 255) : (recorded f r).further ≤ 255 := by
  unfold recorded
  split
  · exact h
  · exact satSucc_le _ _

theorem recorded_episode (f : Safe) (r : FaultRec) :
    (recorded f r).flag = f.flag ∧ (recorded f r).episodeStart = f.episodeStart := by
  unfold recorded; split <;> exact ⟨rfl, rfl⟩

/-- The safe state with nothing of an episode. -/
theorem SafeOk.calmed {w : Course} (h : w.safe = powerOnSafe) : SafeOk w := by
  constructor <;> simp [h, powerOnSafe]

/-- Every way of going on keeps the laws of the safe state. -/
theorem CourseStep.safeOk {w v : Course} (h : SafeOk w) (hs : CourseStep w v) : SafeOk v := by
  cases hs with
  | order o calm => exact { h with orders := fun hf => absurd (calm.symm.trans hf) nofun }
  | leave o rest head => exact { h with orders := fun hf => by simpa [head] using h.orders hf }
  | reported => exact { h with calm := fun hf => ⟨(h.calm hf).1, (h.calm hf).2.1, (h.calm hf).2.2.1, rfl⟩ }
  | fault r safe =>
    obtain ⟨flag, start⟩ := recorded_episode w.safe r
    obtain ⟨some_, length⟩ := recorded_faults w.safe r h.length
    exact { calm := fun hf => absurd (hf.symm.trans (flag.trans safe)) nofun, faults := fun _ => some_
            start := fun _ => start ▸ h.start safe, turn := fun _ => h.turn safe, orders := fun _ => h.orders safe
            length := length, further := recorded_further _ _ h.further }
  | episode r t first calm =>
    obtain ⟨some_, length⟩ := recorded_faults w.safe r h.length
    exact { calm := nofun, faults := fun _ => some_, start := fun _ => rfl, turn := fun _ => rfl, orders := fun _ => rfl
            length := length, further := recorded_further _ _ h.further }
  | clear => exact .calmed rfl
  | reset p rest => exact .calmed rfl
  | lowerTurn contact t u inFlight => exact { h with turn := fun hf => absurd (inFlight.symm.trans (h.turn hf)) nofun }
  | down d u pressing turn ended => exact { h with turn := fun hf => turn.elim (·.trans (h.turn hf)) id }
  | hold safe => exact { h with turn := fun hf => by simp [h.turn hf] }
  | startTurn t calm stage => exact { h with turn := fun hf => absurd (calm.symm.trans hf) nofun }
  | turn t u inFlight => exact { h with turn := fun hf => absurd (inFlight.symm.trans (h.turn hf)) nofun }
  | endTurn => exact { h with turn := fun _ => rfl }
  | set | raise | top | stop | contact | lower | expire | defer => exact { h with }

/-- The laws of `platenInv`, one by one. -/
structure PlatenOk (w : Course) : Prop where
  dwell : w.dwell.isSome = true → w.platen = .down
  pending : w.platen = .raised ∨ w.platen = .raising → w.raisePending = false ∧ w.dwellDeferred = false
  arm : ∀ t, w.turn = some t → armStage t.stage = true → w.platen = .raised
  lower : ∀ t, w.turn = some t → t.stage = .lower → w.raisePending = false ∧ w.dwellDeferred = false
    ∧ (w.platen = .stopped ∨ t.held = false ∧ (w.platen = .lowering ∨ w.platen = .pressing))

theorem platenInv_iff (s : State) : platenInv s ↔ PlatenOk (course s) :=
  ⟨fun ⟨dwell, pending, turn⟩ => ⟨dwell, pending, fun t ht => (turn t ht).1, fun t ht => (turn t ht).2⟩,
    fun h => ⟨h.dwell, h.pending, fun t ht => ⟨h.arm t ht, h.lower t ht⟩⟩⟩

theorem PlatenOk.ofNoTurn {w : Course} (turn : w.turn = none) (dwell : w.dwell.isSome = true → w.platen = .down)
    (pending : w.platen = .raised ∨ w.platen = .raising → w.raisePending = false ∧ w.dwellDeferred = false) :
    PlatenOk w := ⟨dwell, pending, by simp [turn], by simp [turn]⟩

/-- A raise that has its reason finds no turn past its RAISE stage. -/
theorem PlatenOk.raisable {w : Course} (h : PlatenOk w) (reason : mayRaise w) : ∀ t, w.turn = some t → t.stage = .raise := by
  intro t ht
  have arm := h.arm t ht
  have lower := h.lower t ht
  have pending := h.pending
  have dwell := h.dwell
  rcases reason with hr | hr | hr | hr
  · cases hs : t.stage <;> simp_all [armStage]
  · cases hs : t.stage <;> simp_all [armStage]
  · cases hs : t.stage <;> simp_all [armStage]
  · exact hr t ht

/-- Every way of going on keeps the laws of the platen. -/
theorem CourseStep.platenOk {w v : Course} (h : PlatenOk w) (hs : CourseStep w v) : PlatenOk v := by
  cases hs with
  | set | order | leave | reported | fault | clear => exact { h with }
  | episode r t first calm =>
    exact .ofNoTurn rfl h.dwell fun hp => ⟨rfl, (h.pending hp).2⟩
  | raise top reason =>
    have stage := h.raisable reason
    exact { dwell := nofun, pending := fun _ => ⟨rfl, rfl⟩
            arm := fun t ht ha => by rw [stage t ht] at ha; contradiction
            lower := fun t ht hl => by rw [stage t ht] at hl; contradiction }
  | top rising =>
    exact { dwell := fun hd => absurd (h.dwell hd) (by simp [rising]), pending := fun _ => h.pending (.inr rising)
            arm := fun _ _ _ => rfl, lower := fun t ht hl => by simpa [rising] using h.lower t ht hl }
  | stop rising =>
    exact { dwell := fun hd => absurd (h.dwell hd) (by simp [rising]), pending := by simp
            arm := fun t ht ha => absurd (h.arm t ht ha) (by simp [rising])
            lower := fun t ht hl => by simpa [rising] using h.lower t ht hl }
  | contact lowering =>
    exact { dwell := fun hd => absurd (h.dwell hd) (by simp [lowering]), pending := by simp
            arm := fun t ht ha => absurd (h.arm t ht ha) (by simp [lowering])
            lower := fun t ht hl => by simpa [lowering] using h.lower t ht hl }
  | lower contact turn platen =>
    exact { dwell := fun hd => absurd (h.dwell hd) (by simp [platen])
            pending := by cases contact <;> simp [lowered]
            arm := fun t ht => absurd (turn.symm.trans ht) nofun, lower := fun t ht => absurd (turn.symm.trans ht) nofun }
  | lowerTurn contact t u inFlight from_ stage running =>
    have calm : w.dwell = none ∧ w.raisePending = false ∧ w.dwellDeferred = false := by
      have dwell := h.dwell
      rcases from_ with hs | hs
      · have platen := h.arm t inFlight (by rw [hs]; rfl)
        exact ⟨by simpa [platen] using dwell, h.pending (.inl platen)⟩
      · obtain ⟨hr, hd, platen⟩ := h.lower t inFlight hs
        exact ⟨by rcases platen with hp | ⟨-, hp | hp⟩ <;> simpa [hp] using dwell, hr, hd⟩
    obtain ⟨dwell, waits, deferred⟩ := calm
    exact { dwell := fun hd => absurd hd (by simp [lowered, dwell])
            pending := by cases contact <;> simp [lowered]
            arm := fun x hx ha => by cases hx; rw [stage] at ha; contradiction
            lower := fun x hx _ => by cases hx; exact ⟨waits, deferred, .inr ⟨running, by cases contact <;> simp [lowered]⟩⟩ }
  | down d u pressing turn ended =>
    exact { dwell := fun _ => rfl, pending := by simp
            arm := fun t ht ha => by
              have ht : w.turn = some t := turn.elim (fun hu => hu.symm.trans ht) fun hu => absurd (hu.symm.trans ht) nofun
              exact absurd (h.arm t ht ha) (by simp [pressing])
            lower := fun t ht hl => by
              have hw : w.turn = some t := turn.elim (fun hu => hu.symm.trans ht) fun hu => absurd (hu.symm.trans ht) nofun
              obtain ⟨-, -, hp⟩ := h.lower t hw hl
              have running : t.held = false := by simpa [pressing] using hp
              exact absurd ((ended t hw hl running).symm.trans ht) nofun }
  | expire deferred pending running =>
    have platen := h.dwell running
    exact { dwell := nofun, pending := by simp [platen]
            arm := h.arm, lower := fun t ht hl => absurd (h.lower t ht hl).2.2 (by simp [platen]) }
  | defer deferred =>
    exact { dwell := h.dwell, pending := fun hp => absurd (h.pending hp).2 (by simp [deferred])
            arm := h.arm, lower := fun t ht hl => absurd (h.lower t ht hl).2.1 (by simp [deferred]) }
  | hold safe =>
    have dwell := h.dwell
    have pending := h.pending
    refine { dwell := fun hd => by simp [dwell hd, heldPlaten], pending := fun hp => ?_
             arm := fun t ht ha => ?_, lower := fun t ht hl => ?_ }
    · cases hw : w.platen <;> cases safe <;> simp_all [heldPlaten]
    · obtain ⟨x, hx, rfl⟩ := Option.map_eq_some_iff.mp ht
      simp [h.arm x hx ha, heldPlaten]
    · obtain ⟨x, hx, rfl⟩ := Option.map_eq_some_iff.mp ht
      obtain ⟨hr, hd, hp⟩ := h.lower x hx hl
      rcases hp with hp | ⟨-, hp | hp⟩ <;> simp [hp, hr, hd, heldPlaten]
  | startTurn t calm stage =>
    exact { h with
      arm := fun x hx ha => by cases hx; rw [stage] at ha; contradiction
      lower := fun x hx hl => by cases hx; rw [stage] at hl; contradiction }
  | turn t u inFlight arm lower =>
    exact { h with
      arm := fun x hx ha => by cases hx; exact (arm ha).elim (h.arm t inFlight) id
      lower := fun x hx hl => by
        cases hx
        obtain ⟨stage, running⟩ := lower hl
        obtain ⟨hr, hd, hp⟩ := h.lower t inFlight stage
        exact ⟨hr, hd, hp.imp_right fun ⟨hh, hm⟩ => ⟨running hh, hm⟩⟩ }
  | endTurn => exact .ofNoTurn rfl h.dwell h.pending
  | reset p rest => exact .ofNoTurn rfl nofun fun _ => ⟨rfl, rfl⟩

/-- Every way of going on keeps the settings in their ranges. -/
theorem CourseStep.settingsOk {w v : Course} (h : SettingsOk w.settings) (hs : CourseStep w v) : SettingsOk v.settings := by
  cases hs with
  | set x ok => exact ok h
  | _ => exact h

theorem Goes.safeInv {s t : State} (h : Goes s t) (hs : safeInv s) : safeInv t :=
  (safeInv_iff t).mpr (h.keeps (fun _ _ hw hv => hv.safeOk hw) ((safeInv_iff s).mp hs))

theorem Goes.platenInv {s t : State} (h : Goes s t) (hs : platenInv s) : platenInv t :=
  (platenInv_iff t).mpr (h.keeps (fun _ _ hw hv => hv.platenOk hw) ((platenInv_iff s).mp hs))

theorem Goes.settingsInv {s t : State} (h : Goes s t) (hs : settingsInv s) : settingsInv t :=
  (settingsInv_iff t).mpr (h.keeps (P := fun w => SettingsOk w.settings) (fun _ _ hw hv => hv.settingsOk hw)
    ((settingsInv_iff s).mp hs))

end Sys2Proof.Machine
end

