-- ==== Sys2Proof/Proofs/CourseFrames.lean ====
section
/-! The operations that leave the course of the part as it was. -/
namespace Sys2Proof.Machine

/-! ### Lines, banks and the state's plain updates -/

theorem debouncesOf_modify {f : Line → Line} (h : ∀ l, (f l).debounce = l.debounce) (i : Nat) (ls : List Line) :
    debouncesOf (ls.modify i f) = debouncesOf ls := by
  refine List.ext_getElem (by simp [debouncesOf]) fun j h1 h2 => ?_
  simp only [debouncesOf, List.getElem_map, List.getElem_modify]
  split
  · exact h _
  · rfl

theorem course_modifyLine (s : State) (i : Nat) (f : Line → Line) (h : ∀ l, (f l).debounce = l.debounce) :
    course (modifyLine s i f) = course s := by
  simp [course, settingsOf, modifyLine, debouncesOf_modify h]

theorem rechargesOf_set (q : Quad BankRec) (bk : Bank) (r : BankRec) (h : r.recharge = (q.get bk).recharge) :
    rechargesOf (q.set bk r) = rechargesOf q := by
  cases bk <;> simp_all [rechargesOf, Quad.set, Quad.get]

theorem course_setBank (s : State) (bk : Bank) (r : BankRec) (h : r.recharge = (getBank s bk).recharge) :
    course (setBank s bk r) = course s := by
  simp only [course, settingsOf, setBank, rechargesOf_set _ _ _ h]

theorem course_modifyBank (s : State) (bk : Bank) (f : BankRec → BankRec) (h : ∀ r, (f r).recharge = r.recharge) :
    course (modifyBank s bk f) = course s := course_setBank s bk _ (h _)

@[simp] theorem course_restartIdle (s : State) : course (restartIdle s) = course s := by
  unfold restartIdle; split <;> rfl

@[simp] theorem course_driveFn (s : State) (f : Fn) (v : Bool) : course (driveFn s f v) = course s := by
  unfold driveFn; split
  · rfl
  · exact course_modifyLine _ _ _ fun _ => rfl

@[simp] theorem course_judgeReady (s : State) : course (judgeReady s) = course s := course_driveFn _ _ _

@[simp] theorem course_modifySide (s : State) (sd : Side) (f : SideRec → SideRec) :
    course (modifySide s sd f) = course s := rfl

@[simp] theorem course_holdCapture (s : State) : course (holdCapture s) = course s := rfl

@[simp] theorem course_confirmSide (s : State) (c : Capture) (sd : Side) : course (confirmSide s c sd) = course s := rfl

@[simp] theorem course_suctionOff (s : State) : course (suctionOff s) = course s := rfl

@[simp] theorem course_startAdjust (s : State) (k : Nat) : course (startAdjust s k) = course s := rfl

/-! ### Reports -/

@[simp] theorem course_enqueue (s : State) (b : Body) (n : Nat) : course (enqueue s b n) = course s := course_driveFn _ _ _

@[simp] theorem course_offerMinor (s : State) (b : Body) : course (offerMinor s b) = course s := by
  unfold offerMinor; split
  · exact course_enqueue _ _ _
  · rfl

@[simp] theorem course_offerMajor (s : State) (b : Body) : course (offerMajor s b) = course s := by
  unfold offerMajor; split
  · exact course_enqueue _ _ _
  · rfl

@[simp] theorem course_enterReserved (s : State) (b : Body) : course (enterReserved s b) = course s :=
  course_enqueue _ _ _

@[simp] theorem course_offerEvent (s : State) (i : Nat) (c : EventCause) (t : Nat) :
    course (offerEvent s i c t) = course s := by
  unfold offerEvent; dsimp only; split
  · exact (course_offerMinor _ _).trans (course_modifyLine _ _ _ fun _ => rfl)
  · rfl

@[simp] theorem course_reportBank (s : State) (bk : Bank) (x y : BankState) (c : BankCause) :
    course (reportBank s bk x y c) = course s := course_offerMinor _ _

/-! ### Banks and hoods -/

/-- A bank record set, its recharge time as it was, and its report offered. -/
theorem course_reportSet (s : State) (bk : Bank) (r : BankRec) (x y : BankState) (c : BankCause)
    (h : r.recharge = (getBank s bk).recharge) : course (reportBank (setBank s bk r) bk x y c) = course s :=
  (course_reportBank _ _ _ _ _).trans (course_setBank s bk r h)

@[simp] theorem course_enterReady (s : State) (bk : Bank) (c : Option BankCause) :
    course (enterReady s bk c) = course s := by
  unfold enterReady; dsimp only; split
  · exact course_setBank s bk _ rfl
  · exact course_reportSet s bk _ _ _ _ rfl

@[simp] theorem course_enterStandby (s : State) (bk : Bank) (c : BankCause) : course (enterStandby s bk c) = course s :=
  course_reportSet (dropConditioning s bk) bk _ _ _ _ rfl

@[simp] theorem course_enterConditioning (s : State) (bk : Bank) (c : BankCause) :
    course (enterConditioning s bk c) = course s := course_reportSet s bk _ _ _ _ rfl

@[simp] theorem course_endCharge (s : State) (bk : Bank) : course (endCharge s bk) = course s := by
  unfold endCharge; split <;> simp

@[simp] theorem course_startCharging (s : State) (bk : Bank) : course (startCharging s bk) = course s := by
  unfold startCharging; dsimp only; split
  · exact (course_endCharge _ _).trans (course_reportSet s bk _ _ _ _ rfl)
  · exact course_reportSet s bk _ _ _ _ rfl

@[simp] theorem course_powerOff (s : State) (bk : Bank) : course (powerOff s bk) = course s :=
  course_reportSet (dropConditioning s bk) bk _ _ _ _ rfl

@[simp] theorem course_wakeBank (s : State) (bk : Bank) : course (wakeBank s bk) = course s := by
  unfold wakeBank; dsimp only; split
  · exact course_reportSet s bk _ _ _ _ rfl
  · rfl

@[simp] theorem course_idleBank (s : State) (bk : Bank) : course (idleBank s bk) = course s := by
  unfold idleBank; split <;> simp

@[simp] theorem course_returnReady (s : State) (bk : Bank) : course (returnReady s bk) = course s := by
  unfold returnReady; split <;> simp

@[simp] theorem course_closeBankHoods (s : State) : course (closeBankHoods s) = course s :=
  foldl_keeps course _ (fun _ _ => by exact course_modifyBank _ _ _ fun _ => rfl) _ _

@[simp] theorem course_clearHoodRequests (s : State) : course (clearHoodRequests s) = course s :=
  foldl_keeps course _ (fun _ _ => by exact course_modifyBank _ _ _ fun _ => rfl) _ _

@[simp] theorem course_stopHoods (s : State) : course (stopHoods s) = course s := by
  unfold stopHoods; split
  · exact course_clearHoodRequests s
  · simp

@[simp] theorem course_topUp (s : State) (bk : Bank) : course (topUp s bk) = course s := by
  unfold topUp; split
  · exact course_modifyBank _ _ _ fun _ => rfl
  · rfl

@[simp] theorem course_endInterval (s : State) : course (endInterval s) = course s := by
  have toppedUp : ∀ u, course (forBanks topUp u) = course u := fun u => foldl_keeps course _ course_topUp _ _
  unfold endInterval
  split
  · rfl
  · split
    · rw [toppedUp]
      split
      · exact course_closeBankHoods _
      · rfl
    · rfl

@[simp] theorem course_askFiring (s : State) (bk : Bank) (t l d : Nat) (c : Option Nat) :
    course (askFiring s bk t l d c) = course s :=
  course_modifyBank s bk (fun r => { r with latest := later r.latest (some (grantTime s bk t)) }) fun _ => rfl

theorem course_requestHood (n : Nat) (s : State) (bk : Bank) : course (requestHood n s bk) = course s :=
  course_modifyBank _ _ _ fun _ => rfl

theorem course_withdrawHood (n : Nat) (s : State) (bk : Bank) : course (withdrawHood n s bk) = course s :=
  course_modifyBank _ _ _ fun r => by split <;> rfl

@[simp] theorem course_creditFiring (s : State) (bk : Bank) : course (creditFiring s bk) = course s := by
  unfold creditFiring; split
  · rfl
  · split <;> rfl

theorem course_conditioningFlash (s : State) (bk : Bank) (g : Grant) : course (conditioningFlash s bk g) = course s := by
  unfold conditioningFlash; dsimp only; split
  · exact course_setBank (removeGrant s bk) bk _ rfl
  · rfl

/-! ### Captures and lines -/

@[simp] theorem course_startPulse (s : State) (c : Capture) (sd : Side) : course (startPulse c s sd) = course s := by
  unfold startPulse; split
  · exact course_driveFn _ _ _
  · rfl

@[simp] theorem course_enterTriggered (s : State) (c : Capture) (p : Prediction) :
    course (enterTriggered s c p) = course s :=
  (course_restartIdle _).trans (foldl_keeps course _ (fun _ _ => course_startPulse _ _ _) _ _)

@[simp] theorem course_armTest (s : State) (c : Capture) : course (armTest s c) = course s := by
  unfold armTest; dsimp only; split
  · rfl
  · split
    · exact course_enterTriggered _ _ _
    · rfl
    · rfl

@[simp] theorem course_storedEdge (s : State) (sd : Side) : course (storedEdge s sd) = course s := by
  unfold storedEdge; split
  · rfl
  · split
    · rfl
    · split <;> simp

@[simp] theorem course_leaveFiring (s : State) (sd : Side) : course (leaveFiring s sd) = course s := by
  unfold leaveFiring; split
  · rfl
  · split
    · rfl
    · dsimp only; split_ifs <;> simp

@[simp] theorem course_answerAsk (s : State) (bk : Bank) (a : Answer) : course (answerAsk s bk a) = course s :=
  (course_leaveFiring _ _).trans (course_modifySide _ _ _)

theorem course_askBanks (c : Capture) (sd : Side) (bs : List Bank) (t : Nat) (s : State) :
    course (askBanks c sd bs t s) = course s := by
  induction bs generalizing s t with
  | nil => rfl
  | cons bk rest ih => exact (ih _ _).trans ((course_modifySide _ _ _).trans (course_askFiring _ _ _ _ _ _))

@[simp] theorem course_syncEdge (s : State) (sd : Side) (t : Nat) : course (syncEdge s sd t) = course s := by
  unfold syncEdge
  split
  · rfl
  · split
    · dsimp only
      split_ifs
      · rfl
      · exact (course_askBanks _ _ _ _ _).trans (course_restartIdle _)
      · rfl
      · rfl
    · rfl

@[simp] theorem course_restage (s : State) (i : Nat) : course (restage s i) = course s := by
  unfold restage; split
  · rfl
  · split <;> simp

@[simp] theorem course_bindFn (s : State) (f : Fn) (i : Nat) : course (bindFn s f i) = course s := by
  unfold bindFn; dsimp only; split
  · exact course_driveFn _ _ _
  · rfl

@[simp] theorem course_unbindFn (s : State) (f : Fn) : course (unbindFn s f) = course s := by
  show course (if isOutputFn f then driveFn s f false else s) = course s
  split <;> simp

@[simp] theorem course_clearLine (s : State) (i : Nat) : course (clearLine s i) = course s :=
  (course_offerEvent _ _ _ _).trans (course_modifyLine _ _ _ fun _ => rfl)

theorem sampleLine_debounce (l : Line) : (sampleLine l).debounce = l.debounce := by unfold sampleLine; split <;> rfl

theorem comparePin_debounce (t : Nat) (l : Line) : (comparePin t l).debounce = l.debounce := by
  rcases comparePin_cases t l with h | h | h <;> simp [h]

/-! ### The link -/

@[simp] theorem course_dropFrame (s : State) : course (dropFrame s) = course s := rfl

@[simp] theorem course_takeUp (s : State) : course (takeUp s) = course s := by
  rcases takeUp_cases s with h | ⟨f, rest, -, -, -, ⟨-, h⟩ | ⟨r, -, h⟩⟩ <;> rw [h] <;> rfl

@[simp] theorem course_validFrame (s : State) : course (validFrame s) = course s := by
  unfold validFrame; split <;> rfl

@[simp] theorem course_takeByte (s : State) (b : Byte) (badStop : Bool) : course (takeByte s b badStop) = course s := by
  unfold takeByte
  split
  · split <;> rfl
  · split
    · rfl
    · unfold storeByte checkFrame goodFrame
      dsimp only
      split_ifs
      · rfl
      · exact (course_takeUp _).trans (course_validFrame _)
      all_goals rfl

@[simp] theorem course_judgeSilence (s : State) : course (judgeSilence s) = course s := by
  unfold judgeSilence
  split <;> try split
  all_goals rfl

end Sys2Proof.Machine
end

