-- ==== Sys2Proof/Proofs/CourseOfBlocks.lean ====
section
/-! The course under the aim lamps, the sequencer and the safe state. -/
namespace Sys2Proof.Machine

/-! ### The aim lamps and the sequencer -/

/-- Aim lamps whose levels stay in their ranges. -/
theorem lamps_goes {s t : State} (h : course t = { course s with settings := { settingsOf s with
    lamps := ⟨levelsOf t.lamps.aims.l, levelsOf t.lamps.aims.r⟩ } })
    (lamps : (∀ sd, levelsLaw (levelsOf (s.lamps.aims.get sd))) → ∀ sd, levelsLaw (levelsOf (t.lamps.aims.get sd))) :
    Goes s t := by
  refine .step (.set _ fun ok => ?_) h
  have levels : ∀ (u : State) sd, (settingsOf u).lamps.get sd = levelsOf (u.lamps.aims.get sd) := fun u sd => by
    cases sd <;> rfl
  have law := lamps fun sd => levels s sd ▸ ok.lamps sd
  exact { ok with lamps := fun sd => by cases sd; exacts [law .left, law .right] }

theorem relight_levels (t : Nat) (met : Bool) (a : Aim) (h : levelsLaw (levelsOf a)) :
    levelsLaw (levelsOf (relight t met a)) := by
  unfold relight
  split_ifs
  · exact h
  · exact h
  · exact ⟨h.1, h.2.1, Nat.zero_le _⟩
  · exact h

theorem judgeLit_goes (s : State) : Goes s (judgeLit s) :=
  lamps_goes rfl fun h sd => by cases sd; exacts [relight_levels _ _ _ (h .left), relight_levels _ _ _ (h .right)]

theorem wake_goes (s : State) (c : WakeCause) : Goes s (wake s c) := by
  unfold wake
  extract_lets _ s1 s2
  have woken : course (forBanks wakeBank s2) = course s := (foldl_keeps course _ course_wakeBank _ _).trans
    ((course_offerMinor _ _).trans (course_restartIdle _))
  exact (Goes.trans (.of_eq woken) (judgeLit_goes _)).then_eq (course_judgeReady _)

theorem wakeIfIdle_goes (s : State) (c : WakeCause) : Goes s (wakeIfIdle s c) := by
  rcases wakeIfIdle_cases c s with ⟨-, h⟩ | ⟨-, h⟩ <;> rw [h]
  · exact wake_goes s c
  · exact .refl s

theorem enterIdle_goes (s : State) : Goes s (enterIdle s) := by
  unfold enterIdle
  extract_lets _ s1 s2 s3
  have idle : course s3 = course s := (course_closeBankHoods _).trans ((course_clearHoodRequests _).trans
    ((foldl_keeps course _ course_idleBank _ _).trans (course_offerMinor _ _)))
  exact (Goes.trans (.of_eq idle) (judgeLit_goes _)).then_eq (course_judgeReady _)

theorem startRaise_goes {s : State} (b : Bool) (h : mayRaise (course s)) : Goes s (startRaise s b) :=
  .step (.raise (fnActive s .platenTop) h) rfl

/-- The course with another queue of orders. -/
def Course.queued (w : Course) (os : List Order) : Course := { w with orders := os }

/-- A deferred dwell raise starts or goes on to wait, whatever the queue of orders (R48). -/
theorem carryOutDwell_course (s : State) (os : List Order) :
    Relation.ReflTransGen CourseStep ((course s).queued os) ((course (carryOutDwell s)).queued os) := by
  unfold carryOutDwell
  split
  · rename_i deferred
    split
    · exact .single (.defer deferred)
    · exact .single (.raise (fnActive s .platenTop) (.inr (.inl deferred)))
  · exact .refl

theorem course_discardLate (s : State) (o : Order) (rest : List Order) :
    course (discardLate s o rest) = { course s with orders := rest } := (course_enterReserved _ _).trans rfl

theorem enterArming_goes (s : State) (o : Order) : Goes s (enterArming s o) := by
  unfold enterArming
  extract_lets s0 r side c _ s1
  have armed : ∀ d, Goes s { s1 with seq.capture := some d } := fun d =>
    (wakeIfIdle_goes s _).then_eq ((course_restartIdle _).trans rfl)
  split
  · exact armed _
  · exact (armed c).then_eq (foldl_keeps course _ (course_requestHood _) _ _)

/-- The end of a capture touches the course by the dwell raise that it carries out alone (R48, R123). -/
theorem endCapture_carries (s : State) (c : Capture) :
    ∃ u, endCapture s c = carryOutDwell u ∧ course u = course s :=
  ⟨_, rfl, (course_restartIdle _).trans ((foldl_keeps course _ (course_withdrawHood c.seq) (captureBanks c) _).trans
    (course_enterReserved _ _))⟩

theorem endCapture_course (s : State) (c : Capture) (os : List Order) :
    Relation.ReflTransGen CourseStep ((course s).queued os) ((course (endCapture s c)).queued os) := by
  obtain ⟨u, ended, still⟩ := endCapture_carries s c
  rw [ended, ← still]
  exact carryOutDwell_course u os

theorem endCapture_goes (s : State) (c : Capture) : Goes s (endCapture s c) := by
  have orders : (course (endCapture s c)).queued s.seq.orders = course (endCapture s c) := by
    simp [Course.queued, course]
  have h := endCapture_course s c s.seq.orders
  rwa [orders] at h

theorem advanceOnce_goes {s t : State} (h : advanceOnce s = some t) : Goes s t := by
  rcases advanceOnce_cases h with ⟨c, -, -, rfl⟩ | ⟨c, -, -, -, -, rfl⟩ | ⟨o, rest, -, head, -, -, rfl⟩ |
    ⟨o, rest, -, head, -, -, rfl⟩
  · exact endCapture_goes s c
  · exact .of_eq (course_armTest s c)
  · exact .step (.leave o rest head) (course_discardLate s o rest)
  · exact .trans (t := { s with seq.orders := rest }) (.step (.leave o rest head) rfl) (enterArming_goes _ o)

theorem advance_goes (n : Nat) (s : State) : Goes s (advance n s) := by
  induction n generalizing s with
  | zero => exact .refl s
  | succ n ih =>
    unfold advance
    split
    · exact .refl s
    · rename_i h; exact (advanceOnce_goes h).trans (ih _)

theorem settle_goes (s : State) : Goes s (settle s) :=
  (((advance_goes (advanceFuel s) s).then_eq (course_endInterval _)).trans (judgeLit_goes _)).then_eq
    (course_judgeReady _)

theorem Goes.settled {s t : State} (h : Goes s t) : Goes s (settle t) := h.trans (settle_goes t)

/-! ### The safe state -/

theorem course_recordFault (s : State) (r : FaultRec) :
    course (recordFault s r) = { course s with safe := recorded s.safe r } := by
  unfold recordFault recorded
  split <;> split <;> first | rfl | contradiction

theorem course_abandonSafe (s : State) (k : FaultKind) : course (abandonSafe s k) = { course s with turn := none } := by
  unfold abandonSafe endTurn
  split
  · rename_i h; simp [course, h]
  · exact (course_restartIdle _).trans ((course_enterReserved _ _).trans rfl)

/-- The course with no turn and no raise waiting. -/
def Course.abandoned (w : Course) : Course := { w with turn := none, raisePending := false }

/-- The motion controller's safe behaviour: the turn ends, no raise waits, and a raise starts where the platen is neither
RAISED nor RAISING (R63); whatever the queue of orders. -/
theorem safeMotion_course (s : State) (k : FaultKind) (os : List Order) : Relation.ReflTransGen CourseStep
    ((course s).abandoned.queued os) ((course (safeMotion s k)).queued os) := by
  unfold safeMotion
  extract_lets s1 _ s2
  have still : course s2 = (course s).abandoned :=
    congrArg (fun w : Course => { w with raisePending := false }) (course_abandonSafe s k)
  rw [← still]
  split
  · exact .refl
  · exact .refl
  · refine .single (.raise (fnActive s2 .platenTop) (.inr (.inr (.inr fun t ht => ?_))))
    rw [still] at ht
    contradiction

/-- With the queue flushed, the sequencer's safe behaviour is at most the end of the capture in flight (R127). -/
theorem safeSequencer_course (s : State) :
    Relation.ReflTransGen CourseStep ((course s).queued []) (course (safeSequencer s)) := by
  unfold safeSequencer
  extract_lets _ s1 s2 s3
  have flushed : course s3 = course s2 := foldl_keeps course flushOrder (fun u o => course_enterReserved u _) s2.seq.orders s2
  show Relation.ReflTransGen CourseStep _ ((course s3).queued [])
  rw [flushed]
  unfold s2
  split
  · exact .refl
  · split
    · exact endCapture_course s1 _ []
    · exact .refl

/-- The first FAULT report is admitted, or stands pending (R165). -/
theorem course_offerFirstFault (s : State) (f : FaultReport) : ∃ first,
    course (offerFirstFault s f) = { course s with safe := { s.safe with pendingFirst := first } } := by
  unfold offerFirstFault
  split
  · exact ⟨s.safe.pendingFirst, course_enqueue _ _ _⟩
  · exact ⟨some f, rfl⟩

/-- A fault is recorded, or begins an episode of the safe state (R163 to R166). -/
theorem raiseFault_goes (s : State) (k : FaultKind) (bk : Option Bank) : Goes s (raiseFault s k bk) := by
  rcases raiseFault_cases k bk s with ⟨safe, h⟩ | ⟨calm, h⟩ <;> rw [h]
  · exact .step (.fault (faultRecord s k bk) safe) ((course_offerMajor _ _).trans (course_recordFault _ _))
  · obtain ⟨first, offered⟩ := course_offerFirstFault { recordFault s (faultRecord s k bk) with
      safe.flag := true, safe.episodeStart := some (now s) } (faultReport s (faultRecord s k bk))
    generalize offerFirstFault _ _ = u at offered ⊢
    have begun : (course u).abandoned.queued [] = { course s with
        safe := { recorded s.safe (faultRecord s k bk) with
          flag := true, episodeStart := some (now s), pendingFirst := first }
        orders := [], turn := none, raisePending := false } := by
      rw [offered]
      exact congrArg (fun w : Course => { w with
        safe := { w.safe with flag := true, episodeStart := some (now s), pendingFirst := first }
        orders := [], turn := none, raisePending := false }) (course_recordFault s (faultRecord s k bk))
    have entered := (safeMotion_course u k []).trans (safeSequencer_course (safeMotion u k))
    rw [begun] at entered
    have fault : Goes s (safeSequencer (safeMotion u k)) :=
      .head (.episode (faultRecord s k bk) (now s) first calm) entered
    exact fault.then_eq (course_stopHoods _)

end Sys2Proof.Machine
end

