-- ==== Sys2Proof/Proofs/CourseOfMotion.lean ====
section
/-! The course under the platen, the hold and the turn cycle. -/
namespace Sys2Proof.Machine

/-! ### The platen and the hold -/

theorem course_startLowering (s : State) :
    course (startLowering s) = lowered (fnActive s .platenContact) (course s) := by
  unfold startLowering lowered
  split <;> rename_i h <;> simp <;> rfl

/-- The platen comes to the stop that it moves to, or stays as it is (R43). -/
theorem followPlaten_goes (s : State) : Goes s (followPlaten s) := by
  unfold followPlaten
  split
  case h_1 hp =>
    split
    · exact .step (.top hp) rfl
    · exact .refl s
  case h_2 hp =>
    split
    · exact .step (.contact hp) rfl
    · exact .refl s
  all_goals exact .refl s

theorem course_holdMotion (s : State) : course (holdMotion s) = { course s with
    turn := s.motion.turn.map fun t => { t with held := true, deadline := none }
    platen := heldPlaten s.motion.safeRaise s.motion.platen
    raisePending := s.motion.raisePending || (decide (s.motion.platen = .raising) && !s.motion.safeRaise) } := by
  unfold holdMotion
  dsimp only
  split <;> rename_i hp <;> try split
  all_goals simp [course, settingsOf, stopPlaten, modifyTurn, heldPlaten, *]

theorem holdOn_goes (s : State) (i t : Nat) : Goes s (holdOn s i t) := by
  have offered : course (offerMajor { s with lines.hold := some ⟨i, t⟩ } (.holdOn i t)) = course s :=
    (course_offerMajor _ _).trans rfl
  generalize hu : offerMajor { s with lines.hold := some ⟨i, t⟩ } (.holdOn i t) = u at offered
  have held : Goes u (holdMotion u) := .step (.hold u.motion.safeRaise) (course_holdMotion u)
  unfold holdOn
  rw [hu]
  exact ((Goes.of_eq offered).trans held).then_eq (course_stopHoods _)

theorem releaseMotion_goes (s : State) : Goes s (releaseMotion s) := by
  unfold releaseMotion
  extract_lets _ s1
  have still : course s1 = course s := by unfold s1; split <;> rfl
  split
  · rename_i pending
    exact (Goes.of_eq still).trans (startRaise_goes false (.inl pending))
  · exact .of_eq still

theorem holdOff_goes (s : State) (i t : Nat) (h : Hold) : Goes s (holdOff s i t h) := by
  have offered : course (offerMajor { s with lines.hold := none } (.holdOff i t (elapsedMs h.since t))) = course s :=
    (course_offerMajor _ _).trans rfl
  unfold holdOff
  generalize offerMajor { s with lines.hold := none } (.holdOff i t (elapsedMs h.since t)) = u at offered
  exact (Goes.of_eq offered).trans (releaseMotion_goes u)

theorem evalHold_goes (s : State) (i t : Nat) : Goes s (evalHold s i t) := by
  rcases evalHold_cases i t s with h | ⟨-, -, h⟩ | ⟨x, -, -, h⟩ <;> rw [h]
  · exact .refl s
  · exact holdOn_goes s i t
  · exact holdOff_goes s i t x

theorem holdAfresh_goes (s : State) : Goes s (holdAfresh s) := by
  unfold holdAfresh
  dsimp only
  split
  · exact .of_eq rfl
  · exact (Goes.of_eq (by rfl)).trans (holdOn_goes _ _ _)

/-! ### The stages of a turn -/

/-- The turn record may be changed so: it comes to a stage with the arm out from another or under a RAISED platen, and is
neither brought to LOWER nor held there. -/
def mayTurn (w : Course) (f : Turn → Turn) : Prop := ∀ t, w.turn = some t →
  (armStage (f t).stage = true → armStage t.stage = true ∨ w.platen = .raised)
    ∧ ((f t).stage = .lower → t.stage = .lower ∧ (t.held = false → (f t).held = false))

theorem modifyTurn_goes {s : State} {f : Turn → Turn} (h : mayTurn (course s) f) : Goes s (modifyTurn s f) := by
  cases ht : s.motion.turn with
  | none => exact .of_eq (by simp [course, settingsOf, modifyTurn, ht])
  | some t => exact .step (.turn t (f t) ht (h t ht).1 (h t ht).2) (by simp [course, settingsOf, modifyTurn, ht])

/-- A change that leaves the stage of a turn, and whether it is held, is always allowed. -/
theorem mayTurn_of_stage {f : Turn → Turn} (stage : ∀ t, (f t).stage = t.stage)
    (held : ∀ t, t.held = false → (f t).held = false)
    (w : Course) : mayTurn w f := fun t _ => by
  rw [stage]
  exact ⟨.inl, fun hl => ⟨hl, held t⟩⟩

theorem setStage_goes {s : State} {g : Stage} (d : Option Nat) (lower : g ≠ .lower)
    (arm : armStage g = true → ∀ t, s.motion.turn = some t → armStage t.stage = true ∨ s.motion.platen = .raised) :
    Goes s (setStage s g d) :=
  (modifyTurn_goes (f := fun t => { t with stage := g, recovery := false, regripAir := false, deadline := d })
    fun t ht => ⟨fun ha => arm ha t ht, fun hl => absurd hl lower⟩).then_eq (course_restartIdle _)

theorem setStage_turn (s : State) (g : Stage) (d : Option Nat) : (setStage s g d).motion.turn =
    s.motion.turn.map fun t => { t with stage := g, recovery := false, regripAir := false, deadline := d } := by
  simp [setStage]

theorem startGrip_goes (s : State) : Goes s (startGrip s) :=
  (modifyTurn_goes (f := fun t => { t with
    attempts := t.attempts + 1, regripAir := false, deadline := some (now s + gripTime) })
      (mayTurn_of_stage (fun _ => rfl) (fun _ => id) _)).then_eq rfl

/-- A stage with the arm out starts from another, or under a RAISED platen (R53 to R57). -/
theorem startStage_goes {s : State} {g : Stage} (g' : armStage g = true)
    (arm : ∀ t, s.motion.turn = some t → armStage t.stage = true ∨ s.motion.platen = .raised) :
    Goes s (startStage s g) := by
  have set : ∀ d, Goes s (setStage s g d) := fun d => setStage_goes d (by rintro rfl; contradiction) fun _ => arm
  cases g with
  | raise => contradiction
  | air => exact (set _).then_eq rfl
  | reach => exact (set _).then_eq rfl
  | grip => exact (set none).trans (startGrip_goes _)
  | sweep => exact set _
  | release =>
    exact ((set _).then_eq (course_suctionOff _)).trans
      (modifyTurn_goes (mayTurn_of_stage (fun _ => rfl) (fun _ => id) _))
  | verify => exact set _
  | park => exact set _
  | adjust =>
    exact ((set none).then_eq (course_startAdjust _ _)).trans
      (modifyTurn_goes (mayTurn_of_stage (fun _ => rfl) (fun _ => id) _))
  | lower => contradiction

/-- RAISE starts, with a raise where the platen is not RAISED (R53). -/
theorem startRaiseStage_goes (s : State) : Goes s (startStage s .raise) := by
  have set : Goes s (setStage s .raise none) := setStage_goes none nofun nofun
  simp only [startStage]
  split
  · exact set
  · refine set.trans (startRaise_goes false (.inr (.inr (.inr fun t ht => ?_))))
    obtain ⟨x, -, rfl⟩ := Option.map_eq_some_iff.mp ((setStage_turn s .raise none).symm.trans ht)
    rfl

/-- A running turn comes to LOWER, or starts it again (R57, R61). -/
theorem startLowerStage_goes {s : State} {t : Turn} (ht : s.motion.turn = some t)
    (from_ : t.stage = .adjust ∨ t.stage = .lower) (running : t.held = false) : Goes s (startStage s .lower) := by
  refine .step (.lowerTurn (fnActive (setStage s .lower none) .platenContact) t
    { t with stage := .lower, recovery := false, regripAir := false, deadline := none } ht from_ rfl running) ?_
  rw [startStage, course_startLowering, setStage, course_restartIdle]
  simp [course, settingsOf, modifyTurn, ht]

theorem endTurn_goes (s : State) (r : TurnReport) : Goes s (endTurn s r) :=
  .step .endTurn ((course_restartIdle _).trans ((course_enterReserved _ _).trans rfl))

theorem doublePick_goes (s : State) (t : Turn) : Goes s (doublePick s t) := by
  unfold doublePick
  split
  · exact raiseFault_goes _ _ _
  · exact modifyTurn_goes (mayTurn_of_stage (fun _ => rfl) (fun _ => id) _)

theorem turnDone_goes (s : State) (t : Turn) : Goes s (turnDone s t) := (Goes.of_eq (by rfl)).trans (endTurn_goes _ _)

theorem turnStep_goes {s u : State} {t : Turn} (ht : s.motion.turn = some t) (h : turnStep s t = some u) : Goes s u := by
  have start : ∀ g, armStage g = true → armStage t.stage = true ∨ s.motion.platen = .raised →
      Goes s (startStage s g) := fun g hg arm => startStage_goes hg fun x hx => by rw [ht] at hx; cases hx; exact arm
  unfold turnStep at h
  split at h
  · contradiction
  · rename_i running
    split at h <;> rename_i stage <;> simp only [stage] at start
    case h_1 => split_ifs at h with raised; cases h; exact start .air rfl (.inr raised)
    case h_2 => contradiction
    case h_3 => split_ifs at h; cases h; exact start .grip rfl (.inl rfl)
    case h_4 =>
      split_ifs at h; cases h
      refine (Goes.of_eq (by rfl)).trans (t := countHandling s t.leaf) (startStage_goes rfl fun x hx => .inl ?_)
      cases ht.symm.trans hx
      rw [stage]; rfl
    case h_5 =>
      split_ifs at h <;> cases h
      · refine .trans (t := { modifyTurn (suctionOff s) fun t =>
            { t with doublePicks := t.doublePicks + 1, retries := t.retries - 1 } with
              volume.doublePicks := satSucc counterMax s.volume.doublePicks })
          ((modifyTurn_goes (s := suctionOff s) (mayTurn_of_stage (fun _ => by rfl) (fun _ => by exact id) _)).then_eq rfl)
          (startStage_goes rfl fun x hx => .inl ?_)
        simp [ht] at hx
        subst hx
        simp [stage, armStage]
      · exact doublePick_goes s t
      · exact start .release rfl (.inl rfl)
    case h_6 => split_ifs at h; cases h; exact start .verify rfl (.inl rfl)
    case h_7 =>
      split_ifs at h; cases h
      refine (Goes.of_eq (by rfl)).trans (t := { s with volume.k := turnedOpening t.direction s.volume.k })
        (startStage_goes rfl fun x hx => .inl ?_)
      cases ht.symm.trans hx
      rw [stage]; rfl
    case h_8 => split_ifs at h; cases h; exact start .adjust rfl (.inl rfl)
    case h_9 => split_ifs at h; cases h; exact startLowerStage_goes ht (.inl stage) (by simpa using running)
    case h_10 => split_ifs at h; cases h; exact turnDone_goes s t

theorem runTurn_goes (n : Nat) (s : State) : Goes s (runTurn n s) := by
  induction n generalizing s with
  | zero => exact .refl s
  | succ n ih =>
    unfold runTurn
    split
    · exact .refl s
    · rename_i ht
      split
      · exact .refl s
      · rename_i h; exact (turnStep_goes ht h).trans (ih _)

theorem runMotion_goes (s : State) : Goes s (runMotion s) := (followPlaten_goes s).trans (runTurn_goes 16 _)

theorem Goes.moved {s t : State} (h : Goes s t) : Goes s (settle (runMotion t)) :=
  (h.trans (runMotion_goes t)).settled

/-- A pressing platen comes DOWN, and the motion controller acts on it: a running turn that waits for it is done (R45, R57). -/
theorem runMotion_enterDown_goes {s : State} (pressing : s.motion.platen = .pressing) : Goes s (runMotion (enterDown s)) := by
  have down : ∀ u, u = s.motion.turn ∨ u = none →
      (∀ t, s.motion.turn = some t → t.stage = .lower → t.held = false → u = none) →
      Goes s { enterDown s with motion.turn := u } := fun u turn ended => .step (.down _ u pressing turn ended) rfl
  show Goes s (runTurn 16 (enterDown s))
  by_cases waits : ∃ t, s.motion.turn = some t ∧ t.stage = .lower ∧ t.held = false
  · obtain ⟨t, ht, stage, running⟩ := waits
    have done : runTurn 16 (enterDown s) = runTurn 15 (turnDone (enterDown s) t) := by
      have step : turnStep (enterDown s) t = some (turnDone (enterDown s) t) := by simp [turnStep, running, stage, enterDown]
      rw [runTurn]
      simp only [enterDown_frame, ht, step]
    rw [done]
    refine .trans ?_ (runTurn_goes _ _)
    refine (down none (.inr rfl) fun _ _ _ _ => rfl).then_eq ?_
    exact (course_restartIdle _).trans ((course_enterReserved _ _).trans rfl)
  · exact (down s.motion.turn (.inl rfl) fun t ht stage running => absurd ⟨t, ht, stage, running⟩ waits).trans
      (runTurn_goes 16 _)

/-- What a turn that passes its checks finds of the safe state (R51). -/
theorem turnCheck_calm {s : State} {d : Direction} {o : Bool} (h : turnCheck s d o = none) : s.safe.flag = false := by
  simp only [turnCheck, firstRefusal_none] at h
  simpa using h.2.2.1

theorem acceptTurn_goes {s : State} {d : Direction} {b : Bool} (o : Origin) (h : turnCheck s d b = none) :
    Goes s (acceptTurn s d o b) := by
  refine Goes.moved (.trans ?_ (startRaiseStage_goes _))
  exact .step (.startTurn _ (turnCheck_calm h) rfl) rfl

theorem resumeStage_goes {s : State} {t : Turn} (ht : s.motion.turn = some t) (running : t.held = false) :
    Goes s (resumeStage s t) := by
  have tick : ∀ (u : State) (f : Turn → Turn), (∀ t, (f t).stage = t.stage) → (∀ t, t.held = false → (f t).held = false) →
      Goes u (modifyTurn u f) := fun u f hs hh => modifyTurn_goes (mayTurn_of_stage hs hh _)
  unfold resumeStage
  split
  · split
    · exact (tick s _ (fun _ => by rfl) (fun _ => by exact id)).then_eq rfl
    · exact (tick s _ (fun _ => by rfl) (fun _ => by exact id)).then_eq rfl
  · exact tick s _ (fun _ => rfl) fun _ => id
  · exact (Goes.of_eq (course_suctionOff s)).trans (tick _ _ (fun _ => rfl) fun _ => id)
  · exact .of_eq rfl
  · cases hg : t.stage with
    | raise => exact startRaiseStage_goes s
    | lower => exact startLowerStage_goes ht (.inr hg) running
    | _ => exact startStage_goes rfl fun x hx => .inl (by cases ht.symm.trans hx; rw [hg]; rfl)

theorem resumeTurn_goes {s : State} {t : Turn} (ht : s.motion.turn = some t) : Goes s (resumeTurn s t) := by
  have run : Goes s (modifyTurn s fun t => { t with held := false }) :=
    modifyTurn_goes (mayTurn_of_stage (f := fun t => { t with held := false }) (fun _ => rfl) (fun _ _ => rfl) _)
  have stage := resumeStage_goes (s := modifyTurn s fun t => { t with held := false }) (t := { t with held := false })
    (by simp [ht]) rfl
  exact ((run.trans stage).then_eq (course_restartIdle _)).moved

end Sys2Proof.Machine
end

