-- ==== Sys2Proof/Proofs/CourseOfLines.lean ====
section
/-! The course under orders, lines and resets. -/
namespace Sys2Proof.Machine

/-! ### Orders and edges -/

theorem acceptOrder_goes {s : State} {x : Sides} {r : Nat} (o : Order) (h : orderCheck s x r = none) :
    Goes s (acceptOrder s o) := by
  simp only [orderCheck, firstRefusal_none] at h
  have calm : s.safe.flag = false := by simpa using h.2.1
  exact Goes.settled (.step (.order o calm) rfl)

theorem keyShoot_goes (s : State) : Goes s (keyShoot s) := by
  refine (Goes.of_eq (course_restartIdle s)).trans ?_
  unfold keyShoot
  dsimp only
  split
  · exact .of_eq (course_offerMinor _ _)
  · exact acceptOrder_goes _ ‹_›

theorem keyTurn_goes (s : State) (k : Fn) (d : Direction) : Goes s (keyTurn s k d) := by
  refine (Goes.of_eq (course_restartIdle s)).trans ?_
  unfold keyTurn
  dsimp only
  split
  · exact .of_eq (course_offerMinor _ _)
  · exact acceptTurn_goes _ ‹_›

theorem noteLeaf_goes (s : State) (f : Fn) : Goes s (noteLeaf s f) :=
  modifyTurn_goes (mayTurn_of_stage (fun t => by split <;> rfl) (fun t => by split <;> exact id) _)

theorem handEdge_goes (s : State) (f : Fn) (t : Nat) : Goes s (handEdge s f t) := by
  unfold handEdge
  split
  · exact .of_eq (course_syncEdge s .left t)
  · exact .of_eq (course_syncEdge s .right t)
  · exact .of_eq (course_storedEdge s .left)
  · exact .of_eq (course_storedEdge s .right)
  · exact noteLeaf_goes s _
  · exact noteLeaf_goes s _
  · split
    · exact .refl s
    · exact keyShoot_goes s
  · split
    · exact .refl s
    · exact keyTurn_goes s _ _
  · split
    · exact .refl s
    · exact keyTurn_goes s _ _
  · exact .refl s

theorem handLine_goes (s : State) (i : Nat) (a : Bool) (t : Nat) : Goes s (handLine s i a t) := by
  unfold handLine
  split
  · exact .refl s
  · split
    · exact handEdge_goes s _ t
    · exact .refl s

theorem acceptEdge_goes (s : State) (i : Nat) (high : Bool) (t : Nat) : Goes s (acceptEdge s i high t) := by
  have taken : Goes s (offerEvent (modifyLine s i (takeEdge high)) i .edge t) :=
    .of_eq ((course_offerEvent _ _ _ _).trans (course_modifyLine _ _ _ fun _ => rfl))
  refine Goes.moved (.trans ?_ (handLine_goes _ _ _ _))
  split <;> split
  · exact (taken.trans (evalHold_goes _ _ _)).trans (wakeIfIdle_goes _ _)
  · exact taken.trans (wakeIfIdle_goes _ _)
  · exact taken.trans (evalHold_goes _ _ _)
  · exact taken

theorem acceptDue_goes (s : State) (i : Nat) : Goes s (acceptDue s i) := by
  rcases acceptDue_cases i s with ⟨-, h⟩ | ⟨high, t, -, h⟩ <;> rw [h]
  · exact .refl s
  · exact acceptEdge_goes s i high t

/-! ### The configuration of a line -/

/-- Lines whose debounce times stay in their range. -/
theorem lines_goes {s t : State} (h : course t = { course s with settings := { settingsOf s with
    debounces := debouncesOf t.lines.records } })
    (debounces : (∀ l ∈ s.lines.records, l.debounce ≤ 50) → ∀ l ∈ t.lines.records, l.debounce ≤ 50) : Goes s t := by
  refine .step (.set _ fun ok => ?_) h
  refine { ok with debounces := fun n hn => ?_ }
  obtain ⟨l, hl, rfl⟩ := List.mem_map.mp hn
  exact debounces (fun l hl => ok.debounces _ (List.mem_map_of_mem hl)) l hl

theorem configured_debounce (t : Nat) (l : Line) (c : LineSettings) : (configured t l c).debounce = c.debounce := by
  simp only [configured]
  split
  · exact sampleLine_debounce _
  · exact comparePin_debounce _ _

theorem configureLine_goes (s : State) (i : Nat) {c : LineSettings} (hc : c.debounce ≤ 50) :
    Goes s (configureLine s i c) := by
  unfold configureLine
  extract_lets l s1 s2 s3 s4 s5
  have h1 : Goes s s1 := lines_goes rfl fun hl l hm => by
    obtain ⟨j, hj, rfl⟩ := List.getElem_of_mem hm
    simp only [s1, modifyLine, List.getElem_modify]
    split
    · exact (configured_debounce _ _ _).trans_le hc
    · exact hl _ (List.getElem_mem _)
  have h2 : Goes s s2 := h1.then_eq (by unfold s2; split <;> simp)
  have h3 : Goes s s3 := h2.then_eq (course_offerEvent _ _ _ _)
  have h4 : Goes s s4 := by
    unfold s4; split
    · exact h3.trans (evalHold_goes _ _ _)
    · exact h3
  have h5 : Goes s s5 := by
    unfold s5; split
    · exact h4
    · split
      · exact h4
      · exact h4.trans (acceptEdge_goes _ _ _ _)
  exact h5.moved

theorem rebind_goes (s : State) (f : Fn) (l : Option Nat) : Goes s (rebind s f l) := by
  unfold rebind
  split
  · exact .moved (.of_eq (course_unbindFn _ _))
  · split
    · exact .refl s
    · exact .moved (.of_eq (course_bindFn _ _ _))

/-- Lines changed with their indices, their debounce times as they were. -/
theorem mapLinesFrom_goes (s : State) (f : Nat → Line → Line) (h : ∀ i l, (f i l).debounce = l.debounce) :
    Goes s { s with lines.records := mapLinesFrom f 0 s.lines.records } := by
  have mapped : ∀ i ls, debouncesOf (mapLinesFrom f i ls) = debouncesOf ls := fun i ls => by
    induction ls generalizing i with
    | nil => rfl
    | cons x xs ih => simpa [mapLinesFrom, debouncesOf, h] using ih (i + 1)
  exact .of_eq (by simp [course, settingsOf, mapped])

/-! ### The resets -/

theorem debouncesOf_resetLine (ls : List Line) : debouncesOf (ls.map resetLine) = debouncesOf ls := by
  simp [debouncesOf, resetLine, clearStatus, sampleLine_debounce]

/-- A soft reset leaves the settings, with the aim lamps dark, and nothing of the course (R68, R89, R128). -/
theorem resetBlocks_goes (s : State) : Goes s (resetBlocks s) := by
  have dark : ∀ a, levelsLaw (levelsOf a) → ∀ t, levelsLaw (levelsOf (resetAim t a)) := fun a h t =>
    ⟨h.1, h.2.1, Nat.zero_le _⟩
  obtain ⟨platen, rest, blocks⟩ : ∃ p, (p = .raised ∨ p = .stopped) ∧ course (resetBlocks s) =
      { safe := powerOnSafe, orders := [], turn := none, platen := p, raisePending := false, dwellDeferred := false
        dwell := none, settings := { settingsOf s with
          lamps := ⟨levelsOf (resetAim (now s) s.lamps.aims.l), levelsOf (resetAim (now s) s.lamps.aims.r)⟩
          debounces := debouncesOf (s.lines.records.map resetLine) } } := by
    refine ⟨(resetBlocks s).motion.platen, ?_, ?_⟩
    · simp only [resetBlocks, driveFn_frame, resetMotion]
      split
      · exact .inl rfl
      · exact .inr rfl
    · simp only [resetBlocks, course_driveFn, driveFn_frame]
      rfl
  rw [debouncesOf_resetLine] at blocks
  have set := lamps_goes (s := s) (t := { s with lamps := resetLamps (now s) s.lamps }) rfl fun h sd => by
    cases sd; exacts [dark _ (h .left) _, dark _ (h .right) _]
  exact set.trans (.step (.reset platen rest) blocks)

theorem softReset_goes (s : State) : Goes s (softReset s) := by
  refine .then_eq (.trans ?_ (judgeLit_goes _)) (course_judgeReady _)
  exact ((resetBlocks_goes s).then_eq (foldl_keeps course _ (fun _ _ => by exact course_offerEvent _ _ _ _) _ _)).trans
    (holdAfresh_goes _)

/-- Power-on reset sets every setting to its power-on value (R68, R89, R128, R160). -/
theorem powerOn_goes (s : State) : Goes s (powerOn s) := by
  have ok : SettingsOk { settingsOf State.reset with
      debounces := debouncesOf (powerOnRecords fun i => (getLine s i).pin) } := by
    refine { (settingsInv_iff _).mp settingsInv_reset with debounces := fun n hn => ?_ }
    obtain ⟨l, hl, rfl⟩ := List.mem_map.mp hn
    exact powerOnRecords_debounce _ l hl
  unfold powerOn
  extract_lets lines _ s1
  have platen : ∃ p, (p = .raised ∨ p = .stopped) ∧ p = (powerOnMotion (fnActive s1 .platenTop) ⟨0, 0⟩).platen := by
    cases fnActive s1 .platenTop
    · exact ⟨_, .inr rfl, rfl⟩
    · exact ⟨_, .inl rfl, rfl⟩
  obtain ⟨p, rest, hp⟩ := platen
  refine .trans (t := { s1 with motion := powerOnMotion (fnActive s1 .platenTop) ⟨0, 0⟩ }) ?_ (holdAfresh_goes _)
  exact .tail (.single (.reset p rest)) (hp ▸ .set _ fun _ => ok)

end Sys2Proof.Machine
end

