-- ==== Sys2Proof/Proofs/CourseOfRequests.lean ====
section
/-! The course under the requests. -/
namespace Sys2Proof.Machine

/-! ### Requests at large -/

/-- A request of the link: whatever its owner does goes on from the part woken. -/
theorem serve_goes {owner : State → Decision} (h : ∀ u, Goes u (owner u).1) (kind tag : Byte) (s : State) :
    Goes s (serve kind tag owner s) :=
  .then_eq (.trans ((wakeIfIdle_goes s _).then_eq (course_restartIdle _)) (h _)) rfl

theorem observe_goes {owner : State → Decision} (h : ∀ u, Goes u (owner u).1) (kind tag : Byte) (s : State) :
    Goes s (observe kind tag owner s) := (h s).then_eq rfl

/-- A request that leaves the course as it was. -/
theorem serve_goes_of_eq {owner : State → Decision} (h : ∀ u, course (owner u).1 = course u) (kind tag : Byte)
    (s : State) : Goes s (serve kind tag owner s) := serve_goes (fun u => .of_eq (h u)) kind tag s

/-- A decision refused at a check that fails does nothing; where the check passes, the rest decides. -/
theorem Goes.ite {s : State} {p : Prop} [Decidable p] {x y : Decision} (refused : Goes s x.1)
    (rest : ¬p → Goes s y.1) : Goes s (if p then x else y).1 := by
  split
  · exact refused
  · exact rest ‹_›

/-! ### The settings requests -/

theorem clamp_within (x : Nat) {a b : Nat} (h : a ≤ b) : within a b (clamp x a b) := by
  unfold clamp within
  split_ifs <;> omega

theorem clampOr_within (x : Option Nat) {old a b : Nat} (h : a ≤ b) (ho : within a b old) :
    within a b (clampOr x old a b) := by
  cases x with
  | none => exact ho
  | some v => exact clamp_within v h

/-- A value below its greatest lies in its range from 0. -/
theorem within_zero {b x : Nat} (h : x ≤ b) : within 0 b x := ⟨Nat.zero_le x, h⟩

theorem newProfile_law {p : Profile} (h : profileLaw p) (target tolerance limit dwellMax plateBase airTime retries : Option Nat) :
    profileLaw (newProfile p target tolerance limit dwellMax plateBase airTime retries) := by
  obtain ⟨ht, hto, hl, hd, hp, ha, hg⟩ := h
  have target' := clampOr_within target (by decide) ht
  refine ⟨target', clampOr_within tolerance (by decide) hto, ?_, clampOr_within dwellMax (by decide) hd,
    (clampOr_within plateBase (by decide) (within_zero hp)).2, clampOr_within airTime (by decide) ha,
    (clampOr_within retries (by decide) (within_zero hg)).2⟩
  obtain ⟨-, target'⟩ := target'
  cases limit with
  | none =>
    obtain ⟨-, hl⟩ := hl
    simp only [newProfile, newLimit, within]
    split <;> omega
  | some v => exact clamp_within v (show clampOr target p.target 5 150 + 1 ≤ 200 by omega)

theorem decideMotionSet_goes (target tolerance limit dwellMax plateBase airTime retries : Option Nat) (s : State) :
    Goes s (decideMotionSet target tolerance limit dwellMax plateBase airTime retries s).1 :=
  .step (.set { settingsOf s with
    profile := newProfile s.motion.profile target tolerance limit dwellMax plateBase airTime retries } fun ok =>
      { ok with profile := newProfile_law ok.profile .. }) rfl

theorem setAim_levels (masked : Bool) (requested guard : Option Nat) (a : Aim) (h : levelsLaw (levelsOf a)) :
    levelsLaw (levelsOf (setAim masked requested guard a)) := by
  obtain ⟨hr, hg, ha⟩ := h
  unfold setAim
  split
  · exact ⟨(clampOr_within requested (by decide) (within_zero hr)).2, (clampOr_within guard (by decide) (within_zero hg)).2, ha⟩
  · exact ⟨hr, hg, ha⟩

theorem decideAimSet_goes (mask : Pair Bool) (requested guard : Option Nat) (s : State) :
    Goes s (decideAimSet mask requested guard s).1 :=
  lamps_goes rfl fun h sd => by cases sd; exacts [setAim_levels _ _ _ _ (h .left), setAim_levels _ _ _ _ (h .right)]

theorem storedLevel_law (v : Nat) : storedLevel v = 0 ∨ within 50 1000 (storedLevel v) := by
  unfold storedLevel
  split
  · exact .inl rfl
  · exact .inr (clamp_within v (by decide))

theorem storedRecipe_law (levels : Quad Nat) (duration : Nat) : recipeLaw (storedRecipe levels duration) :=
  ⟨clamp_within duration (by decide), fun bk => by cases bk <;> exact storedLevel_law _⟩

theorem decideRecipeSet_goes (recipe : Nat) (levels : Quad Nat) (duration : Nat) (s : State) :
    Goes s (decideRecipeSet recipe levels duration s).1 := by
  unfold decideRecipeSet
  refine .ite (.refl s) fun _ => .step (.set { settingsOf s with
    recipes := s.lamps.recipes.set recipe (storedRecipe levels duration) } fun ok => ?_) rfl
  refine { ok with recipeCount := List.length_set.trans ok.recipeCount, recipes := fun r hr => ?_ }
  rcases List.mem_or_eq_of_mem_set hr with hr | rfl
  · exact ok.recipes r hr
  · exact storedRecipe_law levels duration

theorem setCamera_law (masked : Bool) (pulse delay window stored : Option Nat) (c : Camera) (h : cameraLaw c) :
    cameraLaw (setCamera masked pulse delay window stored c) := by
  obtain ⟨hp, hd, hw, hs⟩ := h
  unfold setCamera
  split
  · exact ⟨clampOr_within pulse (by decide) hp, (clampOr_within delay (by decide) (within_zero hd)).2,
      clampOr_within window (by decide) hw, clampOr_within stored (by decide) hs⟩
  · exact ⟨hp, hd, hw, hs⟩

theorem decideCameraSet_goes (mask : Pair Bool) (pulse delay window stored lateLimit : Option Nat) (s : State) :
    Goes s (decideCameraSet mask pulse delay window stored lateLimit s).1 := by
  refine .step (.set { settingsOf s with
    cameras := ⟨setCamera mask.l pulse delay window stored s.seq.cameras.l,
      setCamera mask.r pulse delay window stored s.seq.cameras.r⟩
    lateLimit := clampOr lateLimit s.seq.lateLimit 0 1000000 } fun ok => ?_) rfl
  exact { ok with
    cameras := fun sd => by
      cases sd
      · exact setCamera_law _ _ _ _ _ _ (ok.cameras .left)
      · exact setCamera_law _ _ _ _ _ _ (ok.cameras .right)
    lateLimit := (clampOr_within lateLimit (by decide) (within_zero ok.lateLimit)).2 }

theorem idleValue_law (n : Nat) : idleValue n = 0 ∨ within 10 3600 (idleValue n) := by
  unfold idleValue
  split
  · exact .inl rfl
  · exact .inr (clamp_within n (by decide))

theorem decideIdleSet_goes (n : Nat) (s : State) : Goes s (decideIdleSet n s).1 :=
  .step (.set { settingsOf s with idleSetting := idleValue n } fun ok => { ok with idleSetting := idleValue_law n })
    ((course_restartIdle _).trans rfl)

theorem decideLinkSet_goes (e t c : Nat) (s : State) : Goes s (decideLinkSet e t c s).1 := by
  unfold decideLinkSet
  refine .ite (.refl s) fun _ => .ite (.refl s) fun tap => .ite (.refl s) fun _ => ?_
  refine .step (.set { settingsOf s with pendingTap := some t } fun ok => ?_) ((course_judgeSilence _).trans rfl)
  exact { ok with pendingTap := fun x hx => by cases hx; exact Nat.not_lt.mp tap }

theorem recharge_goes {v : Nat} (hv : within 250 2000 v) (s : State) (bk : Bank) :
    Goes s (modifyBank s bk fun r => { r with recharge := v }) := by
  refine .step (.set { settingsOf s with
    recharges := rechargesOf (modifyBank s bk fun r => { r with recharge := v }).lamps.banks } fun ok => ?_) rfl
  refine { ok with recharges := fun other => ?_ }
  have kept : within 250 2000 (getBank s other).recharge := rechargesOf_get s.lamps.banks other ▸ ok.recharges other
  rw [rechargesOf_get]
  show within 250 2000 (getBank (modifyBank s bk _) other).recharge
  by_cases same : other = bk
  · subst same
    rw [getBank_modifyBank]
    exact hv
  · rw [getBank_modifyBank_ne same]
    exact kept

theorem decideBankSet_goes (mask : Quad Bool) (recharge : Nat) (s : State) :
    Goes s (decideBankSet mask recharge s).1 := by
  refine .settled (.foldl (fun u bk => ?_) _ _)
  have set := recharge_goes (clamp_within recharge (a := 250) (b := 2000) (by decide)) u bk
  unfold setRecharge
  dsimp only
  split_ifs
  · exact set.then_eq (course_returnReady _ _)
  · exact set
  · exact .refl u

theorem lineSettings_debounce (dir : Option LineDir) (pull : Option Pull) (drive : Option Drive) (sense : Option Sense)
    (polarity : Option Polarity) (both : Bool) (debounce : Nat) (event wake hold : Bool) :
    (lineSettings dir pull drive sense polarity both debounce event wake hold).debounce ≤ 50 :=
  (clamp_within debounce (a := 0) (b := 50) (by decide)).2

theorem decideLineConfig_goes (line : Nat) (dir : Option LineDir) (pull : Option Pull) (drive : Option Drive)
    (sense : Option Sense) (polarity : Option Polarity) (both : Bool) (debounce : Nat) (event wake hold : Bool)
    (s : State) :
    Goes s (decideLineConfig line dir pull drive sense polarity both debounce event wake hold s).1 := by
  unfold decideLineConfig
  refine .ite (.refl s) fun _ => ?_
  split
  · exact .refl s
  · exact .ite (.refl s) fun _ => .ite (.refl s) fun _ => configureLine_goes s line (lineSettings_debounce ..)

/-! ### The other requests -/

theorem decideFetch_goes (s : State) : Goes s (decideFetch s).1 := by
  have offered : ∀ u, Goes u (reofferFirst u) := fun u => by
    unfold reofferFirst
    split
    · exact .refl u
    · split
      · exact .step .reported (course_enqueue _ _ _)
      · exact .refl u
  exact .trans (.of_eq ((course_driveFn _ _ _).trans (by rfl))) (offered _)

theorem decideClearSafe_goes (s : State) : Goes s (decideClearSafe s).1 := by
  unfold decideClearSafe
  refine .ite (.refl s) fun _ => .ite (.refl s) fun _ => .ite (.refl s) fun _ => .settled (.step .clear ?_)
  split <;> rfl

theorem decideVolumeLoad_goes (mark : Text) (part leaves thickness leafCeiling volumeCeiling limit reserve : Nat)
    (s : State) :
    Goes s (decideVolumeLoad mark part leaves thickness leafCeiling volumeCeiling limit reserve s).1 := by
  unfold decideVolumeLoad
  split_ifs <;> exact .of_eq rfl

theorem decideVolumeOpen_goes (k : Nat) (s : State) : Goes s (decideVolumeOpen k s).1 := by
  unfold decideVolumeOpen
  split_ifs
  case neg =>
    split
    · exact .refl s
    · exact .settled (.of_eq ((course_judgeSilence _).trans (by rfl)))
  all_goals exact .refl s

theorem decideVolumeSet_goes (lc vc limit reserve thickness : Option Nat) (s : State) :
    Goes s (decideVolumeSet lc vc limit reserve thickness s).1 := by
  unfold decideVolumeSet
  split
  · exact .refl s
  · split
    · exact .refl s
    · split <;> exact .of_eq rfl

theorem decideVolumeClose_goes (force : Bool) (s : State) : Goes s (decideVolumeClose force s).1 := by
  have closed : Goes s (closeVolume s) := .settled (.of_eq ((course_judgeSilence _).trans
    ((course_enqueue _ _ _).trans ((course_closeBankHoods _).trans ((course_clearHoodRequests _).trans (by rfl))))))
  unfold decideVolumeClose
  exact .ite (.refl s) fun _ => .ite (.refl s) fun _ => .ite (.refl s) fun _ => .ite (.refl s) fun _ =>
    .ite (.refl s) fun _ => closed

theorem decideReseat_goes (k : Nat) (leaf : Option Nat) (s : State) : Goes s (decideReseat k leaf s).1 := by
  have manual : ∀ u, course (countManual u leaf) = course u := fun u => by cases leaf <;> rfl
  have taken : Goes s (reseatAt s k leaf) := by
    unfold reseatAt
    extract_lets _ s1 s2
    have h1 : course s1 = course s := (manual _).trans rfl
    clear_value s1
    have h2 : course s2 = course s := by
      unfold s2
      split
      · exact (course_suctionOff s1).trans h1
      · exact h1
    clear_value s2
    refine .settled (.of_eq ?_)
    split
    · exact h2
    · exact (course_startAdjust s2 k).trans h2
  unfold decideReseat
  refine .ite (.refl s) fun _ => .ite (.refl s) fun _ => .ite (.refl s) fun _ => ?_
  split
  · exact .refl s
  · exact taken

theorem decideShoot_goes (t : Nat) (x : Option Sides) (r : Nat) (p : Option Purpose) (n : Option Nat) (s : State) :
    Goes s (decideShoot t x r p n s).1 := by
  unfold decideShoot
  split
  · exact .refl s
  · dsimp only
    split
    · exact .refl s
    · exact .refl s
    · exact acceptOrder_goes _ ‹_›

/-- A LOWER that passes its checks finds the platen RAISED and no turn in flight (R44). -/
theorem lowerCheck_none {s : State} (h : lowerCheck s = none) : s.motion.turn = none ∧ s.motion.platen = .raised := by
  simp only [lowerCheck, firstRefusal_none] at h
  obtain ⟨-, -, -, -, busy, platen, -⟩ := h
  simp only [turnInFlight, Bool.or_eq_true, not_or] at busy
  exact ⟨by simpa using busy.1.1.1, not_not.mp platen⟩

theorem decideLower_goes (s : State) : Goes s (decideLower s).1 := by
  unfold decideLower
  split
  · exact .refl s
  · rename_i passed
    obtain ⟨turn, platen⟩ := lowerCheck_none passed
    exact .step (.lower (fnActive s .platenContact) turn platen) (course_startLowering s)

/-- A RAISE that passes its checks finds no turn in flight (R47). -/
theorem raiseCheck_none {s : State} (h : raiseCheck s = none) : s.motion.turn = none := by
  simp only [raiseCheck, firstRefusal_none] at h
  simpa [turnInFlight] using h.1

theorem decideRaise_goes (s : State) : Goes s (decideRaise s).1 := by
  unfold decideRaise
  split
  · exact .refl s
  · rename_i passed
    split
    · exact .refl s
    · exact .refl s
    · have reason : mayRaise (course s) :=
        .inr (.inr (.inr fun t ht => absurd ((raiseCheck_none passed).symm.trans ht) nofun))
      exact .settled (startRaise_goes false reason)

theorem decideTurn_goes (d : Direction) (o : Bool) (s : State) : Goes s (decideTurn d o s).1 := by
  unfold decideTurn
  split
  · exact .refl s
  · exact acceptTurn_goes _ ‹_›

theorem decideTurnResume_goes (s : State) : Goes s (decideTurnResume s).1 := by
  unfold decideTurnResume
  split
  · exact .refl s
  · split
    · exact .refl s
    · exact resumeTurn_goes (heldTurn_some ‹_›)

theorem decideTurnAbandon_goes (s : State) : Goes s (decideTurnAbandon s).1 := by
  unfold decideTurnAbandon
  split
  · exact .refl s
  · exact .settled (.trans (.of_eq (by rfl)) (endTurn_goes _ _))

theorem decideBankPower_goes (mask : Quad Bool) (command : Option Bool) (s : State) :
    Goes s (decideBankPower mask command s).1 := by
  have power : ∀ on u bk, course (powerBank on mask u bk) = course u := fun on u bk => by
    unfold powerBank
    split_ifs <;> simp
  unfold decideBankPower
  split
  · exact .refl s
  · exact .ite (.refl s) fun _ => .ite (.refl s) fun _ => .of_eq (foldl_keeps course _ (power _) _ _)

theorem decideLineBind_goes (f : Option Fn) (line : Option Nat) (s : State) : Goes s (decideLineBind f line s).1 := by
  unfold decideLineBind
  split
  · exact .refl s
  · split
    · exact rebind_goes s _ none
    · refine .ite (.refl s) fun _ => ?_
      split
      · exact .refl s
      · exact rebind_goes s _ _

end Sys2Proof.Machine
end

