-- ==== Sys2Proof/Proofs/CourseOfEvents.lean ====
section
/-! The course under the timed events and under every command, and the step lemmas of the safe state, the platen and the
settings. -/
namespace Sys2Proof.Machine

/-! ### The events -/

theorem periodBoundary_goes (s : State) : Goes s (periodBoundary s) := by
  unfold periodBoundary
  split
  · refine .step (.set { settingsOf s with tap := s.time.pendingTap.getD s.time.tap, pendingTap := none } fun ok => ?_) rfl
    refine { ok with tap := ?_, pendingTap := nofun }
    cases pending : s.time.pendingTap with
    | none => exact ok.tap
    | some t => exact ok.pendingTap t pending
  · exact .refl s

/-- A pressure reading and what the motion controller does upon it: a PRESSING platen that comes DOWN ends a turn that waits
for it (R45, R46, R57). -/
theorem takeReading_goes (s : State) (n : Nat) : Goes s (runMotion (takeReading s n)) := by
  have read : ∀ high, Goes s (runMotion { s with motion.pressure := n, motion.pressureHigh := high }) := fun _ =>
    (Goes.of_eq (by rfl)).trans (runMotion_goes _)
  unfold takeReading
  dsimp only
  split_ifs with above fault down
  · exact .trans (.of_eq (by rfl)) ((raiseFault_goes _ .pressureHigh none).trans (runMotion_goes _))
  · exact read s.motion.pressureHigh
  · exact .trans (.of_eq (by rfl)) (runMotion_enterDown_goes
      (s := { s with motion.pressure := n, motion.pressureHigh := false }) down.1)
  · exact read false

/-- A fault that an event raises. -/
theorem fault_goes {s u : State} (h : Goes s u) (k : FaultKind) (bk : Option Bank) :
    Goes s (settle (raiseFault u k bk)) := (h.trans (raiseFault_goes u k bk)).settled

theorem failCharge_goes (s : State) (bk : Bank) : Goes s (failCharge s bk) := by
  have failed := course_modifyBank s bk (fun r => { r with state := .fault, hoodRequest := none, deadline := none }) fun _ => rfl
  exact fault_goes (.of_eq ((course_reportBank _ _ _ _ _).trans failed)) _ _

theorem captureFiring_goes (s : State) (bk : Bank) (g : Grant) : Goes s (captureFiring s bk g) := by
  refine .settled (.of_eq ?_)
  split
  · refine (course_answerAsk _ _ _).trans ((course_creditFiring _ _).trans ?_)
    exact course_modifyBank _ _ _ fun _ => rfl
  · exact course_answerAsk _ _ _

theorem failGrip_goes (s : State) (t : Turn) : Goes s (failGrip s t) := by
  unfold failGrip
  split
  · exact fault_goes (.refl s) _ _
  · refine .then_eq (modifyTurn_goes (s := suctionOff s) ?_) ((course_restartIdle _).trans (by rfl))
    exact mayTurn_of_stage (fun _ => rfl) (fun _ => id) _

/-- The dwell timer expires: its raise starts at once, or waits for a capture or for the hold (R48). -/
theorem expireDwell_goes {s : State} {d : Dwell} (running : s.motion.dwell = some d) : Goes s (expireDwell s d) := by
  have timed : (course s).dwell.isSome = true := by simp [course, running]
  unfold expireDwell
  extract_lets _ s1
  have offered : course s1 = { course s with dwell := none } := (course_offerMajor _ _).trans rfl
  split
  · refine .settled (.step (.raise (fnActive s1 .platenTop) (.inr (.inr (.inl timed)))) ?_)
    show raised _ (course s1) = _
    rw [offered]
    rfl
  · refine .step (.expire true false timed) ?_
    show { course s1 with dwellDeferred := true } = _
    simp [offered]
  · refine .step (.expire false true timed) ?_
    show { course s1 with raisePending := true } = _
    simp [offered]

theorem endAir_goes {s : State} {t : Turn} (ht : s.motion.turn = some t) : Goes s (endAir s t) := by
  refine Goes.moved (.trans (t := { s with motion.air := false }) (.of_eq rfl) ?_)
  split
  · rename_i stage
    exact startStage_goes rfl fun x hx => .inl (by cases ht.symm.trans hx; rw [stage]; rfl)
  · exact startGrip_goes _

/-! ### The aim tick -/

/-- Levels within the range of an aim lamp (R85). -/
def inLamps (v : Pair Nat) : Prop := ∀ sd, v.get sd ≤ 1000

theorem inLamps_mk {l r : Nat} (hl : l ≤ 1000) (hr : r ≤ 1000) : inLamps ⟨l, r⟩ := fun sd => by
  cases sd; exacts [hl, hr]

/-- No pass of an aim tick raises a lamp above the range of its request (R105). -/
theorem chooseLevels_inLamps {s : State} (requested : ∀ sd, (s.lamps.aims.get sd).requested ≤ 1000) {v : Pair Nat}
    (hv : inLamps v) : inLamps (chooseLevels s v).1 := by
  have pass : ∀ p : State → Pair Nat → Side → Nat, (∀ v, inLamps v → ∀ sd, p s v sd ≤ 1000) →
      ∀ x : Pair Nat × Pair (Option Constraint), inLamps x.1 → inLamps (aimPass s p x).1 := fun p h x hx =>
    inLamps_mk (h _ hx .left) (h _ hx .right)
  have guard := pass passGuard fun v hv sd => by
    unfold passGuard
    split
    · exact (Nat.min_le_left _ _).trans (requested sd)
    · exact hv sd
  have own := pass passOwn fun v hv sd => by
    unfold passOwn
    split
    · exact Nat.zero_le _
    · exact hv sd
  have spill := pass passSpill fun v hv sd => by
    unfold passSpill
    split
    · exact Nat.zero_le _
    · exact hv sd
  unfold chooseLevels
  dsimp only
  split_ifs
  · exact hv
  · exact guard _ hv
  · exact own _ (guard _ hv)
  · exact spill _ (own _ (guard _ hv))

theorem tickLevels_inLamps {s : State} (requested : ∀ sd, (s.lamps.aims.get sd).requested ≤ 1000) :
    inLamps (tickLevels s) := by
  refine chooseLevels_inLamps requested (inLamps_mk ?_ ?_) <;> split
  · exact requested .left
  · exact Nat.zero_le _
  · exact requested .right
  · exact Nat.zero_le _

theorem course_guardLamp (t0 : State) (v : Pair Nat) (n : Pair (Option Constraint)) (s : State) (sd : Side) :
    course (guardLamp t0 v n s sd) = course s := by
  unfold guardLamp
  split
  · dsimp only
    split <;> split
    · rfl
    · rfl
    · exact (course_offerMinor _ _).trans rfl
    · exact (course_offerMinor _ _).trans rfl
  · rfl

/-- An aim tick sets the applied levels alone (R103, R105). -/
theorem aimTickStart_goes (s : State) : Goes s (aimTickStart s) := by
  refine .then_eq (.then_eq (lamps_goes (t := { s with lamps.aims :=
      ⟨{ s.lamps.aims.l with applied := (tickLevels s).l }, { s.lamps.aims.r with applied := (tickLevels s).r }⟩ })
    rfl fun h => ?_) (by rfl)) (foldl_keeps course _ (course_guardLamp s _ _) _ _)
  have applied := tickLevels_inLamps fun sd => (h sd).1
  intro sd
  cases sd
  · exact ⟨(h .left).1, (h .left).2.1, applied .left⟩
  · exact ⟨(h .right).1, (h .right).2.1, applied .right⟩

/-! ### Every command -/

/-- What a guarded event does, its guard met or not. -/
theorem Goes.guarded {s t : State} {p : Prop} [Decidable p] (h : p → Goes s t) : Goes s (if p then t else s) := by
  split
  · exact h ‹_›
  · exact .refl s

/-- The event of a running turn whose timer has expired. -/
theorem Goes.expired {s : State} {f : Turn → State} (h : ∀ t, s.motion.turn = some t → Goes s (f t)) :
    Goes s (match expiredTurn s with
      | none => s
      | some t => f t) := by
  split
  · exact .refl s
  · exact h _ (expiredTurn_some ‹_›)

theorem replySent_goes (s : State) : ∀ t, execReplySent s = .next t → Goes s t := by
  rintro t h
  cases h
  split
  · exact .refl s
  · split
    · exact softReset_goes s
    · exact .of_eq ((course_takeUp _).trans rfl)

/-- The raise that has timed out leaves the platen at rest, and its fault raises it again (R47). -/
theorem raiseTimeout_goes (s : State) : ∀ t, execRaiseTimeout s = .next t → Goes s t := by
  rintro t h
  cases h
  refine .guarded fun expired => fault_goes (.step (.stop ?_) rfl) _ _
  simp only [platenExpired, Bool.and_eq_true, decide_eq_true_eq] at expired
  exact expired.1

theorem hoodTravelEnd_goes (hood : HoodId) (s : State) : ∀ t, execHoodTravelEnd hood s = .next t → Goes s t := by
  rintro t h
  cases h
  refine .guarded fun _ => .settled ?_
  cases hood with
  | bank bk => exact .of_eq (course_modifyBank _ _ _ fun _ => rfl)
  | aim sd => exact .of_eq (by cases sd <;> rfl)

/-- Every command takes the course on by the steps of its owners. -/
theorem exec_goes (c : Instr) (s : State) : ∃ t, exec c s = .next t ∧ Goes s t := by
  cases c <;> refine ⟨_, rfl, ?_⟩
  case powerOnReset => exact powerOn_goes s
  case softReset => exact softReset_goes s
  case byteReceived => exact .of_eq ((course_takeByte _ _ _).trans (by split <;> simp))
  case gapError => exact .guarded fun _ => .of_eq (course_dropFrame s)
  case replySent => exact replySent_goes s _ rfl
  case fetch => exact observe_goes decideFetch_goes ..
  case linkSet => exact serve_goes (decideLinkSet_goes _ _ _) ..
  case safe => exact serve_goes (fun u => (raiseFault_goes u .operator none).settled) ..
  case clearSafe => exact serve_goes decideClearSafe_goes ..
  case idleSet => exact serve_goes (decideIdleSet_goes _) ..
  case volumeLoad => exact serve_goes (decideVolumeLoad_goes _ _ _ _ _ _ _ _) ..
  case volumeOpen => exact serve_goes (decideVolumeOpen_goes _) ..
  case volumeSet => exact serve_goes (decideVolumeSet_goes _ _ _ _ _) ..
  case volumeClose => exact serve_goes (decideVolumeClose_goes _) ..
  case volumeDiscard => exact serve_goes_of_eq (fun u => by unfold decideVolumeDiscard; split <;> rfl) ..
  case reseat => exact serve_goes (decideReseat_goes _ _) ..
  case leafMark =>
    refine serve_goes_of_eq (fun u => ?_) ..
    unfold decideLeafMark
    split
    · rfl
    · split
      · rfl
      · split <;> rfl
  case leafQuery => exact serve_goes_of_eq (fun u => by unfold decideLeafQuery; split_ifs <;> rfl) ..
  case gapsQuery => exact serve_goes_of_eq (fun u => by unfold decideGapsQuery; split_ifs <;> rfl) ..
  case planSet =>
    refine serve_goes_of_eq (fun u => ?_) ..
    unfold decidePlanSet
    repeat' split
    all_goals rfl
  case planQuery => exact serve_goes_of_eq (fun u => by unfold decidePlanQuery; split_ifs <;> rfl) ..
  case lower => exact serve_goes decideLower_goes ..
  case raise => exact serve_goes decideRaise_goes ..
  case turn => exact serve_goes (decideTurn_goes _ _) ..
  case turnBack => exact serve_goes (decideTurn_goes _ _) ..
  case turnResume => exact serve_goes decideTurnResume_goes ..
  case turnAbandon => exact serve_goes decideTurnAbandon_goes ..
  case motionSet => exact serve_goes (decideMotionSet_goes _ _ _ _ _ _ _) ..
  case bankPower => exact serve_goes (decideBankPower_goes _ _) ..
  case bankSet => exact serve_goes (decideBankSet_goes _ _) ..
  case aimSet => exact serve_goes (decideAimSet_goes _ _ _) ..
  case recipeSet => exact serve_goes (decideRecipeSet_goes _ _ _) ..
  case recipeQuery => exact serve_goes_of_eq (fun u => by unfold decideRecipeQuery; split_ifs <;> rfl) ..
  case lampCal =>
    refine serve_goes_of_eq (fun u => ?_) ..
    unfold decideLampCal
    repeat' split
    all_goals first | rfl | (unfold setCal; split <;> rfl)
  case calQuery => exact serve_goes_of_eq (fun u => by unfold decideCalQuery; split <;> rfl) ..
  case shoot => exact serve_goes (decideShoot_goes _ _ _ _ _) ..
  case cameraSet => exact serve_goes (decideCameraSet_goes _ _ _ _ _ _) ..
  case lineConfig => exact serve_goes (decideLineConfig_goes _ _ _ _ _ _ _ _ _ _ _) ..
  case lineWrite =>
    exact serve_goes (fun u => mapLinesFrom_goes u _ fun i l => by unfold writeLine; split <;> rfl) ..
  case lineCounts =>
    exact serve_goes (fun u => mapLinesFrom_goes u _ fun i l => by unfold clearCount; split <;> rfl) ..
  case lineQuery => exact serve_goes_of_eq (fun u => by unfold decideLineQuery; split_ifs <;> rfl) ..
  case lineClear => exact serve_goes_of_eq (fun u => foldl_keeps course _ course_clearLine _ _) ..
  case lineBind => exact serve_goes (decideLineBind_goes _ _) ..
  case pinLevelChange line _ =>
    refine .trans (.then_eq (acceptDue_goes s line) ?_) (acceptDue_goes _ _)
    exact course_modifyLine _ _ _ fun _ => comparePin_debounce _ _
  case acceptedEdge => exact acceptDue_goes s _
  case chargeGood =>
    split
    · exact .of_eq ((course_endCharge _ _).trans rfl)
    · exact .of_eq rfl
  case tick1ms =>
    exact .guarded fun _ => .settled (.trans (.trans (.of_eq (by rfl)) (periodBoundary_goes _)) (takeReading_goes _ _))
  case linkSilent => exact .guarded fun _ => fault_goes (.of_eq (by rfl)) _ _
  case aimTick => exact .guarded fun _ => .trans (.of_eq (by rfl)) (aimTickStart_goes _)
  case idleTimerExpiry =>
    refine .guarded fun _ => ?_
    split
    · exact .of_eq (course_restartIdle s)
    · exact enterIdle_goes s
  case loweringTimeout => exact .guarded fun _ => fault_goes (.of_eq (by rfl)) _ _
  case pressingTimeout => exact .guarded fun _ => fault_goes (.of_eq (by rfl)) _ _
  case raiseTimeout => exact raiseTimeout_goes s _ rfl
  case dwellExpiry =>
    split
    · exact .refl s
    · exact .guarded fun _ => expireDwell_goes ‹_›
  case platesAtTarget => exact .guarded fun _ => .moved (.of_eq rfl)
  case plateTimeout => exact .guarded fun _ => fault_goes (.of_eq (by rfl)) _ _
  case airTimeEnd => exact .expired fun t ht => .guarded fun _ => endAir_goes ht
  case armTimeout => exact .expired fun t _ => .guarded fun _ => fault_goes (.refl s) _ _
  case gripTimeout => exact .expired fun t _ => .guarded fun _ => failGrip_goes s t
  case releaseTimeout => exact .expired fun t _ => .guarded fun _ => fault_goes (.refl s) _ _
  case verifyTimeout => exact .expired fun t _ => .guarded fun _ => fault_goes (.refl s) _ _
  case bankChargeTimeout => exact .guarded fun _ => failCharge_goes s _
  case conditioningFlash =>
    split
    · exact .refl s
    · exact .of_eq (course_conditioningFlash s _ _)
  case conditioningComplete =>
    exact .guarded fun _ => .settled (.of_eq ((course_enterReady _ _ _).trans (course_modifyBank _ _ _ fun _ => rfl)))
  case captureFiring =>
    split
    · exact .refl s
    · exact captureFiring_goes s _ _
  case flashEnd => exact .guarded fun _ => .settled (.of_eq (course_modifyBank _ _ _ fun _ => rfl))
  case recoveryEnd => exact .guarded fun _ => .settled (.of_eq (course_returnReady _ _))
  case topUpStart => exact .of_eq (course_topUp s _)
  case topUpEnd => exact .guarded fun _ => .settled (.of_eq (course_returnReady _ _))
  case wakingEnd => exact .guarded fun _ => .settled (.of_eq (by split <;> simp))
  case hoodTravelEnd => exact hoodTravelEnd_goes _ s _ rfl
  case notBeforeTime => exact .guarded fun _ => settle_goes s
  case armingTimeout =>
    split
    · exact .refl s
    · exact .settled (.of_eq rfl)
  case triggerPulseEnd => exact .guarded fun _ => .of_eq ((course_driveFn _ _ _).trans rfl)
  case syncWindowClose => exact .guarded fun _ => .settled (.of_eq (course_modifySide _ _ _))
  case storedTimeout => exact .guarded fun _ => .settled (.of_eq (course_modifySide _ _ _))
  case conditioningFlashDue => exact .guarded fun _ => .of_eq (course_askFiring _ _ _ _ _ _)
  case ident => exact observe_goes (fun u => .refl u) ..
  case status => exact observe_goes (fun u => .refl u) ..
  case time => exact observe_goes (fun u => .refl u) ..
  case motionQuery => exact observe_goes (fun u => .refl u) ..
  case lampQuery => exact observe_goes (fun u => .refl u) ..
  case captureQuery => exact observe_goes (fun u => .refl u) ..
  case reset => exact serve_goes (fun u => .refl u) ..
  case volumeQuery => exact serve_goes (fun u => .refl u) ..
  case doseQuery => exact serve_goes (fun u => .refl u) ..
  case lineRead => exact serve_goes (fun u => .refl u) ..

theorem step_goes {s t : State} (h : step s = .next t) : Goes s t := by
  unfold step at h
  split at h
  · cases h
    unfold idleStep passMicrosecond
    split
    · split <;> exact .of_eq rfl
    · exact .of_eq rfl
  · rename_i c rest _
    obtain ⟨u, hu, r⟩ := exec_goes c { s with pending := rest }
    obtain rfl := Host.Outcome.next.inj (hu.symm.trans h)
    exact r

end Sys2Proof.Machine

namespace Sys2Proof
open Machine

/-- Settles O11: the safe state is entered with a fault by an episode's beginning alone, which abandons the turn and flushes
the orders; a turn and an order are accepted outside it alone, and CLEAR_SAFE and the resets leave nothing of an episode. -/
theorem safeStateHoldsItsFaults : Obligations.SafeStateHoldsItsFaults := by
  intro s t hs h
  exact (step_goes h).safeInv hs

/-- Settles O12: a turn comes to a stage with the arm out under a RAISED platen alone, which then leaves RAISED with the start
of LOWER; the dwell timer starts as the platen comes DOWN, and every way out of DOWN stops it. -/
theorem platenStaysRaisedWhileTheArmIsOut : Obligations.PlatenStaysRaisedWhileTheArmIsOut := by
  intro s t hs h
  exact (step_goes h).platenInv hs.2

/-- Settles O16: each request that sets a value clamps or checks it first, the tap in force is one that LINK_SET left
waiting, and an aim tick applies no level above the one requested. -/
theorem settingsStayInTheirRanges : Obligations.SettingsStayInTheirRanges := by
  intro s t hs h
  exact (step_goes h).settingsInv hs

end Sys2Proof
end

