-- ==== Sys2Proof/Proofs/PlatenAndPlates.lean ====
section
/-! LOWER, RAISE, the timers of the platen and the plates (R44 to R50). -/
namespace Sys2Proof.Machine

/-! ### The platen -/

theorem startLowering_eq (s : State) :
    startLowering s = { s with
      motion.platen := if fnActive s .platenContact then .pressing else .lowering
      motion.platenDeadline := some (s.time.clock + if fnActive s .platenContact then 1000000 else 3000000) } := by
  unfold startLowering
  split <;> rfl

/-- LOWER as its table of checks decides it (R44). -/
theorem decideLower_chosen (a : State) :
    decideLower a = chosen
      [ orElse (decide (a.volume.state ≠ .opened)) .noVolume,
        orElse (!a.volume.known) .openingUnknown,
        orElse a.safe.flag .safeState,
        orElse a.lines.hold.isSome .held,
        orElse (a.motion.turn.isSome || platenIn a [.lowering, .raising] || decide (a.motion.plateState = .moving))
          .busyMotion,
        orElse (platenIn a [.pressing, .down, .stopped]) .wrongState,
        orElse (decide (a.motion.plateState = .unsettled) || !fnActive a .armHome) .wrongState ] a (startLowering a) .none := by
  show afterCheck a (accept (startLowering a) .none) (lowerCheck a) = _
  unfold lowerCheck
  refine chosen_checkOr (notOpened_iff a) fun _ => chosen_checkOr Iff.rfl fun _ => chosen_checkOr Iff.rfl fun _ => ?_
  refine chosen_checkOr Iff.rfl fun _ => chosen_checkOr ?_ fun busy => chosen_checkOr ?_ fun _ => chosen_checkOr ?_ fun _ => rfl
  · simp [platenIn, turnInFlight, adjusting]; tauto
  · simp only [Bool.or_eq_true, decide_eq_true_eq, not_or] at busy
    obtain ⟨⟨⟨-, lowering⟩, raising⟩, -⟩ := busy
    cases h : a.motion.platen <;> simp_all [platenIn]
  · simp

/-- RAISE as its table of checks decides it (R47). -/
theorem decideRaise_chosen (a : State) :
    decideRaise a = chosen
      [ orElse a.motion.turn.isSome .busyMotion,
        orElse (a.seq.capture.isSome && !a.safe.flag) .busyCapture,
        orElse a.lines.hold.isSome .held ] a
      (if platenIn a [.raised, .raising] then a else settle (startRaise a false)) .none := by
  have taken : decideRaise a = afterCheck a
      (accept (if platenIn a [.raised, .raising] then a else settle (startRaise a false)) .none) (raiseCheck a) := by
    unfold decideRaise
    cases raiseCheck a with
    | some r => rfl
    | none => cases h : a.motion.platen <;> simp [afterCheck, platenIn, h]
  rw [taken]
  unfold raiseCheck
  exact chosen_checkOr Iff.rfl fun _ => chosen_checkOr Iff.rfl fun _ => chosen_checkOr Iff.rfl fun _ => rfl

theorem platenExpired_iff {s : State} {p : Platen} {d : Nat} (hd : s.motion.platenDeadline = some d)
    (due : d ≤ s.time.clock) (platen : s.motion.platen = p) : platenExpired s p = true := by
  simp [platenExpired, platen, hd, reached, due]

/-- The target of a plate by the formula of R49: its exact value clamped, with the flag of the clamp. -/
theorem plateTarget_eq {base d : Nat} {exact_ : Int} (h : base ≤ 60000) (he : exact_ = (base : Int) - d) :
    ((plateTarget base d).1 : Int) = max 0 (min exact_ 60000)
      ∧ (plateTarget base d).2 = decide (exact_ < 0 ∨ 60000 < exact_) := by
  subst he
  simp only [plateTarget, clamp, decide_eq_decide]
  constructor
  · split_ifs <;> omega
  · omega

end Sys2Proof.Machine

namespace Sys2Proof
open Machine

/-- Settles O38: the owner's checks are the table's, in order, and a lowering starts PRESSING where contact is made already. -/
theorem lowerStartsALowering : Obligations.LowerStartsALowering := by
  intro tag s a ha
  subst ha
  refine congrArg _ (serve_decided ((decideLower_chosen _).trans ?_))
  unfold startLowering
  rfl

/-- Settles O39: the checks of RAISE are the table's; each timer is due under its own state of the platen alone. -/
theorem raisesAndTimersOfThePlaten : Obligations.RaisesAndTimersOfThePlaten := by
  refine ⟨fun tag s a ha => ?_, fun s d => ⟨fun hd due => ?_, fun w report hw due hreport => ?_⟩⟩
  · subst ha
    exact congrArg _ (serve_decided (decideRaise_chosen _))
  · exact ⟨fun hp => congrArg _ (if_pos (platenExpired_iff hd due hp)),
      fun hp => congrArg _ (if_pos (platenExpired_iff hd due hp)),
      fun hp => congrArg _ (if_pos (platenExpired_iff hd due hp))⟩
  · have expired : exec .dwellExpiry s = .next (expireDwell s w) := by
      simp only [exec, execDwellExpiry, hw]
      exact congrArg _ (if_pos due)
    rw [expired]
    simp only [hreport]
    unfold expireDwell dwellDeferral captureInFlight held
    cases s.seq.capture.isSome <;> cases s.lines.hold.isSome <;> rfl

/-- Settles O45: the target of each plate is the base less what the leaves on its side take, clamped; the flags say where the
clamp bit. -/
theorem platesMoveToTheirTargets : Obligations.PlatesMoveToTheirTargets := by
  refine ⟨fun s k base hk left right hl hr => ?_, fun s k => rfl, fun s moving due => ?_, fun s d moving hd due => ?_⟩
  · obtain ⟨targetL, flagL⟩ := plateTarget_eq (d := k * s.volume.thickness) base (hl.trans (by push_cast; rfl))
    obtain ⟨targetR, flagR⟩ := plateTarget_eq (d := (s.volume.leafCount - k) * s.volume.thickness) base
      (hr.trans (by rw [Nat.cast_mul, Nat.cast_sub hk]))
    exact ⟨targetL, targetR, by rw [plateLimits, flagL, flagR]⟩
  · exact congrArg _ (if_pos (by simp [adjusting, moving, due]))
  · exact congrArg _ (if_pos (by simp [adjusting, moving, hd, reached, due]))

end Sys2Proof
end

