-- ==== Sys2Proof/Proofs/TurnStages.lean ====
section
/-! The stages of a turn, their timers, and TURN_RESUME and TURN_ABANDON (R53 to R57, R61, R62). -/
namespace Sys2Proof.Machine

/-! ### Stages as records -/

theorem idleRestarted_active {s : State} (active : s.time.idle = false) :
    idleRestarted s = if s.time.idleSetting = 0 then none else some s.time.clock := by
  rw [idleRestarted, if_neg (by simp [active])]

/-- A request leaves the idle timer restarted (R142). -/
theorem idleRestarted_awake (kind : Byte) (s : State) : idleRestarted (awake kind s) = (awake kind s).time.idleStart := by
  rw [idleRestarted_active (awake_idle kind s)]
  rfl

/-- What the turn record becomes at the start of a stage. -/
def Turn.inStage (t : Turn) (g : Stage) (d : Option Nat) : Turn :=
  { t with stage := g, recovery := false, regripAir := false, deadline := d }

theorem setStage_eq {s : State} {t : Turn} (ht : s.motion.turn = some t) (g : Stage) (d : Option Nat) :
    setStage s g d = { s with
      time.idleStart := idleRestarted s, motion.turn := some (t.inStage g d) } := by
  rw [setStage, restartIdle_eq]
  simp only [modifyTurn, ht]
  rfl

/-- The end of a turn enters its report and restarts the idle timer (R58). -/
theorem endTurn_eq (s : State) (r : TurnReport) :
    endTurn s r = enterReserved { s with time.idleStart := idleRestarted s, motion.turn := none } (.turn r) := by
  rw [endTurn, restartIdle_eq]
  simp only [enterReserved, enqueue, driveFn_eq]
  rfl

/-! ### The ends of the stages -/

section
variable {s : State} {t : Turn}

theorem startStage_air (ht : s.motion.turn = some t) : startStage s .air = { s with
    time.idleStart := idleRestarted s, motion.air := true
    motion.turn := some (t.inStage .air (some (s.time.clock + s.motion.profile.airTime * 1000))) } := by
  rw [startStage, setStage_eq ht]; rfl

theorem startStage_reach (ht : s.motion.turn = some t) : startStage s .reach = { s with
    time.idleStart := idleRestarted s, motion.armPowered := true
    motion.turn := some (t.inStage .reach (some (s.time.clock + 2000000))) } := by
  rw [startStage, setStage_eq ht]; rfl

theorem startGrip_eq (ht : s.motion.turn = some t) : startGrip s = { s with
    motion.suction := true
    motion.turn := some
      { t with attempts := t.attempts + 1, regripAir := false, deadline := some (s.time.clock + 800000) } } := by
  simp only [startGrip, modifyTurn, ht]; rfl

theorem startStage_grip (ht : s.motion.turn = some t) : startStage s .grip = { s with
    time.idleStart := idleRestarted s, motion.suction := true
    motion.turn := some { t.inStage .grip (some (s.time.clock + 800000)) with attempts := t.attempts + 1 } } := by
  rw [startStage, setStage_eq ht]; rfl

theorem startStage_sweep (ht : s.motion.turn = some t) : startStage s .sweep = { s with
    time.idleStart := idleRestarted s
    motion.turn := some (t.inStage .sweep (some (s.time.clock + 2000000))) } := by
  rw [startStage, setStage_eq ht]; rfl

theorem startStage_release (ht : s.motion.turn = some t) : startStage s .release = { s with
    time.idleStart := idleRestarted s, motion.suction := false, motion.keptOn := false
    motion.turn := some { t.inStage .release (some (s.time.clock + 500000)) with noted := false } } := by
  rw [startStage, setStage_eq ht]; rfl

theorem startStage_verify (ht : s.motion.turn = some t) : startStage s .verify = { s with
    time.idleStart := idleRestarted s
    motion.turn := some (t.inStage .verify (some (s.time.clock + 500000))) } := by
  rw [startStage, setStage_eq ht]; rfl

theorem startStage_park (ht : s.motion.turn = some t) : startStage s .park = { s with
    time.idleStart := idleRestarted s
    motion.turn := some (t.inStage .park (some (s.time.clock + 2000000))) } := by
  rw [startStage, setStage_eq ht]; rfl

theorem startStage_adjust (ht : s.motion.turn = some t) : startStage s .adjust =
    { startAdjust { s with time.idleStart := idleRestarted s } s.volume.k with
      motion.turn := some { t.inStage .adjust none with limits := plateLimits s s.volume.k } } := by
  rw [startStage, setStage_eq ht]; rfl

theorem startStage_lower (ht : s.motion.turn = some t) : startStage s .lower = { s with
    time.idleStart := idleRestarted s
    motion.platen := if fnActive s .platenContact then .pressing else .lowering
    motion.platenDeadline := some (s.time.clock + if fnActive s .platenContact then 1000000 else 3000000)
    motion.turn := some (t.inStage .lower none) } := by
  rw [startStage, setStage_eq ht, startLowering_eq]; rfl

theorem returnToAir_eq (ht : s.motion.turn = some t) : returnToAir s = { s with
    time.idleStart := idleRestarted s, motion.suction := false, motion.keptOn := false, motion.air := true
    volume.doublePicks := if s.volume.doublePicks < 4294967295 then s.volume.doublePicks + 1 else 4294967295
    motion.turn := some
      { t.inStage .air (some (s.time.clock + s.motion.profile.airTime * 1000)) with
        doublePicks := t.doublePicks + 1, retries := t.retries - 1 } } := by
  rw [returnToAir, startStage_air (t := { t with doublePicks := t.doublePicks + 1, retries := t.retries - 1 })
    (by simp [ht])]
  rfl

theorem doublePick_retry (ht : s.motion.turn = some t) (retries : 0 < t.retries) : doublePick s t = { s with
    motion.turn := some { t with recovery := true, deadline := some (s.time.clock + 2000000) } } := by
  rw [doublePick, if_neg retries.ne']
  simp only [modifyTurn, ht]; rfl

theorem turnDone_eq (s : State) (t : Turn) : turnDone s t = enterReserved { s with
    time.idleStart := idleRestarted s
    volume.turnsDone := if s.volume.turnsDone < 4294967295 then s.volume.turnsDone + 1 else 4294967295
    motion.turn := none }
    (.turn
      { seq := t.seq, direction := t.direction, origin := t.origin, outcome := .done, stage := none
        fault := none, oldOpening := t.oldOpening, k := s.volume.k, known := s.volume.known, leaf := t.leaf
        handled := (getLeaf s t.leaf).handled, attempts := t.attempts, doublePicks := t.doublePicks
        limits := t.limits, keptOn := false, start := t.start, finish := s.time.clock }) := by
  rw [turnDone, endTurn_eq]; rfl

end

end Sys2Proof.Machine

namespace Sys2Proof
open Machine

/-- Settles O41: each stage ends at its condition, and the next starts with its switches and its timeout. -/
theorem turnStagesFollowTheirOrder : Obligations.TurnStagesFollowTheirOrder := by
  intro s t at_ idle ht running hat active hidle
  obtain rfl : at_ = t.inStage := funext fun g => funext fun d => hat g d
  obtain rfl : idle = idleRestarted s := hidle.trans (idleRestarted_active active).symm
  refine ⟨fun stage => ?_, fun waits => ?_, fun stage => ?_, fun stage regrip => ?_, fun stage returning double retries => ?_,
    fun stage returning double retries => ?_, fun stage returning => ?_, fun stage returning double => ?_, fun stage => ?_, fun stage => ?_,
    fun stage => ?_, fun stage => ?_, fun stage => ?_⟩
  · rw [← startStage_air ht]
    simp [turnStep, running, stage]
  · rcases waits with stage | ⟨stage, regrip⟩
    · simp [turnStep, stage]
    · simp [turnStep, stage, regrip]
  · rw [← startStage_grip ht]
    cases hd : t.direction <;> simp [turnStep, running, stage, hd, pickFn]
  · simp only [turnStep, running, stage, regrip]
    rw [startStage_sweep (s := countHandling s t.leaf) ht]
    rfl
  · rw [← doublePick_retry ht retries]
    simp [turnStep, running, stage, returning, double]
  · simp [turnStep, running, stage, returning, double, doublePick, retries]
  · rw [← returnToAir_eq ht]
    cases hd : t.direction <;> simp [turnStep, running, stage, returning, hd, pickFn]
  · rw [← startStage_release ht]
    cases hd : t.direction <;> simp [turnStep, running, stage, returning, double, hd, farFn]
  · rw [← startStage_verify ht]
    simp [turnStep, running, stage]
  · simp only [turnStep, running, stage]
    rw [startStage_park (s := { s with volume.k := turnedOpening t.direction s.volume.k }) ht]
    cases hd : t.direction <;> rfl
  · rw [← startStage_adjust ht]
    simp [turnStep, running, stage]
  · rw [← startStage_lower ht]
    simp [turnStep, running, stage]
  · rw [← turnDone_eq]
    simp [turnStep, running, stage]

end Sys2Proof
end

