-- ==== Sys2Proof/Proofs/TurnTimers.lean ====
section
/-! The timers of a turn, TURN_ABANDON and TURN_RESUME (R53 to R57, R61, R62). -/
namespace Sys2Proof.Machine

/-! ### The timers -/

theorem expiredTurn_eq {s : State} {t : Turn} {d : Nat} (ht : s.motion.turn = some t) (running : t.held = false)
    (hd : t.deadline = some d) (due : d ≤ s.time.clock) : expiredTurn s = some t := by
  simp [expiredTurn, ht, running, hd, reached, due]

theorem startRegrip_eq {s : State} {t : Turn} (ht : s.motion.turn = some t) : startRegrip s = { s with
    time.idleStart := idleRestarted s, motion.suction := false, motion.keptOn := false, motion.air := true
    volume.gripRetries := if s.volume.gripRetries < 4294967295 then s.volume.gripRetries + 1 else 4294967295
    motion.turn := some { t with
      retries := t.retries - 1, regripAir := true
      deadline := some (s.time.clock + s.motion.profile.airTime * 1000) } } := by
  rw [startRegrip, restartIdle_eq]
  simp only [modifyTurn, suctionOff, ht]
  rfl

/-! ### TURN_ABANDON and TURN_RESUME -/

/-- A request that its owner refuses or takes with a reply. -/
theorem serve_replied {kind tag : Byte} {owner : State → Decision} {s u : State} {r : Result} {f : Fields}
    (h : owner (awake kind s) = (u, r, f)) : serve kind tag owner s = replied kind tag r f u := by
  rw [serve, restartIdle_wakeIfIdle, h]
  rfl

theorem heldTurn_none {s : State} (h : ∀ t, s.motion.turn = some t → t.held = false) : heldTurn s = none := by
  unfold heldTurn
  cases ht : s.motion.turn with
  | none => rfl
  | some t => simp [h t ht]

theorem heldTurn_eq {s : State} {t : Turn} (ht : s.motion.turn = some t) (held : t.held = true) :
    heldTurn s = some t := by simp [heldTurn, ht, held]

theorem endTurn_fresh {s : State} (fresh : idleRestarted s = s.time.idleStart) (r : TurnReport) :
    endTurn s r = enterReserved { s with motion.turn := none } (.turn r) := by
  rw [endTurn_eq, fresh]

/-- A turn is abandoned where the arm stands (R62), in a part whose idle timer has just restarted. -/
theorem abandonTurn_eq {a : State} (fresh : idleRestarted a = a.time.idleStart) (t : Turn) :
    abandonTurn a t = settle (enterReserved
      { a with
        volume.known := a.volume.known && beforeGrip t.stage
        motion.suction := false, motion.keptOn := false, motion.armPowered := false
        motion.plateState := if t.stage = .adjust then .unsettled else a.motion.plateState
        motion.plateDeadline := if t.stage = .adjust then none else a.motion.plateDeadline
        motion.turn := none }
      (.turn
        { seq := t.seq, direction := t.direction, origin := t.origin, outcome := .abandoned
          stage := some (t.stage, t.recovery), fault := none, oldOpening := t.oldOpening, k := a.volume.k
          known := a.volume.known && beforeGrip t.stage, leaf := t.leaf, handled := (getLeaf a t.leaf).handled
          attempts := t.attempts, doublePicks := t.doublePicks, limits := t.limits, keptOn := false
          start := t.start, finish := a.time.clock })) :=
  congrArg settle (endTurn_fresh (by exact fresh) _)

/-- A resumed turn with another deadline. -/
def Turn.resumed (t : Turn) (d : Option Nat) : Turn := { t with held := false, deadline := d }

theorem inStage_again {t : Turn} {g : Stage} (stage : t.stage = g) (x d : Option Nat) :
    (t.resumed x).inStage g d = { t.resumed d with recovery := false, regripAir := false } := by
  subst stage
  rfl

/-- The state in which the stage of a resumed turn starts again: the turn runs. -/
def runAgain (a : State) (t : Turn) : State := { a with motion.turn := some (t.resumed t.deadline) }

/-- A resumed turn goes on from the stage that has started again. -/
theorem resumeTurn_eq {a : State} {t : Turn} (fresh : idleRestarted a = a.time.idleStart) (ht : a.motion.turn = some t)
    {m : Motion} (stage : resumeStage (runAgain a t) t = { a with motion := m }) :
    resumeTurn a t = settle (runMotion { a with motion := m }) := by
  have run : modifyTurn a (fun t => { t with held := false }) = runAgain a t := by
    simp only [modifyTurn, ht]
    rfl
  have still : restartIdle { a with motion := m } = { a with motion := m } := by
    rw [restartIdle_eq, show idleRestarted { a with motion := m } = a.time.idleStart from fresh]
  rw [resumeTurn, run, stage, still]

end Sys2Proof.Machine

namespace Sys2Proof
open Machine

/-- Settles O46: a timer that has expired is the running turn's, and the stage says whose event it is. -/
theorem turnTimersEndOrFault : Obligations.TurnTimersEndOrFault := by
  intro s t d ht running hd due active idle hidle
  obtain rfl : idle = idleRestarted s := hidle.trans (idleRestarted_active active).symm
  have expired := expiredTurn_eq ht running hd due
  refine ⟨fun stage => ?_, fun stage regrip => ?_, fun stage regrip retries => ?_, fun stage regrip retries => ?_,
    fun stage => ?_, fun stage => ?_, fun stage => ?_⟩
  · simp only [exec, execAirTimeEnd, expired, inAir, stage, endAir]
    rw [startStage_reach (s := { s with motion.air := false }) ht]
    rfl
  · have regripped := startGrip_eq (s := { s with motion.air := false }) ht
    refine Eq.trans ?_ (congrArg (fun u => Host.Outcome.next (settle (runMotion u))) regripped)
    simp [exec, execAirTimeEnd, expired, inAir, stage, regrip, endAir]
  · rw [← startRegrip_eq ht]
    simp [exec, execGripTimeout, expired, stage, regrip, failGrip, retries.ne']
  · simp [exec, execGripTimeout, expired, stage, regrip, failGrip, retries, stageFault]
  · rcases stage with stage | stage | stage <;> simp [exec, execArmTimeout, expired, stage, movesArm, stageFault]
  · simp [exec, execReleaseTimeout, expired, stage, stageFault]
  · simp [exec, execVerifyTimeout, expired, stage, stageFault]

/-- Settles O42: a HELD turn ends where it stands; the request has restarted the idle timer already. -/
theorem turnAbandonFreesTheLeaf : Obligations.TurnAbandonFreesTheLeaf := by
  intro tag s a ha
  subst ha
  refine ⟨fun running => congrArg _ (serve_replied ?_), fun t known ht held hk => congrArg _ (serve_replied ?_)⟩
  · rw [decideTurnAbandon, heldTurn_none running]
    rfl
  · obtain rfl := hk.trans (congrArg _ (beforeGrip_eq t.stage).symm)
    rw [decideTurnAbandon, heldTurn_eq ht held]
    simp only [abandonTurn_eq (idleRestarted_awake 0x25#8 s) t]
    rfl

/-- Settles O43: the remembered stage starts again as the stage would start, or only its timeout and its switch do. -/
theorem turnResumeRestartsTheStage : Obligations.TurnResumeRestartsTheStage := by
  intro tag s a ha
  have fresh : idleRestarted a = a.time.idleStart := ha ▸ idleRestarted_awake 0x24#8 s
  have served : ∀ {u : State} {r : Result} {f : Fields}, decideTurnResume a = (u, r, f) →
      exec (.turnResume tag) s = .next (replied 0x24#8 tag r f u) := fun h => congrArg _ (serve_replied (ha ▸ h))
  refine ⟨fun running => served ?_, fun t ht held_ => ⟨fun hold => served ?_, fun run m free hrun hm => served ?_⟩⟩
  · rw [decideTurnResume, heldTurn_none running]
    rfl
  · simp only [decideTurnResume, heldTurn_eq ht held_]
    rw [if_pos (show held a = true from hold)]
    rfl
  · obtain rfl : run = t.resumed := funext hrun
    have taken : decideTurnResume a = accept (resumeTurn a t) (.turnResume t.seq t.stage t.recovery) := by
      simp only [decideTurnResume, heldTurn_eq ht held_]
      rw [if_neg (by simp [held, free])]
    rw [taken, resumeTurn_eq (m := m) fresh ht ?_]
    · rfl
    have restarted : idleRestarted (runAgain a t) = a.time.idleStart := fresh
    have runs : (runAgain a t).motion.turn = some (t.resumed t.deadline) := rfl
    subst hm
    cases stage : t.stage <;> simp only [resumeStage, stage]
    case raise =>
      rw [startStage, setStage_eq runs, restarted, inStage_again stage]
      by_cases raised : a.motion.platen = .raised
      · rw [if_pos raised]
        exact if_pos raised
      · rw [if_neg raised]
        exact if_neg raised
    case air => rw [startStage_air runs, restarted, inStage_again stage]; rfl
    case reach => rw [startStage_reach runs, restarted, inStage_again stage]; rfl
    case grip => split_ifs <;> rfl
    case sweep => rfl
    case release => rfl
    case verify => rw [startStage_verify runs, restarted, inStage_again stage]; rfl
    case park => rw [startStage_park runs, restarted, inStage_again stage]; rfl
    case adjust => rfl
    case lower => rw [startStage_lower runs, restarted, inStage_again stage]; rfl

end Sys2Proof
end

