-- ==== Sys2Proof/Proofs/SettingsRequests.lean ====
section
/-! The settings requests clamp and store their values (R66, R85, R87, R130). -/
namespace Sys2Proof.Machine

theorem clamp_eq (v : Nat) {lo hi : Nat} (h : lo ≤ hi) : clamp v lo hi = max lo (min v hi) := by
  unfold clamp
  split_ifs <;> omega

/-- A present value is clamped, an absent one stands. -/
theorem clampOr_eq (x : Option Nat) (old : Nat) {lo hi : Nat} (h : lo ≤ hi) :
    clampOr x old lo hi = match x with | none => old | some v => max lo (min v hi) := by
  cases x with
  | none => rfl
  | some v => exact clamp_eq v h

theorem wasClamped_eq (x : Option Nat) (lo hi : Nat) :
    wasClamped x lo hi = match x with | none => false | some v => decide (v < lo) || decide (hi < v) := by
  cases x with
  | none => rfl
  | some v => exact Bool.eq_iff_iff.mpr (outside_iff v lo hi).symm

/-- Without a limit of its own a MOTION_SET raises the limit above the target then in force (R66). -/
theorem newLimit_none (old target : Nat) : newLimit none old target = max old (target + 1) := by
  simp only [newLimit]
  split <;> omega

theorem newLimit_some (v old target : Nat) :
    newLimit (some v) old target = if v < target + 1 then target + 1 else min v 200 := by
  simp only [newLimit, clamp]
  split_ifs <;> omega

theorem storedLevel_eq (v : Nat) : storedLevel v = if v = 0 then 0 else max 50 (min v 1000) := by
  rw [storedLevel, clamp_eq v (by decide)]

end Sys2Proof.Machine

namespace Sys2Proof
open Machine

/-- Settles O44: the owners' clamps are those of the statement, value by value; the limit is taken against the new target. -/
theorem settingsRequestsClampTheirValues : Obligations.SettingsRequestsClampTheirValues := by
  intro tag s cl out hcl hout
  have clamps : ∀ x old lo hi, lo ≤ hi → cl x old lo hi = clampOr x old lo hi := fun x old lo hi h =>
    (hcl x old lo hi).trans (clampOr_eq x old h).symm
  obtain rfl : out = wasClamped := funext fun x => funext fun lo => funext fun hi =>
    (hout x lo hi).trans (wasClamped_eq x lo hi).symm
  refine ⟨fun target tolerance limit dwellMax plateBase airTime retries a p ha hp => ?_,
    fun mask requested guard a lamp view ha hlamp hview => ?_, fun n levels duration a level r ha hlevel hr => ?_,
    fun mask pulse delay window stored late a camera ha hcamera => ?_⟩ <;> subst ha
  · obtain rfl : p = newProfile (awake 0x26#8 s).motion.profile target tolerance limit dwellMax plateBase airTime retries := by
      rw [hp]
      cases limit <;>
        simp only [newProfile, newLimit_none, newLimit_some, clamps _ _ 5 150 (by decide), clamps _ _ 1 50 (by decide),
          clamps _ _ 10 600 (by decide), clamps _ _ 0 60000 (by decide), clamps _ _ 100 2000 (by decide),
          clamps _ _ 0 5 (by decide)]
    exact congrArg _ (serve_replied rfl)
  · have set : ∀ sd, lamp sd = setAim (mask.get sd) requested guard ((awake 0x32#8 s).lamps.aims.get sd) := fun sd => by
      rw [hlamp, setAim, clamps _ _ 0 1000 (by decide), clamps _ _ 0 1000 (by decide)]
    rw [hview, hview, set, set]
    exact congrArg _ (serve_replied rfl)
  · obtain rfl : level = storedLevel := funext fun v => (hlevel v).trans (storedLevel_eq v).symm
    rw [← clamp_eq duration (by decide)] at hr
    subst hr
    refine congrArg _ (serve_decided ?_)
    exact chosen_orField decide_eq_true_iff fun _ => rfl
  · have set : ∀ sd, camera sd = setCamera (mask.get sd) pulse delay window stored ((awake 0x41#8 s).seq.cameras.get sd) :=
      fun sd => by
        rw [hcamera, setCamera, clamps _ _ 10 10000 (by decide), clamps _ _ 0 100000 (by decide),
          clamps _ _ 100 200000 (by decide), clamps _ _ 100 10000 (by decide)]
    rw [set, set, clamps _ _ 0 1000000 (by decide)]
    exact congrArg _ (serve_replied rfl)

end Sys2Proof
end

