-- ==== Sys2Proof/Proofs/SettledFrame.lean ====
section
/-! What the settling of an event leaves as it was (R76, R77, R84, R86, R114, R117, R157). -/
namespace Sys2Proof.Machine

/-! ### What lasts -/

/-- A line but for its staged value. -/
def lastingLine (l : Line) : Line := { l with staged := false }

/-- A bank record but for its state, hood request, hood, timer and READY time. -/
def lastingBank (r : BankRec) : BankRec :=
  { r with state := .off, hoodRequest := none, hood := closedHood, deadline := none, readySince := none }

/-- The parts of a state that no settling touches and that it shares with parts that it does. -/
structure Lasting where
  time : Timebase
  volume : Volume
  motion : Motion
  banks : Quad BankRec
  dose : Dose
  lateLimit : Nat
  lines : List Line

def lasting (s : State) : Lasting :=
  { time := { s.time with idle := false, idleSince := none, idleStart := none }
    volume := { s.volume with captureSeq := 0, capturesIssued := 0, sidesFailed := 0 }
    motion := { s.motion with
      platen := .raised, platenDeadline := none, raisePending := false, safeRaise := false, dwell := none
      dwellDeferred := false }
    banks := ⟨lastingBank s.lamps.banks.a, lastingBank s.lamps.banks.b, lastingBank s.lamps.banks.c,
      lastingBank s.lamps.banks.d⟩
    dose := { s.dose with prediction := none, credit := ⟨0, 0⟩ }
    lateLimit := s.seq.lateLimit
    lines := s.lines.records.map lastingLine }

/-! ### The operations of a settling -/

@[simp] theorem lasting_driveFn (s : State) (f : Fn) (v : Bool) : lasting (driveFn s f v) = lasting s := by
  have lines : (driveFn s f v).lines.records.map lastingLine = s.lines.records.map lastingLine := by
    unfold driveFn
    split
    · rfl
    · refine List.ext_getElem (by simp [modifyLine]) fun j h1 h2 => ?_
      simp only [modifyLine, List.getElem_map, List.getElem_modify]
      split <;> rfl
  simp [lasting, lines]

@[simp] theorem lasting_restartIdle (s : State) : lasting (restartIdle s) = lasting s := by
  rw [restartIdle_eq]; rfl

@[simp] theorem lasting_judgeReady (s : State) : lasting (judgeReady s) = lasting s := lasting_driveFn _ _ _

@[simp] theorem lasting_judgeLit (s : State) : lasting (judgeLit s) = lasting s := rfl

@[simp] theorem lasting_enqueue (s : State) (b : Body) (n : Nat) : lasting (enqueue s b n) = lasting s :=
  lasting_driveFn _ _ _

@[simp] theorem lasting_offerMinor (s : State) (b : Body) : lasting (offerMinor s b) = lasting s := by
  unfold offerMinor; split
  · exact lasting_enqueue _ _ _
  · rfl

@[simp] theorem lasting_enterReserved (s : State) (b : Body) : lasting (enterReserved s b) = lasting s :=
  lasting_enqueue _ _ _

theorem lasting_setBank (s : State) (bk : Bank) (r : BankRec) (h : lastingBank r = lastingBank (getBank s bk)) :
    lasting (setBank s bk r) = lasting s := by
  cases bk <;> simp_all [lasting, setBank, getBank, Quad.set, Quad.get]

theorem lasting_modifyBank (s : State) (bk : Bank) (f : BankRec → BankRec) (h : ∀ r, lastingBank (f r) = lastingBank r) :
    lasting (modifyBank s bk f) = lasting s := lasting_setBank s bk _ (h _)

@[simp] theorem lasting_wakeBank (s : State) (bk : Bank) : lasting (wakeBank s bk) = lasting s := by
  unfold wakeBank; dsimp only; split
  · exact (lasting_offerMinor _ _).trans (lasting_setBank s bk _ rfl)
  · rfl

@[simp] theorem lasting_wakeIfIdle (s : State) (c : WakeCause) : lasting (wakeIfIdle s c) = lasting s := by
  rcases wakeIfIdle_cases c s with ⟨-, h⟩ | ⟨-, h⟩ <;> rw [h]
  · unfold wake
    dsimp only
    rw [lasting_judgeReady, lasting_judgeLit, forBanks, foldl_keeps lasting _ lasting_wakeBank, lasting_offerMinor,
      lasting_restartIdle]
    rfl

@[simp] theorem lasting_endInterval (s : State) : lasting (endInterval s) = lasting s := by
  have toppedUp : ∀ u, lasting (forBanks topUp u) = lasting u := fun u => foldl_keeps lasting _ (fun v bk => by
    unfold topUp; split
    · exact lasting_modifyBank _ _ _ fun _ => rfl
    · rfl) _ _
  have closed : ∀ u, lasting (closeBankHoods u) = lasting u := fun u =>
    foldl_keeps lasting _ (fun _ _ => by exact lasting_modifyBank _ _ _ fun _ => rfl) _ _
  unfold endInterval
  split
  · rfl
  · split
    · rw [toppedUp]
      split
      · exact closed _
      · rfl
    · rfl

@[simp] theorem lasting_armTest (s : State) (c : Capture) : lasting (armTest s c) = lasting s := by
  have triggers : ∀ d (u : State), lasting (allSides.foldl (startPulse d) u) = lasting u := fun d u =>
    foldl_keeps lasting _ (fun v sd => by
      unfold startPulse; split
      · exact lasting_driveFn _ _ _
      · rfl) _ _
  unfold armTest; dsimp only; split
  · rfl
  · split
    · exact (lasting_restartIdle _).trans (triggers _ _)
    · rfl
    · rfl

@[simp] theorem lasting_carryOutDwell (s : State) : lasting (carryOutDwell s) = lasting s := by
  unfold carryOutDwell
  split
  · split <;> rfl
  · rfl

theorem lasting_withdrawHood (n : Nat) (s : State) (bk : Bank) : lasting (withdrawHood n s bk) = lasting s :=
  lasting_modifyBank _ _ _ fun _ => by split <;> rfl

@[simp] theorem lasting_endCapture (s : State) (c : Capture) : lasting (endCapture s c) = lasting s :=
  (lasting_carryOutDwell _).trans ((lasting_restartIdle _).trans
    ((foldl_keeps lasting _ (lasting_withdrawHood c.seq) (captureBanks c) _).trans (lasting_enterReserved _ _)))

theorem lasting_enterArming (s : State) (o : Order) : lasting (enterArming s o) = lasting s := by
  unfold enterArming
  extract_lets s0 r side c _ s1
  have armed : ∀ d, lasting { s1 with seq.capture := some d } = lasting s := fun d =>
    (lasting_restartIdle _).trans (lasting_wakeIfIdle s _)
  split
  · exact armed _
  · exact (foldl_keeps lasting _ (fun _ _ => by exact lasting_modifyBank _ _ _ fun _ => rfl) _ _).trans (armed c)

theorem lasting_advanceOnce {s t : State} (h : advanceOnce s = some t) : lasting t = lasting s := by
  rcases advanceOnce_cases h with ⟨c, -, -, rfl⟩ | ⟨c, -, -, -, -, rfl⟩ | ⟨o, rest, -, -, -, -, rfl⟩ |
    ⟨o, rest, -, -, -, -, rfl⟩
  · exact lasting_endCapture s c
  · exact lasting_armTest s c
  · exact lasting_enterReserved _ _
  · exact lasting_enterArming _ o

theorem lasting_advance (n : Nat) (s : State) : lasting (advance n s) = lasting s := by
  induction n generalizing s with
  | zero => rfl
  | succ n ih =>
    unfold advance
    split
    · rfl
    · rename_i h; exact (ih _).trans (lasting_advanceOnce h)

/-- A settling leaves what lasts. -/
@[simp] theorem lasting_settle (s : State) : lasting (settle s) = lasting s := by
  simp [settle, lasting_advance]

/-! ### Lines that last -/

theorem getLine_lasting {s t : State} (h : lasting t = lasting s) (i : Nat) :
    lastingLine (getLine t i) = lastingLine (getLine s i) := by
  have lines : t.lines.records.map lastingLine = s.lines.records.map lastingLine := congrArg Lasting.lines h
  have at_ : ∀ u : State, lastingLine (getLine u i) = (u.lines.records.map lastingLine).getD i (lastingLine default) :=
    fun u => (List.getD_map ..).symm
  rw [at_, at_, lines]

/-- A function reads the lines that it did, where they last and the bindings stand. -/
theorem fnActive_lasting {s t : State} (h : lasting t = lasting s) (binding : t.lines.binding = s.lines.binding) (f : Fn) :
    fnActive t f = fnActive s f := by
  have active : ∀ i, lineActive (getLine t i) = lineActive (getLine s i) := fun i => by
    have lasts : lineActive (lastingLine (getLine t i)) = lineActive (lastingLine (getLine s i)) :=
      congrArg lineActive (getLine_lasting h i)
    exact lasts
  unfold fnActive lineOf
  rw [binding]
  split <;> simp_all

end Sys2Proof.Machine
end

