-- ==== Sys2Proof/Proofs/CaptureTimers.lean ====
section
/-! The timed events of a capture, and its end with its CAPTURE record (R48, R83, R99, R117 to R125, R129). -/
namespace Sys2Proof.Machine

/-! ### The record of a capture that ends -/

theorem outcomeOf_eq : outcomeOf = sideOutcome := by
  funext x
  unfold outcomeOf sideOutcome
  cases x.stage <;> rfl

theorem sideReport_eq (c : Capture) (sd : Side) (x : SideRec) : sideReport c sd x = endedSide c sd x := by
  rw [sideReport, endedSide, outcomeOf_eq]
  cases sd <;> rfl

/-- The sides of the record of a capture that ends (R125). -/
def endedSides (c : Capture) : List SideReport :=
  [Side.left, .right].filterMap fun sd => (c.sides.get sd).map (endedSide c sd)

/-- A side that has ended stands with its outcome in the record. -/
theorem outcome_endedSide {c : Capture} {sd : Side} (ended : (c.sides.get sd).all sideEnded = true) :
    (c.sides.get sd).bind outcomeOf = ((c.sides.get sd).map (endedSide c sd)).map fun y => y.outcome := by
  cases hx : c.sides.get sd with
  | none => rfl
  | some x =>
    rw [hx, sideEnded_eq] at ended
    obtain ⟨o, ho⟩ := Option.isSome_iff_exists.mp ended
    simp [outcomeOf_eq, endedSide, ho]

theorem outcomes_eq {c : Capture} (ended : allEnded c = true) : outcomes c = (endedSides c).map fun y => y.outcome := by
  obtain ⟨endedL, endedR⟩ := Bool.and_eq_true_iff.mp ended
  rw [endedSides, List.map_filterMap]
  show [Side.left, .right].filterMap (fun sd => (c.sides.get sd).bind outcomeOf) = _
  refine List.filterMap_congr fun sd _ => ?_
  cases sd
  · exact outcome_endedSide endedL
  · exact outcome_endedSide endedR

/-- With every side ended the shared outcome is that of the sides' records (R124). -/
theorem captureReport_eq {s : State} {c : Capture} (ended : allEnded c = true) : captureReport s c = endedRecord s c := by
  have sides : (c.sides.l.map (sideReport c .left)).toList ++ (c.sides.r.map (sideReport c .right)).toList =
      endedSides c := by
    cases hl : c.sides.l <;> cases hr : c.sides.r <;> simp [endedSides, Pair.get, hl, hr, sideReport_eq]
  have record : endedRecord s c = { captureReport s c with
      overall := overallOf ((endedSides c).map fun y => y.outcome), sides := endedSides c } := by
    unfold endedRecord
    rw [show ([Side.left, .right].filterMap fun sd => (c.sides.get sd).map (endedSide c sd)) = endedSides c from rfl]
    cases endedSides c with
    | nil => rfl
    | cons x rest => simp [captureReport, overallOf, now]
  rw [record, ← outcomes_eq ended, ← sides]
  rfl

theorem failedSides_eq (c : Capture) :
    ((outcomes c).filter fun o => decide (o ≠ .confirmed)).length = failedSides c := by
  rw [← List.countP_eq_length_filter, outcomes, List.countP_filterMap, failedSides, outcomeOf_eq]
  refine List.countP_congr fun x _ => ?_
  cases x with
  | none => simp
  | some y => cases h : sideOutcome y <;> simp [h]

/-! ### What an ARMING capture waits for -/

theorem quad_ext {α : Type} {p q : Quad α} (h : ∀ bk, p.get bk = q.get bk) : p = q := by
  obtain ⟨pa, pb, pc, pd⟩ := p
  obtain ⟨qa, qb, qc, qd⟩ := q
  obtain rfl : pa = qa := h .a
  obtain rfl : pb = qb := h .b
  obtain rfl : pc = qc := h .c
  obtain rfl : pd = qd := h .d
  rfl

/-- The unmet conditions of a capture, as the statement writes them (R117). -/
theorem unmetOf_eq {s : State} {c : Capture} {m : Unmet} (opening : m.opening = !s.volume.known)
    (platen : m.platen = decide (s.motion.platen ≠ .down))
    (banks : ∀ bk, m.banks.get bk = (wants c.order.sides bk.side && decide (0 < c.levels.get bk)
      && decide ((getBank s bk).state ≠ .ready)))
    (hoods : ∀ bk, m.hoods.get bk = (wants c.order.sides bk.side && decide (0 < c.levels.get bk)
      && decide ((getBank s bk).hood.state ≠ .opened))) : m = unmetOf s c := by
  have bank : ∀ (test : BankRec → Bool) bk, (⟨bankUnmet s c test .a, bankUnmet s c test .b, bankUnmet s c test .c,
      bankUnmet s c test .d⟩ : Quad Bool).get bk = bankUnmet s c test bk := fun _ bk => by cases bk <;> rfl
  obtain ⟨mo, mp, mb, mh⟩ := m
  rw [unmetOf, Unmet.mk.injEq]
  refine ⟨opening, by simpa using platen, quad_ext fun bk => ?_, quad_ext fun bk => ?_⟩
  · rw [bank, bankUnmet, contains_captureBanks]
    simpa using banks bk
  · rw [bank, bankUnmet, contains_captureBanks]
    simpa using hoods bk

/-! ### The end of a capture -/

/-- A bank whose hood request a capture withdraws (R83). -/
def withdrawn (s : State) (c : Capture) (bk : Bank) : BankRec :=
  if wants c.order.sides bk.side = true ∧ 0 < c.levels.get bk ∧ (getBank s bk).hoodRequest = some c.seq then
    { getBank s bk with hoodRequest := none }
  else getBank s bk

theorem modifyBank_same {s : State} {bk : Bank} {f : BankRec → BankRec} (h : f (getBank s bk) = getBank s bk) :
    modifyBank s bk f = s := by
  rw [modifyBank, h]
  cases bk <;> rfl

/-- A capture withdraws its hood request of each bank that it needed (R83). -/
theorem withdrawHoods_eq (s : State) (c : Capture) : (captureBanks c).foldl (withdrawHood c.seq) s =
    { s with lamps.banks := ⟨withdrawn s c .a, withdrawn s c .b, withdrawn s c .c, withdrawn s c .d⟩ } := by
  have each : (fun u bk => if (captureBanks c).contains bk then withdrawHood c.seq u bk else u) = fun u bk =>
      modifyBank u bk fun r =>
        if wants c.order.sides bk.side = true ∧ 0 < c.levels.get bk ∧ r.hoodRequest = some c.seq then
          { r with hoodRequest := none }
        else r := by
    funext u bk
    rw [contains_captureBanks]
    by_cases needed : wants c.order.sides bk.side = true ∧ 0 < c.levels.get bk
    · rw [if_pos (by simpa using needed), withdrawHood]
      simp [needed]
    · rw [if_neg (by simpa using needed), modifyBank_same]
      exact if_neg fun h => needed ⟨h.1, h.2.1⟩
  have needed : captureBanks c = allBanks.filter fun bk => (captureBanks c).contains bk := by
    simp only [contains_captureBanks]
    rfl
  rw [needed, List.foldl_filter, each]
  rfl

/-- What the end of a capture leaves before the dwell raise that it carries out (R123, R125, R129). -/
def captureEnded (s : State) (c : Capture) : State :=
  { enterReserved s (.capture (endedRecord s c)) with
    volume.sidesFailed := s.volume.sidesFailed + failedSides c
    dose.prediction := none, dose.credit := ⟨0, 0⟩
    lamps.banks := ⟨withdrawn s c .a, withdrawn s c .b, withdrawn s c .c, withdrawn s c .d⟩
    seq.capture := none
    time.idleStart := idleRestarted s }

theorem endCapture_eq {s : State} {c : Capture} (ended : allEnded c = true) :
    endCapture s c = carryOutDwell (captureEnded s c) := by
  unfold endCapture
  dsimp only
  rw [withdrawHoods_eq, restartIdle_eq, captureReport_eq ended, failedSides_eq]
  simp only [enterReserved, enqueue, driveFn_eq, captureEnded]
  rfl

/-- The end of a capture leaves the platen, the hold, the clock and the lines as the dwell raise finds them. -/
theorem captureEnded_frame (s : State) (c : Capture) :
    (captureEnded s c).motion = s.motion ∧ (captureEnded s c).lines.hold = s.lines.hold
      ∧ (captureEnded s c).time.clock = s.time.clock
      ∧ fnActive (captureEnded s c) .platenTop = fnActive s .platenTop := by
  have lines : fnActive (enterReserved s (.capture (endedRecord s c))) .platenTop = fnActive s .platenTop :=
    fnActive_lasting (lasting_enterReserved _ _) (by simp) _
  exact ⟨by simp [captureEnded], by simp [captureEnded], by simp [captureEnded], lines⟩

end Sys2Proof.Machine

namespace Sys2Proof
open Machine

/-- Settles O53: each timer finds its own capture, side or pulse; the end of a capture makes the record of its sides, withdraws
what the capture had asked for and carries out the dwell raise that waited for it. -/
theorem captureTimersEndTheirStages : Obligations.CaptureTimersEndTheirStages := by
  refine ⟨fun s c x sd mark ended hc hmark hended => ?_, fun s sd d pulse due => ?_, fun s w c bank hc hbank hw => ?_⟩
  · obtain rfl : mark = endArming := funext fun o => funext fun y => (hmark o y).trans (congrFun (endArming_eq o) y).symm
    refine ⟨fun d m t0 hd due opening platen banks hoods => ?_, fun t0 hx stage ht due => ?_, fun d hx stage hd due => ?_⟩
    · have expired : expiredArming s = some c := by simp [expiredArming, hc, t0, hd, reached, due]
      have unmet : m = unmetOf s c := unmetOf_eq opening platen banks hoods
      simp only [exec, execArmingTimeout, expired, unmet]
      rfl
    · have past : reached s (windowEnd s sd) = true := by simp [windowEnd, getSide, hc, hx, stage, ht, reached, due]
      rw [hended]
      refine congrArg _ ((if_pos past).trans (congrArg settle ?_))
      exact modifySide_eq hc hx _
    · have past : reached s (storedEnd s sd) = true := by simp [storedEnd, getSide, hc, hx, stage, hd, reached, due]
      rw [hended]
      refine congrArg _ ((if_pos past).trans (congrArg settle ?_))
      exact modifySide_eq hc hx _
  · have past : reached s (s.seq.pulses.get sd) = true := by simp [pulse, reached, due]
    refine congrArg _ ((if_pos past).trans ?_)
    cases sd <;> rfl
  · obtain rfl : bank = withdrawn s c := funext hbank
    obtain rfl : w = captureEnded s c := hw
    constructor
    · intro finished
      have done : captureDone s c = true := (captureDone_eq s c).trans finished
      have ended : allEnded c = true := (Bool.and_eq_true_iff.mp done).1
      have step : advanceOnce s = some (endCapture s c) := by simp [advanceOnce, hc, done]
      obtain ⟨motion, hold, clock, top⟩ := captureEnded_frame s c
      rw [step, endCapture_eq ended, carryOutDwell, held, startRaise, now, motion, hold, clock, top]
      rfl
    · intro standing t0
      have running : c.t0.isNone = false := by simpa using t0
      simp [advanceOnce, hc, captureDone_eq, standing, running]

end Sys2Proof
end

