-- ==== Sys2Proof/Proofs/SettlingSteps.lean ====
section
/-! The steps of the sequencer end before the fuel of a settling does (R114, R117, R123). -/
namespace Sys2Proof.Machine

/-- The steps that the capture in flight may still take: its test and its end, or its end alone. -/
def captureSteps (s : State) : Option Capture → Nat
  | none => 0
  | some c => if c.t0.isSome || captureDone s c then 1 else 2

/-- A bound of the steps that the sequencer may still take. -/
def stepsLeft (s : State) : Nat := 3 * s.seq.orders.length + captureSteps s s.seq.capture

theorem captureSteps_le (s : State) (c : Option Capture) : captureSteps s c ≤ 2 := by
  unfold captureSteps
  split
  · exact Nat.zero_le _
  · split <;> decide

theorem stepsLeft_le_fuel (s : State) : stepsLeft s ≤ advanceFuel s := by
  have := captureSteps_le s s.seq.capture
  unfold stepsLeft advanceFuel
  omega

/-- A capture before its test has no firing granted (R121). -/
theorem captureGranted_none {s : State} {c : Capture} (hv : volumeInv s) (hc : s.seq.capture = some c) (ht : c.t0 = none) :
    captureGranted s c.seq = false := by
  refine List.any_eq_false.mpr fun g hg named => ?_
  have granted := ((volumeInv_iff s).mp hv).granted c.seq
    (List.mem_filterMap.mpr ⟨g, hg, by simpa using named⟩)
  obtain ⟨d, hd, -, triggered⟩ := granted
  obtain rfl : c = d := Option.some.inj (hc.symm.trans hd)
  simp [ht] at triggered

/-- Every side of a capture before its test has ended once those in ARMING have (R117). -/
theorem allEnded_endCaptureArming {c : Capture} (h : unfired c) (o : SideOutcome) :
    allEnded (endCaptureArming o c) = true := by
  have ended : ∀ sd, ((c.sides.get sd).map (endArming o)).all sideEnded = true := fun sd => by
    cases hx : c.sides.get sd with
    | none => rfl
    | some x =>
      rcases h sd x hx with stage | ⟨p, stage⟩ <;> simp [endArming, stage, sideEnded]
  exact Bool.and_eq_true_iff.mpr ⟨ended .left, ended .right⟩

/-- A test that fails leaves a capture that can end, one that is passed a capture whose end alone is left (R118, R119). -/
theorem armTest_captureSteps {s : State} {c : Capture} (hv : volumeInv s) (hc : s.seq.capture = some c) (ht : c.t0 = none) :
    captureSteps (armTest s c) (armTest s c).seq.capture = 1 := by
  have unfired_ : unfired c := (((volumeInv_iff s).mp hv).capture c hc).2 ht
  have failed : ∀ (o : SideOutcome) (g : Option Figures), captureSteps
      { s with seq.capture := some { endCaptureArming o
        { c with opening := some (s.volume.k, s.volume.known), deadline := none } with figures := g } }
      (some { endCaptureArming o
        { c with opening := some (s.volume.k, s.volume.known), deadline := none } with figures := g }) = 1 := fun o g => by
    have ended : allEnded (endCaptureArming o
        { c with opening := some (s.volume.k, s.volume.known), deadline := none }) = true :=
      allEnded_endCaptureArming (by exact unfired_) o
    have free := captureGranted_none hv hc ht
    refine if_pos (Bool.or_eq_true_iff.mpr (.inr (Bool.and_eq_true_iff.mpr ⟨ended, ?_⟩)))
    exact (congrArg not free :)
  unfold armTest
  dsimp only
  split
  · exact failed .notEquipped c.figures
  · split
    · rw [enterTriggered_eq, triggered_eq, triggered_eq]
      rfl
    · exact failed .notCalibrated _
    · exact failed .doseCeiling _

theorem carryOutDwell_seq (s : State) : (carryOutDwell s).seq = s.seq := by
  unfold carryOutDwell
  split
  · split <;> rfl
  · rfl

theorem armTest_orders (s : State) (c : Capture) : (armTest s c).seq.orders = s.seq.orders :=
  congrArg Course.orders (course_armTest s c)

/-- Every step of the sequencer leaves fewer of them (R114 to R118, R123). -/
theorem advanceOnce_stepsLeft {s t : State} (hv : volumeInv s) (h : advanceOnce s = some t) : stepsLeft t < stepsLeft s := by
  have shorter : ∀ {u : State} {o : Order} {rest : List Order}, s.seq.orders = o :: rest → u.seq.orders = rest →
      stepsLeft u < stepsLeft s := fun {u o rest} ho hu => by
    have := captureSteps_le u u.seq.capture
    simp only [stepsLeft, hu, ho, List.length_cons]
    omega
  rcases advanceOnce_cases h with ⟨c, hc, done, rfl⟩ | ⟨c, hc, standing, ht, -, rfl⟩ | ⟨o, rest, -, ho, -, -, rfl⟩ |
    ⟨o, rest, -, ho, -, -, rfl⟩
  · have ended : allEnded c = true := (Bool.and_eq_true_iff.mp done).1
    have removed : (endCapture s c).seq.capture = none := by
      rw [endCapture_eq ended, carryOutDwell_seq]; rfl
    simp [stepsLeft, removed, hc, captureSteps, done]
  · simp only [stepsLeft, armTest_orders, armTest_captureSteps hv hc ht, hc]
    simp [captureSteps, ht, standing]
  · exact shorter ho (by simp [discardLate])
  · exact shorter ho (by simp)

theorem advance_of_none {s : State} (h : advanceOnce s = none) (n : Nat) : advance n s = s := by
  cases n with
  | zero => rfl
  | succ n => simp [advance, h]

theorem advance_of_some {s t : State} (h : advanceOnce s = some t) (n : Nat) : advance (n + 1) s = advance n t := by
  simp [advance, h]

/-- With fuel for its steps the sequencer goes on until none is allowed, and more fuel changes nothing. -/
theorem advance_fuel {s : State} (hv : volumeInv s) {n : Nat} (hn : stepsLeft s ≤ n) :
    advanceOnce (advance n s) = none ∧ ∀ m, stepsLeft s ≤ m → advance m s = advance n s := by
  induction n generalizing s with
  | zero =>
    cases h : advanceOnce s with
    | none => exact ⟨h, fun m _ => (advance_of_none h m).trans rfl⟩
    | some t => exact absurd (advanceOnce_stepsLeft hv h) (by omega)
  | succ n ih =>
    cases h : advanceOnce s with
    | none =>
      rw [advance_of_none h]
      exact ⟨h, fun m _ => advance_of_none h m⟩
    | some t =>
      have less := advanceOnce_stepsLeft hv h
      obtain ⟨settled, same⟩ := ih ((advanceOnce_works h).volumeInv hv) (by omega)
      rw [advance_of_some h]
      refine ⟨settled, fun m hm => ?_⟩
      obtain ⟨m, rfl⟩ : ∃ k, m = k + 1 := ⟨m - 1, by omega⟩
      rw [advance_of_some h]
      exact same m (by omega)

/-- A settling is that of the state one step on (R114). -/
theorem settle_step {s w : State} (hv : volumeInv s) (h : advanceOnce s = some w) : settle s = settle w := by
  have less := advanceOnce_stepsLeft hv h
  have hw := (advanceOnce_works h).volumeInv hv
  have fuel := stepsLeft_le_fuel s
  obtain ⟨n, hn⟩ : ∃ n, advanceFuel s = n + 1 := ⟨advanceFuel s - 1, by omega⟩
  have same : advance (advanceFuel s) s = advance (advanceFuel w) w := by
    rw [hn, advance_of_some h]
    exact (advance_fuel hw (stepsLeft_le_fuel w)).2 n (by omega)
  simp only [settle, same]

/-- A settling goes on until the sequencer may take no step. -/
theorem settle_advance {s : State} (hv : volumeInv s) :
    advanceOnce (advance (advanceFuel s) s) = none ∧ settle s = settle (advance (advanceFuel s) s) := by
  obtain ⟨settled, -⟩ := advance_fuel hv (stepsLeft_le_fuel s)
  refine ⟨settled, ?_⟩
  rw [settle, settle, advance_of_none settled]

end Sys2Proof.Machine
end

