-- ==== Sys2Proof/Proofs/SettlingEffect.lean ====
section
/-! What a settling does once the sequencer may take no step: the lighting interval, the aim lamps and READY_LAMP (R76, R77,
R84, R86, R157). -/
namespace Sys2Proof.Machine

/-! ### The lighting interval -/

/-- The lighting interval is over, as the statement writes it (R76). -/
theorem intervalOver_eq (s : State) (n : Nat) : intervalOver s n =
    ((s.lamps.grants.all fun g => decide (g.capture ≠ some n))
      && (s.lamps.banks.toList.all fun r => r.flash.all fun f => decide (f.capture ≠ some n))
      && s.seq.capture.all fun c => decide (c.seq ≠ n)
        || c.sides.toList.all fun x => x.all fun y => decide (y.stage ≠ .waiting)) := by
  have granted : (!captureGranted s n) = s.lamps.grants.all fun g => decide (g.capture ≠ some n) := by
    simp [captureGranted, List.not_any_eq_all_not]
  have flashing : (!captureFlashing s n) =
      s.lamps.banks.toList.all fun r => r.flash.all fun f => decide (f.capture ≠ some n) := by
    rw [captureFlashing, List.not_any_eq_all_not]
    show _ = (allBanks.map (getBank s)).all _
    rw [List.all_map]
    refine congrArg allBanks.all (funext fun bk => ?_)
    cases h : (getBank s bk).flash <;> simp [h]
  have waiting : (!(s.seq.capture.any fun x => decide (x.seq = n) && anyWaiting x)) =
      s.seq.capture.all fun c => decide (c.seq ≠ n)
        || c.sides.toList.all fun x => x.all fun y => decide (y.stage ≠ .waiting) := by
    cases s.seq.capture with
    | none => rfl
    | some c =>
      simp only [Option.any_some, Option.all_some, anyWaiting, Pair.toList, List.all_cons, List.all_nil, Bool.and_true]
      cases c.sides.l <;> cases c.sides.r <;> simp
  rw [intervalOver, granted, flashing, waiting]

/-- A bank after the top-up that its READY time and the end of a lighting interval allow (R77). -/
def toppedUp (t : Nat) (interval : Option Nat) (r : BankRec) : BankRec :=
  if (decide (r.state = .ready) && r.readySince.any fun x => decide (x + 30000000 ≤ t)) && interval.isNone then
    { r with state := .topping, deadline := some (t + 200000) }
  else r

theorem topUpDue_eq (s : State) (bk : Bank) : topUpDue s bk = (decide ((getBank s bk).state = .ready)
    && (getBank s bk).readySince.any fun x => decide (x + 30000000 ≤ s.time.clock)) := by
  have after : 30000000 = topUpAfter := rfl
  have clock : s.time.clock = now s := rfl
  rw [after, clock, topUpDue]
  cases (getBank s bk).readySince with
  | none => simp
  | some t => rw [Option.any_some]

theorem topUp_eq (s : State) (bk : Bank) : topUp s bk = modifyBank s bk (toppedUp s.time.clock s.lamps.interval) := by
  unfold topUp
  rw [topUpDue_eq]
  split
  next h =>
    unfold modifyBank toppedUp
    rw [if_pos h]
    rfl
  next h => exact (modifyBank_same (if_neg h)).symm

theorem forBanks_topUp (s : State) : forBanks topUp s = { s with lamps.banks :=
    ⟨toppedUp s.time.clock s.lamps.interval s.lamps.banks.a, toppedUp s.time.clock s.lamps.interval s.lamps.banks.b,
      toppedUp s.time.clock s.lamps.interval s.lamps.banks.c, toppedUp s.time.clock s.lamps.interval s.lamps.banks.d⟩ } := by
  have each : topUp = fun u bk => modifyBank u bk (toppedUp u.time.clock u.lamps.interval) :=
    funext fun u => funext fun bk => topUp_eq u bk
  rw [each]
  rfl

/-- A bank whose hood a deferred close closes at the end of the interval (R84). -/
def hoodClosed (s : State) (ended : Bool) (bk : Bank) : BankRec :=
  if ended && s.lamps.closePending then { getBank s bk with hood := closeHood s.time.clock (getBank s bk).hood }
  else getBank s bk

/-- A bank after the end of the interval that keeps it from its top-up (R77). -/
def intervalBank (s : State) (ended : Bool) (bk : Bank) : BankRec :=
  if ended && decide ((getBank s bk).state = .ready)
      && (getBank s bk).readySince.any fun t => decide (t + 30000000 ≤ s.time.clock) then
    { hoodClosed s ended bk with state := .topping, deadline := some (s.time.clock + 200000) }
  else hoodClosed s ended bk

/-- The state after its lighting interval, which is over where `ended` says so. -/
def intervalEnded (s : State) (ended : Bool) : State :=
  { s with
    lamps.banks := ⟨intervalBank s ended .a, intervalBank s ended .b, intervalBank s ended .c, intervalBank s ended .d⟩
    lamps.interval := if ended then none else s.lamps.interval
    lamps.closePending := s.lamps.closePending && !ended }

theorem intervalEnded_false (s : State) : intervalEnded s false = s := by
  simp [intervalEnded, intervalBank, hoodClosed]
  rfl

theorem toppedUp_hoodClosed (s : State) (bk : Bank) :
    toppedUp s.time.clock none (hoodClosed s true bk) = intervalBank s true bk := by
  unfold toppedUp intervalBank hoodClosed
  split <;> simp

theorem closeBankHoods_eq (s : State) : closeBankHoods s = { s with lamps.banks :=
    ⟨{ s.lamps.banks.a with hood := closeHood s.time.clock s.lamps.banks.a.hood },
      { s.lamps.banks.b with hood := closeHood s.time.clock s.lamps.banks.b.hood },
      { s.lamps.banks.c with hood := closeHood s.time.clock s.lamps.banks.c.hood },
      { s.lamps.banks.d with hood := closeHood s.time.clock s.lamps.banks.d.hood }⟩ } := rfl

/-- The interval's end, with the hood closes that waited for it. -/
theorem hoodsClosed_eq (s : State) : (if s.lamps.closePending then
      closeBankHoods { s with lamps.interval := none, lamps.closePending := false }
    else { s with lamps.interval := none, lamps.closePending := false }) =
    { s with
      lamps.banks := ⟨hoodClosed s true .a, hoodClosed s true .b, hoodClosed s true .c, hoodClosed s true .d⟩
      lamps.interval := none, lamps.closePending := false } := by
  unfold hoodClosed
  cases s.lamps.closePending
  · rfl
  · rw [closeBankHoods_eq]
    rfl

theorem endInterval_eq (s : State) : endInterval s = intervalEnded s (s.lamps.interval.any (intervalOver s)) := by
  unfold endInterval
  cases h : s.lamps.interval with
  | none => exact (intervalEnded_false s).symm
  | some n =>
    cases finished : intervalOver s n with
    | false => simpa [finished] using (intervalEnded_false s).symm
    | true =>
      simp only [finished, if_true, Option.any_some, hoodsClosed_eq, forBanks_topUp, toppedUp_hoodClosed, intervalEnded,
        Bool.not_true, Bool.and_false]

end Sys2Proof.Machine
end

