-- ==== Sys2Proof/Proofs/SettlingResult.lean ====
section
/-! The settled state: its aim lamps and READY_LAMP, and what lasts in it (R86, R157). -/
namespace Sys2Proof.Machine

/-! ### The aim lamps and READY_LAMP -/

/-- An aim lamp as its lit condition has it (R86). -/
theorem relight_eq (t : Nat) (met : Bool) (a : Aim) : relight t met a =
    if met = a.lit then a
    else if met then { a with lit := true, hood := openHood t a.hood }
    else { a with lit := false, applied := 0, hood := closeHood t a.hood } := by
  unfold relight
  cases met <;> cases a.lit <;> rfl

theorem litCondition_eq (s : State) : litCondition s =
    (decide (s.volume.state = .opened) && s.volume.known && decide (s.motion.platen = .down)
      && s.lines.hold.isNone && !s.safe.flag && !s.time.idle && s.lamps.interval.isNone) := by
  simp [litCondition, volumeOpened, held]

theorem readyCondition_iff (s : State) : readyCondition s =
    (decide (s.volume.state = .opened) && s.volume.known && !s.safe.flag && s.lines.hold.isNone
      && !s.time.idle && s.motion.turn.isNone && s.seq.capture.isNone && decide (s.seq.orders.length < 4)) := by
  have capacity : 4 = Config.orderCapacity := rfl
  rw [capacity]
  simp [readyCondition, volumeOpened, held, turnInFlight, captureInFlight]

/-- What a settling comes to where the sequencer may take no step. -/
theorem settle_of_none {s : State} (h : advanceOnce s = none) :
    settle s = judgeReady (judgeLit (intervalEnded s (s.lamps.interval.any (intervalOver s)))) := by
  rw [settle, advance_of_none h, endInterval_eq]

/-! ### What lasts -/

section
variable {s u : State} (h : lasting u = lasting s)
include h

theorem time_lasting : u.time =
    { s.time with idle := u.time.idle, idleSince := u.time.idleSince, idleStart := u.time.idleStart } :=
  congrArg (fun t : Timebase => { t with
    idle := u.time.idle, idleSince := u.time.idleSince, idleStart := u.time.idleStart }) (congrArg Lasting.time h)

theorem volume_lasting : u.volume = { s.volume with
    captureSeq := u.volume.captureSeq, capturesIssued := u.volume.capturesIssued
    sidesFailed := u.volume.sidesFailed } :=
  congrArg (fun v : Volume => { v with
    captureSeq := u.volume.captureSeq, capturesIssued := u.volume.capturesIssued
    sidesFailed := u.volume.sidesFailed }) (congrArg Lasting.volume h)

theorem motion_lasting : u.motion = { s.motion with
    platen := u.motion.platen, platenDeadline := u.motion.platenDeadline
    raisePending := u.motion.raisePending, safeRaise := u.motion.safeRaise, dwell := u.motion.dwell
    dwellDeferred := u.motion.dwellDeferred } :=
  congrArg (fun m : Motion => { m with
    platen := u.motion.platen, platenDeadline := u.motion.platenDeadline
    raisePending := u.motion.raisePending, safeRaise := u.motion.safeRaise, dwell := u.motion.dwell
    dwellDeferred := u.motion.dwellDeferred }) (congrArg Lasting.motion h)

theorem dose_lasting : u.dose = { s.dose with prediction := u.dose.prediction, credit := u.dose.credit } :=
  congrArg (fun d : Dose => { d with prediction := u.dose.prediction, credit := u.dose.credit })
    (congrArg Lasting.dose h)

theorem getBank_lasting (bk : Bank) : ∃ state hoodRequest hood deadline readySince, getBank u bk = { getBank s bk with
    state := state, hoodRequest := hoodRequest, hood := hood, deadline := deadline, readySince := readySince } := by
  have bank : lastingBank (getBank u bk) = lastingBank (getBank s bk) := by
    have banks := congrArg (fun x : Lasting => x.banks.get bk) h
    cases bk <;> exact banks
  exact ⟨_, _, _, _, _, congrArg (fun r : BankRec => { r with
    state := (getBank u bk).state, hoodRequest := (getBank u bk).hoodRequest, hood := (getBank u bk).hood
    deadline := (getBank u bk).deadline, readySince := (getBank u bk).readySince }) bank⟩

theorem getLine_staged (i : Nat) : ∃ v, getLine u i = { getLine s i with staged := v } :=
  ⟨_, congrArg (fun l : Line => { l with staged := (getLine u i).staged }) (getLine_lasting h i)⟩

end

end Sys2Proof.Machine
end

