-- ==== Sys2Proof/Proofs/PlatenFollows.lean ====
section
/-! What a turn step leaves of the platen and its stops: a platen that has followed them needs not follow them again
(R43). -/
namespace Sys2Proof.Machine

/-- The platen is not moving to a stop that it has reached. -/
def platenSettled (s : State) : Prop :=
  (s.motion.platen = .raising → fnActive s .platenTop = false)
    ∧ (s.motion.platen = .lowering → fnActive s .platenContact = false)

/-- The platen's following of its stops, as a condition (R43). -/
theorem followPlaten_eq (s : State) : followPlaten s =
    if s.motion.platen = .raising ∧ fnActive s .platenTop = true then
      { s with motion.platen := .raised, motion.platenDeadline := none, motion.safeRaise := false }
    else if s.motion.platen = .lowering ∧ fnActive s .platenContact = true then
      { s with motion.platen := .pressing, motion.platenDeadline := some (s.time.clock + pressingTime) }
    else s := by
  unfold followPlaten
  cases hp : s.motion.platen
  case raising => simp
  case lowering => simp [now]
  all_goals simp

theorem followPlaten_of_settled {s : State} (h : platenSettled s) : followPlaten s = s := by
  obtain ⟨top, contact⟩ := h
  rw [followPlaten_eq, if_neg fun ⟨raising, reached⟩ => by simp [top raising] at reached,
    if_neg fun ⟨lowering, reached⟩ => by simp [contact lowering] at reached]

theorem followPlaten_settled (s : State) : platenSettled (followPlaten s) := by
  rw [followPlaten_eq]
  split
  · exact ⟨nofun, nofun⟩
  · rename_i raised
    split
    · exact ⟨nofun, nofun⟩
    · rename_i pressing
      exact ⟨fun h => by simpa [h] using raised, fun h => by simpa [h] using pressing⟩

@[simp] theorem followPlaten_turn (s : State) : (followPlaten s).motion.turn = s.motion.turn := by
  rw [followPlaten_eq]
  split
  · rfl
  · split <;> rfl

@[simp] theorem followPlaten_safe (s : State) : (followPlaten s).safe = s.safe := by
  rw [followPlaten_eq]
  split
  · rfl
  · split <;> rfl

theorem startRaise_settled (s : State) (b : Bool) : platenSettled (startRaise s b) := by
  have active : ∀ f, fnActive (startRaise s b) f = fnActive s f := fun _ => rfl
  cases top : fnActive s .platenTop <;> simp [platenSettled, active, (startRaise_platen b s).1, top]

/-! ### Operations that leave the platen settled -/

/-- The stops read as they did, and the platen stays as it is or comes to where it has followed them. -/
structure StaysSettled (s t : State) : Prop where
  active : fnActive t = fnActive s
  platen : t.motion.platen = s.motion.platen ∨ platenSettled t

theorem StaysSettled.refl (s : State) : StaysSettled s s := ⟨rfl, .inl rfl⟩

theorem StaysSettled.settled {s t : State} (h : StaysSettled s t) (hs : platenSettled s) : platenSettled t := by
  rcases h.platen with same | settled
  · simpa only [platenSettled, same, h.active] using hs
  · exact settled

theorem StaysSettled.trans {s t u : State} (h : StaysSettled s t) (g : StaysSettled t u) : StaysSettled s u := by
  refine ⟨g.active.trans h.active, ?_⟩
  rcases g.platen with same | settled
  · rcases h.platen with before | settled
    · exact .inl (same.trans before)
    · exact .inr (g.settled settled)
  · exact .inr settled

theorem startRaise_stays (s : State) (b : Bool) : StaysSettled s (startRaise s b) := ⟨rfl, .inr (startRaise_settled s b)⟩

/-- What leaves the lines but for their staged values, and the platen. -/
theorem StaysSettled.of_lasting {s t : State} (h : lasting t = lasting s) (binding : t.lines.binding = s.lines.binding)
    (platen : t.motion.platen = s.motion.platen) : StaysSettled s t :=
  ⟨funext (fnActive_lasting h binding), .inl platen⟩

theorem enterReserved_stays (s : State) (b : Body) : StaysSettled s (enterReserved s b) :=
  .of_lasting (lasting_enterReserved s b) (by simp) (by simp)

theorem endTurn_stays (s : State) (r : TurnReport) : StaysSettled s (endTurn s r) := by
  rw [endTurn_eq]
  refine .trans ?_ (enterReserved_stays _ _)
  exact ⟨rfl, .inl rfl⟩

theorem carryOutDwell_stays (s : State) : StaysSettled s (carryOutDwell s) := by
  unfold carryOutDwell
  split
  · split
    · exact ⟨rfl, .inl rfl⟩
    · exact startRaise_stays s false
  · exact .refl s

theorem captureEnded_active (s : State) (c : Capture) : fnActive (captureEnded s c) = fnActive s :=
  funext (fnActive_lasting (t := enterReserved s (.capture (endedRecord s c))) (lasting_enterReserved _ _) (by simp))

theorem endCapture_stays {s : State} {c : Capture} (ended : allEnded c = true) : StaysSettled s (endCapture s c) := by
  rw [endCapture_eq ended]
  exact .trans ⟨captureEnded_active s c, .inl (congrArg Motion.platen (captureEnded_frame s c).1)⟩ (carryOutDwell_stays _)

/-! ### A fault -/

theorem offerFirstFault_stays (s : State) (f : FaultReport) : StaysSettled s (offerFirstFault s f) := by
  unfold offerFirstFault
  split
  · exact .of_lasting (lasting_enqueue _ _ _) (by simp) (by simp)
  · exact ⟨rfl, .inl rfl⟩

theorem recordFault_stays (s : State) (r : FaultRec) : StaysSettled s (recordFault s r) := by
  unfold recordFault
  split <;> exact ⟨rfl, .inl rfl⟩

theorem abandonSafe_stays (s : State) (k : FaultKind) : StaysSettled s (abandonSafe s k) := by
  unfold abandonSafe
  split
  · exact .refl s
  · refine .trans ?_ (endTurn_stays _ _)
    exact ⟨rfl, .inl rfl⟩

theorem safeMotion_stays (s : State) (k : FaultKind) : StaysSettled s (safeMotion s k) := by
  refine (abandonSafe_stays s k).trans ?_
  unfold safeMotion
  dsimp only
  split
  · exact ⟨rfl, .inl rfl⟩
  · exact ⟨rfl, .inl rfl⟩
  · refine .trans ?_ (startRaise_stays _ true)
    exact ⟨rfl, .inl rfl⟩

theorem StaysSettled.foldl {α : Type} {f : State → α → State} (h : ∀ u a, StaysSettled u (f u a)) (l : List α) (s : State) :
    StaysSettled s (l.foldl f s) := by
  induction l generalizing s with
  | nil => exact .refl s
  | cons a l ih => exact (h s a).trans (ih _)

theorem safeSequencer_stays (s : State) : StaysSettled s (safeSequencer s) := by
  unfold safeSequencer
  extract_lets _ s1 s2 s3
  have unsynced : StaysSettled s s1 := ⟨rfl, .inl rfl⟩
  have ended : StaysSettled s1 s2 := by
    unfold s2
    split
    · exact .refl s1
    · split
      · exact endCapture_stays (Bool.and_eq_true_iff.mp ‹_›).1
      · exact .refl s1
  have flushed : StaysSettled s2 s3 := .foldl (fun u o => enterReserved_stays u _) _ _
  exact ((unsynced.trans ended).trans flushed).trans ⟨rfl, .inl rfl⟩

theorem fnActive_of_lines {s t : State} (h : t.lines = s.lines) : fnActive t = fnActive s := by
  funext f
  simp only [fnActive, lineOf, getLine, h]

theorem stopHoods_stays (s : State) : StaysSettled s (stopHoods s) :=
  ⟨fnActive_of_lines (by simp), .inl (by simp)⟩

/-- The first fault of an episode. -/
theorem raiseFault_stays {s : State} (calm : s.safe.flag = false) (k : FaultKind) (bk : Option Bank) :
    StaysSettled s (raiseFault s k bk) := by
  obtain ⟨safe, -⟩ | ⟨-, h⟩ := raiseFault_cases k bk s
  · simp [calm] at safe
  · rw [h]
    have recorded : StaysSettled s { recordFault s (faultRecord s k bk) with
        safe.flag := true, safe.episodeStart := some (now s) } := (recordFault_stays s _).trans ⟨rfl, .inl rfl⟩
    exact (((recorded.trans (offerFirstFault_stays _ _)).trans (safeMotion_stays _ k)).trans (safeSequencer_stays _)).trans
      (stopHoods_stays _)

theorem safeMotion_turn (s : State) (k : FaultKind) : (safeMotion s k).motion.turn = none := by
  have ended : (abandonSafe s k).motion.turn = none := congrArg Course.turn (course_abandonSafe s k)
  unfold safeMotion
  dsimp only
  split
  · exact ended
  · exact ended
  · simpa using ended

/-- The first fault of an episode leaves no turn in flight (R63). -/
theorem raiseFault_turn {s : State} (calm : s.safe.flag = false) (k : FaultKind) (bk : Option Bank) :
    (raiseFault s k bk).motion.turn = none := by
  obtain ⟨safe, -⟩ | ⟨-, h⟩ := raiseFault_cases k bk s
  · simp [calm] at safe
  · rw [h]
    simp [safeEntry, safeMotion_turn]

end Sys2Proof.Machine
end

