-- ==== Sys2Proof/Proofs/RunMotion.lean ====
section
/-! A turn in flight goes on, one step after another, until its stage has to wait (R53 to R57, R59). -/
namespace Sys2Proof.Machine

/-- A bound of the steps that a turn may take at once. -/
def turnSteps (t : Turn) : Nat :=
  match t.stage with
  | .raise => 1
  | .air => 0
  | .reach => 8
  | .grip => 7
  | .sweep => if t.recovery then 1 else 6
  | .release => 5
  | .verify => 4
  | .park => 3
  | .adjust => 2
  | .lower => 1

/-- A bound of the steps that the turn in flight, where there is one, may take at once. -/
def stepsOfTurn (s : State) : Nat := s.motion.turn.elim 0 turnSteps

theorem stepsOfTurn_le (s : State) : stepsOfTurn s ≤ 8 := by
  have each : ∀ t, turnSteps t ≤ 8 := fun t => by
    unfold turnSteps
    cases t.stage
    case sweep => dsimp only; split <;> simp
    all_goals simp
  unfold stepsOfTurn
  cases s.motion.turn with
  | none => exact Nat.zero_le _
  | some t => exact each t

/-- A turn in flight means that no fault is in force (R63). -/
def calmTurn (s : State) : Prop := ∀ t, s.motion.turn = some t → s.safe.flag = false

theorem safeInv.calmTurn {s : State} (h : safeInv s) : calmTurn s := fun t ht => by
  by_contra safe
  obtain ⟨-, -, gone, -⟩ := h.2.1 (by simpa using safe)
  simp [gone] at ht

/-- What one step of a turn in a calm state keeps, and that it leaves fewer steps. -/
structure TurnStepped (s u : State) (t : Turn) : Prop where
  stays : StaysSettled s u
  fewer : stepsOfTurn u < turnSteps t
  calm : calmTurn u

section
variable {s : State} {t : Turn}

/-- A step to another stage, with neither the platen nor a fault touched. -/
theorem TurnStepped.of_stage {u : State} {x : Turn} (calm : s.safe.flag = false) (stays : StaysSettled s u)
    (turn : u.motion.turn = some x) (fewer : turnSteps x < turnSteps t) (safe : u.safe = s.safe) : TurnStepped s u t :=
  ⟨stays, by simpa [stepsOfTurn, turn] using fewer, fun _ _ => by rw [safe, calm]⟩

/-- A step that ends the turn. -/
theorem TurnStepped.of_end {u : State} (stays : StaysSettled s u) (turn : u.motion.turn = none) (steps : 0 < turnSteps t) :
    TurnStepped s u t :=
  ⟨stays, by simpa [stepsOfTurn, turn] using steps, fun x hx => by simp [turn] at hx⟩

/-- A change before a step that the stops and the platen do not see. -/
theorem TurnStepped.of_before {v u : State} (h : TurnStepped v u t) (active : fnActive v = fnActive s)
    (platen : v.motion.platen = s.motion.platen) : TurnStepped s u t :=
  ⟨.trans ⟨active, .inl platen⟩ h.stays, h.fewer, h.calm⟩

theorem doublePick_stepped (ht : s.motion.turn = some t) (calm : s.safe.flag = false) (stage : t.stage = .sweep)
    (first : t.recovery = false) : TurnStepped s (doublePick s t) t := by
  have before : turnSteps t = 6 := by simp [turnSteps, stage, first]
  rcases Nat.eq_zero_or_pos t.retries with none_left | retries
  · rw [doublePick, if_pos none_left]
    exact .of_end (raiseFault_stays calm _ _) (raiseFault_turn calm _ _) (by simp [before])
  · rw [doublePick_retry ht retries]
    refine .of_stage calm ⟨rfl, .inl rfl⟩ rfl ?_ rfl
    rw [before]
    simp [turnSteps, stage]

theorem turnDone_stepped (stage : t.stage = .lower) : TurnStepped s (turnDone s t) t := by
  rw [turnDone_eq]
  refine .of_end (.trans ?_ (enterReserved_stays _ _)) (by simp) (by simp [turnSteps, stage])
  exact ⟨rfl, .inl rfl⟩

theorem startLower_stays (ht : s.motion.turn = some t) : StaysSettled s (startStage s .lower) := by
  rw [startStage_lower ht]
  refine ⟨rfl, .inr ?_⟩
  unfold platenSettled
  cases contact : fnActive s .platenContact
  · exact ⟨nofun, fun _ => contact⟩
  · exact ⟨nofun, nofun⟩

/-- The start of a stage after RAISE (R53 to R57). -/
theorem startStage_stepped (ht : s.motion.turn = some t) (calm : s.safe.flag = false) {g : Stage} (later : g ≠ .raise)
    (fewer : turnSteps (t.inStage g none) < turnSteps t) : TurnStepped s (startStage s g) t := by
  cases g with
  | raise => contradiction
  | air => rw [startStage_air ht]; exact .of_stage calm ⟨rfl, .inl rfl⟩ rfl fewer rfl
  | reach => rw [startStage_reach ht]; exact .of_stage calm ⟨rfl, .inl rfl⟩ rfl fewer rfl
  | grip => rw [startStage_grip ht]; exact .of_stage calm ⟨rfl, .inl rfl⟩ rfl fewer rfl
  | sweep => rw [startStage_sweep ht]; exact .of_stage calm ⟨rfl, .inl rfl⟩ rfl fewer rfl
  | release => rw [startStage_release ht]; exact .of_stage calm ⟨rfl, .inl rfl⟩ rfl fewer rfl
  | verify => rw [startStage_verify ht]; exact .of_stage calm ⟨rfl, .inl rfl⟩ rfl fewer rfl
  | park => rw [startStage_park ht]; exact .of_stage calm ⟨rfl, .inl rfl⟩ rfl fewer rfl
  | adjust => rw [startStage_adjust ht]; exact .of_stage calm ⟨rfl, .inl rfl⟩ rfl fewer rfl
  | lower =>
    have stays := startLower_stays ht
    rw [startStage_lower ht] at stays ⊢
    exact .of_stage calm stays rfl fewer rfl

/-- Every step of a turn leaves fewer of them, and a settled platen settled (R53 to R57). -/
theorem turnStep_stepped {u : State} (ht : s.motion.turn = some t) (calm : s.safe.flag = false)
    (h : turnStep s t = some u) : TurnStepped s u t := by
  have start : ∀ {g}, g ≠ .raise → turnSteps (t.inStage g none) < turnSteps t → TurnStepped s (startStage s g) t :=
    startStage_stepped ht calm
  unfold turnStep at h
  split at h
  · contradiction
  · split at h
    case h_1 stage => split_ifs at h; cases h; exact start nofun (by simp [turnSteps, stage, Turn.inStage])
    case h_2 => contradiction
    case h_3 stage => split_ifs at h; cases h; exact start nofun (by simp [turnSteps, stage, Turn.inStage])
    case h_4 stage =>
      split_ifs at h; cases h
      have counted := startStage_stepped (s := countHandling s t.leaf) ht calm (g := .sweep) nofun
        (by simp [turnSteps, stage, Turn.inStage])
      exact counted.of_before rfl rfl
    case h_5 stage =>
      split_ifs at h with returning _ double
      · cases h; rw [returnToAir_eq ht]
        exact .of_stage calm ⟨rfl, .inl rfl⟩ rfl (by simp [turnSteps, stage, returning, Turn.inStage]) rfl
      · cases h; exact doublePick_stepped ht calm stage (by simpa using returning)
      · cases h; exact start nofun (by simp [turnSteps, stage, returning, Turn.inStage])
    case h_6 stage => split_ifs at h; cases h; exact start nofun (by simp [turnSteps, stage, Turn.inStage])
    case h_7 stage =>
      split_ifs at h; cases h
      have turned := startStage_stepped (s := { s with volume.k := turnedOpening t.direction s.volume.k }) ht calm
        (g := .park) nofun (by simp [turnSteps, stage, Turn.inStage])
      exact turned.of_before rfl rfl
    case h_8 stage => split_ifs at h; cases h; exact start nofun (by simp [turnSteps, stage, Turn.inStage])
    case h_9 stage => split_ifs at h; cases h; exact start nofun (by simp [turnSteps, stage, Turn.inStage])
    case h_10 stage => split_ifs at h; cases h; exact turnDone_stepped stage

end

/-! ### The fuel -/

theorem runTurn_none {s : State} (h : s.motion.turn = none) (n : Nat) : runTurn n s = s := by
  cases n with
  | zero => rfl
  | succ n => simp [runTurn, h]

theorem runTurn_of_none {s : State} {t : Turn} (ht : s.motion.turn = some t) (h : turnStep s t = none) (n : Nat) :
    runTurn n s = s := by
  cases n with
  | zero => rfl
  | succ n => simp [runTurn, ht, h]

theorem runTurn_step {s u : State} {t : Turn} (ht : s.motion.turn = some t) (h : turnStep s t = some u) (n : Nat) :
    runTurn (n + 1) s = runTurn n u := by
  simp [runTurn, ht, h]

/-- Fuel for the steps of a turn is enough, and more of it changes nothing. -/
theorem runTurn_fuel {s : State} (calm : calmTurn s) {n : Nat} (hn : stepsOfTurn s ≤ n) :
    ∀ m, stepsOfTurn s ≤ m → runTurn m s = runTurn n s := by
  induction n generalizing s with
  | zero =>
    cases ht : s.motion.turn with
    | none => exact fun m _ => (runTurn_none ht m).trans rfl
    | some t =>
      have steps : turnSteps t ≤ 0 := by simpa [stepsOfTurn, ht] using hn
      cases h : turnStep s t with
      | none => exact fun m _ => (runTurn_of_none ht h m).trans rfl
      | some u => exact absurd (turnStep_stepped ht (calm t ht) h).fewer (by omega)
  | succ n ih =>
    cases ht : s.motion.turn with
    | none => exact fun m _ => (runTurn_none ht m).trans (runTurn_none ht _).symm
    | some t =>
      cases h : turnStep s t with
      | none => exact fun m _ => (runTurn_of_none ht h m).trans (runTurn_of_none ht h _).symm
      | some u =>
        have stepped := turnStep_stepped ht (calm t ht) h
        have fewer := stepped.fewer
        have steps : stepsOfTurn s = turnSteps t := by simp [stepsOfTurn, ht]
        intro m hm
        obtain ⟨m, rfl⟩ : ∃ k, m = k + 1 := ⟨m - 1, by omega⟩
        rw [runTurn_step ht h, runTurn_step ht h]
        exact ih stepped.calm (by omega) m (by omega)

/-- Where a step of the turn is allowed, the motion goes on from the state after it. -/
theorem runMotion_step {s u : State} {t : Turn} (hs : safeInv s) (ht : s.motion.turn = some t)
    (h : turnStep (followPlaten s) t = some u) : runMotion s = runMotion u := by
  have followed : (followPlaten s).motion.turn = some t := (followPlaten_turn s).trans ht
  have calm : (followPlaten s).safe.flag = false :=
    (congrArg Safe.flag (followPlaten_safe s)).trans (hs.calmTurn t ht)
  have stepped := turnStep_stepped followed calm h
  have bound := stepsOfTurn_le u
  calc runMotion s = runTurn 15 u := runTurn_step followed h 15
    _ = runTurn 16 u := runTurn_fuel stepped.calm (by omega) 15 (by omega)
    _ = runTurn 16 (followPlaten u) := by
      rw [followPlaten_of_settled (stepped.stays.settled (followPlaten_settled s))]

end Sys2Proof.Machine
end

