-- ==== Sys2Proof/Proofs/SettlingOwns.lean ====
section
/-! What every event ends with: the settling and the motion (R43, R53 to R57, R59, R76, R84, R86, R114, R157). -/
namespace Sys2Proof.Machine

/-- The settled state of a sequencer that may take no step, with its interval, its aim lamps and READY_LAMP written out
(R76, R77, R84, R86, R157). -/
theorem settle_eq_of_none {s : State} {met ready ended : Bool} (still : advanceOnce s = none)
    (hended : ended = s.lamps.interval.any (intervalOver s))
    (hmet : met = litCondition (intervalEnded s ended)) (hready : ready = readyCondition s) :
    settle s = driveFn
      { s with
        lamps.banks := ⟨intervalBank s ended .a, intervalBank s ended .b, intervalBank s ended .c, intervalBank s ended .d⟩
        lamps.interval := if ended then none else s.lamps.interval
        lamps.closePending := s.lamps.closePending && !ended
        lamps.aims := ⟨relight s.time.clock met s.lamps.aims.l, relight s.time.clock met s.lamps.aims.r⟩
        lines.ready := ready } .readyLamp ready := by
  rw [settle_of_none still, ← hended, hmet, hready]
  rfl

/-- A motion without a step of a turn is the platen's alone (R43). -/
theorem runMotion_of_no_turn {s : State} (h : s.motion.turn = none) : runMotion s = followPlaten s :=
  runTurn_none ((followPlaten_turn s).trans h) 16

theorem runMotion_of_wait {s : State} {t : Turn} (ht : s.motion.turn = some t) (h : turnStep (followPlaten s) t = none) :
    runMotion s = followPlaten s := runTurn_of_none ((followPlaten_turn s).trans ht) h 16

/-- A HELD turn takes no step (R59). -/
theorem turnStep_held {s : State} {t : Turn} (h : t.held = true) : turnStep s t = none := by simp [turnStep, h]

end Sys2Proof.Machine

namespace Sys2Proof
open Machine

/-- Settles O55: what lasts in a settling, the steps of the sequencer and of a turn one after another under a falling
measure, and the settled state itself. -/
theorem settlingKeepsWhatItDoesNotOwn : Obligations.SettlingKeepsWhatItDoesNotOwn := by
  refine ⟨fun s u hu => ?_, fun s w => settle_step, fun s w hv hw => ?_,
    fun s met ready ended interval lamp bank hooded still hended hinterval hhooded hbank hmet hready hlamp => ?_,
    fun s w hw => ?_⟩
  · subst hu
    have lasts := lasting_settle s
    obtain ⟨-, link, -, -, -, leaves, plan, -, -, grants, recipes, -, -, cameras, binding, hold, safe, charge, pending⟩ :=
      settle_frame s
    exact ⟨link, leaves, plan, safe, charge, pending, hold, binding, getLine_staged lasts, time_lasting lasts,
      volume_lasting lasts, motion_lasting lasts, grants, recipes, getBank_lasting lasts, dose_lasting lasts, cameras,
      congrArg Lasting.lateLimit lasts⟩
  · subst hw
    exact settle_advance hv
  · have finished : ended = s.lamps.interval.any (intervalOver s) := by
      rw [hended]
      exact congrArg s.lamps.interval.any (funext fun n => (intervalOver_eq s n).symm)
    obtain rfl : hooded = hoodClosed s ended := funext hhooded
    obtain rfl : bank = intervalBank s ended := funext hbank
    subst hinterval
    have lit : met = litCondition (intervalEnded s ended) := hmet.trans (litCondition_eq (intervalEnded s ended)).symm
    have lamps : ∀ sd, lamp sd = relight s.time.clock met (s.lamps.aims.get sd) :=
      fun sd => (hlamp sd).trans (relight_eq ..).symm
    rw [lamps, lamps]
    exact settle_eq_of_none still finished lit (hready.trans (readyCondition_iff s).symm)
  · obtain rfl : w = followPlaten s := hw.trans (followPlaten_eq s).symm
    exact ⟨runMotion_of_no_turn, fun t ht => ⟨fun held => runMotion_of_wait ht (turnStep_held held), runMotion_of_wait ht,
      fun hs u => runMotion_step hs ht⟩⟩

end Sys2Proof
end

