-- ==== Sys2Proof/Proofs/FlashSchedule.lean ====
section
/-! The firing schedule: its laws, and what each operation does to it (R74). -/
namespace Sys2Proof.Machine

/-! ### The schedule -/

/-- The firing schedule: each bank's last firing made and its latest time, and the firings granted and not yet made. -/
structure Schedule where
  made : Bank → Option Nat
  latest : Bank → Option Nat
  granted : List (Bank × Nat)

def scheduleOf (l : Lamps) : Schedule :=
  { made := fun bk => (l.banks.get bk).lastFiring, latest := fun bk => (l.banks.get bk).latest
    granted := l.grants.map fun g => (g.bank, g.time) }

/-- A firing that the spacing looks at, made last or granted. -/
def Schedule.fires (w : Schedule) (x : Bank × Nat) : Prop := w.made x.1 = some x.2 ∨ x ∈ w.granted

theorem mem_firings (s : State) (x : Bank × Nat) : x ∈ firings s ↔ (scheduleOf s.lamps).fires x := by
  obtain ⟨bk, t⟩ := x
  have bank : bk ∈ allBanks := by cases bk <;> decide
  simp [firings, Schedule.fires, scheduleOf, getBank, bank]

/-- The laws of `spacingInv`, one by one. -/
structure SpacingOk (w : Schedule) : Prop where
  spaced : ∀ x y, w.fires x → w.fires y → x.1 ≠ y.1 → x.2 + 1500 ≤ y.2 ∨ y.2 + 1500 ≤ x.2
  latest : ∀ x, w.fires x → ∃ u, w.latest x.1 = some u ∧ x.2 ≤ u

theorem spacingInv_iff (s : State) : spacingInv s ↔ SpacingOk (scheduleOf s.lamps) := by
  simp only [spacingInv, mem_firings]
  exact ⟨fun ⟨spaced, latest⟩ => ⟨fun x y hx hy => spaced x hx y hy, latest⟩,
    fun h => ⟨fun x hx y hy => h.spaced x y hx hy, h.latest⟩⟩

/-! ### The ways in which the schedule goes on -/

/-- No firing is added, and the latest times stand: granted firings are made, withdrawn or dropped. -/
structure Thinned (v w : Schedule) : Prop where
  fires : ∀ x, w.fires x → v.fires x
  latest : w.latest = v.latest

namespace Thinned
variable {v w x : Schedule}

theorem of_eq (h : w = v) : Thinned v w := by subst h; exact ⟨fun _ => id, rfl⟩

theorem trans (h : Thinned v w) (g : Thinned w x) : Thinned v x :=
  ⟨fun y hy => h.fires y (g.fires y hy), g.latest.trans h.latest⟩

theorem ok (h : Thinned v w) (hv : SpacingOk v) : SpacingOk w :=
  ⟨fun x y hx hy => hv.spaced x y (h.fires x hx) (h.fires y hy), fun x hx => h.latest ▸ hv.latest x (h.fires x hx)⟩

/-- Grants taken out of the schedule. -/
theorem of_grants {l : Lamps} {gs : List Grant} (sub : gs ⊆ l.grants) :
    Thinned (scheduleOf l) (scheduleOf { l with grants := gs }) := by
  refine ⟨fun x hx => hx.imp id fun granted => ?_, rfl⟩
  obtain ⟨g, hg, rfl⟩ := List.mem_map.mp granted
  exact List.mem_map_of_mem (sub hg)

end Thinned

/-- The schedule with a firing granted to a bank (R74). -/
def Schedule.asked (w : Schedule) (bk : Bank) (t : Nat) : Schedule :=
  { w with
    latest := fun x => if x = bk then later (w.latest bk) (some t) else w.latest x
    granted := w.granted ++ [(bk, t)] }

/-- A firing granted 1,500 µs after every firing of another bank keeps the spacing: it follows them all (R74). -/
theorem SpacingOk.asked {w : Schedule} (h : SpacingOk w) {bk : Bank} {t : Nat}
    (after : ∀ x u, x ≠ bk → w.latest x = some u → u + 1500 ≤ t) : SpacingOk (w.asked bk t) := by
  have known : ∀ x, (w.asked bk t).fires x → w.fires x ∨ x = (bk, t) := fun x hx => by
    rcases hx with made | granted
    · exact .inl (.inl made)
    · rcases List.mem_append.mp granted with old | new
      · exact .inl (.inr old)
      · exact .inr (List.mem_singleton.mp new)
  have precedes : ∀ x, w.fires x → x.1 ≠ bk → x.2 + 1500 ≤ t := fun x hx other => by
    obtain ⟨u, hu, le⟩ := h.latest x hx
    exact (Nat.add_le_add_right le 1500).trans (after x.1 u other hu)
  constructor
  · intro x y hx hy banks
    rcases known x hx with old | rfl <;> rcases known y hy with old' | rfl
    · exact h.spaced x y old old' banks
    · exact .inl (precedes x old banks)
    · exact .inr (precedes y old' banks.symm)
    · exact absurd rfl banks
  · intro x hx
    show ∃ u, (if x.1 = bk then later (w.latest bk) (some t) else w.latest x.1) = some u ∧ x.2 ≤ u
    rcases known x hx with old | rfl
    · obtain ⟨u, hu, le⟩ := h.latest x old
      split
      · rename_i same
        obtain ⟨m, hm, le'⟩ := later_le (y := some t) (.inl (same ▸ hu))
        exact ⟨m, hm, le.trans le'⟩
      · exact ⟨u, hu, le⟩
    · rw [if_pos rfl]
      exact later_le (.inr rfl)

/-! ### Banks whose firings stand -/

@[simp] theorem scheduleOf_setBank (s : State) (bk : Bank) (r : BankRec) (made : r.lastFiring = (getBank s bk).lastFiring)
    (latest : r.latest = (getBank s bk).latest) : scheduleOf (setBank s bk r).lamps = scheduleOf s.lamps := by
  have each : ∀ x, (getBank (setBank s bk r) x).lastFiring = (getBank s x).lastFiring
      ∧ (getBank (setBank s bk r) x).latest = (getBank s x).latest := fun x => by
    by_cases same : x = bk
    · subst same; rw [getBank_setBank]; exact ⟨made, latest⟩
    · rw [getBank_setBank_ne same]; exact ⟨rfl, rfl⟩
  have firings : (fun x => ((setBank s bk r).lamps.banks.get x).lastFiring) = fun x => (s.lamps.banks.get x).lastFiring :=
    funext fun x => (each x).1
  have times : (fun x => ((setBank s bk r).lamps.banks.get x).latest) = fun x => (s.lamps.banks.get x).latest :=
    funext fun x => (each x).2
  rw [scheduleOf, firings, times]
  rfl

@[simp] theorem scheduleOf_modifyBank (s : State) (bk : Bank) (f : BankRec → BankRec)
    (made : ∀ r, (f r).lastFiring = r.lastFiring) (latest : ∀ r, (f r).latest = r.latest) :
    scheduleOf (modifyBank s bk f).lamps = scheduleOf s.lamps := scheduleOf_setBank s bk _ (made _) (latest _)

/-- What lasts, with the grants, is the schedule. -/
theorem scheduleOf_lasting {s t : State} (h : lasting t = lasting s) (grants : t.lamps.grants = s.lamps.grants) :
    scheduleOf t.lamps = scheduleOf s.lamps := by
  have banks : ∀ u : State, scheduleOf u.lamps = scheduleOf { u.lamps with banks := (lasting u).banks } := fun u => by
    have made : (fun bk => (u.lamps.banks.get bk).lastFiring) = fun bk => ((lasting u).banks.get bk).lastFiring :=
      funext fun bk => by cases bk <;> rfl
    have latest : (fun bk => (u.lamps.banks.get bk).latest) = fun bk => ((lasting u).banks.get bk).latest :=
      funext fun bk => by cases bk <;> rfl
    rw [scheduleOf, made, latest]
    rfl
  rw [banks t, banks s, h, scheduleOf, scheduleOf, grants]

/-! ### Operations that leave the schedule as it was -/

@[simp] theorem scheduleOf_judgeLit (s : State) : scheduleOf (judgeLit s).lamps = scheduleOf s.lamps := rfl

@[simp] theorem scheduleOf_enterReady (s : State) (bk : Bank) (c : Option BankCause) :
    scheduleOf (enterReady s bk c).lamps = scheduleOf s.lamps := by unfold enterReady; split <;> simp

@[simp] theorem scheduleOf_enterConditioning (s : State) (bk : Bank) (c : BankCause) :
    scheduleOf (enterConditioning s bk c).lamps = scheduleOf s.lamps := by simp [enterConditioning]

@[simp] theorem scheduleOf_topUp (s : State) (bk : Bank) : scheduleOf (topUp s bk).lamps = scheduleOf s.lamps := by
  unfold topUp; split <;> simp

@[simp] theorem scheduleOf_closeBankHoods (s : State) :
    scheduleOf (closeBankHoods s).lamps = scheduleOf s.lamps := by simp [closeBankHoods]

@[simp] theorem scheduleOf_clearHoodRequests (s : State) :
    scheduleOf (clearHoodRequests s).lamps = scheduleOf s.lamps := by simp [clearHoodRequests]

@[simp] theorem scheduleOf_stopHoods (s : State) : scheduleOf (stopHoods s).lamps = scheduleOf s.lamps := by
  unfold stopHoods
  split
  · exact scheduleOf_clearHoodRequests s
  · simp

@[simp] theorem scheduleOf_wakeIfIdle (s : State) (c : WakeCause) :
    scheduleOf (wakeIfIdle s c).lamps = scheduleOf s.lamps := scheduleOf_lasting (lasting_wakeIfIdle s c) (by simp)

@[simp] theorem scheduleOf_endCapture (s : State) (c : Capture) :
    scheduleOf (endCapture s c).lamps = scheduleOf s.lamps := scheduleOf_lasting (lasting_endCapture s c) (by simp)

@[simp] theorem scheduleOf_settle (s : State) : scheduleOf (settle s).lamps = scheduleOf s.lamps :=
  scheduleOf_lasting (lasting_settle s) (by simp)

@[simp] theorem scheduleOf_safeSequencer (s : State) : scheduleOf (safeSequencer s).lamps = scheduleOf s.lamps := by
  unfold safeSequencer; dsimp only; (repeat' split) <;> simp

@[simp] theorem scheduleOf_raiseFault (s : State) (k : FaultKind) (bk : Option Bank) :
    scheduleOf (raiseFault s k bk).lamps = scheduleOf s.lamps := by
  unfold raiseFault safeEntry; split <;> simp

theorem scheduleOf_turnStep {s u : State} {t : Turn} (h : turnStep s t = some u) :
    scheduleOf u.lamps = scheduleOf s.lamps := by
  unfold turnStep doublePick at h
  repeat' split at h
  all_goals cases h <;> simp

@[simp] theorem scheduleOf_runTurn (n : Nat) (s : State) : scheduleOf (runTurn n s).lamps = scheduleOf s.lamps := by
  induction n generalizing s with
  | zero => rfl
  | succ n ih =>
    unfold runTurn
    split
    · rfl
    · split
      · rfl
      · rename_i h; exact (ih _).trans (scheduleOf_turnStep h)

@[simp] theorem scheduleOf_runMotion (s : State) : scheduleOf (runMotion s).lamps = scheduleOf s.lamps := by
  simp [runMotion]

@[simp] theorem scheduleOf_holdOn (s : State) (i t : Nat) : scheduleOf (holdOn s i t).lamps = scheduleOf s.lamps := by
  simp [holdOn]

@[simp] theorem scheduleOf_evalHold (s : State) (i t : Nat) :
    scheduleOf (evalHold s i t).lamps = scheduleOf s.lamps := by unfold evalHold; (repeat' split) <;> simp

@[simp] theorem scheduleOf_holdAfresh (s : State) : scheduleOf (holdAfresh s).lamps = scheduleOf s.lamps := by
  unfold holdAfresh; dsimp only; split <;> simp

@[simp] theorem scheduleOf_takeReading (s : State) (n : Nat) :
    scheduleOf (takeReading s n).lamps = scheduleOf s.lamps := by unfold takeReading; (repeat' split) <;> simp

/-! ### Operations that take grants out of the schedule, or make them -/

theorem dropConditioning_thinned (s : State) (bk : Bank) :
    Thinned (scheduleOf s.lamps) (scheduleOf (dropConditioning s bk).lamps) := .of_grants fun _ => List.mem_of_mem_filter

theorem removeGrant_thinned (s : State) (bk : Bank) :
    Thinned (scheduleOf s.lamps) (scheduleOf (removeGrant s bk).lamps) := .of_grants fun _ => List.mem_of_mem_filter

theorem enterStandby_thinned (s : State) (bk : Bank) (c : BankCause) :
    Thinned (scheduleOf s.lamps) (scheduleOf (enterStandby s bk c).lamps) := by
  have set : scheduleOf (enterStandby s bk c).lamps = scheduleOf (dropConditioning s bk).lamps := by
    rw [enterStandby]; simp [getBank]
  exact (dropConditioning_thinned s bk).trans (.of_eq set)

theorem powerOff_thinned (s : State) (bk : Bank) :
    Thinned (scheduleOf s.lamps) (scheduleOf (powerOff s bk).lamps) := by
  have set : scheduleOf (powerOff s bk).lamps = scheduleOf (dropConditioning s bk).lamps := by
    rw [powerOff]; simp [getBank, offRecord]
  exact (dropConditioning_thinned s bk).trans (.of_eq set)

theorem endCharge_thinned (s : State) (bk : Bank) :
    Thinned (scheduleOf s.lamps) (scheduleOf (endCharge s bk).lamps) := by
  unfold endCharge
  split
  · exact enterStandby_thinned s bk _
  · exact .of_eq (by simp)

theorem startCharging_thinned (s : State) (bk : Bank) :
    Thinned (scheduleOf s.lamps) (scheduleOf (startCharging s bk).lamps) := by
  unfold startCharging
  extract_lets r s1
  have charging : scheduleOf s1.lamps = scheduleOf s.lamps := by simp [s1, r]
  split
  · exact (Thinned.of_eq charging).trans (endCharge_thinned s1 bk)
  · exact .of_eq charging

theorem idleBank_thinned (s : State) (bk : Bank) :
    Thinned (scheduleOf s.lamps) (scheduleOf (idleBank s bk).lamps) := by
  unfold idleBank
  split
  case h_1 | h_2 | h_3 => exact enterStandby_thinned s bk _
  all_goals exact .of_eq rfl

theorem returnReady_thinned (s : State) (bk : Bank) :
    Thinned (scheduleOf s.lamps) (scheduleOf (returnReady s bk).lamps) := by
  unfold returnReady
  split
  · exact enterStandby_thinned s bk _
  · exact .of_eq (by simp)

/-- Where each operation on a bank takes grants out alone, the same operation on every bank does. -/
theorem forBanks_thinned {f : State → Bank → State}
    (h : ∀ u bk, Thinned (scheduleOf u.lamps) (scheduleOf (f u bk).lamps)) (s : State) :
    Thinned (scheduleOf s.lamps) (scheduleOf (forBanks f s).lamps) :=
  (h s .a).trans ((h _ .b).trans ((h _ .c).trans (h _ .d)))

/-- A firing made at its granted time takes its grant's place in the schedule (R73, R75). -/
theorem made_thinned {s : State} {bk : Bank} {g : Grant} (h : grantOf s bk = some g) {r : BankRec}
    (made : r.lastFiring = some g.time) (latest : r.latest = (getBank s bk).latest) :
    Thinned (scheduleOf s.lamps) (scheduleOf (setBank (removeGrant s bk) bk r).lamps) := by
  have granted : (bk, g.time) ∈ (scheduleOf s.lamps).granted := by
    have bank : g.bank = bk := by simpa using List.find?_some h
    exact List.mem_map.mpr ⟨g, List.mem_of_find?_eq_some h, by rw [bank]⟩
  constructor
  · rintro ⟨x, t⟩ hx
    rcases hx with fired | waits
    · replace fired : (getBank (setBank (removeGrant s bk) bk r) x).lastFiring = some t := fired
      by_cases same : x = bk
      · subst same
        rw [getBank_setBank, made] at fired
        obtain rfl := Option.some.inj fired
        exact .inr granted
      · rw [getBank_setBank_ne same] at fired
        exact .inl fired
    · exact (removeGrant_thinned s bk).fires (x, t) (.inr waits)
  · funext x
    show (getBank (setBank (removeGrant s bk) bk r) x).latest = (getBank s x).latest
    by_cases same : x = bk
    · subst same; rw [getBank_setBank]; exact latest
    · rw [getBank_setBank_ne same]; rfl

/-! ### A firing asked for -/

theorem getBank_askFiring (s : State) (bk : Bank) (t level duration : Nat) (c : Option Nat) (x : Bank) :
    getBank (askFiring s bk t level duration c) x =
      if x = bk then { getBank s bk with latest := later (getBank s bk).latest (some (grantTime s bk t)) }
      else getBank s x := by
  show getBank (modifyBank s bk fun r => { r with latest := later r.latest (some (grantTime s bk t)) }) x = _
  split
  · rename_i same; rw [same, getBank_modifyBank]
  · exact getBank_modifyBank_ne ‹_› _ s

theorem scheduleOf_askFiring (s : State) (bk : Bank) (t level duration : Nat) (c : Option Nat) :
    scheduleOf (askFiring s bk t level duration c).lamps = (scheduleOf s.lamps).asked bk (grantTime s bk t) := by
  have made : ∀ x, (getBank (askFiring s bk t level duration c) x).lastFiring = (getBank s x).lastFiring := fun x => by
    rw [getBank_askFiring]
    split
    · rename_i same; rw [same]
    · rfl
  have latest : ∀ x, (getBank (askFiring s bk t level duration c) x).latest =
      if x = bk then later (getBank s bk).latest (some (grantTime s bk t)) else (getBank s x).latest := fun x => by
    rw [getBank_askFiring]
    split <;> rfl
  have granted : (askFiring s bk t level duration c).lamps.grants.map (fun g => (g.bank, g.time)) =
      s.lamps.grants.map (fun g => (g.bank, g.time)) ++ [(bk, grantTime s bk t)] := by simp [askFiring]
  exact congr (congr (congrArg Schedule.mk (funext made)) (funext latest)) granted

/-- A firing asked for is granted a time that keeps the spacing (R74). -/
theorem askFiring_spacing {s : State} (h : SpacingOk (scheduleOf s.lamps)) (bk : Bank) (t level duration : Nat)
    (c : Option Nat) : SpacingOk (scheduleOf (askFiring s bk t level duration c).lamps) := by
  rw [scheduleOf_askFiring]
  exact h.asked fun x u other hu => (grantTime_grantedFor s bk t).2.1 x u other hu

theorem askBanks_spacing (c : Capture) (sd : Side) (bs : List Bank) (t : Nat) {s : State}
    (h : SpacingOk (scheduleOf s.lamps)) : SpacingOk (scheduleOf (askBanks c sd bs t s).lamps) := by
  induction bs generalizing s t with
  | nil => exact h
  | cons bk rest ih => exact ih _ (askFiring_spacing h bk t _ _ _)

theorem syncEdge_spacing {s : State} (h : SpacingOk (scheduleOf s.lamps)) (sd : Side) (t : Nat) :
    SpacingOk (scheduleOf (syncEdge s sd t).lamps) := by
  unfold syncEdge
  split
  · exact h
  · split
    · dsimp only
      split_ifs
      · exact h
      · exact askBanks_spacing _ _ _ _ (by simpa using h)
      · exact h
      · exact h
    · exact h

/-! ### Edges and lines -/

@[simp] theorem scheduleOf_keyShoot (s : State) : scheduleOf (keyShoot s).lamps = scheduleOf s.lamps := by
  unfold keyShoot
  dsimp only
  split
  · simp
  · exact (scheduleOf_settle _).trans (by simp)

@[simp] theorem scheduleOf_keyTurn (s : State) (k : Fn) (d : Direction) :
    scheduleOf (keyTurn s k d).lamps = scheduleOf s.lamps := by
  unfold keyTurn
  dsimp only
  split
  · simp
  · exact (scheduleOf_settle _).trans (by simp)

theorem handEdge_spacing {s : State} (h : SpacingOk (scheduleOf s.lamps)) (f : Fn) (t : Nat) :
    SpacingOk (scheduleOf (handEdge s f t).lamps) := by
  unfold handEdge
  split
  case h_1 => exact syncEdge_spacing h .left t
  case h_2 => exact syncEdge_spacing h .right t
  case h_7 | h_8 | h_9 => split <;> simpa using h
  all_goals simpa using h

theorem handLine_spacing {s : State} (h : SpacingOk (scheduleOf s.lamps)) (i : Nat) (a : Bool) (t : Nat) :
    SpacingOk (scheduleOf (handLine s i a t).lamps) := by
  unfold handLine
  split
  · exact h
  · split
    · exact handEdge_spacing h _ t
    · exact h

theorem acceptEdge_spacing {s : State} (h : SpacingOk (scheduleOf s.lamps)) (i : Nat) (high : Bool) (t : Nat) :
    SpacingOk (scheduleOf (acceptEdge s i high t).lamps) := by
  unfold acceptEdge
  extract_lets l s1 s2 s3
  have h2 : scheduleOf s2.lamps = scheduleOf s.lamps := by unfold s2; split <;> simp [s1]
  have h3 : scheduleOf s3.lamps = scheduleOf s.lamps := by unfold s3; split <;> simp [h2]
  simpa using handLine_spacing (h3 ▸ h) i (activeEdge l high) t

theorem configureLine_spacing {s : State} (h : SpacingOk (scheduleOf s.lamps)) (i : Nat) (c : LineSettings) :
    SpacingOk (scheduleOf (configureLine s i c).lamps) := by
  unfold configureLine
  extract_lets l s1 s2 s3 s4 s5
  have h2 : s2.lamps = s.lamps := by unfold s2; split <;> simp [s1]
  have h4 : SpacingOk (scheduleOf s4.lamps) := by unfold s4; split <;> simpa [s3, h2] using h
  have h5 : SpacingOk (scheduleOf s5.lamps) := by
    unfold s5
    split
    · exact h4
    · split
      · exact h4
      · exact acceptEdge_spacing h4 _ _ _
  simpa using h5

/-! ### IDLE, the resets, and the firings -/

theorem enterIdle_thinned (s : State) : Thinned (scheduleOf s.lamps) (scheduleOf (enterIdle s).lamps) := by
  unfold enterIdle
  extract_lets _ s1 s2 s3
  have idled : Thinned (scheduleOf s.lamps) (scheduleOf (forBanks idleBank s2).lamps) :=
    (Thinned.of_eq (by simp [s2, s1])).trans (forBanks_thinned idleBank_thinned s2)
  exact idled.trans (.of_eq (by simp [s3]))

theorem resetLamps_thinned (t : Nat) (l : Lamps) : Thinned (scheduleOf l) (scheduleOf (resetLamps t l)) := by
  have kept : (scheduleOf (resetLamps t l)).made = (scheduleOf l).made
      ∧ (scheduleOf (resetLamps t l)).latest = (scheduleOf l).latest :=
    ⟨funext fun bk => by cases bk <;> rfl, funext fun bk => by cases bk <;> rfl⟩
  exact ⟨fun x hx => .inl (kept.1 ▸ hx.resolve_right List.not_mem_nil), kept.2⟩

theorem softReset_thinned (s : State) : Thinned (scheduleOf s.lamps) (scheduleOf (softReset s).lamps) := by
  have events : ∀ u : State, scheduleOf (resetEvents u).lamps = scheduleOf u.lamps := fun u => by
    unfold resetEvents
    exact foldl_keeps (fun v : State => scheduleOf v.lamps) _ (fun v i => by simp) _ u
  have reset : scheduleOf (softReset s).lamps = scheduleOf (resetLamps (now s) s.lamps) := by
    simp [softReset, events, resetBlocks]
  exact (resetLamps_thinned _ _).trans (.of_eq reset)

/-- After power-on no firing is made or granted. -/
theorem powerOn_spacing (s : State) : SpacingOk (scheduleOf (powerOn s).lamps) := by
  have lamps : scheduleOf (powerOn s).lamps = scheduleOf powerOnLamps := by simp [powerOn]; rfl
  have none : ∀ x, ¬ (scheduleOf powerOnLamps).fires x := fun x hx => by
    obtain ⟨bk, t⟩ := x
    cases bk <;> rcases hx with h | h <;> cases h
  rw [lamps]
  exact ⟨fun x _ hx => absurd hx (none x), fun x hx => absurd hx (none x)⟩

theorem setRecharge_thinned (v : Nat) (mask : Quad Bool) (s : State) (bk : Bank) :
    Thinned (scheduleOf s.lamps) (scheduleOf (setRecharge v mask s bk).lamps) := by
  unfold setRecharge
  dsimp only
  have set : Thinned (scheduleOf s.lamps) (scheduleOf (modifyBank s bk fun r => { r with recharge := v }).lamps) :=
    .of_eq (by simp)
  split_ifs
  · exact set.trans (returnReady_thinned _ bk)
  · exact set
  · exact .of_eq rfl

theorem powerBank_thinned (on : Bool) (mask : Quad Bool) (s : State) (bk : Bank) :
    Thinned (scheduleOf s.lamps) (scheduleOf (powerBank on mask s bk).lamps) := by
  unfold powerBank
  split_ifs
  · exact .of_eq rfl
  · exact startCharging_thinned s bk
  · exact .of_eq rfl
  · exact powerOff_thinned s bk

theorem conditioningFlash_thinned {s : State} {bk : Bank} {g : Grant} (h : grantOf s bk = some g) :
    Thinned (scheduleOf s.lamps) (scheduleOf (conditioningFlash s bk g).lamps) := by
  unfold conditioningFlash
  dsimp only
  split
  · exact made_thinned h (by rfl) (by rfl)
  · exact removeGrant_thinned s bk

theorem captureFiring_thinned {s : State} {bk : Bank} {g : Grant} (h : grantOf s bk = some g) :
    Thinned (scheduleOf s.lamps) (scheduleOf (captureFiring s bk g).lamps) := by
  unfold captureFiring
  extract_lets s1 s2
  have fired : Thinned (scheduleOf s.lamps) (scheduleOf (modifyBank s1 bk fun r =>
      { firedBank g r with state := .recovering }).lamps) := made_thinned h (by rfl) (by rfl)
  refine Thinned.trans ?_ (.of_eq (scheduleOf_settle s2))
  unfold s2
  split
  · exact fired.trans (.of_eq (by simp))
  · exact (removeGrant_thinned s bk).trans (.of_eq (by simp [s1]))

end Sys2Proof.Machine
end

