-- ==== Sys2Proof/Proofs/AimLamps.lean ====
section
/-! The aim lamps and their lit condition under the operations of every owner (R85, R86, R103). -/
namespace Sys2Proof.Machine

/-! ### A lamp and its lit flag -/

/-- Each aim lamp agrees with its own lit flag: lit, its hood opens or is OPEN; not lit, it is dark behind a closing hood. -/
def selfLit (s : State) : Prop := ∀ sd, aimLaw (s.lamps.aims.get sd).lit (s.lamps.aims.get sd)

/-- The invariant of R86 is the laws of each lamp for itself, and a lit flag that follows the lit condition. -/
theorem aimInv_iff (s : State) :
    aimInv s ↔ selfLit s ∧ ∀ sd, (s.lamps.aims.get sd).lit = litCondition s := by
  unfold aimInv
  rw [← litCondition_eq]
  constructor
  · rintro ⟨left, right⟩
    have lit : ∀ sd, (s.lamps.aims.get sd).lit = litCondition s := fun sd => by cases sd; exacts [left.1, right.1]
    exact ⟨fun sd => by rw [lit sd]; cases sd; exacts [left, right], lit⟩
  · rintro ⟨law, lit⟩
    exact ⟨lit .left ▸ law .left, lit .right ▸ law .right⟩

theorem aimInv.selfLit {s : State} (h : aimInv s) : selfLit s := ((aimInv_iff s).mp h).1

theorem selfLit.of_aims {s t : State} (hs : selfLit s) (h : t.lamps.aims = s.lamps.aims) : selfLit t := by
  unfold Machine.selfLit; rw [h]; exact hs

theorem openHood_opens (t : Nat) (h : Hood) : (openHood t h).state = .opening ∨ (openHood t h).state = .opened := by
  cases hs : h.state <;> simp [openHood, hs]

theorem closeHood_closes (t : Nat) (h : Hood) : (closeHood t h).state = .closing ∨ (closeHood t h).state = .closed := by
  cases hs : h.state <;> simp [closeHood, hs]

/-- A lamp judged afresh agrees with the condition that it was judged by (R86). -/
theorem relight_law (t : Nat) (met : Bool) {a : Aim} (h : aimLaw a.lit a) : aimLaw met (relight t met a) := by
  rw [relight_eq]
  split_ifs with same on
  · exact same ▸ h
  · subst on; exact ⟨rfl, fun _ => openHood_opens _ _, nofun⟩
  · obtain rfl : met = false := by simpa using on
    exact ⟨rfl, nofun, fun _ => ⟨rfl, closeHood_closes _ _⟩⟩

/-! ### The lit condition judged afresh -/

theorem judgeLit_aimInv {s : State} (h : selfLit s) : aimInv (judgeLit s) := by
  have condition : litCondition (judgeLit s) = litCondition s := by simp [litCondition, volumeOpened, held]
  unfold aimInv
  rw [← litCondition_eq, condition]
  exact ⟨relight_law _ _ (h .left), relight_law _ _ (h .right)⟩

/-- What the laws of the lamps speak of: the lit condition, the aim lamps, and the firing schedule. -/
def lighting (s : State) : Bool × Pair Aim × Schedule := (litCondition s, s.lamps.aims, scheduleOf s.lamps)

theorem aimInv_of_lit {s t : State} (condition : litCondition t = litCondition s)
    (aims : t.lamps.aims = s.lamps.aims) (hs : aimInv s) : aimInv t := by
  rw [aimInv_iff] at hs ⊢
  exact ⟨hs.1.of_aims aims, by rw [aims, condition]; exact hs.2⟩

theorem aimInv_of_lighting {s t : State} (h : lighting t = lighting s) (hs : aimInv s) : aimInv t := by
  simp only [lighting, Prod.mk.injEq] at h
  obtain ⟨condition, aims, -⟩ := h
  exact aimInv_of_lit condition aims hs

theorem lighting_judgeReady (s : State) : lighting (judgeReady s) = lighting s := by
  simp [lighting, litCondition, volumeOpened, held]

/-- Every event that ends with the lamps judged leaves them as their lit condition has them. -/
theorem judged_aimInv {s : State} (h : selfLit s) : aimInv (judgeReady (judgeLit s)) :=
  aimInv_of_lighting (lighting_judgeReady _) (judgeLit_aimInv h)

theorem wake_aimInv {s : State} (h : selfLit s) (c : WakeCause) : aimInv (wake s c) := by
  unfold wake
  exact judged_aimInv (h.of_aims (by simp))

theorem enterIdle_aimInv {s : State} (h : selfLit s) : aimInv (enterIdle s) := by
  unfold enterIdle
  exact judged_aimInv (h.of_aims (by simp))

theorem wakeIfIdle_selfLit {s : State} (h : selfLit s) (c : WakeCause) : selfLit (wakeIfIdle s c) := by
  rcases wakeIfIdle_cases c s with ⟨-, woken⟩ | ⟨-, active⟩
  · rw [woken]; exact (wake_aimInv h c).selfLit
  · rw [active]; exact h

/-! ### The settling -/

theorem enterArming_aims (s : State) (o : Order) :
    (enterArming s o).lamps.aims = (wakeIfIdle s (.arming o.tag)).lamps.aims := by
  unfold enterArming; dsimp only; split <;> simp

theorem advanceOnce_selfLit {s t : State} (hs : selfLit s) (h : advanceOnce s = some t) : selfLit t := by
  rcases advanceOnce_cases h with ⟨c, -, -, rfl⟩ | ⟨c, -, -, -, -, rfl⟩ | ⟨o, rest, -, -, -, -, rfl⟩ |
    ⟨o, rest, -, -, -, -, rfl⟩
  · exact hs.of_aims (by simp)
  · exact hs.of_aims (by simp)
  · exact hs.of_aims (by simp)
  · exact (wakeIfIdle_selfLit (s := { s with seq.orders := rest }) hs _).of_aims (enterArming_aims _ o)

theorem advance_selfLit (n : Nat) {s : State} (h : selfLit s) : selfLit (advance n s) := by
  induction n generalizing s with
  | zero => exact h
  | succ n ih =>
    unfold advance
    split
    · exact h
    · rename_i step; exact ih (advanceOnce_selfLit h step)

/-- A settled state has its aim lamps as their lit condition has them (R86). -/
theorem settle_aimInv {s : State} (h : selfLit s) : aimInv (settle s) :=
  judged_aimInv ((advance_selfLit (advanceFuel s) h).of_aims (by simp))

/-! ### Edges and lines -/

theorem keyShoot_selfLit {s : State} (h : selfLit s) : selfLit (keyShoot s) := by
  unfold keyShoot
  dsimp only
  split
  · exact h.of_aims (by simp)
  · exact (settle_aimInv (h.of_aims (by simp))).selfLit

theorem keyTurn_selfLit {s : State} (h : selfLit s) (k : Fn) (d : Direction) : selfLit (keyTurn s k d) := by
  unfold keyTurn
  dsimp only
  split
  · exact h.of_aims (by simp)
  · exact (settle_aimInv (h.of_aims (by simp))).selfLit

theorem handEdge_selfLit {s : State} (h : selfLit s) (f : Fn) (t : Nat) : selfLit (handEdge s f t) := by
  unfold handEdge
  split
  case h_7 => split; exacts [h, keyShoot_selfLit h]
  case h_8 => split; exacts [h, keyTurn_selfLit h _ _]
  case h_9 => split; exacts [h, keyTurn_selfLit h _ _]
  all_goals exact h.of_aims (by simp)

theorem handLine_selfLit {s : State} (h : selfLit s) (i : Nat) (a : Bool) (t : Nat) : selfLit (handLine s i a t) := by
  unfold handLine
  split
  · exact h
  · split
    · exact handEdge_selfLit h _ t
    · exact h

theorem acceptEdge_aimInv {s : State} (h : selfLit s) (i : Nat) (high : Bool) (t : Nat) :
    aimInv (acceptEdge s i high t) := by
  unfold acceptEdge
  extract_lets l s1 s2 s3
  have h2 : selfLit s2 := h.of_aims (by unfold s2; split <;> simp [s1])
  have h3 : selfLit s3 := by
    unfold s3; split
    · exact wakeIfIdle_selfLit h2 _
    · exact h2
  exact settle_aimInv ((handLine_selfLit h3 i (activeEdge l high) t).of_aims (by simp))

theorem configureLine_aimInv {s : State} (h : selfLit s) (i : Nat) (c : LineSettings) :
    aimInv (configureLine s i c) := by
  unfold configureLine
  extract_lets l s1 s2 s3 s4 s5
  have h2 : s2.lamps.aims = s.lamps.aims := by unfold s2; split <;> simp [s1]
  have h4 : selfLit s4 := h.of_aims (by unfold s4; split <;> simp [s3, h2])
  have h5 : selfLit s5 := by
    unfold s5
    split
    · exact h4
    · split
      · exact h4
      · exact (acceptEdge_aimInv h4 _ _ _).selfLit
  exact settle_aimInv (h5.of_aims (by simp))

/-! ### The aim tick -/

/-- A lamp that is asked for nothing is left dark by every pass: no constraint blames it, as it gives no light (R105, R107). -/
theorem aimPass_dark {s : State} {pass : State → Pair Nat → Side → Nat} {lamp : Side}
    (dark : ∀ v : Pair Nat, v.get lamp = 0 → pass s v lamp = 0) (x : Pair Nat × Pair (Option Constraint))
    (h : x.1.get lamp = 0) : (aimPass s pass x).1.get lamp = 0 := by
  rw [aimPass_get]
  exact dark _ h

theorem blamed_dark (s : State) {v : Pair Nat} {lamp : Side} (h : v.get lamp = 0) : blamed s v lamp = none := by
  simp [blamed, contributesAny, contributes, aimCredit_dark s h]

theorem chooseLevels_asked (s : State) {v : Pair Nat} {lamp : Side} (h : v.get lamp = 0) :
    (chooseLevels s v).1.get lamp = 0 := by
  have guard : ∀ v : Pair Nat, v.get lamp = 0 → passGuard s v lamp = 0 := fun v hv => by
    simp [passGuard, blamed_dark s hv, hv]
  have own : ∀ v : Pair Nat, v.get lamp = 0 → passOwn s v lamp = 0 := fun v hv => by simp [passOwn, hv]
  have spill : ∀ v : Pair Nat, v.get lamp = 0 → passSpill s v lamp = 0 := fun v hv => by simp [passSpill, hv]
  have guarded := aimPass_dark guard (v, ⟨none, none⟩) h
  have owned := aimPass_dark own _ guarded
  unfold chooseLevels
  dsimp only
  split_ifs
  · exact h
  · exact guarded
  · exact owned
  · exact aimPass_dark spill _ owned

/-- An aim tick applies no level to a lamp that is not lit (R86, R103). -/
theorem tickLevels_dark {s : State} {sd : Side} (h : (s.lamps.aims.get sd).lit = false) : (tickLevels s).get sd = 0 := by
  refine chooseLevels_asked s ?_
  have unlit : evaluated s sd = false := by simp [evaluated, h]
  cases sd <;> simp [Pair.get, unlit]

theorem aims_aimTickStart (s : State) (sd : Side) : (aimTickStart s).lamps.aims.get sd =
    { s.lamps.aims.get sd with applied := (tickLevels s).get sd } := by
  cases sd <;> simp [aimTickStart, tickLevels, Pair.get]

theorem aimTickStart_aimInv {s : State} (h : aimInv s) : aimInv (aimTickStart s) := by
  have known : (aimTickStart s).volume.known = s.volume.known := by
    simp [aimTickStart, creditLeaf]
  have idle : (aimTickStart s).time.idle = s.time.idle := by simp
  rw [aimInv_iff] at h ⊢
  obtain ⟨law, lit⟩ := h
  refine ⟨fun sd => ?_, fun sd => ?_⟩
  · rw [aims_aimTickStart]
    obtain ⟨-, opens, dark⟩ := law sd
    exact ⟨rfl, opens, fun unlit => ⟨tickLevels_dark unlit, (dark unlit).2⟩⟩
  · rw [aims_aimTickStart]
    simpa [litCondition, volumeOpened, held, known] using lit sd

/-! ### The resets -/

theorem resetAim_law (t : Nat) (a : Aim) : aimLaw (resetAim t a).lit (resetAim t a) :=
  ⟨rfl, nofun, fun _ => ⟨rfl, closeHood_closes _ _⟩⟩

theorem softReset_aimInv (s : State) : aimInv (softReset s) := by
  have reset : selfLit { s with lamps := resetLamps (now s) s.lamps } := fun sd => by
    cases sd <;> exact resetAim_law _ _
  have events : ∀ u : State, (resetEvents u).lamps.aims = u.lamps.aims := fun u => by
    unfold resetEvents
    exact foldl_keeps (fun v : State => v.lamps.aims) _ (fun v i => by simp) _ u
  exact judged_aimInv (reset.of_aims (by simp [events, resetBlocks]))

/-- After power-on no volume is OPEN, and the lamps are dark behind CLOSED hoods (R1, R89). -/
theorem powerOn_aimInv (s : State) : aimInv (powerOn s) := by
  have lamps : (powerOn s).lamps.aims = powerOnLamps.aims := by simp [powerOn]; rfl
  have empty : (powerOn s).volume.state = .empty := by simp [powerOn]; rfl
  rw [aimInv_iff]
  refine ⟨fun sd => ?_, fun sd => ?_⟩
  · rw [lamps]; cases sd <;> exact ⟨rfl, nofun, fun _ => ⟨rfl, .inr rfl⟩⟩
  · rw [lamps, litCondition, volumeOpened, empty]
    cases sd <;> rfl

end Sys2Proof.Machine
end

