-- ==== Sys2Proof/Proofs/LampsJudged.lean ====
section
/-! The aim lamps and the firing schedule under every command, and the step lemmas of R74 and R86. -/
namespace Sys2Proof.Machine

/-- The aim lamps of `t` follow their lit condition where those of `s` do (R86), and its firings keep their spacing where
those of `s` do (R74). -/
structure Judged (s t : State) : Prop where
  follow : aimInv s → aimInv t
  spacing : SpacingOk (scheduleOf s.lamps) → SpacingOk (scheduleOf t.lamps)

namespace Judged
variable {s t u : State}

theorem refl (s : State) : Judged s s := ⟨id, id⟩

theorem trans (h : Judged s t) (g : Judged t u) : Judged s u := ⟨g.follow ∘ h.follow, g.spacing ∘ h.spacing⟩

/-- An event that leaves the lit condition and the lamps, and takes grants out of the schedule at most. -/
theorem of_thinned (condition : litCondition t = litCondition s) (aims : t.lamps.aims = s.lamps.aims)
    (schedule : Thinned (scheduleOf s.lamps) (scheduleOf t.lamps)) : Judged s t :=
  ⟨aimInv_of_lit condition aims, schedule.ok⟩

theorem of_eq (h : lighting t = lighting s) : Judged s t := by
  simp only [lighting, Prod.mk.injEq] at h
  obtain ⟨condition, aims, schedule⟩ := h
  exact .of_thinned condition aims (.of_eq schedule)

theorem then_eq (h : Judged s t) (g : lighting u = lighting t) : Judged s u := h.trans (.of_eq g)

/-- An event that touches no aim lamp, takes grants out of the schedule at most, and settles. -/
theorem thinned (aims : t.lamps.aims = s.lamps.aims) (schedule : Thinned (scheduleOf s.lamps) (scheduleOf t.lamps)) :
    Judged s (settle t) :=
  ⟨fun hs => settle_aimInv (hs.selfLit.of_aims aims), fun hs => by simpa using schedule.ok hs⟩

/-- An event that touches no aim lamp and no firing, and settles. -/
theorem settled (h : t.lamps.aims = s.lamps.aims ∧ scheduleOf t.lamps = scheduleOf s.lamps) : Judged s (settle t) :=
  .thinned h.1 (.of_eq h.2)

/-- An event upon which the platen and the turn go on. -/
theorem moved (h : t.lamps.aims = s.lamps.aims ∧ scheduleOf t.lamps = scheduleOf s.lamps) :
    Judged s (settle (runMotion t)) := .settled (by simp [h])

/-- An event that raises a fault. -/
theorem fault (h : t.lamps.aims = s.lamps.aims ∧ scheduleOf t.lamps = scheduleOf s.lamps) (k : FaultKind)
    (bk : Option Bank) : Judged s (settle (raiseFault t k bk)) := .settled (by simp [h])

theorem woken (s : State) (c : WakeCause) : Judged s (wakeIfIdle s c) := by
  refine ⟨fun hs => ?_, fun hs => by simpa using hs⟩
  rcases wakeIfIdle_cases c s with ⟨-, idle⟩ | ⟨-, active⟩
  · rw [idle]; exact wake_aimInv hs.selfLit c
  · rw [active]; exact hs

/-- A decision refused at a check that fails does nothing; where the check passes, the rest decides. -/
theorem ite {p : Prop} [Decidable p] {x y : Decision} (refused : Judged s x.1) (rest : ¬p → Judged s y.1) :
    Judged s (if p then x else y).1 := by
  split
  · exact refused
  · exact rest ‹_›

/-- What a guarded event does, its guard met or not. -/
theorem guarded {p : Prop} [Decidable p] (h : p → Judged s t) : Judged s (if p then t else s) := by
  split
  · exact h ‹_›
  · exact refl s

/-- The same operation on every bank. -/
theorem forBanks {f : State → Bank → State} (h : ∀ u bk, Judged u (f u bk)) (s : State) :
    Judged s (Machine.forBanks f s) := (h s .a).trans ((h _ .b).trans ((h _ .c).trans (h _ .d)))

/-- The event of a running turn whose timer has expired. -/
theorem expired {f : Turn → State} (h : ∀ t, Judged s (f t)) :
    Judged s (match expiredTurn s with
      | none => s
      | some t => f t) := by
  split
  · exact refl s
  · exact h _

end Judged

/-! ### What leaves the lit condition and the lamps as they were -/

theorem lighting_restartIdle (s : State) : lighting (restartIdle s) = lighting s := by
  simp [lighting, litCondition, volumeOpened, held]

theorem lighting_driveFn (s : State) (f : Fn) (v : Bool) : lighting (driveFn s f v) = lighting s := by
  simp [lighting, litCondition, volumeOpened, held]

theorem lighting_clearLine (s : State) (i : Nat) : lighting (clearLine s i) = lighting s := by
  simp [lighting, litCondition, volumeOpened, held]

/-! ### The requests -/

theorem serve_judged {owner : State → Decision} (h : ∀ u, Judged u (owner u).1) (kind tag : Byte) (s : State) :
    Judged s (serve kind tag owner s) :=
  (((Judged.woken s (.request kind)).then_eq (lighting_restartIdle _)).trans (h _)).then_eq rfl

/-- A request that touches neither the lit condition nor an aim lamp nor a firing. -/
theorem serve_judged_of_eq {owner : State → Decision} (h : ∀ u, lighting (owner u).1 = lighting u) (kind tag : Byte)
    (s : State) : Judged s (serve kind tag owner s) := serve_judged (fun u => .of_eq (h u)) kind tag s

theorem observe_judged {owner : State → Decision} (h : ∀ u, lighting (owner u).1 = lighting u) (kind tag : Byte)
    (s : State) : Judged s (observe kind tag owner s) := .of_eq (h s)

theorem lighting_decideFetch (s : State) : lighting (decideFetch s).1 = lighting s := by
  have offered : ∀ u, lighting (reofferFirst u) = lighting u := fun u => by
    unfold reofferFirst
    split
    · rfl
    · split <;> simp [lighting, litCondition, volumeOpened, held]
  exact (offered _).trans ((lighting_driveFn _ _ _).trans rfl)

theorem lighting_decideLinkSet (e t c : Nat) (s : State) : lighting (decideLinkSet e t c s).1 = lighting s := by
  unfold decideLinkSet
  dsimp only
  split_ifs
  · rfl
  · rfl
  · rfl
  all_goals simp [accept, lighting, litCondition, volumeOpened, held]

theorem lighting_decideIdleSet (n : Nat) (s : State) : lighting (decideIdleSet n s).1 = lighting s :=
  lighting_restartIdle { s with time.idleSetting := idleValue n }

theorem decideSafe_judged (s : State) : Judged s (decideSafe s).1 :=
  .fault (by simp) .operator none

theorem decideClearSafe_judged (s : State) : Judged s (decideClearSafe s).1 := by
  unfold decideClearSafe
  exact .ite (.refl s) fun _ => .ite (.refl s) fun _ => .ite (.refl s) fun _ => .settled (by split <;> simp)

/-- A volume loaded is not OPEN, as none was that its load replaces (R2). -/
theorem lighting_decideVolumeLoad (mark : Text) (part leaves thickness leafCeiling volumeCeiling limit reserve : Nat)
    (s : State) :
    lighting (decideVolumeLoad mark part leaves thickness leafCeiling volumeCeiling limit reserve s).1 = lighting s := by
  unfold decideVolumeLoad
  split_ifs with opened
  case neg => simp [accept, lighting, litCondition, opened]; simp [volumeOpened, loadedVolume]
  all_goals rfl

theorem decideVolumeOpen_judged (k : Nat) (s : State) : Judged s (decideVolumeOpen k s).1 := by
  unfold decideVolumeOpen
  refine .ite (.refl s) fun _ => .ite (.refl s) fun _ => .ite (.refl s) fun _ => .ite (.refl s) fun _ => ?_
  split
  · exact .refl s
  · exact .settled (by simp)

theorem lighting_decideVolumeSet (lc vc limit reserve thickness : Option Nat) (s : State) :
    lighting (decideVolumeSet lc vc limit reserve thickness s).1 = lighting s := by
  unfold decideVolumeSet
  split
  · rfl
  · split
    · rfl
    · split <;> rfl

theorem decideVolumeClose_judged (force : Bool) (s : State) : Judged s (decideVolumeClose force s).1 := by
  unfold decideVolumeClose
  exact .ite (.refl s) fun _ => .ite (.refl s) fun _ => .ite (.refl s) fun _ => .ite (.refl s) fun _ =>
    .ite (.refl s) fun _ => .settled (by simp)

/-- A volume discarded was not OPEN (R17). -/
theorem lighting_decideVolumeDiscard (s : State) : lighting (decideVolumeDiscard s).1 = lighting s := by
  unfold decideVolumeDiscard
  split
  · rfl
  · rfl
  · rename_i opened _
    have closed : decide (s.volume.state = .opened) = false := decide_eq_false opened
    simp [accept, lighting, litCondition, volumeOpened, emptyVolume, closed]

theorem decideReseat_judged (k : Nat) (leaf : Option Nat) (s : State) : Judged s (decideReseat k leaf s).1 := by
  have manual : ∀ u, (countManual u leaf).lamps = u.lamps := fun u => by cases leaf <;> rfl
  unfold decideReseat
  refine .ite (.refl s) fun _ => .ite (.refl s) fun _ => .ite (.refl s) fun _ => ?_
  split
  · exact .refl s
  · refine .settled ?_
    dsimp only
    (repeat' split) <;> simp [manual]

/-- A lowering starts under a RAISED platen, and leaves it short of DOWN (R44, R45). -/
theorem lighting_decideLower (s : State) : lighting (decideLower s).1 = lighting s := by
  unfold decideLower
  split
  · rfl
  · rename_i passed
    obtain ⟨-, platen⟩ := lowerCheck_none passed
    unfold startLowering
    split <;> simp [accept, lighting, litCondition, volumeOpened, held, platen]

theorem decideRaise_judged (s : State) : Judged s (decideRaise s).1 := by
  unfold decideRaise
  split
  · exact .refl s
  · split
    · exact .refl s
    · exact .refl s
    · exact .settled (by simp)

theorem decideTurn_judged (d : Direction) (o : Bool) (s : State) : Judged s (decideTurn d o s).1 := by
  unfold decideTurn
  split
  · exact .refl s
  · exact .settled (by simp)

theorem decideTurnResume_judged (s : State) : Judged s (decideTurnResume s).1 := by
  unfold decideTurnResume
  split
  · exact .refl s
  · split
    · exact .refl s
    · exact .settled (by simp)

theorem decideTurnAbandon_judged (s : State) : Judged s (decideTurnAbandon s).1 := by
  unfold decideTurnAbandon
  split
  · exact .refl s
  · exact .settled (by simp)

/-- BANK_POWER takes grants out of the schedule at most: those of conditioning flashes of banks in OFF (R71, R73). -/
theorem decideBankPower_judged (mask : Quad Bool) (command : Option Bool) (s : State) :
    Judged s (decideBankPower mask command s).1 := by
  have power : ∀ on u bk, Judged u (powerBank on mask u bk) := fun on u bk => by
    refine .of_thinned ?_ ?_ (powerBank_thinned on mask u bk)
    all_goals unfold powerBank; split_ifs <;> simp [litCondition, volumeOpened, held]
  unfold decideBankPower
  split
  · exact .refl s
  · exact .ite (.refl s) fun _ => .ite (.refl s) fun _ => .forBanks (power _) s

theorem decideBankSet_judged (mask : Quad Bool) (recharge : Nat) (s : State) :
    Judged s (decideBankSet mask recharge s).1 := by
  refine .thinned (foldl_keeps (fun u : State => u.lamps.aims) _ (fun u bk => ?_) _ s)
    (forBanks_thinned (setRecharge_thinned _ _) s)
  unfold setRecharge
  dsimp only
  split_ifs <;> simp

/-- AIM_SET leaves whether a lamp is lit, and with which hood (R85). -/
theorem setAim_law {met : Bool} (masked : Bool) (requested guard : Option Nat) {a : Aim} (h : aimLaw met a) :
    aimLaw met (setAim masked requested guard a) := by
  unfold setAim
  split
  · exact h
  · exact h

theorem decideAimSet_judged (mask : Pair Bool) (requested guard : Option Nat) (s : State) :
    Judged s (decideAimSet mask requested guard s).1 :=
  ⟨fun hs => ⟨setAim_law mask.l requested guard hs.1, setAim_law mask.r requested guard hs.2⟩, id⟩

theorem lighting_decideRecipeSet (recipe : Nat) (levels : Quad Nat) (duration : Nat) (s : State) :
    lighting (decideRecipeSet recipe levels duration s).1 = lighting s := by
  unfold decideRecipeSet
  split_ifs <;> rfl

theorem lighting_decideLampCal (source : Option Source) (points : List Nat) (spill : Nat) (s : State) :
    lighting (decideLampCal source points spill s).1 = lighting s := by
  have set : ∀ x c, lighting (setCal s x c) = lighting s := fun x c => by cases x <;> rfl
  unfold decideLampCal
  split
  · rfl
  · split
    · rfl
    · split
      · rfl
      · split
        · rfl
        · exact set _ _

theorem decideShoot_judged (t : Nat) (x : Option Sides) (r : Nat) (p : Option Purpose) (n : Option Nat) (s : State) :
    Judged s (decideShoot t x r p n s).1 := by
  unfold decideShoot
  split
  · exact .refl s
  · dsimp only
    split
    · exact .refl s
    · exact .refl s
    · exact .settled (by simp)

theorem decideLineConfig_judged (line : Nat) (dir : Option LineDir) (pull : Option Pull) (drive : Option Drive)
    (sense : Option Sense) (polarity : Option Polarity) (both : Bool) (debounce : Nat) (event wake hold : Bool)
    (s : State) :
    Judged s (decideLineConfig line dir pull drive sense polarity both debounce event wake hold s).1 := by
  unfold decideLineConfig
  refine .ite (.refl s) fun _ => ?_
  split
  · exact .refl s
  · exact .ite (.refl s) fun _ => .ite (.refl s) fun _ =>
    ⟨fun hs => configureLine_aimInv hs.selfLit line _, fun hs => configureLine_spacing hs line _⟩

theorem rebind_judged (s : State) (f : Fn) (l : Option Nat) : Judged s (rebind s f l) := by
  unfold rebind
  split
  · exact .settled (by simp)
  · split
    · exact .refl s
    · exact .settled (by simp)

theorem decideLineBind_judged (f : Option Fn) (line : Option Nat) (s : State) : Judged s (decideLineBind f line s).1 := by
  unfold decideLineBind
  split
  · exact .refl s
  · split
    · exact rebind_judged s _ none
    · refine .ite (.refl s) fun _ => ?_
      split
      · exact .refl s
      · exact rebind_judged s _ (some _)

theorem lighting_decideLineClear (mask : LineMask) (s : State) : lighting (decideLineClear mask s).1 = lighting s := by
  show lighting ((maskedLines mask).foldl clearLine s) = lighting s
  exact foldl_keeps lighting clearLine lighting_clearLine _ s

/-! ### The events -/

theorem acceptDue_judged (s : State) (i : Nat) : Judged s (acceptDue s i) := by
  rcases acceptDue_cases i s with ⟨-, h⟩ | ⟨high, t, -, h⟩ <;> rw [h]
  · exact .refl s
  · exact ⟨fun hs => acceptEdge_aimInv hs.selfLit i high t, fun hs => acceptEdge_spacing hs i high t⟩

theorem softReset_judged (s : State) : Judged s (softReset s) :=
  ⟨fun _ => softReset_aimInv s, (softReset_thinned s).ok⟩

theorem replySent_judged (s : State) : ∀ t, execReplySent s = .next t → Judged s t := by
  rintro t h
  cases h
  split
  · exact .refl s
  · split
    · exact softReset_judged s
    · exact .of_eq (by simp [lighting, litCondition, volumeOpened, held])

/-- The dwell timer expires: its raise starts at once, or waits under a platen that stays DOWN (R48). -/
theorem expireDwell_judged (s : State) (d : Dwell) : Judged s (expireDwell s d) := by
  unfold expireDwell
  dsimp only
  split
  · exact .settled (by simp)
  all_goals exact .of_eq (by simp [lighting, litCondition, volumeOpened, held])

theorem failGrip_judged (s : State) (t : Turn) : Judged s (failGrip s t) := by
  unfold failGrip
  split
  · exact .settled (by simp)
  · exact .of_eq (by simp [startRegrip, suctionOff, lighting, litCondition, volumeOpened, held])

theorem endTravel_law {met : Bool} {a : Aim} (h : aimLaw met a) : aimLaw met { a with hood := endTravel a.hood } := by
  obtain ⟨lit, opens, dark⟩ := h
  refine ⟨lit, fun on => ?_, fun off => ⟨(dark off).1, ?_⟩⟩
  · rcases opens on with hs | hs <;> simp [endTravel, hs]
  · rcases (dark off).2 with hs | hs <;> simp [endTravel, hs]

/-- A hood that ends its travel ends it where its lamp's light wants it (R82, R86). -/
theorem hoodTravelEnd_judged (hood : HoodId) (s : State) : ∀ t, execHoodTravelEnd hood s = .next t → Judged s t := by
  rintro t h
  cases h
  refine .guarded fun _ => ⟨fun hs => settle_aimInv ?_, fun hs => ?spacing⟩
  case spacing =>
    cases hood with
    | bank bk => simpa [setHood] using hs
    | aim sd => rw [scheduleOf_settle]; exact hs
  have law := hs.selfLit
  cases hood with
  | bank bk => exact law.of_aims (by simp [setHood])
  | aim sd =>
    intro x
    show aimLaw ((s.lamps.aims.set sd _).get x).lit ((s.lamps.aims.set sd _).get x)
    by_cases same : x = sd
    · subst same
      rw [pair_get_set]
      exact endTravel_law (law x)
    · rw [pair_get_set_ne _ same]
      exact law x

theorem grantOf_dueGrant {s : State} {bk : Bank} {capture : Bool} {g : Grant} (h : dueGrant s bk capture = some g) :
    grantOf s bk = some g := (Option.filter_eq_some_iff.mp h).1

theorem captureFiring_judged {s : State} {bk : Bank} {g : Grant} (h : dueGrant s bk true = some g) :
    Judged s (captureFiring s bk g) := by
  refine ⟨fun hs => settle_aimInv (hs.selfLit.of_aims ?_), (captureFiring_thinned (grantOf_dueGrant h)).ok⟩
  dsimp only
  split <;> simp

theorem conditioningFlash_judged {s : State} {bk : Bank} {g : Grant} (h : dueGrant s bk false = some g) :
    Judged s (conditioningFlash s bk g) := by
  have frame : litCondition (conditioningFlash s bk g) = litCondition s
      ∧ (conditioningFlash s bk g).lamps.aims = s.lamps.aims := by
    unfold conditioningFlash
    dsimp only
    split <;> exact ⟨rfl, rfl⟩
  exact .of_thinned frame.1 frame.2 (conditioningFlash_thinned (grantOf_dueGrant h))

/-- A conditioning flash that falls due is granted a time that keeps the spacing (R73, R74). -/
theorem conditioningFlashDue_judged (s : State) (bk : Bank) :
    Judged s (askFiring s bk (now s) conditioningLevel conditioningDuration none) :=
  ⟨aimInv_of_lit (by rfl) (by rfl), fun hs => askFiring_spacing hs bk _ _ _ _⟩

theorem endAir_judged (s : State) (t : Turn) : Judged s (endAir s t) := .moved (by dsimp only; split <;> simp)

theorem returnReady_judged (s : State) (bk : Bank) : Judged s (settle (returnReady s bk)) :=
  .thinned (by simp) (returnReady_thinned s bk)

theorem endWaking_judged (s : State) (bk : Bank) : Judged s (endWaking s bk) := .settled (by split <;> simp)

theorem conditioned_judged (s : State) (bk : Bank) :
    Judged s (settle (enterReady (modifyBank s bk fun r => { r with conditioned := true }) bk (some .conditioned))) :=
  .settled (by simp)

theorem failCharge_judged (s : State) (bk : Bank) : Judged s (failCharge s bk) := .fault (by simp) _ _

theorem tick1ms_judged (s : State) (n : Nat) :
    Judged s (settle (runMotion (takeReading (periodBoundary { s with time := countMs s.time }) n))) := .moved (by simp)

theorem byteReceived_judged (s : State) (b : Byte) (badStop : Bool) :
    Judged s (takeByte (if gapPassed s then dropFrame s else s) b badStop) :=
  .of_eq (by split <;> simp [lighting, litCondition, volumeOpened, held])

theorem endCharge_judged (s : State) (bk : Bank) : Judged s (endCharge s bk) :=
  .of_thinned (by simp [litCondition, volumeOpened, held]) (by simp) (endCharge_thinned s bk)

theorem lighting_topUp (s : State) (bk : Bank) : lighting (topUp s bk) = lighting s := by
  simp [lighting, litCondition, volumeOpened, held]

theorem enterIdle_judged (s : State) : Judged s (enterIdle s) :=
  ⟨fun hs => enterIdle_aimInv hs.selfLit, (enterIdle_thinned s).ok⟩

theorem aimTickStart_judged (s : State) : Judged s (aimTickStart s) :=
  ⟨aimTickStart_aimInv, by simp [aimTickStart]; exact id⟩

/-! ### Every command -/

/-- Every command leaves the aim lamps as their lit condition has them. -/
theorem exec_judged (c : Instr) (s : State) : ∃ t, exec c s = .next t ∧ Judged s t := by
  cases c <;> refine ⟨_, rfl, ?_⟩
  case powerOnReset => exact ⟨fun _ => powerOn_aimInv s, fun _ => powerOn_spacing s⟩
  case softReset => exact softReset_judged s
  case byteReceived => exact byteReceived_judged s _ _
  case gapError => exact .guarded fun _ => .of_eq (by rfl)
  case conditioningFlashDue => exact .guarded fun _ => conditioningFlashDue_judged s _
  case replySent => exact replySent_judged s _ rfl
  case fetch => exact observe_judged lighting_decideFetch ..
  case linkSet => exact serve_judged_of_eq (lighting_decideLinkSet _ _ _) ..
  case safe => exact serve_judged decideSafe_judged ..
  case clearSafe => exact serve_judged decideClearSafe_judged ..
  case idleSet => exact serve_judged_of_eq (lighting_decideIdleSet _) ..
  case volumeLoad => exact serve_judged_of_eq (lighting_decideVolumeLoad _ _ _ _ _ _ _ _) ..
  case volumeOpen => exact serve_judged (decideVolumeOpen_judged _) ..
  case volumeSet => exact serve_judged_of_eq (lighting_decideVolumeSet _ _ _ _ _) ..
  case volumeClose => exact serve_judged (decideVolumeClose_judged _) ..
  case volumeDiscard => exact serve_judged_of_eq lighting_decideVolumeDiscard ..
  case reseat => exact serve_judged (decideReseat_judged _ _) ..
  case leafMark =>
    refine serve_judged_of_eq (fun u => ?_) ..
    unfold decideLeafMark
    split
    · rfl
    · split
      · rfl
      · split <;> rfl
  case leafQuery => exact serve_judged_of_eq (fun u => by unfold decideLeafQuery; split_ifs <;> rfl) ..
  case gapsQuery => exact serve_judged_of_eq (fun u => by unfold decideGapsQuery; split_ifs <;> rfl) ..
  case planSet =>
    refine serve_judged_of_eq (fun u => ?_) ..
    unfold decidePlanSet
    repeat' split
    all_goals rfl
  case planQuery => exact serve_judged_of_eq (fun u => by unfold decidePlanQuery; split_ifs <;> rfl) ..
  case lower => exact serve_judged_of_eq lighting_decideLower ..
  case raise => exact serve_judged decideRaise_judged ..
  case turn | turnBack => exact serve_judged (decideTurn_judged _ _) ..
  case turnResume => exact serve_judged decideTurnResume_judged ..
  case turnAbandon => exact serve_judged decideTurnAbandon_judged ..
  case motionSet | cameraSet | lineWrite | lineCounts | reset | volumeQuery | doseQuery | lineRead =>
    exact serve_judged_of_eq (fun _ => by rfl) ..
  case bankPower => exact serve_judged (decideBankPower_judged _ _) ..
  case bankSet => exact serve_judged (decideBankSet_judged _ _) ..
  case aimSet => exact serve_judged (decideAimSet_judged _ _ _) ..
  case recipeSet => exact serve_judged_of_eq (lighting_decideRecipeSet _ _ _) ..
  case recipeQuery => exact serve_judged_of_eq (fun u => by unfold decideRecipeQuery; split_ifs <;> rfl) ..
  case lampCal => exact serve_judged_of_eq (lighting_decideLampCal _ _ _) ..
  case calQuery => exact serve_judged_of_eq (fun u => by unfold decideCalQuery; split <;> rfl) ..
  case shoot => exact serve_judged (decideShoot_judged _ _ _ _ _) ..
  case lineConfig => exact serve_judged (decideLineConfig_judged _ _ _ _ _ _ _ _ _ _ _) ..
  case lineQuery => exact serve_judged_of_eq (fun u => by unfold decideLineQuery; split_ifs <;> rfl) ..
  case lineClear => exact serve_judged_of_eq (lighting_decideLineClear _) ..
  case lineBind => exact serve_judged (decideLineBind_judged _ _) ..
  case pinLevelChange line high =>
    have driven : lighting (drivePin (acceptDue s line) line high) = lighting (acceptDue s line) := rfl
    exact ((acceptDue_judged s line).then_eq driven).trans (acceptDue_judged _ line)
  case acceptedEdge => exact acceptDue_judged s _
  case chargeGood =>
    split
    · exact .trans (.of_eq (by rfl)) (endCharge_judged _ _)
    · exact .of_eq (by rfl)
  case tick1ms => exact .guarded fun _ => tick1ms_judged s _
  case linkSilent | loweringTimeout | pressingTimeout | raiseTimeout | plateTimeout =>
    exact .guarded fun _ => .fault (by simp) _ _
  case aimTick => exact .guarded fun _ => .trans (.of_eq (by rfl)) (aimTickStart_judged _)
  case idleTimerExpiry =>
    refine .guarded fun _ => ?_
    split
    · exact .of_eq (lighting_restartIdle s)
    · exact enterIdle_judged s
  case dwellExpiry =>
    split
    · exact .refl s
    · exact .guarded fun _ => expireDwell_judged s _
  case platesAtTarget => exact .guarded fun _ => .moved (by simp)
  case airTimeEnd => exact .expired fun t => .guarded fun _ => endAir_judged s t
  case armTimeout | releaseTimeout | verifyTimeout => exact .expired fun t => .guarded fun _ => .fault (by simp) _ _
  case gripTimeout => exact .expired fun t => .guarded fun _ => failGrip_judged s t
  case bankChargeTimeout => exact .guarded fun _ => failCharge_judged s _
  case conditioningFlash =>
    split
    · exact .refl s
    · exact conditioningFlash_judged ‹_›
  case conditioningComplete => exact .guarded fun _ => conditioned_judged s _
  case captureFiring =>
    split
    · exact .refl s
    · exact captureFiring_judged ‹_›
  case flashEnd | notBeforeTime | syncWindowClose | storedTimeout => exact .guarded fun _ => .settled (by simp)
  case recoveryEnd | topUpEnd => exact .guarded fun _ => returnReady_judged s _
  case topUpStart => exact .of_eq (lighting_topUp s _)
  case wakingEnd => exact .guarded fun _ => endWaking_judged s _
  case hoodTravelEnd => exact hoodTravelEnd_judged _ s _ rfl
  case armingTimeout =>
    split
    · exact .refl s
    · exact .settled (by simp)
  case triggerPulseEnd => exact .guarded fun _ => .of_eq ((lighting_driveFn _ _ _).trans rfl)
  case ident | status | time | motionQuery | lampQuery | captureQuery => exact observe_judged (fun _ => by rfl) ..

theorem step_judged {s t : State} (h : step s = .next t) : Judged s t := by
  unfold step at h
  split at h
  · cases h
    unfold idleStep passMicrosecond
    split
    · split <;> exact .of_eq (by rfl)
    · exact .of_eq (by rfl)
  · rename_i c rest _
    obtain ⟨u, hu, judged⟩ := exec_judged c { s with pending := rest }
    obtain rfl := Host.Outcome.next.inj (hu.symm.trans h)
    exact .trans (t := { s with pending := rest }) (.of_eq (by rfl)) judged

end Sys2Proof.Machine

namespace Sys2Proof
open Machine

/-- Settles O14: the aim lamps are judged afresh by every event that can change their lit condition, and every other event leaves
the condition and the lamps as they were, but for the levels of lit lamps and the travel of the hoods. -/
theorem aimLampsAreLitInTheirConditionAlone : Obligations.AimLampsAreLitInTheirConditionAlone := by
  intro s t hs h
  exact (step_judged h).follow hs

/-- Settles O15: a firing is granted a time that follows every firing of another bank by 1,500 µs, and every other event makes,
withdraws or drops granted firings, or leaves them as they were. -/
theorem firingsOfTwoBanksKeepTheirSpacing : Obligations.FiringsOfTwoBanksKeepTheirSpacing := by
  intro s t hs h
  exact (spacingInv_iff t).mpr ((step_judged h).spacing ((spacingInv_iff s).mp hs))

end Sys2Proof
end

