-- ==== Sys2Proof/Proofs/BankStates.lean ====
section
/-! The states that a bank enters, its timers and its grants; conditioning flashes and the end of WAKING (R73, R74, R79). -/
namespace Sys2Proof.Machine

/-! ### The states a bank enters, with the records of the statements -/

theorem enterReady_reported (s : State) (bk : Bank) (c : BankCause) : enterReady s bk (some c) = offerMinor
    (setBank s bk (readied s.time.clock (getBank s bk)))
    (.bankState bk (getBank s bk).state .ready s.time.clock c) := rfl

theorem enterConditioning_eq (s : State) (bk : Bank) (c : BankCause) : enterConditioning s bk c = offerMinor
    (setBank s bk (reconditioned s.time.clock (getBank s bk)))
    (.bankState bk (getBank s bk).state .conditioning s.time.clock c) := rfl

theorem enterStandby_eq (s : State) (bk : Bank) (c : BankCause) : enterStandby s bk c = offerMinor
    (setBank (dropConditioning s bk) bk (stoodBy s.time.clock (getBank s bk)))
    (.bankState bk (getBank s bk).state .standby s.time.clock c) := rfl

/-- The end of a recovery or a top-up goes by the power state at that end (log 22). -/
theorem returnReady_eq (s : State) (bk : Bank) : returnReady s bk = rested s bk := by
  unfold returnReady rested
  split <;> rfl

theorem setBank_setBank (s : State) (bk : Bank) (r r' : BankRec) : setBank (setBank s bk r) bk r' = setBank s bk r' := by
  cases bk <;> rfl

/-! ### Timers and grants -/

theorem reached_some {s : State} {d : Nat} {x : Option Nat} (h : x = some d) (due : d ≤ s.time.clock) :
    reached s x = true := by
  subst h
  exact decide_eq_true due

theorem bankExpired_of {s : State} {bk : Bank} {st : BankState} {d : Nat} (state : (getBank s bk).state = st)
    (deadline : (getBank s bk).deadline = some d) (due : d ≤ s.time.clock) : bankExpired s bk st = true := by
  rw [bankExpired, state, reached_some deadline due]
  simp

theorem recharged_eq (s : State) (bk : Bank) :
    recharged s bk = rechargeOver s.time.clock (getBank s bk).recharge (getBank s bk) := by
  unfold recharged rechargeOver
  cases (getBank s bk).lastFiring <;> rfl

theorem dueGrant_eq {s : State} {bk : Bank} {g : Grant} {capture : Bool}
    (granted : s.lamps.grants.find? (fun g => decide (g.bank = bk)) = some g) (kind : g.capture.isSome = capture)
    (due : g.time ≤ s.time.clock) : dueGrant s bk capture = some g := by
  rw [dueGrant, grantOf, granted, Option.filter_some, if_pos]
  exact Bool.and_eq_true_iff.mpr ⟨decide_eq_true due, by simp [kind]⟩

/-! ### Conditioning flashes -/

/-- A conditioning flash is entered in the schedule at its granted time, which is the bank's latest from then on (R74). -/
theorem askFiring_conditioning (s : State) (bk : Bank) (t level duration : Nat) :
    askFiring s bk t level duration none =
      { s with
        lamps.banks := s.lamps.banks.set bk { getBank s bk with
          latest := some (max (grantTime s bk t) ((getBank s bk).latest.getD (grantTime s bk t))) }
        lamps.grants := s.lamps.grants ++ [⟨bk, grantTime s bk t, level, duration, none⟩] } := by
  have latest : later (getBank s bk).latest (some (grantTime s bk t))
      = some (max (grantTime s bk t) ((getBank s bk).latest.getD (grantTime s bk t))) := by
    cases (getBank s bk).latest with
    | none => exact congrArg some (max_self _).symm
    | some u => exact congrArg some (max_comm u _)
  unfold askFiring
  dsimp only
  rw [modifyBank, latest]
  rfl

theorem conditioningDue_of {s : State} {bk : Bank} (state : (getBank s bk).state = .conditioning)
    (count : (getBank s bk).count < 2) (free : ∀ g ∈ s.lamps.grants, g.bank ≠ bk)
    (hood : (getBank s bk).hood.state = .closed)
    (recharged : rechargeOver s.time.clock (getBank s bk).recharge (getBank s bk) = true) : conditioningDue s bk = true := by
  have ungranted : grantOf s bk = none := List.find?_eq_none.mpr fun g hg => by simpa using free g hg
  simp [conditioningDue, conditioningGranted, ungranted, recharged_eq, state, count, hood, recharged]

/-- A conditioning flash at its granted time is made behind a CLOSED hood, and dropped otherwise (R73). -/
theorem conditioningFlash_eq (s : State) (bk : Bank) {g : Grant} (conditions : g.capture = none) :
    conditioningFlash s bk g =
      if (getBank s bk).state = .conditioning ∧ (getBank s bk).hood.state = .closed then
        setBank (removeGrant s bk) bk
          { getBank s bk with
            count := (getBank s bk).count + 1, lastFiring := some g.time
            flash := some ⟨g.level, g.time + g.duration, none⟩ }
      else removeGrant s bk := by
  rw [← conditions]
  rfl

/-- The second conditioning flash's wait ends in READY (R73). -/
theorem conditioned_ready (s : State) (bk : Bank) :
    enterReady (modifyBank s bk fun r => { r with conditioned := true }) bk (some .conditioned) = offerMinor
      (setBank s bk (readied s.time.clock { getBank s bk with conditioned := true }))
      (.bankState bk (getBank s bk).state .ready s.time.clock .conditioned) := by
  rw [enterReady_reported, getBank_modifyBank, modifyBank, setBank_setBank]
  rfl

/-- The time that a WAKING bank had stood in STANDBY, from the end of WAKING (R79). -/
theorem standbyTime_eq {r : BankRec} {d : Nat} (h : r.deadline = some d) :
    standbyTime r = d - 400000 - r.standbySince.getD 0 := by
  rw [standbyTime, h]
  rfl

end Sys2Proof.Machine

namespace Sys2Proof
open Machine

/-- Settles O48: each event's guard is met, and its operation leaves the record that the statement writes. -/
theorem conditioningFlashesAndWaking : Obligations.ConditioningFlashesAndWaking := by
  rintro bk s r rfl
  refine ⟨fun state count free hood recharged => ?_, fun g w granted conditions due hw => ?_, fun state count recharged => ?_,
    fun d state deadline due => ?_⟩
  · have flash := conditioningDue_of state count free hood recharged
    refine ⟨_, grantTime_grantedFor s bk s.time.clock, ?_⟩
    simp only [exec, execConditioningFlashDue, flash, if_true, askFiring_conditioning]
    rfl
  · have flash : dueGrant s bk false = some g := dueGrant_eq granted (by rw [conditions]; rfl) due
    subst hw
    simp only [exec, execConditioningFlash, flash, conditioningFlash_eq s bk conditions]
    rfl
  · have done : conditioningDone s bk = true := by simp [conditioningDone, recharged_eq, state, count, recharged]
    simp only [exec, execConditioningComplete, done, if_true, conditioned_ready, state]
    rfl
  · have expired := bankExpired_of state deadline due
    simp only [exec, execWakingEnd, expired, if_true, endWaking, standbyTime_eq deadline, enterReady_reported,
      enterConditioning_eq, state]
    rfl

end Sys2Proof
end

