-- ==== Sys2Proof/Proofs/FiringsAndHoods.lean ====
section
/-! Capture firings, flash ends, recoveries, top-ups, BANK_SET and the hoods (R75 to R77, R80, R82). -/
namespace Sys2Proof.Machine

/-! ### Capture firings -/

/-- The six conditions of a capture firing (R75). -/
theorem firingHolds_iff (s : State) (bk : Bank) (n : Nat) : firingHolds s bk n = true ↔
    (getBank s bk).state = .ready ∧ (getBank s bk).hood.state = .opened ∧ (∃ c, s.seq.capture = some c ∧ c.seq = n)
      ∧ s.volume.state = .opened ∧ s.volume.known = true ∧ s.motion.platen = .down := by
  simp [firingHolds, volumeOpened, Option.any_eq_true, and_assoc]

/-- A capture firing is made and credited if its conditions hold, and is withdrawn otherwise (R75, R100). -/
theorem captureFiring_eq (s : State) (bk : Bank) {g : Grant} {n : Nat} (capture : g.capture = some n) :
    captureFiring s bk g = settle (if firingHolds s bk n then
        answerAsk (creditFiring (setBank (removeGrant s bk) bk
          { getBank s bk with
            state := .recovering, lastFiring := some g.time
            flash := some ⟨g.level, g.time + g.duration, some n⟩ }) bk) bk (.fired g.time)
      else answerAsk (removeGrant s bk) bk .withdrawn) := by
  simp only [captureFiring, firedBank, capture, Option.getD_some]
  rfl

/-! ### Top-ups -/

/-- A bank that has stood READY for 30 s tops up outside a lighting interval (R77). -/
theorem toppedUp_stood {r : BankRec} {t since : Nat} (state : r.state = .ready) (ready : r.readySince = some since)
    (due : since + 30000000 ≤ t) (interval : Option Nat) : toppedUp t interval r =
      if interval = none then { r with state := .topping, deadline := some (t + 200000) } else r := by
  rw [toppedUp, state, ready, Option.any_some, decide_eq_true due]
  cases interval <;> rfl

/-! ### BANK_SET -/

/-- A masked bank after BANK_SET on an ACTIVE part (R80). -/
def rechargeSet (t v : Nat) (masked : Bool) (r : BankRec) : BankRec :=
  if masked = false then r
  else if r.state = .recovering ∧ rechargeOver t v r = true then readied t { r with recharge := v }
  else { r with recharge := v }

theorem setRecharge_eq {s : State} (active : s.time.idle = false) (v : Nat) (mask : Quad Bool) (bk : Bank) :
    setRecharge v mask s bk = modifyBank s bk (rechargeSet s.time.clock v (mask.get bk)) := by
  unfold setRecharge
  cases masked : mask.get bk with
  | false => exact (modifyBank_same (f := rechargeSet s.time.clock v false) (if_pos rfl)).symm
  | true =>
    have passed : recharged (modifyBank s bk fun r => { r with recharge := v }) bk
        = rechargeOver s.time.clock v (getBank s bk) := by
      rw [recharged_eq, getBank_modifyBank]
      rfl
    have ready : returnReady (modifyBank s bk fun r => { r with recharge := v }) bk
        = setBank s bk (readied s.time.clock { getBank s bk with recharge := v }) := by
      rw [returnReady_eq, rested, if_neg (by simp [active]), getBank_modifyBank]
      exact setBank_setBank s bk _ _
    dsimp only
    rw [if_pos rfl, passed, ready, getBank_modifyBank]
    simp only [modifyBank, rechargeSet, Bool.true_eq_false, if_false]
    split <;> rfl

/-- BANK_SET sets each bank by itself (R80). -/
theorem forBanks_setRecharge {s : State} (active : s.time.idle = false) (v : Nat) (mask : Quad Bool) :
    forBanks (setRecharge v mask) s = { s with lamps.banks :=
      ⟨rechargeSet s.time.clock v mask.a s.lamps.banks.a, rechargeSet s.time.clock v mask.b s.lamps.banks.b,
        rechargeSet s.time.clock v mask.c s.lamps.banks.c, rechargeSet s.time.clock v mask.d s.lamps.banks.d⟩ } := by
  rw [forBanks_eq, setRecharge_eq active v mask .a, setRecharge_eq (by simpa using active) v mask .b,
    setRecharge_eq (by simpa using active) v mask .c, setRecharge_eq (by simpa using active) v mask .d]
  rfl

/-- BANK_SET's value is clamped, and the reply says whether it was (R80). -/
theorem notInRange_eq (n : Nat) {lo hi : Nat} (h : lo ≤ hi) : (!inRange n lo hi) = decide (max lo (min n hi) ≠ n) := by
  unfold inRange
  by_cases low : lo ≤ n <;> by_cases high : n ≤ hi <;> simp [low, high] <;> omega

theorem decideBankSet_eq (a : State) (mask : Quad Bool) (n : Nat) :
    decideBankSet mask n a =
      (settle (forBanks (setRecharge (max 250 (min n 2000)) mask) a), .accepted,
        .bankSet (bankView (forBanks (setRecharge (max 250 (min n 2000)) mask) a) fun r => r.recharge)
          (decide (max 250 (min n 2000) ≠ n))) := by
  rw [decideBankSet, clamp_eq n (by decide), notInRange_eq n (by decide)]
  rfl

/-! ### Hoods -/

/-- A hood ends its travel where it was going (R82). -/
theorem endTravel_eq {x h : Hood} (ends : h = ⟨.closed, none⟩ ∨ h = ⟨.opened, none⟩)
    (travels : x.state = if h.state = .closed then .closing else .opening) : endTravel x = h := by
  rcases ends with rfl | rfl
  · have closing : x.state = .closing := travels
    rw [endTravel, closing]
  · have opening : x.state = .opening := travels
    rw [endTravel, opening]

theorem hoodTravelEnd_eq {s : State} {i : HoodId} {d : Nat} (deadline : (getHood s i).deadline = some d)
    (due : d ≤ s.time.clock) {h : Hood} (ends : h = ⟨.closed, none⟩ ∨ h = ⟨.opened, none⟩)
    (travels : (getHood s i).state = if h.state = .closed then .closing else .opening) :
    exec (.hoodTravelEnd i) s = .next (settle (setHood s i h)) := by
  simp only [exec, execHoodTravelEnd, reached_some deadline due, if_true, endTravel_eq ends travels]

end Sys2Proof.Machine

namespace Sys2Proof
open Machine

/-- Settles O49: each event's guard is met, and its operation leaves the record that the statement writes. -/
theorem firingsRecoveriesAndHoods : Obligations.FiringsRecoveriesAndHoods := by
  rintro bk s r rfl
  refine ⟨fun g n w granted capture due hw => ?_, fun f lit ends => ?_, fun state recharge => ?_,
    fun d state deadline due => ?_, fun t state since due => ?_, fun tag mask n v a set ha hv hset => ?_,
    fun d h deadline due ends travels => ?_, fun sd d h deadline due ends travels => ?_⟩
  · have fires : dueGrant s bk true = some g := dueGrant_eq granted (by rw [capture]; rfl) due
    subst hw
    simp only [exec, execCaptureFiring, fires, captureFiring_eq s bk capture, firingHolds_iff]
    rfl
  · have passed : reached s ((getBank s bk).flash.map fun f => f.ends) = true := reached_some (by rw [lit]; rfl) ends
    simp only [exec, execFlashEnd, passed, if_true]
    rfl
  · simp [exec, execRecoveryEnd, recharged_eq, state, recharge, returnReady_eq]
  · have passed := bankExpired_of state deadline due
    simp only [exec, execTopUpEnd, passed, if_true, returnReady_eq]
  · simp only [exec, execTopUpStart, topUp_eq, modifyBank, toppedUp_stood state since due]
    split
    · rfl
    · rw [setBank_getBank]
  · have active : a.time.idle = false := ha ▸ awake_idle 0x31#8 s
    have banks : ∀ x, set x = rechargeSet a.time.clock v (mask.get x) (getBank a x) := hset
    have decides := decideBankSet_eq a mask n
    rw [← hv, forBanks_setRecharge active] at decides
    rw [banks .a, banks .b, banks .c, banks .d]
    exact congrArg Host.Outcome.next (serve_replied (ha ▸ decides))
  · exact hoodTravelEnd_eq (i := .bank bk) deadline due ends travels
  · exact hoodTravelEnd_eq (i := .aim sd) deadline due ends travels

end Sys2Proof
end

