-- ==== Sys2Proof/Proofs/BankPower.lean ====
section
/-! BANK_POWER with its reports, the charge-good input and the charge timeout (R71, R72, R81). -/
namespace Sys2Proof.Machine

/-! ### Reports leave the lamps out of account -/

/-- The state with other lamps. -/
def withLamps (s : State) (l : Lamps) : State := { s with lamps := l }

theorem withLamps_withLamps (s : State) (l l' : Lamps) : withLamps (withLamps s l) l' = withLamps s l' := rfl

/-- A report is offered by the queue, the lines and the clock alone. -/
theorem offerMinor_withLamps (s : State) (l : Lamps) (b : Body) :
    offerMinor (withLamps s l) b = withLamps (offerMinor s b) l := by
  have room : hasMinorRoom (withLamps s l) = hasMinorRoom s := rfl
  unfold offerMinor
  rw [room]
  split
  · unfold enqueue
    rw [driveFn_eq, driveFn_eq]
    rfl
  · rfl

theorem offerMinor_setBank (s : State) (bk : Bank) (r : BankRec) (b : Body) :
    offerMinor (setBank s bk r) b = setBank (offerMinor s b) bk r := by
  have lamps : (offerMinor s b).lamps = s.lamps := by simp
  exact (offerMinor_withLamps s _ b).trans (by rw [setBank, lamps]; rfl)

theorem foldl_offerMinor_withLamps (bodies : List Body) (s : State) (l : Lamps) :
    bodies.foldl offerMinor (withLamps s l) = withLamps (bodies.foldl offerMinor s) l := by
  induction bodies generalizing s with
  | nil => rfl
  | cons b rest ih => rw [List.foldl_cons, offerMinor_withLamps, ih, List.foldl_cons]

@[simp] theorem foldl_offerMinor_frame (bodies : List Body) (s : State) :
    (bodies.foldl offerMinor s).time = s.time ∧ (bodies.foldl offerMinor s).link = s.link ∧
    (bodies.foldl offerMinor s).volume = s.volume ∧ (bodies.foldl offerMinor s).leaves = s.leaves ∧
    (bodies.foldl offerMinor s).motion = s.motion ∧ (bodies.foldl offerMinor s).lamps = s.lamps ∧
    (bodies.foldl offerMinor s).dose = s.dose ∧ (bodies.foldl offerMinor s).seq = s.seq ∧
    (bodies.foldl offerMinor s).safe = s.safe ∧ (bodies.foldl offerMinor s).chargeGood = s.chargeGood := by
  induction bodies generalizing s with
  | nil => simp
  | cons b rest ih => simpa using ih (offerMinor s b)

/-! ### BANK_POWER on one bank -/

/-- The reports of BANK_POWER on one bank (R81). -/
def powerBodies (on : Bool) (mask : Quad Bool) (a : State) (bk : Bank) : List Body :=
  if mask.get bk then
    if on then
      if (getBank a bk).state = .off then
        .bankState bk .off .charging a.time.clock .power
          :: if a.chargeGood.get bk then [.bankState bk .charging .conditioning a.time.clock .charged] else []
      else []
    else [.bankState bk (getBank a bk).state .off a.time.clock .power]
  else []

/-- A bank record that enters CHARGING (R71). -/
def charging (t : Nat) (r : BankRec) : BankRec :=
  { r with state := .charging, count := 0, conditioned := false, deadline := some (t + 4000000) }

/-- A bank's record after BANK_POWER (R71, R72). -/
def powerRec (on : Bool) (mask : Quad Bool) (a : State) (bk : Bank) : BankRec :=
  if mask.get bk then
    if on then
      if (getBank a bk).state = .off then
        if a.chargeGood.get bk then reconditioned a.time.clock (getBank a bk) else charging a.time.clock (getBank a bk)
      else getBank a bk
    else offRecord a.time.clock (getBank a bk)
  else getBank a bk

/-- The lamps after BANK_POWER on one bank: its record, and its conditioning flash dropped by OFF (R71, R73). -/
def poweredLamps (on : Bool) (mask : Quad Bool) (a : State) (bk : Bank) (l : Lamps) : Lamps :=
  { l with
    banks := l.banks.set bk (powerRec on mask a bk)
    grants := l.grants.filter fun g => !(decide (g.bank = bk) && (!on && mask.get bk && g.capture.isNone)) }

/-- The end of a charge on an ACTIVE part (R72). -/
theorem endCharge_active {s : State} (active : s.time.idle = false) (bk : Bank) : endCharge s bk = offerMinor
    (setBank s bk (reconditioned s.time.clock (getBank s bk)))
    (.bankState bk (getBank s bk).state .conditioning s.time.clock .charged) := by
  rw [endCharge, if_neg (by simp [active]), enterConditioning_eq]

/-- A bank that starts to charge on an ACTIVE part: CHARGING, or CONDITIONING at once where its charge-good input is active
(R71, R72). -/
theorem startCharging_active {s : State} (active : s.time.idle = false) (bk : Bank) : startCharging s bk =
    if s.chargeGood.get bk then
      setBank ([.bankState bk (getBank s bk).state .charging s.time.clock .power,
        .bankState bk .charging .conditioning s.time.clock .charged].foldl offerMinor s) bk
        (reconditioned s.time.clock (getBank s bk))
    else
      setBank (offerMinor s (.bankState bk (getBank s bk).state .charging s.time.clock .power)) bk
        (charging s.time.clock (getBank s bk)) := by
  have started : startCharging s bk = (if s.chargeGood.get bk then endCharge (offerMinor (setBank s bk
      (charging s.time.clock (getBank s bk))) (.bankState bk (getBank s bk).state .charging s.time.clock .power)) bk
    else offerMinor (setBank s bk (charging s.time.clock (getBank s bk)))
      (.bankState bk (getBank s bk).state .charging s.time.clock .power)) := rfl
  rw [started, offerMinor_setBank, endCharge_active (by simpa using active), getBank_setBank, setBank_setBank,
    offerMinor_setBank]
  simp [charging, reconditioned]

/-- Where no masked bank is cleared, no grant is dropped. -/
theorem poweredLamps_kept {on : Bool} {mask : Quad Bool} {bk : Bank} (h : (!on && mask.get bk) = false) (a : State)
    (l : Lamps) : poweredLamps on mask a bk l = { l with banks := l.banks.set bk (powerRec on mask a bk) } := by
  simp [poweredLamps, h]

/-- BANK_POWER on one bank of an ACTIVE part: its reports, its record, and its grant dropped. -/
theorem powerBank_eq {s : State} (active : s.time.idle = false) (on : Bool) (mask : Quad Bool) (bk : Bank) :
    powerBank on mask s bk =
      withLamps ((powerBodies on mask s bk).foldl offerMinor s) (poweredLamps on mask s bk s.lamps) := by
  have set : ∀ (bodies : List Body) (r : BankRec), setBank (bodies.foldl offerMinor s) bk r =
      withLamps (bodies.foldl offerMinor s) { s.lamps with banks := s.lamps.banks.set bk r } := fun bodies r => by
    have lamps : (bodies.foldl offerMinor s).lamps = s.lamps := by simp
    rw [setBank, lamps]
    rfl
  have kept : s = withLamps s { s.lamps with banks := s.lamps.banks.set bk (getBank s bk) } := (setBank_getBank s bk).symm
  cases masked : mask.get bk with
  | false => simpa [powerBank, powerBodies, poweredLamps_kept, powerRec, masked] using kept
  | true =>
    cases on with
    | false =>
      have off : powerBank false mask s bk = offerMinor (withLamps s (poweredLamps false mask s bk s.lamps))
          (.bankState bk (getBank s bk).state .off s.time.clock .power) := by
        simp only [powerBank, poweredLamps, powerRec, masked]
        rfl
      rw [off, offerMinor_withLamps, powerBodies, if_pos masked]
      rfl
    | true =>
      rw [poweredLamps_kept (by simp), ← set]
      by_cases state : (getBank s bk).state = .off
      · rw [powerBank, startCharging_active active]
        cases good : s.chargeGood.get bk <;> simp [powerBodies, powerRec, masked, good, state]
      · simp [powerBank, powerBodies, powerRec, masked, state, setBank_getBank]

/-! ### The charge-good input -/

/-- The charge-good input ends the charge of a CHARGING bank: in STANDBY on an IDLE part, in CONDITIONING otherwise (R72). -/
theorem endCharge_eq {s : State} {bk : Bank} (state : (getBank s bk).state = .charging) : endCharge s bk =
    if s.time.idle then
      offerMinor (setBank (dropConditioning s bk) bk (stoodBy s.time.clock (getBank s bk)))
        (.bankState bk .charging .standby s.time.clock .charged)
    else
      offerMinor (setBank s bk (reconditioned s.time.clock (getBank s bk)))
        (.bankState bk .charging .conditioning s.time.clock .charged) := by
  rw [endCharge, enterStandby_eq, enterConditioning_eq, state]

/-! ### BANK_POWER on the four banks -/

/-- What BANK_POWER does to a bank follows from its record, the clock and its charge-good input. -/
theorem powered_congr {a s : State} {bk : Bank} (time : s.time = a.time) (good : s.chargeGood = a.chargeGood)
    (record : getBank s bk = getBank a bk) (on : Bool) (mask : Quad Bool) :
    powerBodies on mask s bk = powerBodies on mask a bk
      ∧ poweredLamps on mask s bk = poweredLamps on mask a bk := by
  constructor
  · simp only [powerBodies, time, good, record]
  · funext l
    simp only [poweredLamps, powerRec, time, good, record]

/-- BANK_POWER goes on from bank to bank: each sees its own record, as the request found it. -/
theorem powerBank_after {a : State} (active : a.time.idle = false) (on : Bool) (mask : Quad Bool) {bodies : List Body}
    {l : Lamps} {bk : Bank} (record : l.banks.get bk = getBank a bk) :
    powerBank on mask (withLamps (bodies.foldl offerMinor a) l) bk =
      withLamps ((bodies ++ powerBodies on mask a bk).foldl offerMinor a) (poweredLamps on mask a bk l) := by
  have time : (withLamps (bodies.foldl offerMinor a) l).time = a.time := by simp [withLamps]
  have good : (withLamps (bodies.foldl offerMinor a) l).chargeGood = a.chargeGood := by simp [withLamps]
  obtain ⟨offers, lamps⟩ := powered_congr time good record on mask
  rw [powerBank_eq (by rw [time]; exact active), offers, lamps, foldl_offerMinor_withLamps, withLamps_withLamps,
    List.foldl_append]
  rfl

/-- The lamps after BANK_POWER. -/
def poweredAll (on : Bool) (mask : Quad Bool) (a : State) : Lamps :=
  { a.lamps with
    banks := ⟨powerRec on mask a .a, powerRec on mask a .b, powerRec on mask a .c, powerRec on mask a .d⟩
    grants := a.lamps.grants.filter fun g => !(!on && mask.get g.bank && g.capture.isNone) }

/-- BANK_POWER changes each bank by itself, and its reports come A to D (log 17). -/
theorem forBanks_powerBank {a : State} (active : a.time.idle = false) (on : Bool) (mask : Quad Bool) :
    forBanks (powerBank on mask) a =
      withLamps ((allBanks.flatMap (powerBodies on mask a)).foldl offerMinor a) (poweredAll on mask a) := by
  have grants : ∀ l : List Grant, (((l.filter fun g => !(decide (g.bank = .a) && (!on && mask.get .a && g.capture.isNone))).filter
      fun g => !(decide (g.bank = .b) && (!on && mask.get .b && g.capture.isNone))).filter
      fun g => !(decide (g.bank = .c) && (!on && mask.get .c && g.capture.isNone))).filter
      (fun g => !(decide (g.bank = .d) && (!on && mask.get .d && g.capture.isNone))) =
      l.filter fun g => !(!on && mask.get g.bank && g.capture.isNone) := fun l => by
    simp only [List.filter_filter]
    congr 1
    funext g
    cases g.bank <;> simp
  have lamps : poweredLamps on mask a .d (poweredLamps on mask a .c (poweredLamps on mask a .b
      (poweredLamps on mask a .a a.lamps))) = poweredAll on mask a := by
    rw [poweredAll, ← grants]
    rfl
  have first := powerBank_after active on mask (bodies := []) (l := a.lamps) (bk := .a) rfl
  have offers : [] ++ powerBodies on mask a .a ++ powerBodies on mask a .b ++ powerBodies on mask a .c
      ++ powerBodies on mask a .d = allBanks.flatMap (powerBodies on mask a) := by simp [allBanks]
  rw [forBanks_eq, ← lamps, ← offers, ← powerBank_after active on mask (by rfl), ← powerBank_after active on mask (by rfl),
    ← powerBank_after active on mask (by rfl), ← first]
  rfl

theorem getBank_poweredAll (on : Bool) (mask : Quad Bool) (a w : State) (bk : Bank) :
    getBank (withLamps w (poweredAll on mask a)) bk = powerRec on mask a bk := by cases bk <;> rfl

/-! ### The request -/

theorem flatMap_filter {α β : Type} (p : α → Bool) (f : α → List β) (l : List α) :
    (l.filter p).flatMap f = l.flatMap fun x => if p x then f x else [] := by
  induction l with
  | nil => rfl
  | cons x l ih => cases h : p x <;> simp [h, ih]

/-- The reports of BANK_POWER come from the masked banks (R81). -/
theorem maskedBodies_eq {on : Bool} {mask : Quad Bool} {a : State} {f : Bank → List Body}
    (h : ∀ bk, (if mask.get bk then f bk else []) = powerBodies on mask a bk) :
    ([Bank.a, .b, .c, .d].filter mask.get).flatMap f = allBanks.flatMap (powerBodies on mask a) := by
  rw [flatMap_filter, funext h]
  rfl

/-- A bank's power states and hoods, as the reply gives them (R71). -/
def powerFields (u : State) : Fields :=
  .bankPower ⟨((getBank u .a).state, (getBank u .a).hood.state), ((getBank u .b).state, (getBank u .b).hood.state),
    ((getBank u .c).state, (getBank u .c).hood.state), ((getBank u .d).state, (getBank u .d).hood.state)⟩

/-- The checks of BANK_POWER in their order (R71). -/
def powerChecks (mask : Quad Bool) (command : Option Bool) (a : State) : List Check :=
  [ orField command.isNone .command,
    orElse (decide (command = some false) && a.seq.capture.isSome) .busyCapture,
    orElse (decide (command = some true)
      && allBanks.any fun bk => mask.get bk && decide ((getBank a bk).state = .fault)) .wrongState ]

theorem decideBankPower_chosen (on : Bool) (mask : Quad Bool) (a : State) : decideBankPower mask (some on) a =
    chosen (powerChecks mask (some on) a) a (forBanks (powerBank on mask) a) (powerFields (forBanks (powerBank on mask) a)) := by
  rw [powerChecks, chosen_cons, if_neg (by simp [orField])]
  exact chosen_orElse (by cases on <;> simp [captureInFlight]) fun _ =>
    chosen_orElse (by cases on <;> simp [maskedFault]) fun _ => rfl

end Sys2Proof.Machine

namespace Sys2Proof
open Machine

/-- Settles O47: BANK_POWER changes its banks one by one, and the reports, which leave the lamps out of account, gather in
front of them. -/
theorem banksPowerUpAndCharge : Obligations.BanksPowerUpAndCharge := by
  refine ⟨fun tag mask command s a ha bodies hbodies => ?_, fun bk good s w hw => ?_, fun bk d s state deadline due => ?_⟩
  · have active : a.time.idle = false := ha ▸ awake_idle 0x30#8 s
    cases command with
    | none =>
      obtain rfl : bodies = [] := hbodies.trans (List.flatMap_eq_nil_iff.mpr fun _ _ => rfl)
      have served : serve 0x30#8 tag (decideBankPower mask none) s = decided 0x30#8 tag (powerChecks mask none (awake 0x30#8 s))
        (awake 0x30#8 s) a (powerFields a) := serve_decided rfl
      subst ha
      exact ⟨_, congrArg Host.Outcome.next served, fun _ _ => rfl, nofun, nofun, nofun, nofun, rfl, rfl, rfl, rfl, rfl,
        rfl, rfl, rfl, rfl, rfl, rfl, rfl, rfl⟩
    | some on =>
      obtain rfl := hbodies.trans (maskedBodies_eq (on := on) (a := a) fun bk => by cases on <;> rfl)
      have served := serve_decided (kind := 0x30#8) (tag := tag) (s := s) (ha ▸ decideBankPower_chosen on mask a)
      rw [← ha, forBanks_powerBank active] at served
      refine ⟨_, congrArg Host.Outcome.next served, fun bk unmasked => ?_, fun off bk masked => ?_, fun on bk masked => ?_,
        fun off => ?_, fun on => ?_, rfl, rfl, rfl, ?_⟩
      · rw [getBank_poweredAll, powerRec, if_neg (by simp [unmasked])]
      · obtain rfl := Option.some.inj off
        rw [getBank_poweredAll, powerRec, if_pos masked]
        rfl
      · obtain rfl := Option.some.inj on
        rw [getBank_poweredAll, powerRec, if_pos masked]
        rfl
      · obtain rfl := Option.some.inj off
        rfl
      · obtain rfl := Option.some.inj on
        simp [withLamps, poweredAll]
      · simp [withLamps]
  · subst hw
    have watched : good = false ∨ (getBank s bk).state ≠ .charging ↔ ¬(good = true ∧ (getBank s bk).state = .charging) := by
      cases good <;> simp
    simp only [exec, execChargeGood, watched, ite_not]
    split
    next charges => exact congrArg Host.Outcome.next (endCharge_eq (bk := bk) (by exact charges.2))
    next => rfl
  · have expired := bankExpired_of state deadline due
    simp only [exec, execBankChargeTimeout, expired, if_true]
    rfl

end Sys2Proof
end

