-- ==== Sys2Proof/Proofs/Calibration.lean ====
section
/-! LAMP_CAL and CAL_QUERY (R92, R93): the searches of the model as tests over the points, and the requests decided. -/
namespace Sys2Proof.Machine

/-! ### The two searches over the points -/

/-- The search for a point above a bound is the test of all points, with the place of the first that fails it. -/
theorem firstAbove_eq (bound : Nat) (ps : List Nat) (i : Nat) :
    firstAbove bound ps i =
      if ps.any (fun p => decide (bound < p)) then some (i + ps.findIdx fun p => decide (bound < p)) else none := by
  induction ps generalizing i with
  | nil => rfl
  | cons p ps ih =>
    rw [firstAbove, ih]
    by_cases h : bound < p
    · simp [List.findIdx_cons, h]
    · simp [List.findIdx_cons, h, Nat.add_assoc, Nat.add_comm 1]

/-- Point `j` lies below the one before it, where `prev` stands before point 0. -/
def fallsAfter (prev : Nat) (ps : List Nat) (j : Nat) : Bool := decide (ps.getD j 0 < (prev :: ps).getD j 0)

theorem fallsAfter_zero (prev p : Nat) (ps : List Nat) : fallsAfter prev (p :: ps) 0 = decide (p < prev) := rfl

theorem fallsAfter_succ (prev p : Nat) (ps : List Nat) (j : Nat) :
    fallsAfter prev (p :: ps) (j + 1) = fallsAfter p ps j := rfl

/-- With 0 before point 0, which then never falls, the points that fall are those of R92 check 4. -/
theorem fallsAfter_none (ps : List Nat) :
    fallsAfter 0 ps = fun i => decide (0 < i) && decide (ps.getD i 0 < ps.getD (i - 1) 0) := by
  funext j
  cases j with
  | zero => simp [fallsAfter]
  | succ j => simp [fallsAfter]

/-- The search for a point below the one before it is the test of all places, with the first that fails it. -/
theorem firstFall_eq (prev : Nat) (ps : List Nat) (i : Nat) :
    firstFall prev ps i =
      if (List.range ps.length).any (fallsAfter prev ps)
        then some (i + (List.range ps.length).findIdx (fallsAfter prev ps)) else none := by
  induction ps generalizing prev i with
  | nil => rfl
  | cons p ps ih =>
    have shift : fallsAfter prev (p :: ps) ∘ Nat.succ = fallsAfter p ps := funext fun j => fallsAfter_succ prev p ps j
    rw [firstFall, ih, List.length_cons, List.range_succ_eq_map, List.any_cons, List.findIdx_cons, fallsAfter_zero,
      List.any_map, List.findIdx_map, shift]
    by_cases h : p < prev
    · simp [h]
    · simp [h, Nat.add_assoc, Nat.add_comm 1]

/-! ### The requests decided -/

/-- The checks of LAMP_CAL for a source, one after the other (R92). -/
theorem decideLampCal_some (x : Source) (points : List Nat) (spill : Nat) (s : State) :
    decideLampCal (some x) points spill s =
      if points.any (fun p => decide (pointMax x < p)) then
        refuseField s (.point (points.findIdx fun p => decide (pointMax x < p)))
      else if 255 < spill then refuseField s .spill
      else if (List.range points.length).any (fallsAfter 0 points) then
        (s, .notMonotonic, .notMonotonic ((List.range points.length).findIdx (fallsAfter 0 points)))
      else accept (setCal s x ⟨points, spill⟩) (.lampCal x (calibrated ⟨points, spill⟩)) := by
  rw [decideLampCal, firstAbove_eq, firstFall_eq]
  simp only [Nat.zero_add]
  split_ifs <;> rfl

end Sys2Proof.Machine

namespace Sys2Proof
open Machine

/-- Settles O23: LAMP_CAL decides by its table of checks, once its two searches are read as tests over the points. -/
theorem calibrationRecordsAreLoadedAndShown : Obligations.CalibrationRecordsAreLoadedAndShown := by
  intro tag s
  refine ⟨fun points spill a ha => ?_, fun x points spill top a u ha htop hu => ?_, fun source a ha => ?_⟩ <;> subst ha
  · exact congrArg _ (serve_replied rfl)
  · obtain rfl : top = pointMax x := by cases x <;> exact htop
    obtain rfl : u = setCal (awake 0x38#8 s) x ⟨points, spill⟩ := by cases x <;> exact hu
    rw [← fallsAfter_none]
    refine congrArg _ (serve_decided ?_)
    rw [decideLampCal_some]
    refine chosen_orField Iff.rfl fun _ => chosen_orField decide_eq_true_iff fun _ => ?_
    exact chosen_check (c := (_, .notMonotonic, .notMonotonic _)) Iff.rfl fun _ => rfl
  · cases source with
    | none => exact congrArg _ (serve_replied rfl)
    | some x => cases x <;> exact congrArg _ (serve_accepted rfl)

end Sys2Proof
end

