-- ==== Sys2Proof/Proofs/Doses.lean ====
section
/-! Illuminance, doses, prediction entries, the precheck and the credit of a firing (R94 to R98, R100). -/
namespace Sys2Proof.Machine

/-! ### Illuminance and doses -/

/-- A rounded-up quotient is the least whole number not below it. -/
theorem ceilDiv_le_iff {y : Nat} (hy : 0 < y) (x n : Nat) : ceilDiv x y ≤ n ↔ x ≤ y * n := by
  rw [ceilDiv, ← Nat.lt_succ_iff, Nat.div_lt_iff_lt_mul hy, Nat.succ_mul, Nat.mul_comm n y]
  omega

/-- Below level 1000 the illuminance lies on the segment of the level's hundred (R94). -/
theorem illuminance_segment (c : Cal) {j d : Nat} (hj : j < 10) (hd : d < 100) :
    illuminance c (100 * j + d)
      = c.points.getD j 0 + (c.points.getD (j + 1) 0 - c.points.getD j 0) * d / 100 := by
  have below : 100 * j + d ≠ 1000 := by omega
  have hundred : (100 * j + d) / 100 = j := by omega
  simp [illuminance, below, hundred, calPoint]

theorem illuminance_top (c : Cal) : illuminance c 1000 = c.points.getD 10 0 := rfl

/-- The points of a calibration record never fall (R92 check 4). -/
def neverFalls (c : Cal) : Prop := ∀ i j, i ≤ j → j ≤ 10 → c.points.getD i 0 ≤ c.points.getD j 0

/-- Where the points never fall, the illuminance on a segment lies between its two points. -/
theorem illuminance_between {c : Cal} (h : neverFalls c) {j d : Nat} (hj : j < 10) (hd : d < 100) :
    c.points.getD j 0 ≤ illuminance c (100 * j + d) ∧ illuminance c (100 * j + d) ≤ c.points.getD (j + 1) 0 := by
  have rise := h j (j + 1) (Nat.le_succ j) hj
  have part : (c.points.getD (j + 1) 0 - c.points.getD j 0) * d / 100 ≤ c.points.getD (j + 1) 0 - c.points.getD j 0 :=
    Nat.div_le_of_le_mul (by rw [Nat.mul_comm 100]; exact Nat.mul_le_mul_left _ hd.le)
  rw [illuminance_segment c hj hd]
  omega

/-- Where the points never fall, the illuminance never falls with the level (R94): within a segment by its formula, from
one segment to a later one by the points between them. -/
theorem illuminance_mono {c : Cal} (h : neverFalls c) {x y : Nat} (hxy : x ≤ y) (hy : y ≤ 1000) :
    illuminance c x ≤ illuminance c y := by
  rcases hxy.eq_or_lt with rfl | hxy
  · exact le_rfl
  obtain ⟨i, d, hd, rfl⟩ : ∃ i d, d < 100 ∧ x = 100 * i + d := ⟨x / 100, x % 100, by omega, by omega⟩
  have hi : i < 10 := by omega
  have upper := (illuminance_between h hi hd).2
  rcases hy.eq_or_lt with rfl | hy
  · rw [illuminance_top]
    exact upper.trans (h (i + 1) 10 hi le_rfl)
  obtain ⟨j, e, he, rfl⟩ : ∃ j e, e < 100 ∧ y = 100 * j + e := ⟨y / 100, y % 100, by omega, by omega⟩
  have hj : j < 10 := by omega
  rcases (show i ≤ j by omega).eq_or_lt with rfl | hij
  · rw [illuminance_segment c hi hd, illuminance_segment c hi he]
    exact Nat.add_le_add_left (Nat.div_le_div_right (Nat.mul_le_mul_left _ (by omega))) _
  · exact (upper.trans (h (i + 1) j hij hj.le)).trans (illuminance_between h hj he).1

/-! ### Entries and the precheck -/

/-- The prediction entry of a bank, by the side it stands on (R96, R97). -/
theorem makeEntry_eq (s : State) (k : Nat) (levels : Quad Nat) (t : Nat) (bk : Bank) (left : Bool)
    (h : left = (decide (bk = .a) || decide (bk = .b))) :
    makeEntry s k levels t bk =
      { bank := bk, level := levels.get bk, duration := t
        lux := illuminance (s.dose.banks.get bk) (levels.get bk)
        ownLeaf := if left then k else k + 1
        ownAmount := ownDose (illuminance (s.dose.banks.get bk) (levels.get bk)) t
        spillLeaf := if left then k + 1 else k
        spillAmount := spillDose (ownDose (illuminance (s.dose.banks.get bk) (levels.get bk)) t)
          (s.dose.banks.get bk).spill
        credited := false } := by
  subst h
  cases bk <;> rfl

/-- What a bank's entry credits to the leaf of a page: its own dose on its own side, its spill on the other (R96). -/
theorem entriesFor_makeEntry (s : State) (k : Nat) (levels : Quad Nat) (t : Nat) (bk : Bank) (page : Side) :
    entriesFor [makeEntry s k levels t bk] (pageLeaf k page) =
      if bk.side = page then (makeEntry s k levels t bk).ownAmount else (makeEntry s k levels t bk).spillAmount := by
  rw [entriesFor_cons, entriesFor_nil]
  cases bk <;> cases page <;> simp [makeEntry, Bank.side, Side.other, pageLeaf]

/-- What the entries of several banks credit to a leaf is the sum of what each credits. -/
theorem entriesFor_map (f : Bank → Entry) (bs : List Bank) (i : Nat) :
    entriesFor (bs.map f) i = (bs.map fun bk => entriesFor [f bk] i).sum := by
  simp [entriesFor, Function.comp_def]

theorem uncalibrated_iff (c : Cal) : (!calibrated c) = c.points.all fun p => decide (p = 0) := by
  simp [calibrated, List.not_any_eq_all_not]

/-! ### The credit of a firing -/

theorem getLeaf_creditLeaf (s : State) (i n : Nat) {j : Nat} (h : j = i → j < s.leaves.length) :
    getLeaf (creditLeaf s i n) j =
      { getLeaf s j with dose := (getLeaf s j).dose + if j = i then n else 0 } := by
  show getLeaf (modifyLeaf s i _) j = _
  by_cases hj : j = i
  · subst hj
    rw [getLeaf_modifyLeaf _ _ _ (h rfl), if_pos rfl]
  · rw [getLeaf_modifyLeaf_ne hj, if_neg hj, Nat.add_zero]

@[simp] theorem creditLeaf_length (s : State) (i n : Nat) : (creditLeaf s i n).leaves.length = s.leaves.length :=
  modifyLeaf_length i _ s

/-- Two amounts of light credited one after the other. -/
theorem getLeaf_creditLeaf_creditLeaf (s : State) (i n i' n' : Nat) {j : Nat} (h : j = i ∨ j = i' → j < s.leaves.length) :
    getLeaf (creditLeaf (creditLeaf s i n) i' n') j =
      { getLeaf s j with
        dose := (getLeaf s j).dose + ((if j = i then n else 0) + if j = i' then n' else 0) } := by
  rw [getLeaf_creditLeaf _ _ _ fun second => by simpa using h (.inr second),
    getLeaf_creditLeaf _ _ _ fun first => h (.inl first), Nat.add_assoc]

/-- A firing of a bank without a PENDING entry credits nothing. -/
theorem creditFiring_none {s : State} {p : Prediction} {bk : Bank} (standing : s.dose.prediction = some p)
    (entry : p.entries.find? (fun e => decide (e.bank = bk) && !e.credited) = none) : creditFiring s bk = s := by
  simp only [creditFiring, standing, entry]

/-- A firing of a bank with a PENDING entry credits its two leaves and the total, marks it, and adds to the capture credit
what it gives to the two leaves of the opening (R100). -/
theorem creditFiring_some {s : State} {p : Prediction} {bk : Bank} {e : Entry} (standing : s.dose.prediction = some p)
    (entry : p.entries.find? (fun e => decide (e.bank = bk) && !e.credited) = some e) :
    creditFiring s bk =
      { creditLeaf (creditLeaf s e.ownLeaf e.ownAmount) e.spillLeaf e.spillAmount with
        dose := { s.dose with
          prediction := some { p with entries := markCredited bk p.entries }
          credit := ⟨s.dose.credit.l + entriesFor [e] p.k, s.dose.credit.r + entriesFor [e] (p.k + 1)⟩ } } := by
  simp only [creditFiring, standing, entry]
  rfl

end Sys2Proof.Machine

namespace Sys2Proof
open Machine

/-- Settles O50: the formulas by the rounding and the segments, the precheck by what the entries of each bank give to each
page, the credit by what two credits leave on a leaf. -/
theorem dosesFollowTheCalibration : Obligations.DosesFollowTheCalibration := by
  refine ⟨fun c j d => illuminance_segment c, illuminance_top, fun c x y h => illuminance_mono h,
    fun lux t n => ceilDiv_le_iff (by decide) _ _, fun own spill n => ceilDiv_le_iff (by decide) _ _,
    fun s k levels t bk left h => ⟨_, _, rfl, rfl, makeEntry_eq s k levels t bk left h⟩,
    fun s n k x levels t left right bs amount hbs hamount hleft hright => ?_, fun s p bk standing => ⟨?_, ?_⟩⟩
  · obtain rfl : bs = neededBanks x levels := hbs
    have gives : ∀ page,
        entriesFor ((neededBanks x levels).map (makeEntry s k levels t)) (pageLeaf k page)
          = ((neededBanks x levels).map fun bk => amount bk page).sum := fun page => by
      simp only [entriesFor_map, entriesFor_makeEntry, hamount]
    have givesLeft := (gives .left).trans hleft.symm
    have givesRight := (gives .right).trans hright.symm
    simp only [pageLeaf] at givesLeft givesRight
    cases uncal : (neededBanks x levels).find? fun bk => (s.dose.banks.get bk).points.all fun p => decide (p = 0) with
    | some bk => simp only [precheck, firstUncalibrated, uncalibrated_iff, uncal]
    | none => simp only [precheck, firstUncalibrated, uncalibrated_iff, uncal, givesLeft, givesRight]
  · exact creditFiring_none standing
  · intro e u given entry hu hgiven
    have gives : ∀ i, entriesFor [e] i = given i := fun i => by
      simp only [hgiven, entriesFor_cons, entriesFor_nil, Nat.add_zero, eq_comm (a := i)]
    rw [creditFiring_some standing entry, gives, gives] at hu
    subst hu
    refine ⟨?_, ?_, fun i hi => ?_⟩
    · simp [creditLeaf, modifyLeaf, Nat.add_assoc, markCredited]
    · simp
    · rw [hgiven i]
      exact getLeaf_creditLeaf_creditLeaf s e.ownLeaf e.ownAmount e.spillLeaf e.spillAmount fun _ => hi

end Sys2Proof
end

