-- ==== Sys2Proof/Proofs/AimTick.lean ====
section
/-! The aim tick: the levels that its passes choose, and what it leaves of the state (R103 to R107). -/
namespace Sys2Proof.Machine

theorem pair_ext {α : Type} {p q : Pair α} (h : ∀ sd, p.get sd = q.get sd) : p = q := by
  have left := h .left
  have right := h .right
  cases p
  cases q
  simp only [Pair.get] at left right
  rw [left, right]

theorem pair_get_mk {α : Type} (f : Side → α) (sd : Side) : Pair.get ⟨f .left, f .right⟩ sd = f sd := by
  cases sd <;> rfl

theorem pair_set_self {α : Type} (p : Pair α) (sd : Side) : p.set sd (p.get sd) = p := by cases sd <;> rfl

/-! ### The passes -/

/-- Candidate levels with the constraint that last lowered each lamp. -/
abbrev Candidates := Pair Nat × Pair (Option Constraint)

/-- A pass is made only of candidates that do not fit (R105). -/
def passUnlessFit (s : State) (pass : State → Pair Nat → Side → Nat) (x : Candidates) : Candidates :=
  if aimFits s x.1 then x else aimPass s pass x

theorem passUnlessFit_level (s : State) (pass : State → Pair Nat → Side → Nat) (x : Candidates) (sd : Side) :
    (passUnlessFit s pass x).1.get sd = if aimFits s x.1 = false then pass s x.1 sd else x.1.get sd := by
  unfold passUnlessFit
  cases aimFits s x.1 with
  | true => rfl
  | false => exact aimPass_get s pass x sd

/-- A pass notes the constraint that a lamp it lowers contributed to (R107). -/
theorem passUnlessFit_note (s : State) (pass : State → Pair Nat → Side → Nat) (x : Candidates) (sd : Side) :
    (passUnlessFit s pass x).2.get sd =
      if (passUnlessFit s pass x).1.get sd < x.1.get sd then blamed s x.1 sd else x.2.get sd := by
  unfold passUnlessFit
  cases aimFits s x.1 with
  | true => simp
  | false => cases sd <;> rfl

/-- The four passes of R105, each made of the candidates after the one before it. -/
theorem chooseLevels_eq (s : State) (v : Pair Nat) : chooseLevels s v =
    passUnlessFit s passSpill (passUnlessFit s passOwn (passUnlessFit s passGuard (v, ⟨none, none⟩))) := by
  unfold chooseLevels passUnlessFit
  dsimp only
  split_ifs <;> rfl

/-- What the passes choose, level by level and note by note. -/
theorem chooseLevels_of_passes {s : State} {q y2 y3 y4 : Pair Nat} {notes : Pair (Option Constraint)}
    (guard : ∀ sd, y2.get sd = if aimFits s q = false then passGuard s q sd else q.get sd)
    (own : ∀ sd, y3.get sd = if aimFits s y2 = false then passOwn s y2 sd else y2.get sd)
    (spill : ∀ sd, y4.get sd = if aimFits s y3 = false then passSpill s y3 sd else y3.get sd)
    (noted : ∀ sd, notes.get sd =
      if y4.get sd < y3.get sd then blamed s y3 sd
      else if y3.get sd < y2.get sd then blamed s y2 sd
      else if y2.get sd < q.get sd then blamed s q sd
      else none) : chooseLevels s q = (y4, notes) := by
  obtain rfl : y2 = (passUnlessFit s passGuard (q, ⟨none, none⟩)).1 :=
    pair_ext fun sd => (guard sd).trans (passUnlessFit_level s passGuard (q, ⟨none, none⟩) sd).symm
  obtain rfl : y3 = (passUnlessFit s passOwn (passUnlessFit s passGuard (q, ⟨none, none⟩))).1 :=
    pair_ext fun sd => (own sd).trans (passUnlessFit_level s passOwn _ sd).symm
  obtain rfl : y4 = (chooseLevels s q).1 := pair_ext fun sd => by
    rw [chooseLevels_eq]
    exact (spill sd).trans (passUnlessFit_level s passSpill _ sd).symm
  have lowered : (chooseLevels s q).2 = notes := pair_ext fun sd => by
    rw [noted, chooseLevels_eq, passUnlessFit_note, passUnlessFit_note, passUnlessFit_note]
    cases sd <;> rfl
  exact Prod.ext rfl lowered

/-! ### What a tick leaves -/

/-- The requested levels of the lamps that are evaluated (R103). -/
def askedLevels (s : State) : Pair Nat :=
  ⟨if evaluated s .left then (s.lamps.aims.get .left).requested else 0,
    if evaluated s .right then (s.lamps.aims.get .right).requested else 0⟩

/-- The outcome at which a lamp stands after the tick (R107). -/
def tickOutcome (s : State) (v : Pair Nat) (sd : Side) : AimOutcome :=
  if evaluated s sd then classify (s.lamps.aims.get sd).requested (v.get sd) else s.dose.outcome.get sd

/-- The limit note of a lamp after the tick (R107, log 20). -/
def tickNote (s : State) (notes : Pair (Option Constraint)) (sd : Side) : Option Constraint :=
  if evaluated s sd then (notes.get sd).or (s.dose.note.get sd) else s.dose.note.get sd

/-- The tick changes the outcome of a lamp (R107). -/
def outcomeChanges (s : State) (v : Pair Nat) (sd : Side) : Bool :=
  evaluated s sd && decide (classify (s.lamps.aims.get sd).requested (v.get sd) ≠ s.dose.outcome.get sd)

/-- The AIM_GUARD report of a lamp whose outcome changes (R107). -/
def guardReport (s : State) (v : Pair Nat) (notes : Pair (Option Constraint)) (sd : Side) : Body :=
  let entered := classify (s.lamps.aims.get sd).requested (v.get sd)
  .aimGuard sd (s.dose.outcome.get sd) entered (s.lamps.aims.get sd).requested (s.lamps.aims.get sd).guard (v.get sd)
    s.volume.k (if entered = .requested then none else (notes.get sd).map fun c => (c, constraintRoom s c)) s.time.clock

/-- The reports of the tick for some lamps, in their order (log 42). -/
def guardReports (s : State) (v : Pair Nat) (notes : Pair (Option Constraint)) (sides : List Side) : List Body :=
  (sides.filter (outcomeChanges s v)).map (guardReport s v notes)

/-- The state with another dose meter. -/
def withDose (s : State) (d : Dose) : State := { s with dose := d }

theorem withDose_withDose (s : State) (d d' : Dose) : withDose (withDose s d) d' = withDose s d' := rfl

/-- A report is offered by the queue, the lines and the clock alone. -/
theorem offerMinor_withDose (s : State) (d : Dose) (b : Body) :
    offerMinor (withDose s d) b = withDose (offerMinor s b) d := by
  have room : hasMinorRoom (withDose s d) = hasMinorRoom s := rfl
  unfold offerMinor
  rw [room]
  split
  · unfold enqueue
    rw [driveFn_eq, driveFn_eq]
    rfl
  · rfl

theorem foldl_offerMinor_withDose (bodies : List Body) (s : State) (d : Dose) :
    bodies.foldl offerMinor (withDose s d) = withDose (bodies.foldl offerMinor s) d := by
  induction bodies generalizing s with
  | nil => rfl
  | cons b rest ih => rw [List.foldl_cons, offerMinor_withDose, ih, List.foldl_cons]

/-- The dose meter with the outcome and the limit note of one lamp after the tick. -/
def guarded (s : State) (v : Pair Nat) (notes : Pair (Option Constraint)) (sd : Side) (d : Dose) : Dose :=
  { d with outcome := d.outcome.set sd (tickOutcome s v sd), note := d.note.set sd (tickNote s notes sd) }

/-- A lamp's step of the tick, from a state `u` that still has its outcome and note of the tick's start `s`, changes the
two and offers the lamp's report. -/
theorem guardLamp_eq {s u : State} {sd : Side} (v : Pair Nat) (notes : Pair (Option Constraint))
    (outcome : u.dose.outcome.get sd = s.dose.outcome.get sd) (note : u.dose.note.get sd = s.dose.note.get sd) :
    guardLamp s v notes u sd =
      (guardReports s v notes [sd]).foldl offerMinor (withDose u (guarded s v notes sd u.dose)) := by
  cases lit : evaluated s sd with
  | false =>
    have changes : outcomeChanges s v sd = false := by simp [outcomeChanges, lit]
    simp [guardLamp, guardReports, guarded, tickOutcome, tickNote, withDose, lit, changes, ← outcome, ← note,
      pair_set_self]
  | true =>
    by_cases stays : classify (s.lamps.aims.get sd).requested (v.get sd) = s.dose.outcome.get sd
    · have changes : outcomeChanges s v sd = false := by simp [outcomeChanges, stays]
      cases noted : notes.get sd <;>
        simp [guardLamp, guardReports, guarded, tickOutcome, tickNote, withDose, lit, changes, noted, stays, ← outcome,
          ← note, pair_set_self]
    · have changes : outcomeChanges s v sd = true := by simp [outcomeChanges, lit, stays]
      cases noted : notes.get sd <;>
        simp [guardLamp, guardReports, guardReport, guarded, tickOutcome, tickNote, withDose, lit, changes, noted, stays,
          ← note, pair_set_self, now]

theorem foldl_offerMinor_dose (bodies : List Body) (s : State) : (bodies.foldl offerMinor s).dose = s.dose := by simp

/-- Both lamps' steps: the outcomes and notes, and then the reports, AIM_L's first (log 42). -/
theorem foldl_guardLamp_eq {s u : State} (v : Pair Nat) (notes : Pair (Option Constraint))
    (outcome : u.dose.outcome = s.dose.outcome) (note : u.dose.note = s.dose.note) :
    allSides.foldl (guardLamp s v notes) u =
      (guardReports s v notes allSides).foldl offerMinor
        (withDose u (guarded s v notes .right (guarded s v notes .left u.dose))) := by
  have both : guardReports s v notes allSides = guardReports s v notes [.left] ++ guardReports s v notes [.right] := by
    rw [guardReports, guardReports, guardReports, ← List.map_append, ← List.filter_append]
    rfl
  have after : ((guardReports s v notes [.left]).foldl offerMinor (withDose u (guarded s v notes .left u.dose))).dose =
      guarded s v notes .left u.dose := foldl_offerMinor_dose _ _
  have outcomeR : (guarded s v notes .left u.dose).outcome.get .right = s.dose.outcome.get .right :=
    (pair_get_set_ne _ (by decide) _).trans (congrArg (Pair.get · .right) outcome)
  have noteR : (guarded s v notes .left u.dose).note.get .right = s.dose.note.get .right :=
    (pair_get_set_ne _ (by decide) _).trans (congrArg (Pair.get · .right) note)
  rw [foldl_allSides, guardLamp_eq v notes (congrArg (Pair.get · .left) outcome) (congrArg (Pair.get · .left) note),
    guardLamp_eq v notes (by rw [after]; exact outcomeR) (by rw [after]; exact noteR), after, ← foldl_offerMinor_withDose,
    withDose_withDose, ← List.foldl_append, ← both]

/-- The tick without its reports: applied levels, light, outcomes and notes (R103 to R107). -/
def quietTick (s : State) (v : Pair Nat) (notes : Pair (Option Constraint)) : State :=
  { creditLeaf (creditLeaf s s.volume.k (pageCredit s v .left)) (s.volume.k + 1) (pageCredit s v .right) with
    lamps.aims := ⟨{ s.lamps.aims.l with applied := v.l }, { s.lamps.aims.r with applied := v.r }⟩
    dose := guarded s v notes .right (guarded s v notes .left { s.dose with tickLevel := v }) }

/-- The tick is the tick without its reports, and then the reports. -/
theorem aimTickStart_eq {s : State} {v : Pair Nat} {notes : Pair (Option Constraint)}
    (h : chooseLevels s (askedLevels s) = (v, notes)) :
    aimTickStart s = (guardReports s v notes allSides).foldl offerMinor (quietTick s v notes) := by
  have levels : chooseLevels s ⟨if evaluated s .left then (s.lamps.aims.get .left).requested else 0,
      if evaluated s .right then (s.lamps.aims.get .right).requested else 0⟩ = (v, notes) := h
  simp only [aimTickStart, levels]
  exact foldl_guardLamp_eq v notes rfl rfl

/-- The state with the due tick taken. -/
def tickTaken (s : State) : State := { s with time.aimDue := false }

theorem exec_aimTick {s : State} (due : s.time.aimDue = true) : exec .aimTick s = .next (aimTickStart (tickTaken s)) := by
  show execAimTick s = _
  rw [execAimTick, if_pos due, tickTaken]

/-- What reports do to the queue and the lines follows from the queue, the lines and the clock alone. -/
theorem offerMinor_congr {s u : State} (queue : u.queue = s.queue) (lines : u.lines = s.lines)
    (clock : u.time.clock = s.time.clock) (b : Body) :
    (offerMinor u b).queue = (offerMinor s b).queue ∧ (offerMinor u b).lines = (offerMinor s b).lines := by
  have room : hasMinorRoom u = hasMinorRoom s := by rw [hasMinorRoom, hasMinorRoom, queue]
  unfold offerMinor
  rw [room, queue]
  split
  · simp only [enqueue, driveFn_eq, count, clock, lines, and_self]
  · exact ⟨rfl, lines⟩

theorem foldl_offerMinor_congr (bodies : List Body) {s u : State} (queue : u.queue = s.queue) (lines : u.lines = s.lines)
    (clock : u.time.clock = s.time.clock) :
    (bodies.foldl offerMinor u).queue = (bodies.foldl offerMinor s).queue
      ∧ (bodies.foldl offerMinor u).lines = (bodies.foldl offerMinor s).lines := by
  induction bodies generalizing s u with
  | nil => exact ⟨queue, lines⟩
  | cons b rest ih =>
    obtain ⟨queued, drawn⟩ := offerMinor_congr queue lines clock b
    exact ih queued drawn (by simpa using clock)

/-- The dose meter after a tick (R103 to R107). -/
theorem quietTick_dose (s : State) (v : Pair Nat) (notes : Pair (Option Constraint)) :
    (quietTick s v notes).dose = { s.dose with
      outcome := ⟨tickOutcome s v .left, tickOutcome s v .right⟩
      note := ⟨tickNote s notes .left, tickNote s notes .right⟩
      tickLevel := v } := rfl

/-- What a tick gives to the leaves (R106). -/
theorem getLeaf_aimTick {s : State} {v : Pair Nat} {notes : Pair (Option Constraint)} (bodies : List Body)
    (opening : s.volume.k + 1 < s.leaves.length) (i : Nat) :
    getLeaf (bodies.foldl offerMinor (quietTick s v notes)) i = { getLeaf s i with
      dose := (getLeaf s i).dose + ((if i = s.volume.k then pageCredit s v .left else 0)
        + if i = s.volume.k + 1 then pageCredit s v .right else 0) } := by
  have leaves : (bodies.foldl offerMinor (quietTick s v notes)).leaves = (quietTick s v notes).leaves := by simp
  rw [getLeaf, leaves]
  exact getLeaf_creditLeaf_creditLeaf s _ _ _ _ fun lit => by omega

/-- A tick changes nothing but doses on the leaves, and these in the opening alone. -/
theorem aimTick_leaf {s : State} {v : Pair Nat} {notes : Pair (Option Constraint)} (bodies : List Body)
    (opening : s.volume.k + 1 < s.leaves.length) (i : Nat) :
    ∃ d, getLeaf (bodies.foldl offerMinor (quietTick s v notes)) i = { getLeaf s i with dose := d }
      ∧ (i ≠ s.volume.k → i ≠ s.volume.k + 1 → d = (getLeaf s i).dose) :=
  ⟨_, getLeaf_aimTick bodies opening i, fun left right => by simp [left, right]⟩

/-- The dose of the leaf of a page of the opening after a tick. -/
theorem dose_aimTick {s : State} {v : Pair Nat} {notes : Pair (Option Constraint)} (bodies : List Body)
    (opening : s.volume.k + 1 < s.leaves.length) (page : Side) :
    (getLeaf (bodies.foldl offerMinor (quietTick s v notes)) (pageLeaf s.volume.k page)).dose =
      (getLeaf s (pageLeaf s.volume.k page)).dose + pageCredit s v page := by
  rw [getLeaf_aimTick bodies opening]
  cases page <;> simp [pageLeaf]

/-! ### The constraints met -/

/-- A page that does not fail and that gets light keeps the aim reserve below its leaf's ceiling (R104). -/
theorem leaf_room_of_fits {s : State} {v : Pair Nat} (fits : aimFits s v = true) {page : Side}
    (light : 0 < pageCredit s v page) :
    (getLeaf s (pageLeaf s.volume.k page)).dose + pageCredit s v page + outstanding s (pageLeaf s.volume.k page)
      + s.volume.reserve ≤ s.volume.leafCeiling := by
  have met : ¬ pageFails s v page = true := by
    simp only [aimFits, Bool.and_eq_true, Bool.not_eq_true'] at fits
    obtain ⟨⟨left, right⟩, -⟩ := fits
    cases page <;> simp only [left, right, Bool.false_eq_true, not_false_eq_true]
  rw [pageFails_iff, pageUsed] at met
  omega

/-- A tick whose light fits leaves the total under the volume ceiling (R104). -/
theorem volume_room_of_fits {s : State} {v : Pair Nat} (fits : aimFits s v = true)
    (light : 0 < pageCredit s v .left + pageCredit s v .right) :
    s.volume.totalDose + pageCredit s v .left + pageCredit s v .right + outstandingTotal s ≤ s.volume.volumeCeiling := by
  have met : ¬ volumeFails s v = true := by
    simp only [aimFits, Bool.and_eq_true, Bool.not_eq_true'] at fits
    rw [fits.2]
    exact Bool.false_ne_true
  rw [volumeFails_iff, tickCredit] at met
  omega

/-! ### The model's constraints and passes as the statement writes them -/

theorem aimCredit_eq (s : State) (v : Pair Nat) (lamp page : Side) {own : Nat}
    (h : own = if v.get lamp = 0 then 0 else 10 * illuminance (s.dose.aims.get lamp) (v.get lamp)) :
    aimCredit s v lamp page = if lamp = page then own else spillDose own (s.dose.aims.get lamp).spill := by
  have own_eq : aimOwn s lamp (v.get lamp) = own := by rw [h, aimOwn, Nat.mul_comm]
  rw [aimCredit, aimSpill, own_eq]

theorem pageFails_eq (s : State) (v : Pair Nat) (page : Side) : pageFails s v page = decide (0 < pageCredit s v page
    ∧ s.volume.leafCeiling < (getLeaf s (pageLeaf s.volume.k page)).dose + outstanding s (pageLeaf s.volume.k page)
      + pageCredit s v page + s.volume.reserve) :=
  Bool.eq_iff_iff.mpr ((pageFails_iff s v page).trans decide_eq_true_iff.symm)

theorem volumeFails_eq (s : State) (v : Pair Nat) : volumeFails s v = decide (0 < tickCredit s v
    ∧ s.volume.volumeCeiling < s.volume.totalDose + outstandingTotal s + tickCredit s v) :=
  Bool.eq_iff_iff.mpr ((volumeFails_iff s v).trans decide_eq_true_iff.symm)

theorem contributesAny_eq (s : State) (v : Pair Nat) (lamp : Side) :
    contributesAny s v lamp = decide (0 < aimCredit s v lamp .left + aimCredit s v lamp .right) := by
  rw [contributesAny, contributes, contributes, ← Bool.decide_or]
  exact decide_eq_decide.mpr (by omega)

theorem blamed_eq (s : State) (v : Pair Nat) (lamp : Side) : blamed s v lamp =
    if pageFails s v .left = true ∧ 0 < aimCredit s v lamp .left then some (.leaf (pageLeaf s.volume.k .left))
    else if pageFails s v .right = true ∧ 0 < aimCredit s v lamp .right then some (.leaf (pageLeaf s.volume.k .right))
    else if volumeFails s v = true ∧ contributesAny s v lamp = true then some .volume
    else none := by
  simp only [blamed, contributes, Bool.and_eq_true, decide_eq_true_eq, pageLeaf]

theorem passOwn_eq (s : State) (v : Pair Nat) (lamp : Side) : passOwn s v lamp =
    if pageFails s v lamp = true ∧ 0 < aimCredit s v lamp lamp ∨ volumeFails s v = true ∧ contributesAny s v lamp = true
      then 0 else v.get lamp := by
  simp only [passOwn, contributes, Bool.or_eq_true, Bool.and_eq_true, decide_eq_true_eq]

theorem passSpill_eq (s : State) (v : Pair Nat) (lamp : Side) : passSpill s v lamp =
    if pageFails s v .left = true ∧ 0 < aimCredit s v lamp .left
        ∨ pageFails s v .right = true ∧ 0 < aimCredit s v lamp .right
      then 0 else v.get lamp := by
  simp only [passSpill, contributes, allSides, List.any_cons, List.any_nil, Bool.or_false, Bool.or_eq_true,
    Bool.and_eq_true, decide_eq_true_eq]

/-- A pass is made under one condition for the candidates and one for the lamp. -/
theorem pass_eq {fits : Bool} {p : Prop} [Decidable p] (a b : Nat) :
    (if fits = false then (if p then a else b) else b) = if fits = false ∧ p then a else b := by
  rw [ite_and]

end Sys2Proof.Machine

namespace Sys2Proof
open Machine

/-- Settles O51: the levels are those of the model's passes; the tick is its light, outcomes and notes, and then its
reports, which change the queue and the lines alone. -/
theorem aimTickCreditsWhatFits : Obligations.AimTickCreditsWhatFits := by
  intro s q y2 y3 y4 leaf credit leafFails totalFails fits touches blame note outcome room bodies due opening hleaf hq
    hcredit hleafFails htotalFails hfits htouches hblame hy2 hy3 hy4 hnote houtcome hroomLeaf hroomVolume hbodies
  obtain rfl : q = askedLevels (tickTaken s) := pair_ext fun sd => (hq sd).trans (by cases sd <;> rfl)
  obtain rfl : leaf = pageLeaf s.volume.k := funext fun page => (hleaf page).trans (by cases page <;> rfl)
  obtain rfl : credit = aimCredit (tickTaken s) := funext fun v => funext fun lamp => funext fun page =>
    (hcredit v lamp page _ rfl).trans (aimCredit_eq (tickTaken s) v lamp page rfl).symm
  obtain rfl : leafFails = pageFails (tickTaken s) := funext fun v => funext fun page =>
    (hleafFails v page _ rfl).trans (pageFails_eq (tickTaken s) v page).symm
  obtain rfl : totalFails = volumeFails (tickTaken s) := funext fun v =>
    (htotalFails v _ rfl).trans (volumeFails_eq (tickTaken s) v).symm
  obtain rfl : fits = aimFits (tickTaken s) := funext hfits
  obtain rfl : touches = contributesAny (tickTaken s) := funext fun v => funext fun lamp =>
    (htouches v lamp).trans (contributesAny_eq (tickTaken s) v lamp).symm
  obtain rfl : blame = blamed (tickTaken s) := funext fun v => funext fun lamp =>
    (hblame v lamp).trans (blamed_eq (tickTaken s) v lamp).symm
  obtain rfl : outcome = fun sd => classify (s.lamps.aims.get sd).requested (y4.get sd) := funext houtcome
  obtain rfl : room = constraintRoom (tickTaken s) := funext fun c => by
    cases c with
    | leaf i => exact hroomLeaf i
    | volume => exact hroomVolume
  obtain ⟨notes, rfl⟩ : ∃ notes : Pair (Option Constraint), note = notes.get :=
    ⟨⟨note .left, note .right⟩, funext fun sd => (pair_get_mk note sd).symm⟩
  have chosen : chooseLevels (tickTaken s) (askedLevels (tickTaken s)) = (y4, notes) := by
    refine chooseLevels_of_passes (fun sd => ?_) (fun sd => ?_) (fun sd => ?_) hnote
    · rw [passGuard, pass_eq]; exact hy2 sd
    · rw [passOwn_eq, pass_eq]; exact hy3 sd
    · rw [passSpill_eq, pass_eq]; exact hy4 sd
  have fits : aimFits (tickTaken s) y4 = true := by
    simpa only [chosen] using chooseLevels_fits (tickTaken s) (askedLevels (tickTaken s))
  have reports : bodies = guardReports (tickTaken s) y4 notes allSides := by
    rw [hbodies, guardReports]
    rfl
  have after := aimTickStart_eq chosen
  rw [← reports] at after
  have opened : (tickTaken s).volume.k + 1 < (tickTaken s).leaves.length := opening
  have doseLeft := dose_aimTick (v := y4) (notes := notes) bodies opened .left
  have doseRight := dose_aimTick (v := y4) (notes := notes) bodies opened .right
  obtain ⟨queue, lines⟩ := foldl_offerMinor_congr bodies (s := s)
    (u := quietTick (tickTaken s) y4 notes) rfl rfl rfl
  obtain ⟨time, link, volume, -, motion, lamps, dose, seq, safe, -⟩ :=
    foldl_offerMinor_frame bodies (quietTick (tickTaken s) y4 notes)
  have plan := foldl_keeps State.plan offerMinor (fun u b => by simp) bodies
    (quietTick (tickTaken s) y4 notes)
  refine ⟨_, (exec_aimTick due).trans (congrArg _ after), fits, fun sd => ?_,
    ⟨pageCredit (tickTaken s) y4 .left, pageCredit (tickTaken s) y4 .right, rfl, Nat.add_comm _ _, doseLeft, doseRight,
      volume, fun lit => ?_, fun lit => ?_, fun lit => ?_⟩,
    aimTick_leaf bodies opened, fun sd => ?_, fun sd => ?_, queue, lines, ?_, time, link, plan, motion, seq, safe, ?_⟩
  · rw [lamps]
    cases sd <;> rfl
  · exact (congrArg (· + _ + _) doseLeft).trans_le (leaf_room_of_fits fits lit)
  · exact (congrArg (· + _ + _) doseRight).trans_le (leaf_room_of_fits fits lit)
  · rw [volume]
    exact volume_room_of_fits fits lit
  · rw [dose, quietTick_dose]
    exact pair_get_mk (tickOutcome (tickTaken s) y4) sd
  · rw [dose, quietTick_dose]
    exact pair_get_mk (tickNote (tickTaken s) notes) sd
  · rw [dose]
    rfl
  · rw [lamps]
    rfl

end Sys2Proof
end

