-- ==== Sys2Proof/Proofs/Holds.lean ====
section
/-! The hoods that a hold or the safe state stops, and the hold with its release (R59, R60, R84, R126, R158). -/
namespace Sys2Proof.Machine

/-! ### What a stop does to the banks and the sides -/

/-- A bank as a hold or the safe state leaves it: its request is cleared, and its hood closes unless a lighting interval
defers that (R83, R84). -/
def stoppedBank (s : State) (bk : Bank) : BankRec :=
  { getBank s bk with
    hoodRequest := none
    hood := if s.lamps.interval = none then closeHood s.time.clock (getBank s bk).hood else (getBank s bk).hood }

theorem getBank_stopHoods (s : State) (bk : Bank) : getBank (stopHoods s) bk = stoppedBank s bk := by
  unfold stopHoods stoppedBank
  cases h : s.lamps.interval with
  | none => cases bk <;> simp [closeBankHoods_eq, h] <;> rfl
  | some n => cases bk <;> simp [h] <;> rfl

/-- During a lighting interval the close of the hoods waits for its end (R84). -/
theorem stopHoods_closePending {s : State} (h : s.lamps.interval.isSome = true) :
    (stopHoods s).lamps.closePending = true := by
  simp [stopHoods, h]

/-- A side without a sync ends, as the statements write it (R126, R127). -/
theorem endUnsynced_eq (o : SideOutcome) : endUnsynced o = fun x =>
    if x.stage = .arming ∨ x.stage = .waiting then { x with stage := .ended o } else x := by
  funext x
  unfold endUnsynced
  cases h : x.stage <;> simp

/-- A stopped side neither arms nor waits. -/
theorem endUnsynced_stage (o : SideOutcome) (x : SideRec) :
    (endUnsynced o x).stage ≠ .arming ∧ (endUnsynced o x).stage ≠ .waiting := by
  unfold endUnsynced
  cases h : x.stage <;> simp [h]

theorem get_mapSides (f : SideRec → SideRec) (c : Capture) (sd : Side) :
    (mapSides f c).sides.get sd = (c.sides.get sd).map f := by
  cases sd <;> rfl

/-! ### A major report without a reservation -/

theorem hasRoom_iff (s : State) : hasRoom s = true ↔ s.queue.reports.length + s.queue.reserved < 64 :=
  decide_eq_true_iff

@[simp] theorem lasting_offerMajor (s : State) (b : Body) : lasting (offerMajor s b) = lasting s := by
  obtain ⟨-, h⟩ | ⟨-, h⟩ := offerMajor_cases b s <;> rw [h]
  exact lasting_enqueue _ _ _

/-- A report does not change what a function reads. -/
theorem fnActive_offerMajor (s : State) (b : Body) : fnActive (offerMajor s b) = fnActive s :=
  funext fun f => fnActive_lasting (lasting_offerMajor s b) (by simp) f

/-- A report leaves the motion controller out of account. -/
theorem offerMajor_withMotion (s : State) (m : Motion) (b : Body) :
    offerMajor { s with motion := m } b = { offerMajor s b with motion := m } := by
  cases h : hasRoom s with
  | true =>
    rw [offerMajor, offerMajor, if_pos (by exact h), if_pos h, enqueue, enqueue, driveFn_eq, driveFn_eq]
    rfl
  | false => rw [offerMajor, offerMajor, if_neg (by exact ne_true_of_eq_false h), if_neg (ne_true_of_eq_false h)]

/-! ### The hold -/

/-- The motion controller under a hold: the turn is HELD, the air is shut, and the platen stands still, but for a safe raise
(R59). -/
def heldMotion (s : State) : Motion :=
  { s.motion with
    turn := s.motion.turn.map fun x => { x with held := true, deadline := none }
    air := false, plateDeadline := none
    platen := if platenIn s [.lowering, .pressing] || platenIn s [.raising] && !s.motion.safeRaise
      then .stopped else s.motion.platen
    platenDeadline := if platenIn s [.lowering, .pressing] || platenIn s [.raising] && !s.motion.safeRaise
      then none else s.motion.platenDeadline
    safeRaise := s.motion.safeRaise && !platenIn s [.lowering, .pressing]
    raisePending := s.motion.raisePending || platenIn s [.raising] && !s.motion.safeRaise }

theorem holdMotion_eq (s : State) : holdMotion s = { s with motion := heldMotion s } := by
  unfold holdMotion heldMotion platenIn
  cases h : s.motion.platen with
  | lowering | pressing => simp [stopPlaten, modifyTurn]
  | raising => cases g : s.motion.safeRaise <;> simp [stopPlaten, modifyTurn, h, g]
  | raised | down | stopped => simp [modifyTurn, h]

/-- The capture under a hold: a side without a sync is aborted, and the arming timeout is over (R126). -/
def heldCapture (c : Capture) : Capture := { mapSides (endUnsynced .abortedHold) c with deadline := none }

/-- What a hold puts in force, block by block (R158). -/
theorem holdOn_eq (s : State) (i t : Nat) : holdOn s i t = stopHoods
    { offerMajor { s with lines.hold := some ⟨i, t⟩ } (.holdOn i t) with
      motion := heldMotion s, seq.capture := s.seq.capture.map heldCapture } := by
  rw [holdOn, holdMotion_eq, holdCapture]
  simp [heldMotion, platenIn]
  rfl


/-! ### The release of a hold -/

/-- The plates' timeout at the release of a hold: that of an adjustment that runs by itself starts afresh (R60). -/
def releasedDeadline (s : State) : Option Nat :=
  if s.motion.plateState = .moving ∧ (∀ x, s.motion.turn = some x → x.stage ≠ .adjust)
  then some (s.time.clock + 3000000) else s.motion.plateDeadline

theorem releaseMotion_eq (s : State) : releaseMotion s =
    if s.motion.raisePending then startRaise { s with motion.plateDeadline := releasedDeadline s } false
    else { s with motion.plateDeadline := releasedDeadline s } := by
  have standalone : (adjusting s && !turnStage s .adjust) = true ↔
      s.motion.plateState = .moving ∧ ∀ x, s.motion.turn = some x → x.stage ≠ .adjust := by
    cases ht : s.motion.turn <;> simp [adjusting, turnStage, ht]
  unfold releaseMotion releasedDeadline
  simp only [standalone]
  split <;> rfl

/-- A hold that is released has its report, and the plates' timeout (R60, R158). -/
def released (s : State) (i t : Nat) (h : Hold) : State :=
  offerMajor { s with lines.hold := none, motion.plateDeadline := releasedDeadline s } (.holdOff i t ((t - h.since) / 1000))

theorem fnActive_released (s : State) (i t : Nat) (h : Hold) : fnActive (released s i t h) = fnActive s :=
  fnActive_offerMajor _ _

theorem released_clock (s : State) (i t : Nat) (h : Hold) : (released s i t h).time.clock = s.time.clock := by
  simp [released]

/-- The release reports, and then starts the raise that the hold deferred (R60). -/
theorem holdOff_eq (s : State) (i t : Nat) (h : Hold) : holdOff s i t h =
    if s.motion.raisePending then startRaise (released s i t h) false else released s i t h := by
  have motion : (offerMajor { s with lines.hold := none } (.holdOff i t (elapsedMs h.since t))).motion = s.motion := by
    simp
  have deadline : releasedDeadline (offerMajor { s with lines.hold := none } (.holdOff i t (elapsedMs h.since t)))
      = releasedDeadline s := by simp [releasedDeadline]
  have reported := offerMajor_withMotion { s with lines.hold := none }
    { s.motion with plateDeadline := releasedDeadline s } (.holdOff i t (elapsedMs h.since t))
  rw [holdOff, releaseMotion_eq, deadline, motion, ← reported]
  rfl

/-- The hold group, as the statement writes it (R158). -/
theorem groupActive_eq (s : State) : groupActive s = (s.lines.records.any fun x =>
    decide (x.dir = .inp) && x.hold && (if x.polarity = .risingHigh then x.level else !x.level)) := by
  unfold groupActive
  congr 1
  funext x
  unfold lineHolds lineActive
  cases x.polarity <;> rfl

end Sys2Proof.Machine

namespace Sys2Proof
open Machine

/-- Settles O60: the blocks take a hold one after another, each from the state the others leave out of account, and its
release reports before the deferred raise starts. -/
theorem aHoldStopsTheCradleAndReleasesIt : Obligations.AHoldStopsTheCradleAndReleasesIt := by
  refine ⟨fun s u i t hu => ?_, fun s h i t w _ hw => ?_, fun s i t active hactive => ?_⟩
  · have hold : u.lines.hold = some ⟨i, t⟩ := by rw [hu, holdOn_eq]; simp
    have motion : u.motion = heldMotion s := by rw [hu, holdOn_eq]; simp
    have capture : u.seq.capture = s.seq.capture.map heldCapture := by rw [hu, holdOn_eq]; simp
    have bank : ∀ bk, getBank u bk = stoppedBank s bk := fun bk => by
      rw [hu, holdOn_eq, getBank_stopHoods]
      simp [stoppedBank, getBank]
    refine ⟨hold, fun room => ?_, motion, fun c sd x hc hx => ?_, fun c sd x hc hx => ?_, fun bk => ?_, ?_⟩
    · rw [hu, holdOn_eq]
      simp [offerMajor, (hasRoom_iff { s with lines.hold := some ⟨i, t⟩ }).mpr room]
      rfl
    · obtain ⟨b, -, rfl⟩ := Option.map_eq_some_iff.mp (capture.symm.trans hc)
      obtain ⟨y, -, rfl⟩ := Option.map_eq_some_iff.mp ((get_mapSides _ b sd).symm.trans hx)
      exact endUnsynced_stage _ y
    · refine ⟨heldCapture c, by rw [capture, hc]; rfl, (get_mapSides _ c sd).trans ?_⟩
      rw [hx, endUnsynced_eq]
      rfl
    · rw [bank]
      exact ⟨rfl, rfl⟩
    · subst hu
      simp
  · obtain rfl : w = released s i t h := hw
    rw [holdOff_eq, startRaise, now, fnActive_released, released_clock]
    rfl
  · rw [hactive, ← groupActive_eq]
    unfold evalHold
    cases s.lines.hold <;> rfl

end Sys2Proof
end

