-- ==== Sys2Proof/Proofs/SafeEntry.lean ====
section
/-! A fault and the entry to the safe state, block by block, and the reports that come of it (R58, R63, R84, R123, R125, R127,
R163 to R166). -/
namespace Sys2Proof.Machine

/-! ### Reports that enter one after another -/

/-- From `s` to `t` the reports `bodies` have entered the queue one after another at one moment, and `freed` reserved slots have
been freed (R181, R182). -/
structure Reported (s t : State) (bodies : List Body) (freed : Nat) : Prop where
  clock : t.time.clock = s.time.clock
  reports : t.queue.reports = s.queue.reports ++ entered s bodies
  lastSeq : t.queue.lastSeq % 65536 = (s.queue.lastSeq + bodies.length) % 65536
  reserved : t.queue.reserved = s.queue.reserved - freed
  missed : t.queue.missed = s.queue.missed

/-- Reports that enter after others go on with their numbers. -/
theorem entered_append {s t : State} {bs : List Body} (clock : t.time.clock = s.time.clock)
    (lastSeq : t.queue.lastSeq % 65536 = (s.queue.lastSeq + bs.length) % 65536) (cs : List Body) :
    entered s (bs ++ cs) = entered s bs ++ entered t cs := by
  have number : ∀ i, (t.queue.lastSeq + 1 + i) % 65536 = (s.queue.lastSeq + 1 + (bs.length + i)) % 65536 := fun i => by
    omega
  simp only [entered, List.zipIdx_append, List.map_append, clock, number]
  rw [List.append_cancel_left_eq, Nat.zero_add, List.zipIdx_eq_map_add, List.map_map]
  exact List.map_congr_left fun x _ => by simp [Nat.add_comm]

namespace Reported
variable {s t u : State} {bs cs : List Body} {m n : Nat}

theorem of_queue (clock : t.time.clock = s.time.clock) (queue : t.queue = s.queue) : Reported s t [] 0 :=
  ⟨clock, by simp [queue, entered], by simp [queue], by simp [queue], by simp [queue]⟩

theorem trans (h : Reported s t bs m) (g : Reported t u cs n) : Reported s u (bs ++ cs) (m + n) where
  clock := g.clock.trans h.clock
  reports := by rw [g.reports, h.reports, entered_append h.clock h.lastSeq, List.append_assoc]
  lastSeq := by
    have first := h.lastSeq
    have second := g.lastSeq
    rw [List.length_append]
    omega
  reserved := by rw [g.reserved, h.reserved, Nat.sub_sub]
  missed := g.missed.trans h.missed

/-- What follows leaves the clock and the queue as they are. -/
theorem then_eq (h : Reported s t bs n) (clock : u.time.clock = t.time.clock) (queue : u.queue = t.queue) :
    Reported s u bs n := by
  simpa using h.trans (of_queue clock queue)

theorem enqueue (s : State) (b : Body) : Reported s (Machine.enqueue s b 0) [b] 0 :=
  ⟨by simp, by simp [entered, count, stamp, timebaseModulus], by simp, by simp, by simp⟩

theorem enterReserved (s : State) (b : Body) : Reported s (Machine.enterReserved s b) [b] 1 :=
  ⟨by simp, by simp [entered, count, stamp, timebaseModulus], by simp, by simp, by simp⟩

/-- Each waiting order has its record, in the order of the queue (R127). -/
theorem flushOrders (os : List Order) (s : State) :
    Reported s (os.foldl flushOrder s) (os.map fun o => .capture (flushedRecord o)) os.length := by
  induction os generalizing s with
  | nil => exact of_queue rfl rfl
  | cons o os ih =>
    have first : Reported s (flushOrder s o) [.capture (flushedRecord o)] 1 := enterReserved s _
    rw [List.length_cons, Nat.add_comm]
    exact first.trans (ih _)

end Reported

/-! ### The record and the report of a fault -/

/-- The list of faults after one more, and the count of those that find no place (R163). -/
theorem recordFault_safe (s : State) (r : FaultRec) : (recordFault s r).safe =
    { s.safe with
      faults := if s.safe.faults.length < 8 then s.safe.faults ++ [r] else s.safe.faults
      further := if s.safe.faults.length < 8 then s.safe.further
        else if s.safe.further < 255 then s.safe.further + 1 else 255 } := by
  unfold recordFault satSucc
  rw [show Config.faultCapacity = 8 from rfl]
  split <;> rfl

theorem hasRoom_recordFault (s : State) (r : FaultRec) : hasRoom (recordFault s r) = hasRoom s := by
  simp [hasRoom]

/-- The first fault of an episode, recorded and reported before its entry is handed to the blocks (R164, R165). -/
def episodeBegun (s : State) (k : FaultKind) (bk : Option Bank) : State :=
  offerFirstFault
    { recordFault s (faultRecord s k bk) with safe.flag := true, safe.episodeStart := some (now s) }
    (faultReport s (faultRecord s k bk))

theorem episodeBegun_safe (s : State) (k : FaultKind) (bk : Option Bank) : (episodeBegun s k bk).safe =
    { (recordFault s (faultRecord s k bk)).safe with
      flag := true, episodeStart := some s.time.clock
      pendingFirst := if hasRoom s then s.safe.pendingFirst else some (faultReport s (faultRecord s k bk)) } := by
  have room : hasRoom s = hasRoom { recordFault s (faultRecord s k bk) with
      safe.flag := true, safe.episodeStart := some (now s) } := (hasRoom_recordFault s _).symm
  rw [episodeBegun, offerFirstFault, room]
  split
  · simp [recordFault_safe, now]
  · rfl

/-- The first report of an episode enters the queue where it finds room (R165). -/
theorem episodeBegun_reported (s : State) (k : FaultKind) (bk : Option Bank) : Reported s (episodeBegun s k bk)
    (if hasRoom s then [.fault (faultReport s (faultRecord s k bk))] else []) 0 := by
  have room : hasRoom s = hasRoom { recordFault s (faultRecord s k bk) with
      safe.flag := true, safe.episodeStart := some (now s) } := (hasRoom_recordFault s _).symm
  have recorded : Reported s { recordFault s (faultRecord s k bk) with
      safe.flag := true, safe.episodeStart := some (now s) } [] 0 := .of_queue (by simp) (by simp)
  rw [episodeBegun, offerFirstFault, room]
  split
  · exact recorded.trans (.enqueue _ _)
  · exact recorded.then_eq rfl rfl

@[simp] theorem episodeBegun_frame (s : State) (k : FaultKind) (bk : Option Bank) :
    (episodeBegun s k bk).time = s.time ∧ (episodeBegun s k bk).link = s.link ∧
    (episodeBegun s k bk).volume = s.volume ∧ (episodeBegun s k bk).leaves = s.leaves ∧
    (episodeBegun s k bk).plan = s.plan ∧ (episodeBegun s k bk).motion = s.motion ∧
    (episodeBegun s k bk).lamps = s.lamps ∧ (episodeBegun s k bk).dose = s.dose ∧
    (episodeBegun s k bk).seq = s.seq := by
  simp [episodeBegun]

/-! ### The turn and the platen -/

/-- The suction that the safe state keeps on, for a leaf that may hang on the arm (R63). -/
def keptSuction (s : State) : Bool := s.motion.suction && s.motion.turn.any fun u =>
  decide (u.stage = .grip) || decide (u.stage = .sweep) || decide (u.stage = .release)

/-- The opening stays KNOWN where no turn is in flight, or one that has no leaf yet (R62, R63). -/
def knownAfter (s : State) : Bool := s.volume.known && s.motion.turn.all fun u =>
  decide (u.stage = .raise) || decide (u.stage = .air) || decide (u.stage = .reach)

/-- The TURN report of a turn that the safe state abandons (R58). -/
def abandonedReport (s : State) (k : FaultKind) (u : Turn) : TurnReport :=
  { seq := u.seq, direction := u.direction, origin := u.origin, outcome := .abandonedSafe
    stage := some (u.stage, u.recovery), fault := some k, oldOpening := u.oldOpening
    k := s.volume.k, known := knownAfter s, leaf := u.leaf, handled := (getLeaf s u.leaf).handled
    attempts := u.attempts, doublePicks := u.doublePicks, limits := u.limits, keptOn := keptSuction s
    start := u.start, finish := s.time.clock }

/-- The motion controller once the turn is abandoned: the arm drive is left unpowered (R63). -/
def abandonedMotion (s : State) : Motion :=
  if s.motion.turn.isSome then
    { s.motion with turn := none, suction := keptSuction s, keptOn := keptSuction s, armPowered := false }
  else s.motion

theorem mayGrip_eq (g : Stage) : mayGrip g = (decide (g = .grip) || decide (g = .sweep) || decide (g = .release)) := by
  cases g <;> rfl

/-- The safe state abandons a turn in flight, with its report (R58, R63). -/
theorem abandonSafe_eq {s : State} {u : Turn} (h : s.motion.turn = some u) (k : FaultKind) : abandonSafe s k =
    restartIdle (enterReserved
      { s with volume.known := knownAfter s, motion := abandonedMotion s } (.turn (abandonedReport s k u))) := by
  simp only [abandonSafe, h, endTurn, turnReport, mayGrip_eq, beforeGrip_eq]
  simp [knownAfter, abandonedMotion, abandonedReport, keptSuction, h, now, getLeaf]

theorem abandonSafe_reported (s : State) (k : FaultKind) : Reported s (abandonSafe s k)
    (s.motion.turn.toList.map fun u => .turn (abandonedReport s k u)) (if s.motion.turn.isSome then 1 else 0) := by
  cases h : s.motion.turn with
  | none => exact .of_queue (by simp) (by simp [abandonSafe, h])
  | some u =>
    rw [abandonSafe_eq h]
    have known : Reported s { s with volume.known := knownAfter s, motion := abandonedMotion s } [] 0 := .of_queue rfl rfl
    exact (known.trans (.enterReserved _ _)).then_eq (by simp) (by simp)

theorem abandonSafe_motion (s : State) (k : FaultKind) : (abandonSafe s k).motion = abandonedMotion s := by
  cases h : s.motion.turn with
  | none => simp [abandonSafe, abandonedMotion, h]
  | some u => simp [abandonSafe_eq h]

theorem abandonSafe_volume (s : State) (k : FaultKind) :
    (abandonSafe s k).volume = { s.volume with known := knownAfter s } := by
  cases h : s.motion.turn with
  | none => simp [abandonSafe, knownAfter, h]
  | some u => simp [abandonSafe_eq h]

/-- The motion controller in the safe state, before the platen is raised (R63). -/
def stoppedMotion (s : State) : Motion :=
  { abandonedMotion s with
    air := false
    plateState := if s.motion.plateState = .moving then .unsettled else s.motion.plateState
    plateDeadline := none, raisePending := false }

/-- The motion controller in the safe state: a platen that is neither RAISED nor RAISING is raised (R63; log 13). -/
def safedMotion (s : State) : Motion :=
  if s.motion.platen = .raised ∨ s.motion.platen = .raising then stoppedMotion s
  else
    { stoppedMotion s with
      platen := if fnActive s .platenTop then .raised else .raising
      platenDeadline := if fnActive s .platenTop then none else some (s.time.clock + 3000000)
      safeRaise := !fnActive s .platenTop, dwell := none, dwellDeferred := false }

theorem safeMotion_eq (s : State) (k : FaultKind) :
    safeMotion s k = { abandonSafe s k with motion := safedMotion s } := by
  have active : fnActive (abandonSafe s k) .platenTop = fnActive s .platenTop := by rw [(abandonSafe_stays s k).1]
  have platen : (abandonedMotion s).platen = s.motion.platen ∧ (abandonedMotion s).plateState = s.motion.plateState := by
    unfold abandonedMotion
    split <;> exact ⟨rfl, rfl⟩
  have stopped : { (abandonSafe s k).motion with
      air := false
      plateState := if (abandonSafe s k).motion.plateState = .moving then .unsettled else (abandonSafe s k).motion.plateState
      plateDeadline := none, raisePending := false } = stoppedMotion s := by
    rw [abandonSafe_motion, platen.2, stoppedMotion]
  have raised : startRaise { abandonSafe s k with motion := stoppedMotion s } true = { abandonSafe s k with motion :=
      { stoppedMotion s with
        platen := if fnActive s .platenTop then .raised else .raising
        platenDeadline := if fnActive s .platenTop then none else some (s.time.clock + 3000000)
        safeRaise := !fnActive s .platenTop, dwell := none, dwellDeferred := false } } := by
    rw [← active, ← (abandonSafe_frame k s).1]
    rfl
  unfold safeMotion
  dsimp only
  rw [stopped, raised, safedMotion]
  have kept : (abandonSafe s k).motion.platen = s.motion.platen := by rw [abandonSafe_motion, platen.1]
  rw [kept]
  cases s.motion.platen <;> simp

/-- With the platen RAISED or RAISING no raise was deferred, and the safe raise carries out one that was (R48). -/
theorem safedMotion_dwellDeferred {s : State} (h : platenInv s) : (safedMotion s).dwellDeferred = false := by
  obtain ⟨-, raised, -⟩ := h
  unfold safedMotion
  split
  next platen =>
    have kept : (stoppedMotion s).dwellDeferred = s.motion.dwellDeferred := by
      unfold stoppedMotion abandonedMotion
      split <;> rfl
    exact kept.trans (raised platen).2
  next => rfl

/-! ### The capture in flight -/

/-- The capture in the safe state: a side without a sync is aborted, and the arming timeout is over (R127). -/
def safedCapture (c : Capture) : Capture := { mapSides (endUnsynced .abortedSafe) c with deadline := none }

/-- The sides without a sync are aborted, and nothing else has happened yet (R127). -/
def unsynced (s : State) : State := { s with seq.capture := s.seq.capture.map safedCapture }

/-- The sequencer's safe behaviour before it flushes the orders. -/
def captureStopped (s : State) : State :=
  match (unsynced s).seq.capture with
  | none => unsynced s
  | some c => if captureDone (unsynced s) c then endCapture (unsynced s) c else unsynced s

theorem safeSequencer_eq (s : State) : safeSequencer s =
    { (captureStopped s).seq.orders.foldl flushOrder (captureStopped s) with seq.orders := [] } := rfl

/-- The capture that the safe state ends, where there is one. -/
def endedBySafe (s : State) : List Capture := (s.seq.capture.map safedCapture).toList.filter (captureOver s)

/-- With no raise deferred, the end of the capture carries out nothing else. -/
theorem captureStopped_cases {s : State} (h : s.motion.dwellDeferred = false) :
    endedBySafe s = [] ∧ captureStopped s = unsynced s
    ∨ ∃ c, endedBySafe s = [c] ∧ captureStopped s = captureEnded (unsynced s) c := by
  unfold endedBySafe captureStopped
  rw [show (unsynced s).seq.capture = s.seq.capture.map safedCapture from rfl]
  cases s.seq.capture.map safedCapture with
  | none => exact .inl ⟨rfl, rfl⟩
  | some c =>
    have test : captureDone (unsynced s) c = captureOver s c := captureDone_eq _ c
    cases finished : captureOver s c with
    | false => exact .inl ⟨by simp [finished], by simp [test, finished]⟩
    | true =>
      have done := test.trans finished
      have carried : carryOutDwell (captureEnded (unsynced s) c) = captureEnded (unsynced s) c := by
        rw [carryOutDwell, (captureEnded_frame _ c).1]
        exact if_neg (ne_true_of_eq_false h)
      refine .inr ⟨c, by simp [finished], ?_⟩
      simp only [done, if_true]
      rw [endCapture_eq (Bool.and_eq_true_iff.mp done).1, carried]

theorem withdrawn_frame (s : State) (c : Capture) (bk : Bank) :
    (withdrawn s c bk).hood = (getBank s bk).hood ∧ (withdrawn s c bk).state = (getBank s bk).state := by
  unfold withdrawn
  split <;> exact ⟨rfl, rfl⟩

section
variable {s : State} (h : s.motion.dwellDeferred = false)
include h

theorem captureStopped_reported : Reported s (captureStopped s)
    ((endedBySafe s).map fun c => .capture (endedRecord s c)) (endedBySafe s).length := by
  have aborted : Reported s (unsynced s) [] 0 := .of_queue rfl rfl
  obtain ⟨none, eq⟩ | ⟨c, one, eq⟩ := captureStopped_cases h
  · rw [none, eq]
    exact aborted
  · rw [one, eq]
    exact (aborted.trans (.enterReserved _ _)).then_eq rfl rfl

/-- What the end of a capture by the safe state counts, and what it leaves of the capture and of its prediction (R90, R123). -/
theorem captureStopped_capture :
    (captureStopped s).seq = { s.seq with
      capture := if endedBySafe s = [] then s.seq.capture.map safedCapture else none }
    ∧ (captureStopped s).volume = { s.volume with
        sidesFailed := s.volume.sidesFailed + ((endedBySafe s).map failedSides).sum }
    ∧ (captureStopped s).dose =
        (if endedBySafe s = [] then s.dose else { s.dose with prediction := none, credit := ⟨0, 0⟩ }) := by
  obtain ⟨none, eq⟩ | ⟨c, one, eq⟩ := captureStopped_cases h
  · rw [none, eq]
    exact ⟨rfl, rfl, rfl⟩
  · rw [one, eq]
    simp [captureEnded, unsynced]

/-- The motion controller and the hoods stand as they did. -/
theorem captureStopped_frame :
    (captureStopped s).motion = s.motion
    ∧ ∀ bk, (getBank (captureStopped s) bk).hood = (getBank s bk).hood
        ∧ (getBank (captureStopped s) bk).state = (getBank s bk).state := by
  obtain ⟨-, eq⟩ | ⟨c, -, eq⟩ := captureStopped_cases h
  · rw [eq]
    exact ⟨rfl, fun _ => ⟨rfl, rfl⟩⟩
  · rw [eq]
    refine ⟨(captureEnded_frame _ c).1, fun bk => ?_⟩
    have bank : getBank (captureEnded (unsynced s) c) bk = withdrawn s c bk := by cases bk <;> rfl
    rw [bank]
    exact withdrawn_frame s c bk

end

/-! ### The entry as a whole -/

/-- The state that the lamp controller finds, once the others have taken the entry to the safe state. -/
theorem safeSequencer_of_calm {s : State} (h : s.motion.dwellDeferred = false) :
    Reported s (safeSequencer s)
      (((endedBySafe s).map fun c => .capture (endedRecord s c))
        ++ s.seq.orders.map fun o => .capture (flushedRecord o))
      ((endedBySafe s).length + s.seq.orders.length)
    ∧ (safeSequencer s).seq = { s.seq with
        orders := [], capture := if endedBySafe s = [] then s.seq.capture.map safedCapture else none }
    ∧ (safeSequencer s).volume = { s.volume with
        sidesFailed := s.volume.sidesFailed + ((endedBySafe s).map failedSides).sum }
    ∧ (safeSequencer s).dose =
        (if endedBySafe s = [] then s.dose else { s.dose with prediction := none, credit := ⟨0, 0⟩ })
    ∧ (safeSequencer s).motion = s.motion
    ∧ ∀ bk, (getBank (safeSequencer s) bk).hood = (getBank s bk).hood
        ∧ (getBank (safeSequencer s) bk).state = (getBank s bk).state := by
  obtain ⟨seq, volume, dose⟩ := captureStopped_capture h
  obtain ⟨motion, bank⟩ := captureStopped_frame h
  have flushed := Reported.flushOrders (captureStopped s).seq.orders (captureStopped s)
  have orders : (captureStopped s).seq.orders = s.seq.orders := by rw [seq]
  rw [safeSequencer_eq]
  rw [orders] at flushed ⊢
  refine ⟨((captureStopped_reported h).trans flushed).then_eq rfl rfl, ?_, ?_, ?_, ?_, fun bk => ?_⟩
  · simp [seq]
  · simp [volume]
  · simp [dose]
  · simp [motion]
  · simpa [getBank] using bank bk

end Sys2Proof.Machine
end

