-- ==== Sys2Proof/Proofs/Faults.lean ====
section
/-! A fault as a whole: its record, its report and, for the first of an episode, what the part comes to (R163 to R166). -/
namespace Sys2Proof.Machine

/-- The records of two states that agree on the clock and the dose meter are the same. -/
theorem endedRecord_congr {s t : State} (clock : t.time.clock = s.time.clock) (dose : t.dose = s.dose) :
    endedRecord t = endedRecord s := by
  funext c
  unfold endedRecord
  rw [clock, dose]

/-- A fault leaves the same list and count in an episode and at its start. -/
theorem raiseFault_recorded (s : State) (k : FaultKind) (bk : Option Bank) :
    (raiseFault s k bk).safe.flag = true
      ∧ (raiseFault s k bk).safe.faults = (recordFault s (faultRecord s k bk)).safe.faults
      ∧ (raiseFault s k bk).safe.further = (recordFault s (faultRecord s k bk)).safe.further := by
  obtain ⟨episode, h⟩ | ⟨-, h⟩ := raiseFault_cases k bk s
  · rw [h]
    simp [episode]
  · have safe : (raiseFault s k bk).safe = (episodeBegun s k bk).safe := by rw [h]; simp [episodeBegun]
    simp [safe, episodeBegun_safe]

/-- A later fault of an episode is reported where its report finds room, and moves nothing (R166). -/
theorem raiseFault_reported {s : State} (episode : s.safe.flag = true) (k : FaultKind) (bk : Option Bank) :
    Reported s (raiseFault s k bk) (if hasRoom s then [.fault (faultReport s (faultRecord s k bk))] else []) 0 := by
  obtain ⟨-, h⟩ | ⟨calm, -⟩ := raiseFault_cases k bk s
  · have recorded : Reported s (recordFault s (faultRecord s k bk)) [] 0 := .of_queue (by simp) (by simp)
    rw [h, offerMajor, hasRoom_recordFault]
    split
    · exact recorded.trans (.enqueue _ _)
    · exact recorded
  · simp [episode] at calm

/-! ### The first fault of an episode -/

/-- The state that the capture sequencer finds, once the motion controller has taken the entry to the safe state (R63). -/
def motionSafed (s : State) (k : FaultKind) (bk : Option Bank) : State := safeMotion (episodeBegun s k bk) k

theorem raiseFault_first {s : State} (calm : s.safe.flag = false) (k : FaultKind) (bk : Option Bank) :
    raiseFault s k bk = stopHoods (safeSequencer (motionSafed s k bk)) := by
  obtain ⟨episode, -⟩ | ⟨-, h⟩ := raiseFault_cases k bk s
  · simp [calm] at episode
  · exact h

theorem episodeBegun_active (s : State) (k : FaultKind) (bk : Option Bank) : fnActive (episodeBegun s k bk) = fnActive s := by
  have recorded : StaysSettled s { recordFault s (faultRecord s k bk) with
      safe.flag := true, safe.episodeStart := some (now s) } := (recordFault_stays s _).trans ⟨rfl, .inl rfl⟩
  exact (recorded.trans (offerFirstFault_stays _ _)).1

/-- The report of the fault, where it found room, and that of the turn which the safe state abandons (R58, R165). -/
theorem motionSafed_reported (s : State) (k : FaultKind) (bk : Option Bank) : Reported s (motionSafed s k bk)
    ((if hasRoom s then [.fault (faultReport s (faultRecord s k bk))] else [])
      ++ s.motion.turn.toList.map fun u => .turn (abandonedReport s k u))
    (if s.motion.turn.isSome then 1 else 0) := by
  have report : abandonedReport (episodeBegun s k bk) k = abandonedReport s k := by
    funext u
    simp [abandonedReport, knownAfter, keptSuction, getLeaf]
  have abandoned := abandonSafe_reported (episodeBegun s k bk) k
  rw [report, show (episodeBegun s k bk).motion = s.motion by simp] at abandoned
  rw [motionSafed, safeMotion_eq]
  have both := (episodeBegun_reported s k bk).trans abandoned
  rw [Nat.zero_add] at both
  exact both.then_eq rfl rfl

theorem motionSafed_frame (s : State) (k : FaultKind) (bk : Option Bank) :
    (motionSafed s k bk).motion = safedMotion s
    ∧ (motionSafed s k bk).volume = { s.volume with known := knownAfter s }
    ∧ (motionSafed s k bk).seq = s.seq ∧ (motionSafed s k bk).lamps = s.lamps ∧ (motionSafed s k bk).dose = s.dose
    ∧ (motionSafed s k bk).time.clock = s.time.clock
    ∧ (motionSafed s k bk).safe = (episodeBegun s k bk).safe := by
  have motion : safedMotion (episodeBegun s k bk) = safedMotion s := by
    simp [safedMotion, stoppedMotion, abandonedMotion, keptSuction, episodeBegun_active]
  have known : knownAfter (episodeBegun s k bk) = knownAfter s := by simp [knownAfter]
  refine ⟨?_, ?_, by simp [motionSafed], by simp [motionSafed], by simp [motionSafed], by simp [motionSafed],
    by simp [motionSafed]⟩
  · rw [motionSafed, safeMotion_eq, motion]
  · rw [motionSafed, safeMotion_eq]
    exact (abandonSafe_volume _ k).trans (by simp [known])

/-- A capture that ends is the same in two states that agree on the sequencer and the lamps. -/
theorem endedBySafe_congr {s t : State} (seq : t.seq = s.seq) (lamps : t.lamps = s.lamps) :
    endedBySafe t = endedBySafe s := by
  have finished : captureOver t = captureOver s := by
    funext c
    unfold captureOver
    rw [lamps]
  rw [endedBySafe, endedBySafe, finished, seq]

/-- What the first fault of an episode brings the blocks to (R63, R127, R164). -/
structure SafeEntered (s t : State) (k : FaultKind) (bk : Option Bank) : Prop where
  reported : Reported s t
    ((if hasRoom s then [.fault (faultReport s (faultRecord s k bk))] else [])
      ++ (s.motion.turn.toList.map fun u => .turn (abandonedReport s k u))
      ++ ((endedBySafe s).map fun c => .capture (endedRecord s c))
      ++ s.seq.orders.map fun o => .capture (flushedRecord o))
    ((if s.motion.turn.isSome then 1 else 0) + (endedBySafe s).length + s.seq.orders.length)
  safe : t.safe = (episodeBegun s k bk).safe
  motion : t.motion = safedMotion s
  seq : t.seq = { s.seq with
    orders := [], capture := if endedBySafe s = [] then s.seq.capture.map safedCapture else none }
  volume : t.volume = { s.volume with
    known := knownAfter s, sidesFailed := s.volume.sidesFailed + ((endedBySafe s).map failedSides).sum }
  dose : t.dose = if endedBySafe s = [] then s.dose else { s.dose with prediction := none, credit := ⟨0, 0⟩ }
  bank : ∀ bk, (getBank t bk).hoodRequest = none ∧ (getBank t bk).state = (getBank s bk).state
    ∧ (getBank t bk).hood =
      if s.lamps.interval = none then closeHood s.time.clock (getBank s bk).hood else (getBank s bk).hood
  closePending : s.lamps.interval.isSome = true → t.lamps.closePending = true

theorem raiseFault_entered {s : State} (calm : s.safe.flag = false) (platen : platenInv s) (k : FaultKind)
    (bk : Option Bank) : SafeEntered s (raiseFault s k bk) k bk := by
  obtain ⟨motion, volume, seq, lamps, dose, clock, safe⟩ := motionSafed_frame s k bk
  have deferred : (motionSafed s k bk).motion.dwellDeferred = false := by
    rw [motion]
    exact safedMotion_dwellDeferred platen
  obtain ⟨reported, seq', volume', dose', motion', bank'⟩ := safeSequencer_of_calm deferred
  rw [endedBySafe_congr seq lamps, seq] at seq' reported
  rw [endedBySafe_congr seq lamps, volume] at volume'
  rw [endedBySafe_congr seq lamps, dose] at dose'
  rw [endedRecord_congr clock dose] at reported
  have reports := (motionSafed_reported s k bk).trans reported
  rw [← List.append_assoc, ← Nat.add_assoc] at reports
  have interval : (safeSequencer (motionSafed s k bk)).lamps.interval = s.lamps.interval := by simp [lamps]
  have clock' : (safeSequencer (motionSafed s k bk)).time.clock = s.time.clock := by simp [clock]
  rw [raiseFault_first calm]
  refine ⟨reports.then_eq (by simp) (by simp), ?_, ?_, ?_, ?_, ?_, fun x => ?_, fun lit => ?_⟩
  · simp [safe]
  · simp [motion', motion]
  · simpa using seq'
  · simpa using volume'
  · simpa using dose'
  · obtain ⟨hood, state⟩ := bank' x
    have record : getBank (motionSafed s k bk) x = getBank s x := by rw [getBank, lamps, getBank]
    rw [getBank_stopHoods, stoppedBank, interval, clock', hood, ← record]
    exact ⟨rfl, state, rfl⟩
  · exact stopHoods_closePending (by rw [interval]; exact lit)

/-- What is common to both platens in the safe state (R63). -/
theorem safedMotion_frame (s : State) :
    (safedMotion s).turn = none ∧ (safedMotion s).air = false ∧ (safedMotion s).raisePending = false
    ∧ (safedMotion s).plateDeadline = none
    ∧ (safedMotion s).plateState = (if s.motion.plateState = .moving then .unsettled else s.motion.plateState)
    ∧ (safedMotion s).platen = (if s.motion.platen = .raised ∨ s.motion.platen = .raising then s.motion.platen
        else if fnActive s .platenTop then .raised else .raising)
    ∧ (safedMotion s).keptOn = (abandonedMotion s).keptOn ∧ (safedMotion s).suction = (abandonedMotion s).suction
    ∧ (safedMotion s).armPowered = (abandonedMotion s).armPowered := by
  have turn : (abandonedMotion s).turn = none := by
    unfold abandonedMotion
    split
    next => rfl
    next none => simpa using none
  have platen : (abandonedMotion s).platen = s.motion.platen := by
    unfold abandonedMotion
    split <;> rfl
  unfold safedMotion stoppedMotion
  split <;> simp [turn, platen]

end Sys2Proof.Machine

namespace Sys2Proof
open Machine

/-- Settles O28: a later fault is recorded and reported alone; the first of an episode goes through the blocks in their order,
and `SafeEntered` says what each comes to. -/
theorem aFaultEntersTheSafeStateOnce : Obligations.AFaultEntersTheSafeStateOnce := by
  intro s t kind bank r f room ht hr hf hroom
  obtain ⟨flag, faults, further⟩ := raiseFault_recorded s kind bank
  obtain rfl : room = hasRoom s := hroom
  obtain rfl : r = faultRecord s kind bank := hr
  obtain rfl : f = faultReport s (faultRecord s kind bank) := by
    rw [hf, ht, further]
    rfl
  rw [← ht, recordFault_safe] at faults further
  rw [← ht] at flag
  refine ⟨flag, fun few => ?_, fun full => ?_, fun episode => ?_, fun calm platen known keep done ended d hknown hkeep
    hended hd hdone => ?_, ?_⟩
  · simpa [few] using And.intro faults further
  · simpa [Nat.not_lt.mpr full] using And.intro faults further
  · have reported := raiseFault_reported episode kind bank
    obtain ⟨-, h⟩ | ⟨calm, -⟩ := raiseFault_cases kind bank s
    · rw [← ht] at h reported
      have reports := reported.reports
      rw [apply_ite (entered s)] at reports
      refine ⟨?_, ?_, ?_, ?_, ?_, ?_, ?_, ?_, reports, reported.reserved, reported.missed⟩ <;>
        simp [h, recordFault_safe]
    · simp [episode] at calm
  · obtain rfl : known = knownAfter s := hknown
    obtain rfl : keep = keptSuction s := hkeep
    obtain rfl : ended = endUnsynced .abortedSafe := (funext hended).trans (endUnsynced_eq _).symm
    obtain rfl : d = s.seq.capture.map safedCapture := hd
    obtain rfl : done = endedBySafe s := hdone
    have entry : SafeEntered s t kind bank := ht ▸ raiseFault_entered calm platen kind bank
    obtain ⟨reported, safe, motion, seq, volume, dose, hoods, closePending⟩ := entry
    obtain ⟨turn, air, pending, deadline, plates, raised, keptOn, suction, armPowered⟩ := safedMotion_frame s
    rw [← motion] at turn air pending deadline plates raised keptOn suction armPowered
    have episode := episodeBegun_safe s kind bank
    rw [← safe] at episode
    refine ⟨by rw [episode], by rw [episode], turn, air, pending, deadline, plates, raised, by rw [seq], by rw [seq],
      volume, dose, fun u hu => ?_, fun none => ?_, reported.reports, reported.reserved, reported.missed, fun bk => ?_,
      fun none bk => ?_, fun lit => ⟨closePending lit, fun bk => ?_⟩⟩
    · rw [keptOn, suction, armPowered]
      simp [abandonedMotion, hu]
    · rw [keptOn, suction, armPowered]
      simp [abandonedMotion, none]
    · exact ⟨(hoods bk).1, (hoods bk).2.1⟩
    · exact (hoods bk).2.2.trans (if_pos none)
    · exact (hoods bk).2.2.trans (if_neg (by simpa [← Option.isSome_iff_ne_none] using lit))
  · subst ht
    simp

end Sys2Proof
end

