-- ==== Sys2Proof/Proofs/OrderChecks.lean ====
section
/-! SHOOT and its table of checks (R111, R112). -/
namespace Sys2Proof.Machine

/-! ### The checks of an order -/

/-- An order that is refused where a further check fails, a dark recipe by its field, and otherwise decided by `d` (R111). -/
def afterOrder (a : State) (d : Decision) : Option Result → Decision
  | some .badField => refuseField a .recipe
  | some r => refuse a r
  | none => d

theorem afterOrder_some {r : Result} (h : r ≠ .badField) (a : State) (d : Decision) :
    afterOrder a d (some r) = refuse a r := by
  unfold afterOrder
  split
  next dark => exact absurd (Option.some.inj dark) h
  next other => rw [Option.some.inj other]
  next passed => contradiction

/-- A check of an order as a row of a table, the further checks behind it. -/
theorem chosen_orderOr {p : Prop} [Decidable p] {failed : Bool} {r : Result} {rs : Option Result} {cs : List Check}
    {a u : State} {f : Fields} {d : Decision} (named : r ≠ .badField) (check : failed = true ↔ p)
    (rest : ¬p → afterOrder a d rs = chosen cs a u f) :
    afterOrder a d (if p then some r else rs) = chosen (orElse failed r :: cs) a u f := by
  rw [← chosen_orElse check rest]
  split
  · exact afterOrder_some named a d
  · rfl

/-- The check of the recipe, whose refusal names the field. -/
theorem chosen_orderField {p : Prop} [Decidable p] {failed : Bool} {rs : Option Result} {cs : List Check}
    {a u : State} {f : Fields} {d : Decision} (check : failed = true ↔ p)
    (rest : ¬p → afterOrder a d rs = chosen cs a u f) :
    afterOrder a d (if p then some .badField else rs) = chosen (orField failed .recipe :: cs) a u f := by
  rw [← chosen_orField check rest]
  split <;> rfl

/-- A side without light, as the statements write it (R111 check 8, R116). -/
theorem darkSide_eq (x : Sides) (levels : Quad Nat) : darkSide x levels =
    (wants x .left && decide (levels.a = 0) && decide (levels.b = 0)
      || wants x .right && decide (levels.c = 0) && decide (levels.d = 0)) := by
  have side : ∀ sd, (sideBanks sd levels).isEmpty =
      !allBanks.any fun bk => decide (bk.side = sd) && decide (0 < levels.get bk) := fun sd => by
    rw [Bool.eq_iff_iff, List.isEmpty_iff, sideBanks, List.filter_eq_nil_iff]
    simp
  have lit : ∀ level : Nat, decide (0 < level) = !decide (level = 0) := fun level => by cases level <;> rfl
  simp only [darkSide, allSides, List.any_cons, List.any_nil, Bool.or_false, side, allBanks, lit]
  simp [Bank.side, Quad.get, Bool.and_assoc]
  rfl

/-- A side with a bank that would fire uncalibrated, as the statement writes it (R111 check 9). -/
theorem uncalibrated_side (s : State) (x : Sides) (levels : Quad Nat) :
    (firstUncalibrated s (neededBanks x levels)).isSome = allBanks.any fun bk =>
      wants x bk.side && (decide (0 < levels.get bk) && (s.dose.banks.get bk).points.all fun p => decide (p = 0)) := by
  simp only [firstUncalibrated, List.isSome_find?, neededBanks, List.any_filter, uncalibrated_iff, Bool.and_assoc]

theorem decideShoot_chosen (n : Nat) (sides : Option Sides) (recipe : Nat) (purpose : Option Purpose) (t : Option Nat)
    (a : State) : decideShoot n sides recipe purpose t a = chosen
      ([ orField sides.isNone .sides, orField purpose.isNone .purpose, orField (decide (7 < recipe)) .recipe ]
        ++ orderChecks a (sides.getD .both) recipe) a
      (orderAccepted a
        { tag := n, origin := .link, sides := sides.getD .both, recipe := recipe
          purpose := purpose.getD .normal, notBefore := t, accepted := a.time.clock })
      (.shoot n (a.seq.orders.length + if a.seq.capture.isSome then 1 else 0)) := by
  unfold decideShoot
  dsimp only
  show afterField a (afterOrder a (accept (acceptOrder a _) _) (orderCheck a (sides.getD .both) recipe))
    (shootField sides recipe purpose) = _
  unfold shootField
  refine chosen_fieldOr Iff.rfl fun _ => chosen_fieldOr Iff.rfl fun _ => chosen_fieldOr ?_ fun _ => ?_
  · exact decide_eq_true_iff
  show afterOrder _ _ _ = chosen (orderChecks _ _ _) _ _ _
  unfold orderCheck orderChecks
  dsimp only
  refine chosen_orderOr nofun (notOpened_iff a) fun _ => chosen_orderOr nofun Iff.rfl fun _ => ?_
  refine chosen_orderOr nofun decide_eq_true_iff fun _ => chosen_orderOr nofun ?_ fun _ => ?_
  · simp only [Bool.not_eq_true', Bool.eq_false_iff, ne_eq, hasRoom_iff, decide_eq_true_eq, Nat.not_lt]
  refine chosen_orderOr nofun decide_eq_true_iff fun _ => chosen_orderOr nofun ?_ fun _ => ?_
  · rw [camerasEquipped_iff]
  refine chosen_orderField ?_ fun _ => chosen_orderOr nofun ?_ fun _ => rfl
  · rw [darkSide_eq]
  · rw [uncalibrated_side]
    simp [allBanks, Bank.side, Bool.and_or_distrib_left, Bool.or_assoc]

end Sys2Proof.Machine
end

