-- ==== Sys2Proof/Proofs/Orders.lean ====
section
/-! The head of the queue: its wait, its discard as late, and its entry to ARMING (R83, R113 to R116, R129, R144). -/
namespace Sys2Proof.Machine

/-! ### When the head order goes -/

/-- How far the timebase is past a not-before time is the one number that brings the time to the timebase (R113). -/
theorem pastTime_eq {s : State} {t d : Nat} (small : d < 2 ^ 48) (sum : (t + d) % 2 ^ 48 = s.time.clock % 2 ^ 48) :
    pastTime s t = d := by
  unfold pastTime count stamp timebaseModulus
  omega

/-- An order whose lateness is `d`: what the timebase is past its not-before time, and 0 without one (R113). -/
structure PastBy (s : State) (o : Order) (d : Nat) : Prop where
  timed : ∀ t, o.notBefore = some t → pastTime s t = d
  untimed : o.notBefore = none → d = 0

namespace PastBy
variable {s : State} {o : Order} {d : Nat} (h : PastBy s o d)
include h

theorem hasCome_eq : hasCome s o = decide (d < 2 ^ 47) := by
  unfold hasCome
  cases hn : o.notBefore with
  | none => simp [h.untimed hn]
  | some t => simp only [h.timed t hn]

theorem isLate_eq : isLate s o = decide (s.seq.lateLimit < d) := by
  unfold isLate
  cases hn : o.notBefore with
  | none => simp [h.untimed hn]
  | some t => simp only [h.timed t hn]

/-- A late order has a not-before time, and the LATE report gives how far it is past (R115). -/
theorem pastTime_of_late (late : s.seq.lateLimit < d) : pastTime s (o.notBefore.getD 0) = d := by
  cases hn : o.notBefore with
  | none => simp [h.untimed hn] at late
  | some t => exact h.timed t hn

theorem headMayGo_iff (free : s.seq.capture = none) :
    headMayGo s o = true ↔ s.motion.turn = none ∧ s.lines.hold = none ∧ d < 2 ^ 47 := by
  simp [headMayGo, captureInFlight, turnInFlight, held, free, h.hasCome_eq, and_assoc]

end PastBy

/-! ### Entry to ARMING -/

/-- A bank as a capture that enters ARMING with sequence number `n` leaves it: where it needs the bank, its hood is
requested, and opens in a state in which it may; a dark capture needs none (R83, R116). -/
def askedBank (w : State) (dark : Bool) (x : Sides) (levels : Quad Nat) (n : Nat) (bk : Bank) : BankRec :=
  if dark = false ∧ wants x bk.side = true ∧ 0 < levels.get bk then
    { getBank w bk with
      hoodRequest := some n
      hood := if [BankState.ready, .recovering, .topping].contains (getBank w bk).state
        then openHood w.time.clock (getBank w bk).hood else (getBank w bk).hood }
  else getBank w bk

/-- The four banks, asked one by one. -/
def askedBanks (w : State) (dark : Bool) (x : Sides) (levels : Quad Nat) (n : Nat) : Quad BankRec :=
  ⟨askedBank w dark x levels n .a, askedBank w dark x levels n .b, askedBank w dark x levels n .c,
    askedBank w dark x levels n .d⟩

theorem askedBanks_dark (w : State) (x : Sides) (levels : Quad Nat) (n : Nat) :
    askedBanks w true x levels n = w.lamps.banks := by
  simp [askedBanks, askedBank, getBank, Quad.get]

/-- The hood of a bank opens at once in READY, RECOVERING and TOPPING (R83). -/
theorem requestHood_eq (n : Nat) (w : State) (bk : Bank) : requestHood n w bk = modifyBank w bk fun r =>
    { r with
      hoodRequest := some n
      hood := if [BankState.ready, .recovering, .topping].contains r.state then openHood w.time.clock r.hood else r.hood } := by
  refine congrArg (modifyBank w bk) (funext fun r => ?_)
  cases hr : r.state <;> rfl

/-- A capture asks for the hood of each bank that it needs (R116). -/
theorem requestHoods_eq (w : State) (x : Sides) (levels : Quad Nat) (n : Nat) :
    (neededBanks x levels).foldl (requestHood n) w = { w with lamps.banks := askedBanks w false x levels n } := by
  have each : (fun u bk => if wants x bk.side && decide (0 < levels.get bk) then requestHood n u bk else u) = fun u bk =>
      modifyBank u bk fun r => if false = false ∧ wants x bk.side = true ∧ 0 < levels.get bk then
        { r with
          hoodRequest := some n
          hood := if [BankState.ready, .recovering, .topping].contains r.state
            then openHood u.time.clock r.hood else r.hood }
      else r := by
    funext u bk
    by_cases needed : wants x bk.side = true ∧ 0 < levels.get bk
    · rw [if_pos (by simpa using needed), requestHood_eq]
      simp only [needed, true_and, if_true]
    · rw [if_neg (by simpa using needed), modifyBank_same]
      exact if_neg fun h => needed h.2
  rw [neededBanks, List.foldl_filter, each]
  rfl

/-- A side of a capture that enters ARMING, or ends there RECIPE_DARK (R116). -/
def armedSide (s : State) (x : Sides) (dark : Bool) (sd : Side) : Option SideRec :=
  if wants x sd then some
    { stage := if dark then .ended .recipeDark else .arming, camera := s.seq.cameras.get sd, syncTime := none
      asks := [], storedNoted := false, storedDeadline := none, take := none }
  else none

/-- The capture that an order becomes, with the next number and the recipe fixed (R116). -/
def armedCapture (s : State) (o : Order) (r : Recipe) (dark : Bool) : Capture :=
  { seq := s.volume.captureSeq + 1, order := o, levels := r.levels, duration := r.duration
    armedAt := s.time.clock, deadline := if dark then none else some (s.time.clock + 5000000)
    opening := none, t0 := none, sides := ⟨armedSide s o.sides dark .left, armedSide s o.sides dark .right⟩
    unmet := none, figures := none }

/-- The next number is taken, which restarts the idle timer of an ACTIVE part (R116, R129). -/
def numberTaken (w : State) : State :=
  { w with
    volume.captureSeq := w.volume.captureSeq + 1
    volume.capturesIssued := w.volume.capturesIssued + 1
    time.idleStart := if w.time.idleSetting = 0 then none else some w.time.clock }

/-- The state after the entry to ARMING of an order, from the state `w` that the part wakes to (R116). -/
def armed (w : State) (o : Order) (r : Recipe) (dark : Bool) : State :=
  { numberTaken w with
    lamps.banks := askedBanks w dark o.sides r.levels (w.volume.captureSeq + 1)
    seq.capture := some (armedCapture w o r dark) }

/-- A dark capture ends as it enters ARMING (R116). -/
theorem armedCapture_dark (s : State) (o : Order) (r : Recipe) :
    armedCapture s o r true = endCaptureArming .recipeDark (armedCapture s o r false) := by
  have side : ∀ sd, armedSide s o.sides true sd = (armedSide s o.sides false sd).map (endArming .recipeDark) := fun sd => by
    unfold armedSide
    split <;> rfl
  simp only [armedCapture, side]
  rfl

/-- An order enters ARMING in the part awake, with its number taken, and a dark one asks for no hood (R116). -/
theorem enterArming_awake (s : State) (o : Order) : enterArming s o =
    let w := wakeIfIdle s (.arming o.tag)
    let r := getRecipe w o.recipe
    if darkSide o.sides r.levels then { numberTaken w with seq.capture := some (armedCapture w o r true) }
    else (neededBanks o.sides r.levels).foldl (requestHood (w.volume.captureSeq + 1))
      { numberTaken w with seq.capture := some (armedCapture w o r false) } := by
  have number : ∀ w : State, w.time.idle = false → restartIdle
      { w with volume.captureSeq := w.volume.captureSeq + 1, volume.capturesIssued := w.volume.capturesIssued + 1 }
        = numberTaken w := fun w active => if_neg (by exact ne_true_of_eq_false active)
  dsimp only
  rw [armedCapture_dark, ← number _ (wakeIfIdle_idle (.arming o.tag) s)]
  rfl

theorem enterArming_eq (s : State) (o : Order) : enterArming s o =
    armed (wakeIfIdle s (.arming o.tag)) o (getRecipe s o.recipe) (darkSide o.sides (getRecipe s o.recipe).levels) := by
  have recipe : getRecipe (wakeIfIdle s (.arming o.tag)) o.recipe = getRecipe s o.recipe := by simp [getRecipe]
  rw [enterArming_awake]
  dsimp only
  rw [recipe]
  cases darkSide o.sides (getRecipe s o.recipe).levels with
  | true =>
    rw [armed, askedBanks_dark]
    rfl
  | false =>
    rw [requestHoods_eq]
    rfl

/-- The part's wake leaves what the entry to ARMING reads (R144). -/
theorem armed_wakeIfIdle (s : State) (c : WakeCause) (o : Order) (r : Recipe) (dark : Bool) :
    armed (wakeIfIdle s c) o r dark = { wakeIfIdle s c with
      volume.captureSeq := s.volume.captureSeq + 1
      volume.capturesIssued := s.volume.capturesIssued + 1
      time.idleStart := if s.time.idleSetting = 0 then none else some s.time.clock
      lamps.banks := askedBanks (wakeIfIdle s c) dark o.sides r.levels (s.volume.captureSeq + 1)
      seq.capture := some (armedCapture s o r dark) } := by
  have setting : (wakeIfIdle s c).time.idleSetting = s.time.idleSetting :=
    congrArg (fun l => l.time.idleSetting) (lasting_wakeIfIdle s c)
  simp [armed, numberTaken, armedCapture, armedSide, setting]

end Sys2Proof.Machine

namespace Sys2Proof
open Machine

/-- Settles O52: SHOOT's owner checks by the table, in its order; a head order goes by one test, and one that is not late
enters ARMING with the hoods of its banks requested. -/
theorem ordersAreQueuedDiscardedOrArmed : Obligations.OrdersAreQueuedDiscardedOrArmed := by
  refine ⟨fun tag n sides recipe purpose t s a ha => ?_, fun s free none => ?_, fun s w u o rest d r dark side bank free
    waiting timed untimed hw hr hdark hside hbank hu => ?_⟩
  · subst ha
    exact congrArg _ (serve_decided (decideShoot_chosen n sides recipe purpose t _))
  · simp [advanceOnce, free, none]
  · have past : PastBy s o d := ⟨fun t ht => pastTime_eq (timed t ht).1 (timed t ht).2, untimed⟩
    have due : notBeforeDue s = (o.notBefore.isSome && headMayGo s o) := by simp [notBeforeDue, waiting]
    refine ⟨fun waits => ?_, fun turn hold come => ⟨fun set => ?_, ?_⟩⟩
    · have stays : headMayGo s o = false := by
        rw [Bool.eq_false_iff, ne_eq, past.headMayGo_iff free]
        rintro ⟨turn, hold, come⟩
        obtain h | h | h := waits
        · simp [turn] at h
        · simp [hold] at h
        · omega
      exact ⟨by simp [advanceOnce, free, waiting, stays], by simp [exec, execNotBeforeTime, due, stays]⟩
    · have goes := (past.headMayGo_iff free).mpr ⟨turn, hold, come⟩
      simp [exec, execNotBeforeTime, due, set, goes]
    · have goes := (past.headMayGo_iff free).mpr ⟨turn, hold, come⟩
      have step : advanceOnce s = some (if isLate s o then discardLate s o rest
          else enterArming { s with seq.orders := rest } o) := by
        simp only [advanceOnce, free, waiting, goes, if_true]
        split <;> rfl
      rw [step, past.isLate_eq]
      by_cases late : s.seq.lateLimit < d
      · simp only [late, decide_true, if_true, discardLate, past.pastTime_of_late late]
        rfl
      · simp only [late, decide_false, if_false]
        have woken : w = wakeIfIdle { s with seq.orders := rest } (.arming o.tag) := hw
        have darkness : dark = darkSide o.sides r.levels := by
          rw [hdark, darkSide_eq]
          simp [Bool.and_assoc]
        obtain rfl : side = armedSide s o.sides dark := funext hside
        have clock : w.time.clock = s.time.clock := by simp [woken]
        obtain rfl : bank = askedBank w dark o.sides r.levels (s.volume.captureSeq + 1) := funext fun bk => by
          rw [hbank, askedBank, clock]
        rw [enterArming_eq, armed_wakeIfIdle, ← woken, hu]
        subst hr darkness
        rfl

end Sys2Proof
end

