-- ==== Sys2Proof/Proofs/PowerStates.lean ====
section
/-! The wake and the entry to IDLE, bank by bank and report by report (R78, R79, R84, R86, R143, R144, R157). -/
namespace Sys2Proof.Machine

/-! ### The four banks and the report queue -/

/-- An operation that changes its own bank's record alone, by the clock, does the same to every bank. -/
theorem getBank_forBanks {f : State → Bank → State} {g : Nat → BankRec → BankRec}
    (own : ∀ s bk, getBank (f s bk) bk = g s.time.clock (getBank s bk))
    (other : ∀ s bk x, x ≠ bk → getBank (f s bk) x = getBank s x)
    (clock : ∀ s bk, (f s bk).time.clock = s.time.clock) (s : State) (bk : Bank) :
    getBank (forBanks f s) bk = g s.time.clock (getBank s bk) := by
  rw [forBanks_eq]
  cases bk
  case a => rw [other _ _ _ (by decide), other _ _ _ (by decide), other _ _ _ (by decide), own]
  case b => rw [other _ _ _ (by decide), other _ _ _ (by decide), own, other _ _ _ (by decide), clock]
  case c => rw [other _ _ _ (by decide), own, other _ _ _ (by decide), other _ _ _ (by decide), clock, clock]
  case d => rw [own, other _ _ _ (by decide), other _ _ _ (by decide), other _ _ _ (by decide), clock, clock, clock]

/-- A minor report that finds room stands last in the queue, with the miss count (R181 to R183). -/
theorem offerMinor_admitted {s : State} (room : s.queue.reports.length + s.queue.reserved < 48) (b : Body) :
    (offerMinor s b).queue.reports = s.queue.reports ++
      [⟨(s.queue.lastSeq + 1) % 65536, s.time.clock % 2 ^ 48, s.queue.missed, b⟩] := by
  obtain ⟨-, queue⟩ | ⟨none, -⟩ := offerMinor_queue b s
  · rw [queue]
    rfl
  · exact absurd (decide_eq_true room) (ne_true_of_eq_false none)

/-- A minor report comes behind those in the queue. -/
theorem offerMinor_prefix (s : State) (b : Body) : s.queue.reports <+: (offerMinor s b).queue.reports := by
  obtain ⟨-, queue⟩ | ⟨-, missed⟩ := offerMinor_queue b s
  · rw [queue]
    exact List.prefix_append _ _
  · rw [missed]

theorem forBanks_prefix {f : State → Bank → State} (h : ∀ s bk, s.queue.reports <+: (f s bk).queue.reports) (s : State) :
    s.queue.reports <+: (forBanks f s).queue.reports := by
  rw [forBanks_eq]
  exact (h s .a).trans ((h _ .b).trans ((h _ .c).trans (h _ .d)))

/-- A report admitted first stands right behind those that were in the queue, whatever comes after it. -/
theorem reports_of_first {s t : State} {b : Body} (room : s.queue.reports.length + s.queue.reserved < 48)
    (h : (offerMinor s b).queue.reports <+: t.queue.reports) : ∃ rest, t.queue.reports = s.queue.reports ++
      ⟨(s.queue.lastSeq + 1) % 65536, s.time.clock % 2 ^ 48, s.queue.missed, b⟩ :: rest := by
  obtain ⟨rest, h⟩ := h
  exact ⟨rest, by rw [← h, offerMinor_admitted room, List.append_assoc, List.singleton_append]⟩

/-- A report leaves the banks as they are. -/
theorem getBank_offerMinor (s : State) (b : Body) (bk : Bank) : getBank (offerMinor s b) bk = getBank s bk := by
  simp [getBank]

/-- What is judged last leaves the banks as they are (R86, R157). -/
theorem getBank_judged (s : State) (bk : Bank) : getBank (judgeReady (judgeLit s)) bk = getBank s bk := by simp [getBank]

/-! ### The wake -/

/-- A bank's record after a wake (R79). -/
def wokenBank (t : Nat) (r : BankRec) : BankRec :=
  if r.state = .standby then { r with state := .waking, deadline := some (t + 400000) } else r

theorem wakeBank_eq (s : State) (bk : Bank) : wakeBank s bk =
    if (getBank s bk).state = .standby then
      offerMinor (setBank s bk (wokenBank s.time.clock (getBank s bk))) (.bankState bk .standby .waking s.time.clock .wake)
    else s := by
  unfold wakeBank wokenBank
  dsimp only
  split <;> rfl

theorem getBank_wakeBank (s : State) (bk : Bank) :
    getBank (wakeBank s bk) bk = wokenBank s.time.clock (getBank s bk) := by
  rw [wakeBank_eq]
  split
  · rw [getBank_offerMinor, getBank_setBank]
  · rw [wokenBank, if_neg ‹_›]

theorem getBank_wakeBank_ne (s : State) (bk x : Bank) (h : x ≠ bk) : getBank (wakeBank s bk) x = getBank s x := by
  rw [wakeBank_eq]
  split
  · rw [getBank_offerMinor, getBank_setBank_ne h]
  · rfl

theorem wakeBank_prefix (s : State) (bk : Bank) : s.queue.reports <+: (wakeBank s bk).queue.reports := by
  rw [wakeBank_eq]
  split
  · exact offerMinor_prefix (setBank s bk _) _
  · exact List.prefix_rfl

theorem wake_bank (s : State) (c : WakeCause) (bk : Bank) :
    getBank (wake s c) bk = wokenBank s.time.clock (getBank s bk) := by
  rw [wake, getBank_judged, getBank_forBanks getBank_wakeBank getBank_wakeBank_ne (by simp), getBank_offerMinor]
  simp [getBank]

theorem wake_time (s : State) (c : WakeCause) : (wake s c).time = { s.time with
    idle := false, idleSince := none
    idleStart := if s.time.idleSetting = 0 then none else some s.time.clock } := by
  simp [wake, restartIdle]

/-- The WAKE report stands before every other report of the wake (R144). -/
theorem wake_reports {s : State} (c : WakeCause) (room : s.queue.reports.length + s.queue.reserved < 48) :
    ∃ rest, (wake s c).queue.reports = s.queue.reports ++
      ⟨(s.queue.lastSeq + 1) % 65536, s.time.clock % 2 ^ 48, s.queue.missed,
        .wake c s.time.clock ((s.time.clock - s.time.idleSince.getD s.time.clock) / 1000)⟩ :: rest := by
  have woken := reports_of_first (s := restartIdle { s with time.idle := false, time.idleSince := none })
    (t := wake s c) (by simpa using room)
    (by simpa [wake] using forBanks_prefix wakeBank_prefix _)
  simpa [restartIdle, now, elapsedMs] using woken

/-! ### The entry to IDLE -/

/-- A bank's record after the entry to IDLE, its hood left out (R78). -/
def idledBank (t : Nat) (r : BankRec) : BankRec :=
  if [BankState.ready, .conditioning, .waking].contains r.state then stoodBy t r else r

theorem idleBank_eq (s : State) (bk : Bank) : idleBank s bk =
    if [BankState.ready, .conditioning, .waking].contains (getBank s bk).state then enterStandby s bk .idle else s := by
  unfold idleBank
  cases (getBank s bk).state <;> rfl

theorem getBank_idleBank (s : State) (bk : Bank) : getBank (idleBank s bk) bk = idledBank s.time.clock (getBank s bk) := by
  rw [idleBank_eq, idledBank]
  split
  · rw [enterStandby_eq, getBank_offerMinor, getBank_setBank]
  · rfl

theorem getBank_idleBank_ne (s : State) (bk x : Bank) (h : x ≠ bk) : getBank (idleBank s bk) x = getBank s x := by
  rw [idleBank_eq]
  split
  · rw [enterStandby_eq, getBank_offerMinor, getBank_setBank_ne h]
    rfl
  · rfl

theorem idleBank_prefix (s : State) (bk : Bank) : s.queue.reports <+: (idleBank s bk).queue.reports := by
  rw [idleBank_eq]
  split
  · exact offerMinor_prefix (setBank (dropConditioning s bk) bk _) _
  · exact List.prefix_rfl

/-- The part in IDLE, before anything else follows from it (R143). -/
def idled (s : State) : State :=
  { s with time := { s.time with idle := true, idleSince := some s.time.clock, idleStart := none } }

/-- The part in IDLE with its report made and its banks and hoods stopped, before the lamps are judged (R78, R84, R143). -/
def idleBanks (s : State) : State :=
  closeBankHoods (clearHoodRequests (forBanks idleBank (offerMinor (idled s) (.idle s.time.clock s.time.idleSetting))))

theorem enterIdle_eq (s : State) : enterIdle s = judgeReady (judgeLit (idleBanks s)) := rfl

theorem idleBanks_time (s : State) : (idleBanks s).time = (idled s).time := by simp [idleBanks]

theorem enterIdle_time (s : State) : (enterIdle s).time = (idled s).time := by
  simp [enterIdle_eq, idleBanks_time]

/-- The IDLE report stands before every other report of the entry (R143). -/
theorem enterIdle_reports {s : State} (room : s.queue.reports.length + s.queue.reserved < 48) :
    ∃ rest, (enterIdle s).queue.reports = s.queue.reports ++
      ⟨(s.queue.lastSeq + 1) % 65536, s.time.clock % 2 ^ 48, s.queue.missed,
        .idle s.time.clock s.time.idleSetting⟩ :: rest :=
  reports_of_first (s := idled s) room (by simpa [enterIdle_eq, idleBanks] using forBanks_prefix idleBank_prefix _)

/-- The four banks after the entry to IDLE: in STANDBY where they were in service, their hoods closing (R78, R84). -/
theorem enterIdle_bank (s : State) (bk : Bank) : getBank (enterIdle s) bk =
    { idledBank s.time.clock (getBank s bk) with
      hoodRequest := none, hood := closeHood s.time.clock (idledBank s.time.clock (getBank s bk)).hood } := by
  have stood : getBank (forBanks idleBank (offerMinor (idled s) (.idle s.time.clock s.time.idleSetting))) bk
      = idledBank s.time.clock (getBank s bk) := by
    rw [getBank_forBanks getBank_idleBank getBank_idleBank_ne (by simp), getBank_offerMinor]
    simp [idled, getBank]
  rw [enterIdle_eq, getBank_judged, idleBanks, getBank_closedHoods, stood]
  simp [idled]

/-- In IDLE no aim lamp is lit (R86). -/
theorem enterIdle_aim (s : State) (sd : Side) : (enterIdle s).lamps.aims.get sd =
    if (s.lamps.aims.get sd).lit then
      { s.lamps.aims.get sd with
        lit := false, applied := 0, hood := closeHood s.time.clock (s.lamps.aims.get sd).hood }
    else s.lamps.aims.get sd := by
  have unmet : litCondition (idleBanks s) = false := by simp [litCondition, idleBanks_time, idled]
  have aims : (idleBanks s).lamps.aims = s.lamps.aims := by simp [idleBanks, idled]
  have clock : now (idleBanks s) = s.time.clock := by simp [now, idleBanks_time, idled]
  have dark : (enterIdle s).lamps.aims.get sd = relight s.time.clock false (s.lamps.aims.get sd) := by
    simp only [enterIdle_eq, judgeReady_frame, judgeLit, unmet, aims, clock]
    cases sd <;> rfl
  rw [dark]
  rfl

/-- In IDLE READY_LAMP is off (R157). -/
theorem enterIdle_ready (s : State) : (enterIdle s).lines.ready = false := by
  simp [enterIdle_eq, judgeReady, readyCondition, idleBanks_time, idled]

end Sys2Proof.Machine
end

