-- ==== Sys2Proof/Proofs/Decisions.lean ====
section
/-! What the owner of a request keeps: the state where it refuses it, and the power state of an ACTIVE part (R142, R176). -/
namespace Sys2Proof.Machine

/-! ### An ACTIVE part stays ACTIVE -/

theorem enterArming_active (s : State) (o : Order) : (enterArming s o).time.idle = false := by
  have asked : ∀ n (l : List Bank) u, (l.foldl (requestHood n) u).time = u.time := fun n l u => by simp
  rw [enterArming_awake]
  dsimp only
  split
  · exact wakeIfIdle_idle _ _
  · rw [asked]
    exact wakeIfIdle_idle _ _

theorem advanceOnce_active {s t : State} (h : s.time.idle = false) (step : advanceOnce s = some t) :
    t.time.idle = false := by
  obtain ⟨c, -, -, rfl⟩ | ⟨c, -, -, -, -, rfl⟩ | ⟨o, rest, -, -, -, -, rfl⟩ | ⟨o, rest, -, -, -, -, rfl⟩ :=
    advanceOnce_cases step
  · simpa using h
  · simpa using h
  · simpa using h
  · exact enterArming_active _ o

theorem advance_active (n : Nat) {s : State} (h : s.time.idle = false) : (advance n s).time.idle = false := by
  induction n generalizing s with
  | zero => exact h
  | succ n ih =>
    unfold advance
    split
    · exact h
    · exact ih (advanceOnce_active h ‹_›)

/-- Settling never brings an ACTIVE part into IDLE: the sequencer can but wake it (R144). -/
theorem settle_active {s : State} (h : s.time.idle = false) : (settle s).time.idle = false := by
  simpa [settle] using advance_active (advanceFuel s) h

theorem acceptTurn_active {s : State} (h : s.time.idle = false) (d : Direction) (o : Origin) (b : Bool) :
    (acceptTurn s d o b).time.idle = false := by
  unfold acceptTurn
  exact settle_active (by simpa using h)

theorem acceptOrder_active {s : State} (h : s.time.idle = false) (o : Order) : (acceptOrder s o).time.idle = false :=
  settle_active h

theorem keyShoot_active {s : State} (h : s.time.idle = false) : (keyShoot s).time.idle = false := by
  unfold keyShoot
  dsimp only
  split
  · simpa using h
  · exact acceptOrder_active (by simpa using h) _

theorem keyTurn_active {s : State} (h : s.time.idle = false) (key : Fn) (d : Direction) :
    (keyTurn s key d).time.idle = false := by
  unfold keyTurn
  dsimp only
  split
  · simpa using h
  · exact acceptTurn_active (by simpa using h) _ _ _

theorem handEdge_active {s : State} (h : s.time.idle = false) (f : Fn) (t : Nat) : (handEdge s f t).time.idle = false := by
  cases f
  case keyShoot => simpa [handEdge, h] using keyShoot_active h
  case keyTurn | keyBack => simpa [handEdge, h] using keyTurn_active h _ _
  all_goals simpa [handEdge] using h

theorem handLine_active {s : State} (h : s.time.idle = false) (i : Nat) (active : Bool) (t : Nat) :
    (handLine s i active t).time.idle = false := by
  unfold handLine
  split
  · exact h
  · split
    · exact handEdge_active h _ _
    · exact h

theorem acceptEdge_active {s : State} (h : s.time.idle = false) (i : Nat) (high : Bool) (t : Nat) :
    (acceptEdge s i high t).time.idle = false := by
  unfold acceptEdge
  extract_lets l s1 s2 s3
  have waits : s2.time.idle = false := by
    unfold s2
    split <;> simpa [s1] using h
  have woken : s3.time.idle = false := by
    unfold s3
    split
    · exact wakeIfIdle_idle _ _
    · exact waits
  exact settle_active (by simpa using handLine_active woken i _ t)

theorem configureLine_active {s : State} (h : s.time.idle = false) (i : Nat) (c : LineSettings) :
    (configureLine s i c).time.idle = false := by
  unfold configureLine
  extract_lets l s1 s2 s3 s4 s5
  have restaged : s2.time.idle = false := by
    unfold s2
    split <;> simpa [s1] using h
  have evaluated : s4.time.idle = false := by
    unfold s4
    split <;> simpa [s3] using restaged
  have accepted : s5.time.idle = false := by
    unfold s5
    split
    · exact evaluated
    · split
      · exact evaluated
      · exact acceptEdge_active evaluated _ _ _
  exact settle_active (by simpa using accepted)

/-! ### The owners' decisions -/

/-- A decision in state `a` as every owner takes it: refused it leaves `a` as it is, and an ACTIVE part stays ACTIVE. -/
structure Faithful (a : State) (d : Decision) : Prop where
  refused : d.2.1 ≠ .accepted → d.1 = a
  active : a.time.idle = false → d.1.time.idle = false

namespace Faithful
variable {a : State}

/-- A decision that changes no state: a refusal or a query. -/
theorem same (x : Result × Fields) : Faithful a (a, x) := ⟨fun _ => rfl, id⟩

/-- A request that is taken. -/
theorem taken {u : State} {f : Fields} (h : a.time.idle = false → u.time.idle = false) : Faithful a (accept u f) :=
  ⟨fun refused => absurd rfl refused, h⟩

/-- A decision refused at a check that fails; where the check passes, the rest decides. -/
theorem check {p : Prop} [Decidable p] {x : Result × Fields} {d : Decision} (rest : Faithful a d) :
    Faithful a (if p then (a, x) else d) := by
  split
  · exact same x
  · exact rest

end Faithful

/-! ### The link, the safe state and the idle setting -/

theorem decideLinkSet_faithful (e t n : Nat) (a : State) : Faithful a (decideLinkSet e t n a) :=
  .check (.check (.check (.taken fun h => by simpa using h)))

theorem decideSafe_faithful (a : State) : Faithful a (decideSafe a) :=
  .taken fun h => settle_active (by simpa using h)

theorem decideClearSafe_faithful (a : State) : Faithful a (decideClearSafe a) :=
  .check (.check (.check (.taken fun h => settle_active (by split <;> simpa using h))))

theorem decideIdleSet_faithful (n : Nat) (a : State) : Faithful a (decideIdleSet n a) :=
  .taken fun h => by simpa using h

/-! ### Volumes, leaves and the plan -/

theorem decideVolumeLoad_faithful (mark : Text) (part n thick leafMax volMax limit g : Nat) (a : State) :
    Faithful a (decideVolumeLoad mark part n thick leafMax volMax limit g a) :=
  .check (.check (.check (.check (.check (.check (.check (.check (.check (.taken id)))))))))

theorem decideVolumeOpen_faithful (k : Nat) (a : State) : Faithful a (decideVolumeOpen k a) := by
  refine .check (.check (.check (.check ?_)))
  split
  · exact .same _
  · exact .taken fun h => settle_active (by simpa using h)

theorem decideVolumeSet_faithful (leafMax volMax limit g thick : Option Nat) (a : State) :
    Faithful a (decideVolumeSet leafMax volMax limit g thick a) := by
  refine .check ?_
  split
  · exact .same _
  · split
    · exact .same _
    · exact .taken id

theorem decideVolumeClose_faithful (force : Bool) (a : State) : Faithful a (decideVolumeClose force a) :=
  .check (.check (.check (.check (.check (.taken fun h => settle_active (by simpa using h))))))

theorem decideVolumeDiscard_faithful (a : State) : Faithful a (decideVolumeDiscard a) := by
  unfold decideVolumeDiscard
  split
  · exact .same _
  · exact .same _
  · exact .taken id

theorem decideReseat_faithful (k : Nat) (leaf : Option Nat) (a : State) : Faithful a (decideReseat k leaf a) := by
  have reseated : a.time.idle = false → (reseatAt a k leaf).time.idle = false := fun h => by
    have counted : ∀ u : State, (countManual u leaf).time = u.time := fun u => by cases leaf <;> rfl
    have switched : ∀ (on : Bool) (u : State), (if on then suctionOff u else u).time = u.time := fun on u => by
      split <;> simp
    unfold reseatAt
    extract_lets _ s1 s2
    have same : s2.time = a.time := (switched _ s1).trans (counted _)
    exact settle_active (by split <;> simpa [same] using h)
  refine .check (.check (.check ?_))
  split
  · exact .same _
  · exact .taken reseated

theorem decideLeafMark_faithful (leaf : Nat) (recto verso : Bool) (action : Option LeafAction)
    (reason : Option (Option SkipReason)) (a : State) : Faithful a (decideLeafMark leaf recto verso action reason a) := by
  refine .check (.check ?_)
  split
  · exact .same _
  · exact .taken id

theorem decideLeafQuery_faithful (first n : Nat) (a : State) : Faithful a (decideLeafQuery first n a) :=
  .check (.check (.check (.same _)))

theorem decideGapsQuery_faithful (first : Nat) (a : State) : Faithful a (decideGapsQuery first a) :=
  .check (.check (.same _))

theorem decidePlanSet_faithful (gs : List SegmentField) (a : State) : Faithful a (decidePlanSet gs a) := by
  refine .check (.check ?_)
  split
  · exact .same _
  · exact .taken id

theorem decidePlanQuery_faithful (p : Nat) (a : State) : Faithful a (decidePlanQuery p a) :=
  .check (.check (.same _))

/-! ### Motion -/

theorem decideLower_faithful (a : State) : Faithful a (decideLower a) := by
  unfold decideLower
  split
  · exact .same _
  · exact .taken fun h => by simpa using h

theorem decideRaise_faithful (a : State) : Faithful a (decideRaise a) := by
  unfold decideRaise
  split
  · exact .same _
  · split
    · exact .same _
    · exact .same _
    · exact .taken fun h => settle_active (by simpa using h)

theorem decideTurn_faithful (d : Direction) (override : Bool) (a : State) : Faithful a (decideTurn d override a) := by
  unfold decideTurn
  split
  · exact .same _
  · exact .taken fun h => acceptTurn_active h _ _ _

theorem decideTurnResume_faithful (a : State) : Faithful a (decideTurnResume a) := by
  unfold decideTurnResume
  split
  · exact .same _
  · exact .check (.taken fun h => settle_active (by simpa using h))

theorem decideTurnAbandon_faithful (a : State) : Faithful a (decideTurnAbandon a) := by
  unfold decideTurnAbandon
  split
  · exact .same _
  · exact .taken fun h => settle_active (by simpa using h)

/-! ### Lamps and light -/

theorem powerBank_active {s : State} (on : Bool) (mask : Quad Bool) (h : s.time.idle = false) (bk : Bank) :
    (powerBank on mask s bk).time.idle = false := by
  unfold powerBank
  split_ifs <;> simpa using h

theorem forBanks_active {f : State → Bank → State} (h : ∀ s bk, s.time.idle = false → (f s bk).time.idle = false)
    {s : State} (active : s.time.idle = false) : (forBanks f s).time.idle = false := by
  rw [forBanks_eq]
  exact h _ _ (h _ _ (h _ _ (h _ _ active)))

theorem decideBankPower_faithful (mask : Quad Bool) (command : Option Bool) (a : State) :
    Faithful a (decideBankPower mask command a) := by
  unfold decideBankPower
  split
  · exact .same _
  · exact .check (.check (.taken fun h => forBanks_active (fun _ _ hs => powerBank_active _ mask hs _) h))

theorem decideBankSet_faithful (mask : Quad Bool) (n : Nat) (a : State) : Faithful a (decideBankSet mask n a) := by
  refine .taken fun h => settle_active ?_
  rw [forBanks_setRecharge h]
  exact h

theorem decideRecipeSet_faithful (n : Nat) (levels : Quad Nat) (duration : Nat) (a : State) :
    Faithful a (decideRecipeSet n levels duration a) := .check (.taken id)

theorem decideRecipeQuery_faithful (n : Nat) (a : State) : Faithful a (decideRecipeQuery n a) := .check (.same _)

theorem decideLampCal_faithful (source : Option Source) (points : List Nat) (spill : Nat) (a : State) :
    Faithful a (decideLampCal source points spill a) := by
  unfold decideLampCal
  split
  · exact .same _
  · split
    · exact .same _
    · refine .check ?_
      split
      · exact .same _
      · refine .taken fun h => ?_
        unfold setCal
        split <;> exact h

theorem decideCalQuery_faithful (source : Option Source) (a : State) : Faithful a (decideCalQuery source a) := by
  unfold decideCalQuery
  split <;> exact .same _

/-! ### Orders and lines -/

theorem decideShoot_faithful (tag : Nat) (sides : Option Sides) (recipe : Nat) (purpose : Option Purpose)
    (notBefore : Option Nat) (a : State) : Faithful a (decideShoot tag sides recipe purpose notBefore a) := by
  unfold decideShoot
  split
  · exact .same _
  · dsimp only
    split
    · exact .same _
    · exact .same _
    · exact .taken fun h => acceptOrder_active h _

theorem decideLineConfig_faithful (line : Nat) (dir : Option LineDir) (pull : Option Pull) (drive : Option Drive)
    (sense : Option Sense) (polarity : Option Polarity) (both : Bool) (debounce : Nat) (event wake hold : Bool)
    (a : State) : Faithful a (decideLineConfig line dir pull drive sense polarity both debounce event wake hold a) := by
  refine .check ?_
  split
  · exact .same _
  · exact .check (.check (.taken fun h => configureLine_active h _ _))

theorem decideLineQuery_faithful (line : Nat) (a : State) : Faithful a (decideLineQuery line a) := .check (.same _)

theorem decideLineClear_faithful (mask : LineMask) (a : State) : Faithful a (decideLineClear mask a) := by
  refine .taken fun h => ?_
  rw [foldl_keeps (fun u : State => u.time) clearLine fun u i => by simp]
  exact h

theorem decideLineBind_faithful (fn : Option Fn) (line : Option Nat) (a : State) :
    Faithful a (decideLineBind fn line a) := by
  have bound : ∀ f i, a.time.idle = false → (rebind a f i).time.idle = false := fun f i h => by
    unfold rebind
    split
    · exact settle_active (by simpa using h)
    · split
      · exact h
      · exact settle_active (by simpa using h)
  unfold decideLineBind
  split
  · exact .same _
  · split
    · exact .taken (bound _ _)
    · refine .check ?_
      split
      · exact .same _
      · exact .taken (bound _ _)

end Sys2Proof.Machine
end

