-- ==== Sys2Proof/Proofs/RestartingRequests.lean ====
section
/-! The requests that restart the idle timer: a wake first, then the owner's decision, which changes nothing where it is a
refusal (R142, R144, R176). -/
namespace Sys2Proof.Machine

/-- A command is the request of kind `k` and tag `tag`: it is decided by an owner in the part awake, and answered. -/
structure Served (c : Instr) (k tag : Byte) (owner : State → Decision) : Prop where
  serves : ∀ s, exec c s = .next (serve k tag owner s)
  faithful : ∀ a, Faithful a (owner a)

/-- Every request that restarts the idle timer is served by its owner (R142). -/
theorem served_of_restartingKind : ∀ {c : Instr} {k : Byte}, restartingKind c = some k → ∃ tag owner, Served c k tag owner
  | .linkSet tag e t n, _, rfl => ⟨tag, _, fun _ => rfl, decideLinkSet_faithful e t n⟩
  | .reset tag, _, rfl => ⟨tag, _, fun _ => rfl, fun _ => .same _⟩
  | .safe tag, _, rfl => ⟨tag, _, fun _ => rfl, decideSafe_faithful⟩
  | .clearSafe tag, _, rfl => ⟨tag, _, fun _ => rfl, decideClearSafe_faithful⟩
  | .idleSet tag n, _, rfl => ⟨tag, _, fun _ => rfl, decideIdleSet_faithful n⟩
  | .volumeLoad tag mark p n th l v h r, _, rfl => ⟨tag, _, fun _ => rfl, decideVolumeLoad_faithful mark p n th l v h r⟩
  | .volumeOpen tag k, _, rfl => ⟨tag, _, fun _ => rfl, decideVolumeOpen_faithful k⟩
  | .volumeSet tag l v h r th, _, rfl => ⟨tag, _, fun _ => rfl, decideVolumeSet_faithful l v h r th⟩
  | .volumeClose tag force, _, rfl => ⟨tag, _, fun _ => rfl, decideVolumeClose_faithful force⟩
  | .volumeDiscard tag, _, rfl => ⟨tag, _, fun _ => rfl, decideVolumeDiscard_faithful⟩
  | .volumeQuery tag, _, rfl => ⟨tag, _, fun _ => rfl, fun _ => .same _⟩
  | .reseat tag k leaf, _, rfl => ⟨tag, _, fun _ => rfl, decideReseat_faithful k leaf⟩
  | .leafMark tag i recto verso action reason, _, rfl =>
    ⟨tag, _, fun _ => rfl, decideLeafMark_faithful i recto verso action reason⟩
  | .leafQuery tag first n, _, rfl => ⟨tag, _, fun _ => rfl, decideLeafQuery_faithful first n⟩
  | .gapsQuery tag first, _, rfl => ⟨tag, _, fun _ => rfl, decideGapsQuery_faithful first⟩
  | .planSet tag gs, _, rfl => ⟨tag, _, fun _ => rfl, decidePlanSet_faithful gs⟩
  | .planQuery tag p, _, rfl => ⟨tag, _, fun _ => rfl, decidePlanQuery_faithful p⟩
  | .lower tag, _, rfl => ⟨tag, _, fun _ => rfl, decideLower_faithful⟩
  | .raise tag, _, rfl => ⟨tag, _, fun _ => rfl, decideRaise_faithful⟩
  | .turn tag override, _, rfl => ⟨tag, _, fun _ => rfl, decideTurn_faithful .forward override⟩
  | .turnBack tag override, _, rfl => ⟨tag, _, fun _ => rfl, decideTurn_faithful .backward override⟩
  | .turnResume tag, _, rfl => ⟨tag, _, fun _ => rfl, decideTurnResume_faithful⟩
  | .turnAbandon tag, _, rfl => ⟨tag, _, fun _ => rfl, decideTurnAbandon_faithful⟩
  | .motionSet tag .., _, rfl => ⟨tag, _, fun _ => rfl, fun _ => .taken id⟩
  | .bankPower tag mask command, _, rfl => ⟨tag, _, fun _ => rfl, decideBankPower_faithful mask command⟩
  | .bankSet tag mask n, _, rfl => ⟨tag, _, fun _ => rfl, decideBankSet_faithful mask n⟩
  | .aimSet tag .., _, rfl => ⟨tag, _, fun _ => rfl, fun _ => .taken id⟩
  | .recipeSet tag n levels duration, _, rfl => ⟨tag, _, fun _ => rfl, decideRecipeSet_faithful n levels duration⟩
  | .recipeQuery tag n, _, rfl => ⟨tag, _, fun _ => rfl, decideRecipeQuery_faithful n⟩
  | .lampCal tag source points spill, _, rfl => ⟨tag, _, fun _ => rfl, decideLampCal_faithful source points spill⟩
  | .calQuery tag source, _, rfl => ⟨tag, _, fun _ => rfl, decideCalQuery_faithful source⟩
  | .doseQuery tag, _, rfl => ⟨tag, _, fun _ => rfl, fun _ => .same _⟩
  | .shoot tag n sides recipe purpose t, _, rfl =>
    ⟨tag, _, fun _ => rfl, decideShoot_faithful n sides recipe purpose t⟩
  | .cameraSet tag .., _, rfl => ⟨tag, _, fun _ => rfl, fun _ => .taken id⟩
  | .lineConfig tag i dir pull drive sense polarity both debounce event wake hold, _, rfl =>
    ⟨tag, _, fun _ => rfl, decideLineConfig_faithful i dir pull drive sense polarity both debounce event wake hold⟩
  | .lineWrite tag .., _, rfl => ⟨tag, _, fun _ => rfl, fun _ => .taken id⟩
  | .lineRead tag, _, rfl => ⟨tag, _, fun _ => rfl, fun _ => .same _⟩
  | .lineCounts tag .., _, rfl => ⟨tag, _, fun _ => rfl, fun _ => .taken id⟩
  | .lineQuery tag i, _, rfl => ⟨tag, _, fun _ => rfl, decideLineQuery_faithful i⟩
  | .lineClear tag mask, _, rfl => ⟨tag, _, fun _ => rfl, decideLineClear_faithful mask⟩
  | .lineBind tag fn i, _, rfl => ⟨tag, _, fun _ => rfl, decideLineBind_faithful fn i⟩

namespace Served
variable {c : Instr} {k tag : Byte} {owner : State → Decision}

/-- The part is ACTIVE after a request that restarts the idle timer (R142, R144). -/
theorem active (h : Served c k tag owner) {s t : State} (step : exec c s = .next t) : t.time.idle = false := by
  rw [h.serves, serve, restartIdle_wakeIfIdle] at step
  obtain rfl := Host.Outcome.next.inj step
  exact (h.faithful _).active (awake_idle k s)

/-- In IDLE the request wakes the part first (R144). -/
theorem exec_wake (h : Served c k tag owner) {s : State} (idle : s.time.idle = true) :
    exec c s = exec c (wake s (.request k)) := by
  have active : (wake s (.request k)).time.idle = false := by rw [wake_time]
  have woken : wakeIfIdle s (.request k) = wake s (.request k) := if_pos idle
  have stays : wakeIfIdle (wake s (.request k)) (.request k) = wake s (.request k) := if_neg (by simp [active])
  rw [h.serves, h.serves, serve, serve, woken, stays]

/-- A refused request leaves the part awake as it is, its reply made (R176). -/
theorem refused (h : Served c k tag owner) {s t : State} {tag' b : Byte} {r : Result} {f : Fields}
    (step : exec c s = .next t) (reply : t.link.reply = some ⟨k ||| 0x80#8, tag', r, b, f⟩)
    (refusal : r ≠ .accepted) : t = replied k tag' r f (awake k s) := by
  rcases decision : owner (awake k s) with ⟨u, result, fields⟩
  rw [h.serves, serve_replied decision] at step
  obtain rfl := Host.Outcome.next.inj step
  obtain ⟨rfl, rfl, -, rfl⟩ : tag = tag' ∧ result = r ∧ statusSummary u = b ∧ fields = f := by simpa [replied] using reply
  have unchanged : u = awake k s := by
    have kept := (h.faithful (awake k s)).refused
    rw [decision] at kept
    exact kept refusal
  rw [unchanged]

end Served
end Sys2Proof.Machine

namespace Sys2Proof
open Machine

/-- Settles O21: each owner's decision, where it is a refusal, leaves the state in which it was taken. -/
theorem aRefusedRequestChangesNothing : Obligations.ARefusedRequestChangesNothing := by
  intro c k tag s t r b f kind step reply refusal
  obtain ⟨tag', owner, served⟩ := served_of_restartingKind kind
  exact served.refused step reply refusal

/-- Settles O20: the wake block by block with its report first, and every restarting request served by an owner that decides
in the part awake and never brings it into IDLE. -/
theorem aWakeFollowsItsOrder : Obligations.AWakeFollowsItsOrder := by
  refine ⟨fun s cause => ⟨wake_time s cause, wake_reports cause, wake_bank s cause, by simp⟩, fun c k s kind idle => ?_⟩
  obtain ⟨tag, owner, served⟩ := served_of_restartingKind kind
  exact ⟨served.exec_wake idle, fun t step => served.active step⟩

end Sys2Proof
end

