-- ==== Sys2Proof/Proofs/Timebase.lean ====
section
/-! LINK_SET, RESET and IDLE_SET, the 1 ms tick, LINK_SILENT and the expiry of the idle timer (R134, R136 to R139, R141, R143,
R179, R180, R45, R46). -/
namespace Sys2Proof.Machine

/-! ### LINK_SET, RESET and IDLE_SET -/

/-- LINK_SET as the link interface sets it (R137, R138, R179). -/
def linkSetting (enable tap clear : Nat) (a : State) : State :=
  { a with
    link.supervision := decide (enable = 1)
    time.pendingTap := some tap
    link.errorFlag := false
    link.errorCount := if clear = 1 then 0 else a.link.errorCount }

theorem decideLinkSet_chosen (enable tap clear : Nat) (a : State) : decideLinkSet enable tap clear a =
    chosen [orField (decide (1 < enable)) .enable, orField (decide (3 < tap)) .tap, orField (decide (1 < clear)) .clearCount]
      a (silenceJudged (linkSetting enable tap clear a))
      (.linkSet (decide (enable = 1)) a.time.tap (some tap) a.link.errorCount) := by
  refine chosen_orField decide_eq_true_iff fun _ => chosen_orField decide_eq_true_iff fun _ => ?_
  refine chosen_orField decide_eq_true_iff fun _ => ?_
  dsimp only
  rw [judgeSilence_eq, chosen_nil]
  rfl

theorem idleValue_eq (n : Nat) :
    idleValue n = if n = 0 then 0 else if n < 10 then 10 else if 3600 < n then 3600 else n := rfl

/-- IDLE_SET starts the idle timer afresh with the new setting (R141). -/
theorem decideIdleSet_active {a : State} (active : a.time.idle = false) (n : Nat) : decideIdleSet n a =
    ({ a with time.idleSetting := idleValue n, time.idleStart := if idleValue n = 0 then none else some a.time.clock },
      .accepted, .idleSet (idleValue n) (decide (idleValue n ≠ n))) := by
  simp [decideIdleSet, accept, restartIdle, active]

/-! ### The tick -/

/-- A period boundary falls on a tick that makes the millisecond count a whole multiple of the period (R136). -/
def onBoundary (s : State) : Bool := decide ((s.time.ms + 1) % 2 ^ 32 % (64 * 2 ^ s.time.tap) = 0)

/-- The timebase after a tick, a pending tap taken at a boundary (R134, R137). -/
def tickedTime (s : State) : Timebase :=
  { s.time with
    phase := 0, ms := (s.time.ms + 1) % 2 ^ 32, tenth := (s.time.tenth + 1) % 10
    aimDue := s.time.aimDue || decide ((s.time.tenth + 1) % 10 = 0)
    tap := if onBoundary s then s.time.pendingTap.getD s.time.tap else s.time.tap
    pendingTap := if onBoundary s then none else s.time.pendingTap }

/-- The link after a tick: an ARMED silence timer counts a boundary, and the eighth waits (R138, R139; log 30). -/
def tickedLink (s : State) : Link :=
  if onBoundary s = true ∧ s.link.silence = .armed then
    if s.link.boundaries < 7 then { s.link with boundaries := s.link.boundaries + 1 }
    else { s.link with boundaryDue := true }
  else s.link

theorem countBoundary_eq (l : Link) : countBoundary l =
    if l.silence = .armed then
      if l.boundaries < 7 then { l with boundaries := l.boundaries + 1 } else { l with boundaryDue := true }
    else l := by
  unfold countBoundary
  cases h : l.silence <;> rfl

/-- The counts of a tick and its period boundary (R134, R136, R137). -/
theorem periodBoundary_countMs (s : State) :
    periodBoundary { s with time := countMs s.time } = { s with time := tickedTime s, link := tickedLink s } := by
  rw [periodBoundary, tickedTime, tickedLink]
  cases falls : onBoundary s with
  | true =>
    rw [if_pos (by exact of_decide_eq_true falls), countBoundary_eq]
    simp only [true_and, if_true]
    rfl
  | false =>
    rw [if_neg (by exact of_decide_eq_false falls)]
    rfl

/-! ### The pressure reading -/

theorem inBand_iff (p : Profile) (reading : Nat) :
    inBand p reading = true ↔ p.target ≤ reading + p.tolerance ∧ reading ≤ p.target + p.tolerance := by
  simp [inBand]

theorem pressureWatched_eq (s : State) :
    pressureWatched s.motion.platen = platenIn s [.lowering, .pressing, .down, .stopped] := by
  unfold platenIn
  cases s.motion.platen <;> rfl

/-- What a reading does, the platen's states and the band written out (R45, R46). -/
theorem takeReading_eq (s : State) (reading : Nat) : takeReading s reading =
    if s.motion.profile.limit < reading then
      if platenIn s [.lowering, .pressing, .down, .stopped] && !s.motion.pressureHigh then
        raiseFault { s with motion.pressure := reading, motion.pressureHigh := true } .pressureHigh none
      else { s with motion.pressure := reading }
    else if s.motion.platen = .pressing ∧ s.motion.profile.target ≤ reading + s.motion.profile.tolerance
        ∧ reading ≤ s.motion.profile.target + s.motion.profile.tolerance then
      { s with
        motion.pressure := reading, motion.pressureHigh := false, motion.platen := .down, motion.platenDeadline := none
        motion.dwell := some ⟨s.time.clock + s.motion.profile.dwellMax * 1000000, s.motion.profile.dwellMax⟩ }
    else { s with motion.pressure := reading, motion.pressureHigh := false } := by
  simp only [takeReading, pressureWatched_eq, inBand_iff]
  rfl

/-- When the drive brings the force back into the band (R46, R59, R65; log 11). -/
theorem retrimming_iff (s : State) : retrimming s = true ↔
    s.motion.platen = .down ∧ s.lines.hold = none ∧ s.time.idle = false
      ∧ (s.motion.pressure + s.motion.profile.tolerance < s.motion.profile.target
        ∨ s.motion.profile.target + s.motion.profile.tolerance < s.motion.pressure)
      ∧ s.motion.pressure ≤ s.motion.profile.limit := by
  have outside : inBand s.motion.profile s.motion.pressure = false ↔
      s.motion.pressure + s.motion.profile.tolerance < s.motion.profile.target
        ∨ s.motion.profile.target + s.motion.profile.tolerance < s.motion.pressure := by
    rw [← Bool.not_eq_true, inBand_iff, not_and_or, Nat.not_le, Nat.not_le]
  simp [retrimming, held, outside, and_assoc]

/-! ### The idle timer -/

section
variable {s : State} {t : Nat} (active : s.time.idle = false) (setting : 0 < s.time.idleSetting)
  (start : s.time.idleStart = some t) (due : t + s.time.idleSetting * 1000000 ≤ s.time.clock)
include active setting start due

theorem idleExpired_of_due : idleExpired s = true := by
  have passed : reached s (s.time.idleStart.map fun t => t + sec s.time.idleSetting) = true :=
    reached_some (by rw [start]; rfl) due
  simp [idleExpired, active, setting, passed]

/-- The idle timer starts afresh where it expires under a turn or a capture in flight (R143). -/
theorem exec_idleTimerExpiry_busy (busy : s.motion.turn.isSome = true ∨ s.seq.capture.isSome = true) :
    exec .idleTimerExpiry s = .next { s with time.idleStart := some s.time.clock } := by
  have flight : (turnInFlight s || captureInFlight s) = true := Bool.or_eq_true_iff.mpr busy
  have restarted : restartIdle s = { s with time.idleStart := some s.time.clock } := by
    rw [restartIdle, if_neg (by simp [active]), if_neg (Nat.ne_of_gt setting)]
  show Host.Outcome.next _ = _
  rw [idleExpired_of_due active setting start due, flight, restarted]
  rfl

/-- With neither in flight the part enters IDLE (R143). -/
theorem exec_idleTimerExpiry_free (turn : s.motion.turn = none) (capture : s.seq.capture = none) :
    exec .idleTimerExpiry s = .next (enterIdle s) := by
  have flight : (turnInFlight s || captureInFlight s) = false := by simp [turnInFlight, captureInFlight, turn, capture]
  show Host.Outcome.next _ = _
  rw [idleExpired_of_due active setting start due, flight]
  rfl

end

end Sys2Proof.Machine

namespace Sys2Proof
open Machine

/-- Settles O27: LINK_SET's checks are the table's, in its order, and RESET and IDLE_SET are always taken. -/
theorem linkSetResetAndIdleSet : Obligations.LinkSetResetAndIdleSet := by
  refine fun tag s => ⟨fun enable tap clear a ha => ?_, fun a ha => ?_, fun n v a ha hv => ?_⟩ <;> subst ha
  · exact congrArg _ (serve_decided (decideLinkSet_chosen enable tap clear _))
  · exact congrArg _ (serve_accepted rfl)
  · obtain rfl : v = idleValue n := hv.trans (idleValue_eq n).symm
    exact congrArg _ (serve_replied (decideIdleSet_active (awake_idle 0x09#8 s) n))

/-- Settles O56: the tick is its counts, then its reading; the silence timer's expiry raises its fault; and the idle timer
starts afresh or brings the part into IDLE, block by block. -/
theorem ticksAndTimersOfTheTimebase : Obligations.TicksAndTimersOfTheTimebase := by
  refine ⟨fun s w reading n boundary phase hn hb hw => ?_, retrimming_iff, fun s armed due => ?_,
    fun s t active setting start due => ⟨fun busy => exec_idleTimerExpiry_busy active setting start due busy,
      fun turn capture => ⟨enterIdle s, exec_idleTimerExpiry_free active setting start due turn capture, enterIdle_time s,
        enterIdle_reports, ?_, enterIdle_aim s, enterIdle_ready s, by simp⟩⟩⟩
  · subst hn
    obtain rfl : boundary = onBoundary s := hb
    subst hw
    have ticked : exec (.tick1ms reading) s =
        .next (settle (runMotion (takeReading (periodBoundary { s with time := countMs s.time }) reading))) :=
      congrArg Host.Outcome.next (if_pos phase)
    rw [ticked, periodBoundary_countMs, takeReading_eq]
    rfl
  · have expired : silenceExpired s = true := by simp [silenceExpired, armed, due]
    exact congrArg Host.Outcome.next (if_pos expired)
  · intro bk r hr
    rw [hr, enterIdle_bank]
    rfl

end Sys2Proof
end

