-- ==== Sys2Proof/Proofs/Receiver.lean ====
section
/-! The receiver, byte by byte, the valid frame, and the end of a reply (R138, R174 to R176, R180, R186, R189). -/
namespace Sys2Proof.Machine

/-! ### One byte -/

/-- A byte that comes within 2 ms of the last one, or in HUNT, is taken as it is (R174). -/
theorem exec_byteReceived {s : State} (prompt : ∀ a, s.link.assembly = some a → s.time.clock ≤ a.last + 2000)
    (b : Byte) (bad : Bool) : exec (.byteReceived b bad) s = .next (takeByte s b bad) := by
  have inTime : gapPassed s = false := by
    unfold gapPassed
    split
    · rfl
    · exact decide_eq_false (Nat.not_lt.mpr (prompt _ ‹_›))
  show Host.Outcome.next (takeByte (if gapPassed s then dropFrame s else s) b bad) = _
  rw [inTime]
  rfl

/-- A byte that comes more than 2 ms after the last one finds the frame dropped (R174; log 26). -/
theorem exec_byteReceived_late {s : State} {a : Assembly} (assembly : s.link.assembly = some a)
    (late : a.last + 2000 < s.time.clock) (b : Byte) (bad : Bool) :
    exec (.byteReceived b bad) s = .next (takeByte (dropFrame s) b bad) := by
  have passed : gapPassed s = true := by
    simp only [gapPassed, assembly]
    exact decide_eq_true late
  show Host.Outcome.next (takeByte (if gapPassed s then dropFrame s else s) b bad) = _
  rw [passed]
  rfl

/-- In HUNT a start byte with a good stop bit begins a frame (R174). -/
theorem takeByte_hunt {s : State} (hunting : s.link.assembly = none) (b : Byte) (bad : Bool) :
    takeByte s b bad = if b = 0xA5#8 ∧ bad = false then
      { s with link.receiver := .header, link.assembly := some ⟨[], s.time.clock⟩ } else s := by
  have start : (b == startByte && !bad) = decide (b = 0xA5#8 ∧ bad = false) := by
    cases bad <;> simp [startByte, Bool.beq_eq_decide_eq]
  simp only [takeByte, hunting, start, decide_eq_true_eq]
  rfl

section
variable {s : State} {a : Assembly} (assembly : s.link.assembly = some a)
include assembly

theorem takeByte_bad (b : Byte) : takeByte s b true = dropFrame s := by simp [takeByte, assembly]

theorem takeByte_good (b : Byte) : takeByte s b false = storeByte s a b := by simp [takeByte, assembly]

end

theorem storeByte_long {a : Assembly} {b : Byte} (long : 240 < ((a.bytes ++ [b]).headD 0#8).toNat) (s : State) :
    storeByte s a b = dropFrame s := if_pos long

/-- A byte that does not complete the frame is stored (R174). -/
theorem storeByte_inside {a : Assembly} {b : Byte} (fits : lengthByte (a.bytes ++ [b]) ≤ 240)
    (inside : (a.bytes ++ [b]).length < 5 + lengthByte (a.bytes ++ [b])) (s : State) :
    storeByte s a b = { s with
      link.receiver := receiverState (a.bytes ++ [b]), link.assembly := some ⟨a.bytes ++ [b], s.time.clock⟩ } := by
  rw [storeByte, if_neg (by exact Nat.not_lt.mpr fits), if_neg (Nat.ne_of_lt inside)]
  rfl

/-- The byte that completes the frame has it checked (R175). -/
theorem storeByte_whole {a : Assembly} {b : Byte} (fits : lengthByte (a.bytes ++ [b]) ≤ 240)
    (whole : (a.bytes ++ [b]).length = 5 + lengthByte (a.bytes ++ [b])) (s : State) :
    storeByte s a b = checkFrame s (a.bytes ++ [b]) := by
  rw [storeByte, if_neg (by exact Nat.not_lt.mpr fits), if_pos whole]

theorem receiverState_concat (bs : List Byte) (b : Byte) : receiverState (bs ++ [b]) =
    if bs.length < 2 then .header else if bs.length < 2 + lengthByte (bs ++ [b]) then .body else .check := by
  have header : bs.length + 1 < 3 ↔ bs.length < 2 := by omega
  have body : bs.length + 1 < 3 + lengthByte (bs ++ [b]) ↔ bs.length < 2 + lengthByte (bs ++ [b]) := by omega
  simp only [receiverState, List.length_append, List.length_singleton, header, body]

/-! ### The end of a reply -/

theorem isResetReply_iff (r : Reply) : isResetReply r = true ↔ r.kind = 0x86#8 ∧ r.result = .accepted := by
  simp [isResetReply, replyKind]

theorem takeUp_empty {s : State} (buffer : s.link.buffer = []) : takeUp s = s := by
  obtain same | ⟨f, rest, -, -, frames, -⟩ := takeUp_cases s
  · exact same
  · simp [buffer] at frames

theorem takeUp_busy {s : State} (busy : s.link.deciding.isSome = true ∨ s.link.reply.isSome = true) : takeUp s = s := by
  obtain same | ⟨f, rest, deciding, reply, -, -⟩ := takeUp_cases s
  · exact same
  · simp [deciding, reply] at busy

section
variable {s : State} {f : Frame} {rest : List Frame} (deciding : s.link.deciding = none) (reply : s.link.reply = none)
  (buffer : s.link.buffer = f :: rest)
include deciding reply buffer

theorem takeUp_taken (known : frameRefusal f = none) :
    takeUp s = { s with link.buffer := rest, link.deciding := some f } := by
  simp only [takeUp, deciding, reply, buffer, known]

theorem takeUp_refused {e : Result} (refused : frameRefusal f = some e) : takeUp s = { s with
    link.buffer := rest, link.reply := some ⟨f.kind ||| 0x80#8, f.tag, e, statusSummary s, .none⟩ } := by
  simp only [takeUp, deciding, reply, buffer, refused]
  rfl

end

theorem exec_replySent {s : State} {r : Reply} (reply : s.link.reply = some r) :
    exec .replySent s = if r.kind = 0x86#8 ∧ r.result = .accepted then exec .softReset s
      else .next (takeUp { s with link.reply := none }) := by
  have sent : exec .replySent s =
      .next (if isResetReply r then softReset s else takeUp { s with link.reply := none }) := by
    simp only [exec, execReplySent, reply]
  rw [sent]
  simp only [isResetReply_iff]
  split <;> rfl

/-! ### A good frame -/

theorem goodFrame_overrun {s : State} (full : 2 ≤ s.link.buffer.length) (f : Frame) : goodFrame s f = dropFrame s :=
  if_neg (Nat.not_lt.mpr full)

/-- The frame that a good frame makes valid, before it is taken up. -/
theorem goodFrame_room {s : State} (room : s.link.buffer.length < 2) (f : Frame) :
    goodFrame s f = takeUp (validFrame { s with link.buffer := s.link.buffer ++ [f] }) := if_pos room

theorem takeUp_silence (s : State) :
    (takeUp s).link.silence = s.link.silence ∧ (takeUp s).link.boundaries = s.link.boundaries := by
  obtain same | ⟨f, rest, -, -, -, ⟨-, taken⟩ | ⟨r, -, taken⟩⟩ := takeUp_cases s
  · rw [same]; exact ⟨rfl, rfl⟩
  · rw [taken]; exact ⟨rfl, rfl⟩
  · rw [taken]; exact ⟨rfl, rfl⟩

/-- What a valid frame leaves of the link, but for the silence timer. -/
theorem validFrame_link (s : State) : (validFrame s).link.buffer = s.link.buffer
    ∧ (validFrame s).link.deciding = s.link.deciding ∧ (validFrame s).link.reply = s.link.reply := by
  unfold validFrame
  split <;> exact ⟨rfl, rfl, rfl⟩

/-- A WAITING silence timer is armed again or switched off by a valid frame; the others stay (R138). -/
theorem validFrame_silence (s : State) : (validFrame s).link.silence =
    if s.link.silence = .waiting then
      (if s.link.supervision = true ∧ s.volume.state = .opened then .armed else .off)
    else s.link.silence := by
  have called : calledFor s = true ↔ s.link.supervision = true ∧ s.volume.state = .opened := by
    simp [calledFor, volumeOpened]
  unfold validFrame
  split
  case h_3 silence => simp only [silence, called, if_true]
  case h_1 silence | h_2 silence => simp [silence]

/-- A valid frame starts the count of boundaries again (R138). -/
theorem validFrame_boundaries {s : State} (on : s.link.silence ≠ .off) (counted : s.link.boundaryDue = false) :
    (validFrame s).link.boundaries = 0 := by
  unfold validFrame
  split
  · exact absurd ‹_› on
  · simp [counted]
  · rfl

/-! ### A whole frame -/

/-- The frame in assembly, all of whose bytes have come at one moment (R174). -/
def assembling (s : State) (bs : List Byte) : State :=
  { s with link.receiver := receiverState bs, link.assembly := some ⟨bs, s.time.clock⟩ }

theorem receive_cons {s t : State} {b : Byte} (h : exec (.byteReceived b false) s = .next t) (bs : List Byte) :
    receive (b :: bs) s = receive bs t := by rw [receive, h]

theorem receive_assembling (s : State) (bs : List Byte) (b : Byte) (rest : List Byte) :
    receive (b :: rest) (assembling s bs) = receive rest (storeByte (assembling s bs) ⟨bs, s.time.clock⟩ b) := by
  have prompt : ∀ a, (assembling s bs).link.assembly = some a → (assembling s bs).time.clock ≤ a.last + 2000 := by
    rintro a ⟨⟩
    exact Nat.le_add_right _ _
  exact receive_cons ((exec_byteReceived prompt b false).trans (congrArg _ (takeByte_good rfl b))) rest

/-- The length byte is the first, whatever follows it. -/
theorem lengthByte_prefix {bs cs : List Byte} (h : bs ≠ []) : lengthByte (bs ++ cs) = lengthByte bs := by
  cases bs with
  | nil => exact absurd rfl h
  | cons b bs => rfl

/-- Bytes that come in together within a frame are stored one after another, until the last one has the frame checked
(R174, R175). -/
theorem receive_frame {s : State} {bs rest : List Byte} (more : rest ≠ []) (fits : lengthByte (bs ++ rest) ≤ 240)
    (whole : (bs ++ rest).length = 5 + lengthByte (bs ++ rest)) :
    ∃ cs, receive rest (assembling s bs) = checkFrame (assembling s cs) (bs ++ rest) := by
  induction rest generalizing bs with
  | nil => exact absurd rfl more
  | cons b rest ih =>
    have length : lengthByte (bs ++ b :: rest) = lengthByte (bs ++ [b]) := by
      rw [List.append_cons]
      exact lengthByte_prefix (by simp)
    rw [receive_assembling]
    rw [length] at fits whole
    cases rest with
    | nil => exact ⟨bs, storeByte_whole fits whole _⟩
    | cons b' rest =>
      have inside : (bs ++ [b]).length < 5 + lengthByte (bs ++ [b]) := by
        simp only [List.length_append, List.length_cons, List.length_nil] at whole ⊢
        omega
      have stored : storeByte (assembling s bs) ⟨bs, s.time.clock⟩ b = assembling s (bs ++ [b]) :=
        storeByte_inside fits inside _
      rw [stored, List.append_cons bs b (b' :: rest)]
      refine ih (List.cons_ne_nil _ _) ?_ ?_ <;> rw [← List.append_cons bs b (b' :: rest), length]
      · exact fits
      · exact whole

theorem lengthByte_frameBody {f : Frame} (fits : f.payload.length ≤ 240) (check : List Byte) :
    lengthByte (frameBody f ++ check) = f.payload.length := by
  show (BitVec.ofNat 8 f.payload.length).toNat = _
  rw [BitVec.toNat_ofNat, Nat.mod_eq_of_lt (by omega)]

/-- A whole frame whose check is not that of its bytes is dropped (R175, R186). -/
theorem checkFrame_dropped {f : Frame} {check : List Byte} (fits : f.payload.length ≤ 240)
    (wrong : check ≠ checkBytes (crc16 (frameBody f))) (s : State) : checkFrame s (frameBody f ++ check) = dropFrame s := by
  have length : (frameBody f).length = 3 + f.payload.length := by
    simp [frameBody]
    omega
  rw [checkFrame]
  dsimp only
  rw [lengthByte_frameBody fits, List.drop_left' length, List.take_left' length, if_neg wrong]

/-- A frame that comes in together, with a wrong check, is dropped (R174, R175). -/
theorem receive_dropped {f : Frame} {check : List Byte} {s : State} (fits : f.payload.length ≤ 240)
    (two : check.length = 2) (wrong : check ≠ checkBytes (crc16 (frameBody f))) (hunting : s.link.assembly = none) :
    receive (startByte :: (frameBody f ++ check)) s = dropFrame s := by
  have prompt : ∀ a, s.link.assembly = some a → s.time.clock ≤ a.last + 2000 := by simp [hunting]
  have begun : takeByte s startByte false = assembling s [] := (takeByte_hunt hunting _ _).trans (if_pos ⟨rfl, rfl⟩)
  have length : lengthByte (frameBody f ++ check) = f.payload.length := lengthByte_frameBody fits check
  obtain ⟨cs, received⟩ := receive_frame (s := s) (bs := []) (rest := frameBody f ++ check) (by simp [frameBody])
    (length.trans_le fits) (by
      rw [List.nil_append, length]
      simp [frameBody, two]
      omega)
  rw [receive_cons ((exec_byteReceived prompt startByte false).trans (congrArg _ begun)), received]
  exact checkFrame_dropped fits wrong _

/-- A frame dropped in HUNT leaves no frame in assembly, as before (R175). -/
theorem dropFrame_hunting {s : State} (hunting : s.link.assembly = none) : dropFrame s = { s with
    link.receiver := .hunt, link.errorFlag := true
    link.errorCount := if s.link.errorCount < 65535 then s.link.errorCount + 1 else 65535 } := by
  rw [dropFrame, ← hunting]
  rfl

end Sys2Proof.Machine

namespace Sys2Proof
open Machine

/-- Settles O19: the byte in HUNT, inside a frame and too late, the gap, the end of a reply, the good frame, the frame with a
wrong check, and the frame of a reply. -/
theorem bytesGapsFramesAndRepliesSent : Obligations.BytesGapsFramesAndRepliesSent := by
  refine ⟨fun b bad s hunting => ?_, fun b bad s a assembly prompt broken => ?_,
    fun b s a assembly prompt fits inside => ⟨_, ?_, receiverState_concat a.bytes b⟩, fun s a assembly due => ?_,
    fun b bad s a assembly late => ?_, fun s r reply deciding => ⟨fun reset => ?_, fun other buffer => ?_,
      fun f rest other buffer known => ?_, fun f rest e other buffer refused => ?_⟩,
    fun s f => ⟨fun full => goodFrame_overrun full f, fun room counted => ⟨?_, fun on => ?_, fun busy => ?_⟩⟩,
    fun f check s fits two wrong hunting => (receive_dropped fits two wrong hunting).trans (dropFrame_hunting hunting),
    fun r p body hp hbody => ?_⟩
  · rw [exec_byteReceived (by simp [hunting]), takeByte_hunt hunting]
  · rw [exec_byteReceived (by simpa [assembly] using prompt)]
    obtain rfl | long := broken
    · rw [takeByte_bad assembly]
      rfl
    · cases bad with
      | true => rw [takeByte_bad assembly]; rfl
      | false => rw [takeByte_good assembly, storeByte_long long]; rfl
  · rw [exec_byteReceived (by simpa [assembly] using prompt), takeByte_good assembly, storeByte_inside fits inside]
  · have passed : gapDue s = true := by
      simp only [gapDue, assembly]
      exact decide_eq_true due
    exact congrArg Host.Outcome.next (if_pos passed)
  · rw [exec_byteReceived_late assembly late, takeByte_hunt rfl]
    split <;> rfl
  · rw [exec_replySent reply, if_pos reset]
  · rw [exec_replySent reply, if_neg (not_and_or.mpr other)]
    exact congrArg _ (takeUp_empty buffer)
  · rw [exec_replySent reply, if_neg (not_and_or.mpr other)]
    exact congrArg _ (takeUp_taken deciding rfl buffer known)
  · rw [exec_replySent reply, if_neg (not_and_or.mpr other)]
    exact congrArg _ (takeUp_refused (s := { s with link.reply := none }) deciding rfl buffer refused)
  · rw [goodFrame_room room, (takeUp_silence _).1, validFrame_silence]
  · rw [goodFrame_room room, (takeUp_silence _).2]
    exact validFrame_boundaries on counted
  · obtain ⟨buffer, decided, replied⟩ := validFrame_link { s with link.buffer := s.link.buffer ++ [f] }
    rw [goodFrame_room room, takeUp_busy (by rw [decided, replied]; exact busy), buffer]
  · subst hp hbody
    rfl

end Sys2Proof
end

