-- ==== Sys2Proof/Proofs/LinesShown.lean ====
section
/-! The lines that output functions are bound to, and the operations that change nothing of the lines but what is staged on
them (R119, R151, R155, R157). -/
namespace Sys2Proof.Machine

/-! ### What the lines show -/

/-- The lines show the output functions bound to them, READY_LAMP as it was judged last. -/
structure Shown (s : State) : Prop where
  binding : bindingInv s
  line : ∀ f, isOutputFn f = true → outputShown s f (outputState s f)

/-- The invariant of R157 is that the lines show their functions, and that READY_LAMP was judged by its condition as it
stands. -/
theorem outputInv_iff (s : State) : outputInv s ↔ Shown s ∧ s.lines.ready = readyCondition s := by
  unfold outputInv
  rw [← readyCondition_iff]
  constructor
  · rintro ⟨binding, left, right, attention, lamp, ready⟩
    refine ⟨⟨binding, fun f hf => ?_⟩, ready⟩
    cases f with
    | camLTrigger => exact left
    | camRTrigger => exact right
    | attention => exact attention
    | readyLamp => exact lamp
    | _ => exact absurd hf (by decide)
  · rintro ⟨⟨binding, line⟩, ready⟩
    exact ⟨binding, line .camLTrigger rfl, line .camRTrigger rfl, line .attention rfl, line .readyLamp rfl, ready⟩

/-- READY_LAMP's condition, written out (R157). -/
theorem readyCondition_eq (s : State) : readyCondition s =
    (decide (s.volume.state = .opened) && s.volume.known && !s.safe.flag && !s.lines.hold.isSome && !s.time.idle
      && !s.motion.turn.isSome && !s.seq.capture.isSome && decide (s.seq.orders.length < Config.orderCapacity)) := rfl

/-- What the showing of the output functions looks at. -/
def display (s : State) : List Line × List (Option Nat) × Bool × Pair (Option Nat) × Bool :=
  (s.lines.records, s.lines.binding, s.lines.ready, s.seq.pulses, s.queue.reports.isEmpty)

/-- State `t` has the bindings of `s` and its lines, but for what is staged on them; and they show their functions where
those of `s` do. -/
structure Restaged (s t : State) : Prop where
  binding : t.lines.binding = s.lines.binding
  lines : t.lines.records.map lastingLine = s.lines.records.map lastingLine
  shown : Shown s → Shown t

theorem lineOf_of_binding {s t : State} (h : t.lines.binding = s.lines.binding) (f : Fn) : lineOf t f = lineOf s f := by
  rw [lineOf, h, lineOf]

theorem fnOf_of_binding {s t : State} (h : t.lines.binding = s.lines.binding) (i : Nat) : fnOf t i = fnOf s i := by
  simp only [fnOf, lineOf_of_binding h]

/-- The bindings keep their laws with the number of lines. -/
theorem bindingInv_of_binding {s t : State} (binding : t.lines.binding = s.lines.binding)
    (length : t.lines.records.length = s.lines.records.length) (h : bindingInv s) : bindingInv t := by
  simpa only [bindingInv, lineOf_of_binding binding, binding, length] using h

/-- What of a line its function shows on it. -/
def shownLine (l : Line) : LineDir × Polarity × Bool := (l.dir, l.polarity, l.staged)

theorem outputShown_of_line {s t : State} {f : Fn} {v : Bool} (binding : lineOf t f = lineOf s f)
    (line : ∀ i, lineOf s f = some i → shownLine (getLine t i) = shownLine (getLine s i))
    (h : outputShown s f v) : outputShown t f v := fun i hi => by
  rw [binding] at hi
  have same := line i hi
  simp only [shownLine, Prod.mk.injEq] at same
  obtain ⟨dir, polarity, staged⟩ := same
  rw [dir, polarity, staged]
  exact h i hi

/-- Driving a function touches no line of another. -/
theorem outputShown_driveFn {s : State} {f g : Fn} (inv : bindingInv s) (other : g ≠ f) (v : Bool) {w : Bool}
    (h : outputShown s g w) : outputShown (driveFn s f v) g w := by
  have binding : (driveFn s f v).lines.binding = s.lines.binding := by simp
  refine outputShown_of_line (lineOf_of_binding binding g) (fun i hi => ?_) h
  have inside : i < s.lines.records.length := by rw [inv.1]; exact inv.2.2.1 g i hi
  have free : lineOf s f ≠ some i := fun hf => other (inv.2.2.2 g f i hi hf)
  rw [getLine_driveFn_driven inside, driven_other free]

theorem outputState_driveFn (s : State) (f g : Fn) (v : Bool) : outputState (driveFn s f v) g = outputState s g := by
  cases g <;> simp [outputState]

/-- Where every other output function is shown, driving one with its state makes the lines show them all. -/
theorem Shown.drive {s : State} {f : Fn} {v : Bool} (hv : v = outputState s f) (inv : bindingInv s)
    (dir : ∀ i, lineOf s f = some i → (getLine s i).dir = .out)
    (others : ∀ g, g ≠ f → isOutputFn g = true → outputShown s g (outputState s g)) : Shown (driveFn s f v) := by
  have binding : (driveFn s f v).lines.binding = s.lines.binding := by simp
  refine ⟨bindingInv_of_binding binding (by simp) inv, fun g hg => ?_⟩
  rw [outputState_driveFn]
  by_cases own : g = f
  · subst own
    intro i hi
    have bound : lineOf s g = some i := (lineOf_of_binding binding g).symm.trans hi
    have inside : i < s.lines.records.length := by rw [inv.1]; exact inv.2.2.1 g i bound
    rw [getLine_driveFn_driven inside, bound, driven_bound, hv]
    exact ⟨dir i bound, drivenValue_if _ _⟩
  · exact outputShown_driveFn inv own v (others g own hg)

/-- Lines that keep their directions, polarities and staged values where an output function is bound to them show the
functions whose states stand. -/
theorem Shown.of_lines {s t : State} (h : Shown s) (binding : t.lines.binding = s.lines.binding)
    (length : t.lines.records.length = s.lines.records.length) (states : ∀ f, outputState t f = outputState s f)
    (line : ∀ f i, isOutputFn f = true → lineOf s f = some i → shownLine (getLine t i) = shownLine (getLine s i)) :
    Shown t :=
  ⟨bindingInv_of_binding binding length h.binding, fun f hf => states f ▸
    outputShown_of_line (lineOf_of_binding binding f) (fun i => line f i hf) (h.line f hf)⟩

namespace Restaged
variable {s t u : State}

theorem refl (s : State) : Restaged s s := ⟨rfl, rfl, id⟩

theorem trans (h : Restaged s t) (g : Restaged t u) : Restaged s u :=
  ⟨g.binding.trans h.binding, g.lines.trans h.lines, g.shown ∘ h.shown⟩

theorem of_eq (h : display t = display s) : Restaged s t := by
  simp only [display, Prod.mk.injEq] at h
  obtain ⟨records, binding, ready, pulses, reports⟩ := h
  refine ⟨binding, by rw [records], fun hs => hs.of_lines binding (by rw [records]) (fun f => ?_) fun f i _ _ => ?_⟩
  · cases f <;> simp only [outputState, ready, pulses, reports]
  · simp only [getLine, records]

theorem then_eq (h : Restaged s t) (g : display u = display t) : Restaged s u := h.trans (.of_eq g)

/-- An operation that changes the state of one output function, and drives it. -/
theorem drive {f : Fn} {v : Bool} (hf : isOutputFn f = true) (binding : t.lines.binding = s.lines.binding)
    (records : t.lines.records = s.lines.records) (others : ∀ g, g ≠ f → outputState t g = outputState s g)
    (hv : v = outputState t f) : Restaged s (driveFn t f v) := by
  have same : ∀ i, getLine t i = getLine s i := fun i => by simp only [getLine, records]
  refine ⟨by simpa using binding, records ▸ congrArg Lasting.lines (lasting_driveFn t f v),
    fun hs => .drive hv ?_ ?_ ?_⟩
  · exact bindingInv_of_binding binding (by rw [records]) hs.binding
  · intro i hi
    rw [same]
    exact (hs.line f hf i ((lineOf_of_binding binding f).symm.trans hi)).1
  · intro g own hg
    rw [others g own]
    exact outputShown_of_line (lineOf_of_binding binding g) (fun i _ => by rw [same]) (hs.line g hg)

/-- What each operation of a list does, the whole list does. -/
theorem foldl {α : Type} {f : State → α → State} (h : ∀ u a, Restaged u (f u a)) (l : List α) (s : State) :
    Restaged s (l.foldl f s) := by
  induction l generalizing s with
  | nil => exact refl s
  | cons a l ih => exact (h s a).trans (ih _)

theorem length (h : Restaged s t) : t.lines.records.length = s.lines.records.length := by
  simpa using congrArg List.length h.lines

/-- Each line is as it was, but for what is staged on it. -/
theorem getLine_eq (h : Restaged s t) (i : Nat) : getLine t i = { getLine s i with staged := (getLine t i).staged } := by
  have at_ : ∀ u : State, lastingLine (getLine u i) = (u.lines.records.map lastingLine).getD i (lastingLine default) :=
    fun u => (List.getD_map ..).symm
  have lasts : lastingLine (getLine t i) = lastingLine (getLine s i) := by rw [at_, at_, h.lines]
  exact congrArg (fun l : Line => { l with staged := (getLine t i).staged }) lasts

end Restaged

/-! ### Operations that touch neither the lines nor what their functions show -/

@[simp] theorem display_restartIdle (s : State) : display (restartIdle s) = display s := by simp [display]

@[simp] theorem display_judgeLit (s : State) : display (judgeLit s) = display s := rfl

@[simp] theorem display_modifySide (s : State) (sd : Side) (f : SideRec → SideRec) :
    display (modifySide s sd f) = display s := rfl

@[simp] theorem display_holdCapture (s : State) : display (holdCapture s) = display s := rfl

@[simp] theorem display_followPlaten (s : State) : display (followPlaten s) = display s := by simp [display]

@[simp] theorem display_holdMotion (s : State) : display (holdMotion s) = display s := by simp [display]

@[simp] theorem display_startStage (s : State) (g : Stage) : display (startStage s g) = display s := by simp [display]

@[simp] theorem display_stopHoods (s : State) : display (stopHoods s) = display s := by simp [display]

@[simp] theorem display_confirmSide (s : State) (c : Capture) (sd : Side) : display (confirmSide s c sd) = display s := rfl

@[simp] theorem display_askBanks (c : Capture) (sd : Side) (bs : List Bank) (t : Nat) (s : State) :
    display (askBanks c sd bs t s) = display s := by
  induction bs generalizing s t with
  | nil => rfl
  | cons bk rest ih => exact (ih _ _).trans rfl

@[simp] theorem display_syncEdge (s : State) (sd : Side) (t : Nat) : display (syncEdge s sd t) = display s := by
  unfold syncEdge
  split
  · rfl
  · split
    · dsimp only
      split_ifs <;> simp
    · rfl

@[simp] theorem display_storedEdge (s : State) (sd : Side) : display (storedEdge s sd) = display s := by
  unfold storedEdge
  split
  · rfl
  · split
    · rfl
    · split <;> rfl

@[simp] theorem display_leaveFiring (s : State) (sd : Side) : display (leaveFiring s sd) = display s := by
  unfold leaveFiring
  split
  · rfl
  · split
    · rfl
    · dsimp only
      split_ifs <;> simp

@[simp] theorem display_answerAsk (s : State) (bk : Bank) (a : Answer) : display (answerAsk s bk a) = display s :=
  (display_leaveFiring _ _).trans rfl

/-! ### Reports -/

theorem enqueue_restaged (s : State) (b : Body) (n : Nat) : Restaged s (enqueue s b n) := by
  refine .drive (f := .attention) rfl (by rfl) (by rfl) (fun g hg => ?_) ?_
  · cases g
    case attention => exact absurd rfl hg
    all_goals rfl
  · simp [outputState]

theorem offerMinor_restaged (s : State) (b : Body) : Restaged s (offerMinor s b) := by
  unfold offerMinor
  split
  · exact .trans (t := { s with queue.missed := 0 }) (.of_eq rfl) (enqueue_restaged _ _ _)
  · exact .of_eq rfl

theorem offerMajor_restaged (s : State) (b : Body) : Restaged s (offerMajor s b) := by
  unfold offerMajor
  split
  · exact enqueue_restaged _ _ _
  · exact .refl s

theorem enterReserved_restaged (s : State) (b : Body) : Restaged s (enterReserved s b) :=
  .trans (t := { s with queue.reserved := s.queue.reserved - 1 }) (.of_eq rfl) (enqueue_restaged _ _ _)

/-! ### READY_LAMP and the trigger pulses -/

theorem judgeReady_restaged (s : State) : Restaged s (judgeReady s) := by
  refine .drive (f := .readyLamp) rfl (by rfl) (by rfl) (fun g hg => ?_) (by rfl)
  cases g
  case readyLamp => exact absurd rfl hg
  all_goals rfl

/-- What the aim lamps and READY_LAMP judged afresh leave of the lines. -/
theorem Restaged.judged {s t : State} (h : Restaged s t) : Restaged s (judgeReady (judgeLit t)) :=
  (h.then_eq (display_judgeLit t)).trans (judgeReady_restaged _)

theorem isOutputFn_triggerFn (sd : Side) : isOutputFn (triggerFn sd) = true := by cases sd <;> rfl

/-- The pulse of one side starts or ends, and its trigger is driven. -/
theorem pulse_restaged (s : State) (sd : Side) (p : Option Nat) :
    Restaged s (driveFn { s with seq.pulses := s.seq.pulses.set sd p } (triggerFn sd) p.isSome) := by
  refine .drive (isOutputFn_triggerFn sd) (by rfl) (by rfl) (fun g hg => ?_) ?_
  · cases sd with
    | left =>
      cases g
      case camLTrigger => exact absurd rfl hg
      all_goals rfl
    | right =>
      cases g
      case camRTrigger => exact absurd rfl hg
      all_goals rfl
  · cases sd <;> rfl

theorem startPulse_restaged (c : Capture) (s : State) (sd : Side) : Restaged s (startPulse c s sd) := by
  unfold startPulse
  split
  · exact pulse_restaged s sd _
  · exact .refl s

/-! ### Banks -/

theorem reportBank_restaged {s u : State} (h : display u = display s) (bk : Bank) (x y : BankState) (c : BankCause) :
    Restaged s (reportBank u bk x y c) := (Restaged.of_eq h).trans (offerMinor_restaged _ _)

theorem enterReady_restaged (s : State) (bk : Bank) (c : Option BankCause) : Restaged s (enterReady s bk c) := by
  unfold enterReady
  dsimp only
  split
  · exact .of_eq rfl
  · exact reportBank_restaged (by rfl) _ _ _ _

theorem enterStandby_restaged (s : State) (bk : Bank) (c : BankCause) : Restaged s (enterStandby s bk c) :=
  reportBank_restaged (by rfl) _ _ _ _

theorem enterConditioning_restaged (s : State) (bk : Bank) (c : BankCause) : Restaged s (enterConditioning s bk c) :=
  reportBank_restaged (by rfl) _ _ _ _

theorem endCharge_restaged (s : State) (bk : Bank) : Restaged s (endCharge s bk) := by
  unfold endCharge
  split
  · exact enterStandby_restaged _ _ _
  · exact enterConditioning_restaged _ _ _

theorem startCharging_restaged (s : State) (bk : Bank) : Restaged s (startCharging s bk) := by
  have charging : ∀ r, Restaged s (reportBank (setBank s bk r) bk (getBank s bk).state .charging .power) := fun r =>
    reportBank_restaged (by rfl) _ _ _ _
  unfold startCharging
  dsimp only
  split
  · exact (charging _).trans (endCharge_restaged _ _)
  · exact charging _

theorem powerBank_restaged (on : Bool) (mask : Quad Bool) (s : State) (bk : Bank) : Restaged s (powerBank on mask s bk) := by
  unfold powerBank
  split_ifs
  · exact .refl s
  · exact startCharging_restaged s bk
  · exact .refl s
  · exact reportBank_restaged (by rfl) _ _ _ _

theorem wakeBank_restaged (s : State) (bk : Bank) : Restaged s (wakeBank s bk) := by
  unfold wakeBank
  dsimp only
  split
  · exact reportBank_restaged (by rfl) _ _ _ _
  · exact .refl s

theorem idleBank_restaged (s : State) (bk : Bank) : Restaged s (idleBank s bk) := by
  unfold idleBank
  split
  case h_1 | h_2 | h_3 => exact enterStandby_restaged s bk _
  all_goals exact .refl s

theorem returnReady_restaged (s : State) (bk : Bank) : Restaged s (returnReady s bk) := by
  unfold returnReady
  split
  · exact enterStandby_restaged _ _ _
  · exact enterReady_restaged _ _ _

/-! ### Wake, idle and the sequencer -/

theorem wake_restaged (s : State) (c : WakeCause) : Restaged s (wake s c) := by
  unfold wake
  dsimp only
  refine .judged (.trans (.trans ?_ (offerMinor_restaged _ _)) (Restaged.foldl wakeBank_restaged _ _))
  exact .of_eq ((display_restartIdle _).trans rfl)

theorem wakeIfIdle_restaged (s : State) (c : WakeCause) : Restaged s (wakeIfIdle s c) := by
  rcases wakeIfIdle_cases c s with ⟨-, h⟩ | ⟨-, h⟩ <;> rw [h]
  · exact wake_restaged s c
  · exact .refl s

theorem enterIdle_restaged (s : State) : Restaged s (enterIdle s) := by
  have closed : ∀ u, display (closeBankHoods (clearHoodRequests u)) = display u := fun u => by simp [display]
  unfold enterIdle
  dsimp only
  refine .judged (.then_eq (.trans (.trans ?_ (offerMinor_restaged _ _)) (Restaged.foldl idleBank_restaged _ _)) (closed _))
  exact .of_eq rfl

theorem enterArming_restaged (s : State) (o : Order) : Restaged s (enterArming s o) := by
  unfold enterArming
  extract_lets s0 r side c _ s1
  have armed : ∀ d, Restaged s { s1 with seq.capture := some d } := fun d =>
    (wakeIfIdle_restaged s _).then_eq ((rfl : display { s1 with seq.capture := some d } = display s1).trans
      ((display_restartIdle _).trans rfl))
  split
  · exact armed _
  · exact (armed c).then_eq (foldl_keeps display _ (fun _ _ => by rfl) _ _)

theorem armTest_restaged (s : State) (c : Capture) : Restaged s (armTest s c) := by
  unfold armTest
  dsimp only
  split
  · exact .of_eq rfl
  · split
    · exact .then_eq (.trans (.of_eq (by rfl)) (Restaged.foldl (startPulse_restaged _) _ _)) (display_restartIdle _)
    · exact .of_eq rfl
    · exact .of_eq rfl

theorem endCapture_restaged (s : State) (c : Capture) : Restaged s (endCapture s c) := by
  have withdrawn : ∀ u : State, display (carryOutDwell (restartIdle
      { (captureBanks c).foldl (withdrawHood c.seq) u with seq.capture := none })) = display u := fun u => by simp [display]
  exact .then_eq (.trans (.of_eq (by rfl)) (enterReserved_restaged
    { removePrediction s with volume.sidesFailed := (removePrediction s).volume.sidesFailed
        + ((outcomes c).filter fun o => decide (o ≠ .confirmed)).length } (.capture (captureReport s c)))) (withdrawn _)

theorem advanceOnce_restaged {s t : State} (h : advanceOnce s = some t) : Restaged s t := by
  rcases advanceOnce_cases h with ⟨c, -, -, rfl⟩ | ⟨c, -, -, -, -, rfl⟩ | ⟨o, rest, -, -, -, -, rfl⟩ |
    ⟨o, rest, -, -, -, -, rfl⟩
  · exact endCapture_restaged s c
  · exact armTest_restaged s c
  · exact .trans (.of_eq (by rfl)) (enterReserved_restaged _ _)
  · exact .trans (t := { s with seq.orders := rest }) (.of_eq rfl) (enterArming_restaged _ o)

theorem advance_restaged (n : Nat) (s : State) : Restaged s (advance n s) := by
  induction n generalizing s with
  | zero => exact .refl s
  | succ n ih =>
    unfold advance
    split
    · exact .refl s
    · rename_i h; exact (advanceOnce_restaged h).trans (ih _)

theorem settle_restaged (s : State) : Restaged s (settle s) :=
  .judged ((advance_restaged (advanceFuel s) s).then_eq (by simp [display]))

/-! ### The safe state and the turn cycle -/

theorem endTurn_restaged (s : State) (r : TurnReport) : Restaged s (endTurn s r) :=
  .then_eq (.trans (t := { s with motion.turn := none }) (.of_eq rfl) (enterReserved_restaged _ (.turn r)))
    (display_restartIdle _)

theorem safeMotion_restaged (s : State) (k : FaultKind) : Restaged s (safeMotion s k) := by
  have abandoned : Restaged s (abandonSafe s k) := by
    unfold abandonSafe
    split
    · exact .refl s
    · exact .trans (.of_eq (by rfl)) (endTurn_restaged _ _)
  refine abandoned.then_eq ?_
  unfold safeMotion
  dsimp only
  split <;> rfl

theorem safeSequencer_restaged (s : State) : Restaged s (safeSequencer s) := by
  have flushed : ∀ u : State, Restaged u { u.seq.orders.foldl flushOrder u with seq.orders := [] } := fun u =>
    .then_eq (Restaged.foldl (fun v o => enterReserved_restaged v _) u.seq.orders u) rfl
  unfold safeSequencer
  dsimp only
  refine .trans (.trans (t := { s with
    seq.capture := s.seq.capture.map fun c => { mapSides (endUnsynced .abortedSafe) c with deadline := none } })
    (.of_eq rfl) ?_) (flushed _)
  split
  · exact .refl _
  · split
    · exact endCapture_restaged _ _
    · exact .refl _

theorem safeEntry_restaged (s : State) (k : FaultKind) : Restaged s (safeEntry s k) :=
  ((safeMotion_restaged s k).trans (safeSequencer_restaged _)).then_eq (display_stopHoods _)

theorem raiseFault_restaged (s : State) (k : FaultKind) (bk : Option Bank) : Restaged s (raiseFault s k bk) := by
  have recorded : ∀ r, display (recordFault s r) = display s := fun r => by simp [display]
  have offered : ∀ u f, Restaged u (offerFirstFault u f) := fun u f => by
    unfold offerFirstFault
    split
    · exact enqueue_restaged _ _ _
    · exact .of_eq rfl
  rcases raiseFault_cases k bk s with ⟨-, h⟩ | ⟨-, h⟩ <;> rw [h]
  · exact .trans (.of_eq (recorded _)) (offerMajor_restaged _ _)
  · refine .trans (.trans ?_ (offered _ _)) (safeEntry_restaged _ k)
    exact .of_eq (recorded (faultRecord s k bk))

theorem turnStep_restaged {s u : State} {t : Turn} (h : turnStep s t = some u) : Restaged s u := by
  have start : ∀ {v g}, display v = display s → Restaged s (startStage v g) := fun h =>
    .of_eq ((display_startStage _ _).trans h)
  unfold turnStep at h
  split at h
  · contradiction
  · split at h
    case h_2 => contradiction
    case h_5 =>
      split_ifs at h <;> cases h
      · exact start rfl
      · unfold doublePick
        split
        · exact raiseFault_restaged _ _ _
        · exact .of_eq rfl
      · exact start rfl
    case h_10 =>
      split_ifs at h
      cases h
      exact .trans (.of_eq (by rfl)) (endTurn_restaged _ _)
    all_goals split_ifs at h; cases h; exact start rfl

theorem runMotion_restaged (s : State) : Restaged s (runMotion s) := by
  have turns : ∀ n u, Restaged u (runTurn n u) := fun n => by
    induction n with
    | zero => exact Restaged.refl
    | succ n ih =>
      intro u
      unfold runTurn
      split
      · exact .refl u
      · split
        · exact .refl u
        · rename_i h; exact (turnStep_restaged h).trans (ih _)
  exact (Restaged.of_eq (display_followPlaten s)).trans (turns 16 _)

/-- What every event ends with. -/
theorem Restaged.moved {s t : State} (h : Restaged s t) : Restaged s (settle (runMotion t)) :=
  (h.trans (runMotion_restaged t)).trans (settle_restaged _)

/-! ### Edges and the hold -/

theorem keyShoot_restaged (s : State) : Restaged s (keyShoot s) := by
  refine (Restaged.of_eq (display_restartIdle s)).trans ?_
  unfold keyShoot
  dsimp only
  split
  · exact offerMinor_restaged _ _
  · exact .trans (.of_eq (by rfl)) (settle_restaged _)

theorem keyTurn_restaged (s : State) (k : Fn) (d : Direction) : Restaged s (keyTurn s k d) := by
  refine (Restaged.of_eq (display_restartIdle s)).trans ?_
  unfold keyTurn
  dsimp only
  split
  · exact offerMinor_restaged _ _
  · exact Restaged.moved (.of_eq ((display_startStage _ _).trans rfl))

theorem handEdge_restaged (s : State) (f : Fn) (t : Nat) : Restaged s (handEdge s f t) := by
  unfold handEdge
  split
  case h_7 => split; exacts [.refl s, keyShoot_restaged s]
  case h_8 | h_9 => split; exacts [.refl s, keyTurn_restaged s _ _]
  case h_1 | h_2 => exact .of_eq (display_syncEdge _ _ _)
  case h_3 | h_4 => exact .of_eq (display_storedEdge _ _)
  case h_5 | h_6 => exact .of_eq rfl
  case h_10 => exact .refl s

theorem handLine_restaged (s : State) (i : Nat) (a : Bool) (t : Nat) : Restaged s (handLine s i a t) := by
  unfold handLine
  split
  · exact .refl s
  · split
    · exact handEdge_restaged s _ t
    · exact .refl s

theorem holdOn_restaged (s : State) (i t : Nat) : Restaged s (holdOn s i t) := by
  have offered : Restaged s (offerMajor { s with lines.hold := some ⟨i, t⟩ } (.holdOn i t)) :=
    .trans (.of_eq (by rfl)) (offerMajor_restaged _ _)
  exact offered.then_eq ((display_stopHoods _).trans ((display_holdCapture _).trans (display_holdMotion _)))

theorem holdOff_restaged (s : State) (i t : Nat) (h : Hold) : Restaged s (holdOff s i t h) := by
  have offered : Restaged s (offerMajor { s with lines.hold := none } (.holdOff i t (elapsedMs h.since t))) :=
    .trans (.of_eq (by rfl)) (offerMajor_restaged _ _)
  exact offered.then_eq (by simp [display, holdOff])

theorem evalHold_restaged (s : State) (i t : Nat) : Restaged s (evalHold s i t) := by
  rcases evalHold_cases i t s with h | ⟨-, -, h⟩ | ⟨x, -, -, h⟩ <;> rw [h]
  · exact .refl s
  · exact holdOn_restaged s i t
  · exact holdOff_restaged s i t x

theorem holdAfresh_restaged (s : State) : Restaged s (holdAfresh s) := by
  unfold holdAfresh
  dsimp only
  split
  · exact .of_eq rfl
  · exact .trans (.of_eq (by rfl)) (holdOn_restaged _ _ _)

end Sys2Proof.Machine
end

