-- ==== Sys2Proof/Proofs/LinesDriven.lean ====
section
/-! What the lines show once an event has settled, under accepted edges, under the requests that change a line or a
binding, and under the resets (R119, R147 to R153, R155 to R157, R161). -/
namespace Sys2Proof.Machine

/-! ### READY_LAMP judged afresh -/

theorem judgeReady_outputInv {s : State} (h : Shown s) : outputInv (judgeReady s) :=
  (outputInv_iff _).mpr ⟨(judgeReady_restaged s).shown h, by
    simp [judgeReady, readyCondition_eq]⟩

/-- A settled state has its lines as their functions have them (R157). -/
theorem settle_outputInv {s : State} (h : Shown s) : outputInv (settle s) :=
  judgeReady_outputInv (((advance_restaged (advanceFuel s) s).then_eq (by simp [display])).shown h)

theorem moved_outputInv {s : State} (h : Shown s) : outputInv (settle (runMotion s)) :=
  settle_outputInv ((runMotion_restaged s).shown h)

theorem outputInv.shown {s : State} (h : outputInv s) : Shown s := ((outputInv_iff s).mp h).1

/-! ### Changes of one line -/

/-- A change of one line's record that leaves what its function shows on it. -/
theorem Shown.modifyLine {s : State} (h : Shown s) (i : Nat) {f : Line → Line}
    (plain : ∀ l, shownLine (f l) = shownLine l) : Shown (modifyLine s i f) := by
  refine h.of_lines rfl (modifyLine_length i f s) (fun _ => rfl) fun g j hg bound => ?_
  by_cases own : j = i
  · subst own
    have inside : j < s.lines.records.length := by rw [h.binding.1]; exact h.binding.2.2.1 g j bound
    rw [getLine_modifyLine _ _ _ inside, plain]
  · rw [getLine_modifyLine_ne own]

theorem offerEvent_shown {s : State} (h : Shown s) (i : Nat) (c : EventCause) (t : Nat) : Shown (offerEvent s i c t) := by
  rcases offerEvent_cases i c t s with same | ⟨-, -, offered⟩
  · rw [same]; exact h
  · rw [offered]; exact (offerMinor_restaged _ _).shown (h.modifyLine i fun _ => rfl)

theorem acceptEdge_outputInv {s : State} (h : Shown s) (i : Nat) (high : Bool) (t : Nat) :
    outputInv (acceptEdge s i high t) := by
  unfold acceptEdge
  extract_lets l s1 s2 s3
  have h1 : Shown s1 := offerEvent_shown (h.modifyLine i fun _ => by rfl) _ _ _
  have h2 : Shown s2 := by
    unfold s2; split
    · exact (evalHold_restaged _ _ _).shown h1
    · exact h1
  have h3 : Shown s3 := by
    unfold s3; split
    · exact (wakeIfIdle_restaged _ _).shown h2
    · exact h2
  exact moved_outputInv ((handLine_restaged _ _ _ _).shown h3)

theorem clearLine_shown {s : State} (h : Shown s) (i : Nat) : Shown (clearLine s i) :=
  offerEvent_shown (h.modifyLine i fun _ => by rfl) _ _ _

/-! ### The function of a line -/

/-- The function found on a line is the one that is bound to it (R155). -/
theorem fnOf_iff {s : State} (inv : bindingInv s) {f : Fn} {i : Nat} : fnOf s i = some f ↔ lineOf s f = some i := by
  constructor
  · exact fun h => by simpa using List.find?_some h
  · intro bound
    have found : (fnOf s i).isSome = true := by
      rw [fnOf, List.find?_isSome]
      exact ⟨f, by cases f <;> decide, decide_eq_true bound⟩
    obtain ⟨g, hg⟩ := Option.isSome_iff_exists.mp found
    have same : lineOf s g = some i := by simpa using List.find?_some hg
    rw [hg, inv.2.2.2 f g i bound same]

theorem fnOf_none {s : State} {i : Nat} (h : fnOf s i = none) (f : Fn) : lineOf s f ≠ some i := by
  have free := List.find?_eq_none.mp h f (by cases f <;> decide)
  simpa using free

/-- The output functions are those with the codes from 16 on (R155, R187). -/
theorem isOutputFn_eq (f : Fn) : isOutputFn f = decide (16 ≤ fnCode f) := by cases f <;> rfl

theorem shownState_eq_outputState (s : State) (f : Fn) : shownState s f = outputState s f := by cases f <;> rfl

/-! ### LINE_CONFIG -/

theorem sampleLine_staged (l : Line) : shownLine (sampleLine l) = shownLine l := by unfold sampleLine; split <;> rfl

theorem comparePin_staged (t : Nat) (l : Line) : shownLine (comparePin t l) = shownLine l := by
  rcases comparePin_cases t l with h | ⟨-, -, h⟩ | ⟨-, -, h⟩ <;> rw [h] <;> rfl

theorem configured_shownLine (t : Nat) (l : Line) (c : LineSettings) :
    shownLine (configured t l c) = (c.dir, c.polarity, l.staged) := by
  show shownLine (if l.dir = .out ∨ c.dir = .out then sampleLine (setConfig l c) else comparePin t (setConfig l c)) = _
  split
  · exact sampleLine_staged _
  · exact comparePin_staged _ _

/-- A line of an output function stays OUT under a LINE_CONFIG that is taken (R152 check 5). -/
theorem directionRefusal_out {s : State} {i : Nat} {c : LineSettings} (passed : directionRefusal s i c = false) {f : Fn}
    (found : fnOf s i = some f) (hf : isOutputFn f = true) : c.dir = .out := by
  cases hd : c.dir with
  | out => rfl
  | inp => simp [directionRefusal, hd, found, hf] at passed

theorem restage_shown {s : State} (h : Shown s) {i : Nat} {c : LineSettings} (passed : directionRefusal s i c = false)
    (t : Nat) : Shown (if (getLine s i).polarity = c.polarity then modifyLine s i fun l => configured t l c
      else restage (modifyLine s i fun l => configured t l c) i) := by
  obtain ⟨inv, line⟩ := h
  have inv1 : bindingInv (modifyLine s i fun l => configured t l c) :=
    bindingInv_of_binding (s := s) rfl (modifyLine_length ..) inv
  have at_ : ∀ {f}, lineOf s f = some i →
      shownLine (getLine (modifyLine s i fun l => configured t l c) i) = (c.dir, c.polarity, (getLine s i).staged) := by
    intro f bound
    rw [getLine_modifyLine _ _ _ (by rw [inv.1]; exact inv.2.2.1 f i bound), configured_shownLine]
  have out : ∀ {f}, isOutputFn f = true → lineOf s f = some i → c.dir = .out := fun hf bound =>
    directionRefusal_out passed ((fnOf_iff inv).mpr bound) hf
  have away : ∀ f, isOutputFn f = true → lineOf s f ≠ some i →
      outputShown (modifyLine s i fun l => configured t l c) f (outputState s f) := fun f hf free =>
    outputShown_of_line (s := s) (by rfl)
      (fun j bound => by rw [getLine_modifyLine_ne fun own : j = i => free (own ▸ bound)]) (line f hf)
  split
  next same =>
    refine ⟨inv1, fun f hf => ?_⟩
    by_cases bound : lineOf s f = some i
    · refine outputShown_of_line (s := s) (by rfl) (fun j hj => ?_) (line f hf)
      obtain rfl : i = j := Option.some.inj (bound.symm.trans hj)
      rw [at_ bound, shownLine, (line f hf i bound).1, out hf bound, same]
    · exact away f hf bound
  next changed =>
    unfold restage
    split
    next none => exact ⟨inv1, fun f hf => away f hf (fnOf_none none f)⟩
    next f found =>
      have bound : lineOf s f = some i := (fnOf_iff inv1).mp found
      have other : ∀ g, g ≠ f → lineOf s g ≠ some i := fun g own hg => own (inv.2.2.2 g f i hg bound)
      split
      next hf =>
        refine .drive rfl inv1 (fun j hj => ?_) fun g own hg => away g hg (other g own)
        obtain rfl : i = j := Option.some.inj (bound.symm.trans hj)
        exact (congrArg Prod.fst (at_ bound)).trans (out hf bound)
      next hf => exact ⟨inv1, fun g hg => away g hg (other g fun own => hf (own ▸ hg))⟩

theorem configureLine_outputInv {s : State} (h : Shown s) {i : Nat} {c : LineSettings}
    (passed : directionRefusal s i c = false) : outputInv (configureLine s i c) := by
  unfold configureLine
  extract_lets l s1 s2 s3 s4 s5
  have h3 : Shown s3 := offerEvent_shown (restage_shown h passed _) _ _ _
  have h4 : Shown s4 := by
    unfold s4; split
    · exact (evalHold_restaged _ _ _).shown h3
    · exact h3
  have h5 : Shown s5 := by
    unfold s5; split
    · exact h4
    · split
      · exact h4
      · exact (acceptEdge_outputInv h4 _ _ _).shown
  exact moved_outputInv h5

/-! ### LINE_WRITE and LINE_COUNTS -/

theorem mapLinesFrom_eq (f : Nat → Line → Line) (n : Nat) (ls : List Line) :
    mapLinesFrom f n ls = (ls.zipIdx n).map fun x => f x.2 x.1 := by
  induction ls generalizing n with
  | nil => rfl
  | cons l ls ih => rw [mapLinesFrom, ih, List.zipIdx_cons, List.map_cons]

theorem getD_mapLinesFrom (f : Nat → Line → Line) {i : Nat} {ls : List Line} (h : i < ls.length) :
    (mapLinesFrom f 0 ls).getD i default = f i (ls.getD i default) := by
  simp [mapLinesFrom_eq, List.getD_eq_getElem?_getD, h]

/-- A change of every line that leaves what the output functions show on theirs. -/
theorem mapLines_shown {s : State} (h : Shown s) (f : Nat → Line → Line)
    (plain : ∀ g i l, isOutputFn g = true → lineOf s g = some i → shownLine (f i l) = shownLine l) :
    Shown { s with lines.records := mapLinesFrom f 0 s.lines.records } := by
  refine h.of_lines rfl (by simp [mapLinesFrom_eq]) (fun _ => rfl) fun g i hg bound => ?_
  have inside : i < s.lines.records.length := by rw [h.binding.1]; exact h.binding.2.2.1 g i bound
  exact (congrArg shownLine (getD_mapLinesFrom f inside)).trans (plain g i _ hg bound)

/-- LINE_WRITE leaves the lines of output functions (R153). -/
theorem writeLine_bound {s : State} (inv : bindingInv s) (mask values : LineMask) {f : Fn} {i : Nat}
    (hf : isOutputFn f = true) (bound : lineOf s f = some i) (l : Line) : writeLine s mask values i l = l := by
  have carried : boundOutput s i = true := by rw [boundOutput, (fnOf_iff inv).mpr bound]; exact hf
  simp [writeLine, carried]

/-! ### LINE_BIND -/

theorem lineOf_setBinding {s : State} (inv : bindingInv s) (f : Fn) (x : Option Nat) (g : Fn) :
    lineOf (setBinding s f x) g = if g = f then x else lineOf s g := by
  have inside : fnCode f < s.lines.binding.length := by rw [inv.2.1]; exact fnCode_lt f
  by_cases own : g = f
  · subst own
    simp [lineOf, setBinding, List.getD_eq_getElem?_getD, inside]
  · have codes : fnCode f ≠ fnCode g := fun h => own (fnCode_inj h).symm
    simp [lineOf, setBinding, List.getD_eq_getElem?_getD, codes, own]

/-- A function moved to a line of the block that carries no other function, or to none, leaves the bindings their laws. -/
theorem setBinding_inv {s : State} (inv : bindingInv s) {f : Fn} {x : Option Nat} (inside : ∀ i, x = some i → i < 32)
    (free : ∀ g i, g ≠ f → x = some i → lineOf s g ≠ some i) : bindingInv (setBinding s f x) := by
  refine ⟨inv.1, by simpa [setBinding] using inv.2.1, fun g i hg => ?_, fun g h i hg hh => ?_⟩
  · rw [lineOf_setBinding inv] at hg
    split at hg
    · exact inside i hg
    · exact inv.2.2.1 g i hg
  · rw [lineOf_setBinding inv] at hg hh
    split at hg <;> split at hh
    next ownG ownH => rw [ownG, ownH]
    next ownG ownH => exact absurd hh (free h i ownH hg)
    next ownG ownH => exact absurd hg (free g i ownG hh)
    next => exact inv.2.2.2 g h i hg hh

/-- The other output functions are shown as they were where a binding changes. -/
theorem setBinding_others {s : State} (inv : bindingInv s) {f g : Fn} (own : g ≠ f) (x : Option Nat) {v : Bool}
    (h : outputShown s g v) : outputShown (setBinding s f x) g v :=
  outputShown_of_line ((lineOf_setBinding inv f x g).trans (if_neg own)) (fun _ _ => rfl) h

theorem unbindFn_shown {s : State} (h : Shown s) (f : Fn) : Shown (unbindFn s f) := by
  obtain ⟨inv, line⟩ := h
  have unbound : ∀ u, bindingInv u → (∀ g, g ≠ f → isOutputFn g = true → outputShown u g (outputState u g)) →
      Shown (setBinding u f none) := fun u inv others => by
    refine ⟨setBinding_inv inv (by simp) (by simp), fun g hg => ?_⟩
    by_cases own : g = f
    · subst own
      exact fun i hi => by rw [lineOf_setBinding inv, if_pos rfl] at hi; cases hi
    · exact setBinding_others inv own none (others g own hg)
  unfold unbindFn
  split
  · refine unbound _ (bindingInv_of_binding (by simp) (by simp) inv) fun g own hg => ?_
    rw [outputState_driveFn]
    exact outputShown_driveFn inv own false (line g hg)
  · exact unbound s inv fun g _ hg => line g hg

theorem bindFn_shown {s : State} (h : Shown s) {f : Fn} {i : Nat} (inside : i < 32) (passed : bindRefusal s f i = none) :
    Shown (bindFn s f i) := by
  obtain ⟨inv, line⟩ := h
  unfold bindRefusal at passed
  split_ifs at passed with elsewhere used direction
  have free : ∀ g, g ≠ f → lineOf s g ≠ some i := fun g own hg => used (by
    rw [(fnOf_iff inv).mpr hg]; exact decide_eq_true own)
  have inv1 : bindingInv (setBinding s f (some i)) :=
    setBinding_inv inv (fun j hj => Option.some.inj hj ▸ inside) fun g j own hj => Option.some.inj hj ▸ free g own
  have others : ∀ g, g ≠ f → isOutputFn g = true → outputShown (setBinding s f (some i)) g (outputState s g) :=
    fun g own hg => setBinding_others inv own _ (line g hg)
  unfold bindFn
  split
  next hf =>
    refine .drive rfl inv1 (fun j hj => ?_) others
    rw [lineOf_setBinding inv, if_pos rfl] at hj
    obtain rfl := Option.some.inj hj
    show (getLine s i).dir = .out
    simpa [hf] using direction
  next hf => exact ⟨inv1, fun g hg => others g (fun own => hf (own ▸ hg)) hg⟩

/-! ### The resets -/

theorem ResetDone.shown {s t : State} (h : ResetDone s t) (hs : Shown s) : Shown t := by
  have binding : t.lines.binding = s.lines.binding := congrArg (·.lines.binding) h.rest
  refine ⟨bindingInv_of_binding binding h.length hs.binding, fun f hf i hi => ?_⟩
  have bound : lineOf s f = some i := (lineOf_of_binding binding f).symm.trans hi
  have inside := hs.binding.2.2.1 f i bound
  obtain ⟨staged, record, -, stands⟩ := h.record (by rw [hs.binding.1]; exact inside) inside
  have output : ¬ fnCode f < 16 := by rw [isOutputFn_eq] at hf; simpa using hf
  rw [record]
  exact ⟨(hs.line f hf i bound).1, by rw [stands hs.binding f bound, if_neg output, shownState_eq_outputState]⟩

theorem softReset_outputInv {s : State} (h : Shown s) : outputInv (softReset s) :=
  (outputInv_iff _).mpr ⟨(softReset_done s).shown h, by
    simp [softReset, judgeReady, readyCondition_eq]⟩

theorem poweredOn_shown (s : State) : Shown (poweredOn s) := by
  refine ⟨bindingInv_powerOn (pin := fun i => (getLine s i).pin) rfl rfl, fun f hf i hi => ?_⟩
  rw [lineOf_powerOn rfl] at hi
  cases hi
  rw [getLine_powerOn (pin := fun i => (getLine s i).pin) rfl ((fnCode_lt f).trans (by decide))]
  cases f with
  | camLTrigger | camRTrigger | attention | readyLamp => exact ⟨rfl, rfl⟩
  | _ => exact absurd hf (by decide)

/-- After power-on no volume is OPEN, and READY_LAMP is inactive (R1, R157). -/
theorem powerOn_outputInv (s : State) : outputInv (powerOn s) := by
  obtain ⟨-, -, volume, -, -, -, -, -, -, -, -, ready⟩ := powerOn_blocks s
  refine (outputInv_iff _).mpr ⟨?_, ?_⟩
  · rw [powerOn_eq]
    exact (holdAfresh_restaged _).shown (poweredOn_shown s)
  · rw [ready, readyCondition, volumeOpened, volume]
    rfl

end Sys2Proof.Machine
end

