-- ==== Sys2Proof/Proofs/OutputsShown.lean ====
section
/-! The lines of the output functions and READY_LAMP under every command, and the step lemma of R151, R155 and R157. -/
namespace Sys2Proof.Machine

/-- The lines of `t` show their functions, and READY_LAMP follows its condition, where those of `s` do (R157). -/
def Follows (s t : State) : Prop := outputInv s → outputInv t

/-- READY_LAMP as it was judged last, and its condition as it stands. -/
def readiness (s : State) : Bool × Bool := (s.lines.ready, readyCondition s)

namespace Follows
variable {s t u : State}

theorem refl (s : State) : Follows s s := id

theorem trans (h : Follows s t) (g : Follows t u) : Follows s u := g ∘ h

/-- An event that leaves READY_LAMP and its condition. -/
theorem kept (h : Restaged s t) (stands : readiness t = readiness s) : Follows s t := by
  simp only [readiness, Prod.mk.injEq] at stands
  obtain ⟨ready, condition⟩ := stands
  intro hs
  obtain ⟨shown, judged⟩ := (outputInv_iff s).mp hs
  exact (outputInv_iff t).mpr ⟨h.shown shown, by rw [ready, condition, judged]⟩

/-- An event that touches neither the lines nor what their functions show, nor READY_LAMP's condition. -/
theorem of_eq (lines : display t = display s) (condition : readyCondition t = readyCondition s) : Follows s t := by
  refine .kept (.of_eq lines) ?_
  simp only [display, Prod.mk.injEq] at lines
  obtain ⟨-, -, ready, -, -⟩ := lines
  rw [readiness, ready, condition, readiness]

/-- An event that settles. -/
theorem settled (h : Restaged s t) : Follows s (settle t) := fun hs => settle_outputInv (h.shown hs.shown)

/-- An event upon which the platen and the turn go on. -/
theorem moved (h : Restaged s t) : Follows s (settle (runMotion t)) := fun hs => moved_outputInv (h.shown hs.shown)

/-- An event that raises a fault. -/
theorem fault (h : Restaged s t) (k : FaultKind) (bk : Option Bank) : Follows s (settle (raiseFault t k bk)) :=
  .settled (h.trans (raiseFault_restaged t k bk))

theorem woken (s : State) (c : WakeCause) : Follows s (wakeIfIdle s c) := by
  rcases wakeIfIdle_cases c s with ⟨-, idle⟩ | ⟨-, active⟩
  · rw [idle]
    refine fun hs => (outputInv_iff _).mpr ⟨(wake_restaged s c).shown hs.shown, ?_⟩
    simp [wake, judgeReady, readyCondition_eq]
  · rw [active]; exact .refl s

/-- A decision refused at a check that fails does nothing; where the check passes, the rest decides. -/
theorem ite {p : Prop} [Decidable p] {x y : Decision} (refused : Follows s x.1) (rest : ¬p → Follows s y.1) :
    Follows s (if p then x else y).1 := by
  split
  · exact refused
  · exact rest ‹_›

/-- What a guarded event does, its guard met or not. -/
theorem guarded {p : Prop} [Decidable p] (h : p → Follows s t) : Follows s (if p then t else s) := by
  split
  · exact h ‹_›
  · exact refl s

/-- The event of a running turn whose timer has expired. -/
theorem expired {f : Turn → State} (h : ∀ t, Follows s (f t)) :
    Follows s (match expiredTurn s with
      | none => s
      | some t => f t) := by
  split
  · exact refl s
  · exact h _

end Follows

/-! ### What leaves READY_LAMP and its condition as they were -/

@[simp] theorem enqueue_ready (s : State) (b : Body) (n : Nat) : (enqueue s b n).lines.ready = s.lines.ready := by
  rw [enqueue_lines, driveFn_ready]

@[simp] theorem offerMinor_ready (s : State) (b : Body) : (offerMinor s b).lines.ready = s.lines.ready := by
  unfold offerMinor; split <;> simp

@[simp] theorem offerMajor_ready (s : State) (b : Body) : (offerMajor s b).lines.ready = s.lines.ready := by
  unfold offerMajor; split <;> simp

theorem readiness_offerMinor (s : State) (b : Body) : readiness (offerMinor s b) = readiness s := by
  simp [readiness, readyCondition_eq]

theorem readiness_offerMajor (s : State) (b : Body) : readiness (offerMajor s b) = readiness s := by
  simp [readiness, readyCondition_eq]

theorem readiness_driveFn (s : State) (f : Fn) (v : Bool) : readiness (driveFn s f v) = readiness s := by
  simp [readiness, readyCondition_eq]

theorem readyCondition_restartIdle (s : State) : readyCondition (restartIdle s) = readyCondition s := by
  simp [readyCondition_eq]

theorem readiness_offerEvent (s : State) (i : Nat) (c : EventCause) (t : Nat) :
    readiness (offerEvent s i c t) = readiness s := by
  rcases offerEvent_cases i c t s with h | ⟨-, -, h⟩ <;> rw [h]
  exact (readiness_offerMinor _ _).trans rfl

theorem readiness_reportBank (s : State) (bk : Bank) (x y : BankState) (c : BankCause) :
    readiness (reportBank s bk x y c) = readiness s := readiness_offerMinor _ _

theorem restartIdle_follows (s : State) : Follows s (restartIdle s) :=
  .of_eq (display_restartIdle s) (readyCondition_restartIdle s)

/-! ### The requests -/

theorem serve_follows {owner : State → Decision} (h : ∀ u, Follows u (owner u).1) {kind tag : Byte} {s : State} :
    Follows s (serve kind tag owner s) :=
  (((Follows.woken s (.request kind)).trans (restartIdle_follows _)).trans (h _)).trans (.of_eq rfl rfl)

theorem observe_follows {owner : State → Decision} (h : ∀ u, Follows u (owner u).1) {kind tag : Byte} {s : State} :
    Follows s (observe kind tag owner s) := (h s).trans (.of_eq rfl rfl)

/-- The oldest `n` reports have left the queue. -/
def fetched (s : State) (n : Nat) : State := { s with queue.reports := s.queue.reports.drop n }

/-- FETCH drives ATTENTION by what then waits, and again where the first FAULT report enters (R157, R165, R184). -/
theorem decideFetch_follows (s : State) : Follows s (decideFetch s).1 := by
  have offered : ∀ u, Follows u (reofferFirst u) := fun u => by
    unfold reofferFirst
    split
    · exact .refl u
    · split
      · exact .kept (.trans (.of_eq (by rfl)) (enqueue_restaged _ _ _))
          (by simp [readiness, readyCondition_eq])
      · exact .refl u
  unfold decideFetch
  refine .trans (.kept (.drive (f := .attention) (t := fetched s (fetchCount s.queue.reports fetchSpace)) rfl rfl rfl
    (fun g hg => ?_) rfl) ((readiness_driveFn _ _ _).trans rfl)) (offered _)
  cases g
  case attention => exact absurd rfl hg
  all_goals rfl

theorem decideLinkSet_follows (e t c : Nat) (s : State) : Follows s (decideLinkSet e t c s).1 := by
  unfold decideLinkSet
  dsimp only
  refine .ite (.refl s) fun _ => .ite (.refl s) fun _ => .ite (.refl s) fun _ => .of_eq ?_ ?_
  all_goals simp [accept, display, readyCondition_eq]

theorem decideClearSafe_follows (s : State) : Follows s (decideClearSafe s).1 := by
  unfold decideClearSafe
  refine .ite (.refl s) fun _ => .ite (.refl s) fun _ => .ite (.refl s) fun _ => .settled (.of_eq ?_)
  split <;> rfl

/-- A volume loaded is not OPEN, as none was that its load replaces (R2). -/
theorem decideVolumeLoad_follows (mark : Text) (part leaves thickness leafCeiling volumeCeiling limit reserve : Nat)
    (s : State) :
    Follows s (decideVolumeLoad mark part leaves thickness leafCeiling volumeCeiling limit reserve s).1 := by
  unfold decideVolumeLoad
  split_ifs with opened
  case neg =>
    refine .of_eq (by rfl) ?_
    simp [accept, readyCondition, opened]
    simp [volumeOpened, loadedVolume]
  all_goals exact .refl s

theorem decideVolumeOpen_follows (k : Nat) (s : State) : Follows s (decideVolumeOpen k s).1 := by
  unfold decideVolumeOpen
  refine .ite (.refl s) fun _ => .ite (.refl s) fun _ => .ite (.refl s) fun _ => .ite (.refl s) fun _ => ?_
  split
  · exact .refl s
  · exact .settled (.of_eq (by simp [display]))

theorem decideVolumeSet_follows (lc vc limit reserve thickness : Option Nat) (s : State) :
    Follows s (decideVolumeSet lc vc limit reserve thickness s).1 := by
  unfold decideVolumeSet
  split
  · exact .refl s
  · split
    · exact .refl s
    · split <;> exact .of_eq rfl rfl

theorem decideVolumeClose_follows (force : Bool) (s : State) : Follows s (decideVolumeClose force s).1 := by
  have closed : ∀ v, display (closeBankHoods (clearHoodRequests { s with volume := v })) = display s := fun v => by
    simp [display]
  have reported : ∀ v b,
      Restaged s (judgeSilence (enqueue (closeBankHoods (clearHoodRequests { s with volume := v })) b 0)) :=
    fun v b => .then_eq (.trans (.of_eq (closed v)) (enqueue_restaged _ b 0)) (by simp [display])
  unfold decideVolumeClose
  exact .ite (.refl s) fun _ => .ite (.refl s) fun _ => .ite (.refl s) fun _ => .ite (.refl s) fun _ =>
    .ite (.refl s) fun _ => .settled (reported _ _)

/-- A volume discarded was not OPEN (R17). -/
theorem decideVolumeDiscard_follows (s : State) : Follows s (decideVolumeDiscard s).1 := by
  unfold decideVolumeDiscard
  split
  · exact .refl s
  · exact .refl s
  · rename_i opened _
    have closed : decide (s.volume.state = .opened) = false := decide_eq_false opened
    exact .of_eq rfl (by simp [accept, readyCondition, volumeOpened, emptyVolume, closed])

theorem decideReseat_follows (k : Nat) (leaf : Option Nat) (s : State) : Follows s (decideReseat k leaf s).1 := by
  have reseated : ∀ b u, display (if b = true then { u with volume.platesPending := true } else startAdjust u k) =
      display u := fun b u => by cases b <;> rfl
  have released : ∀ b u, display (if b = true then suctionOff u else u) = display u := fun b u => by cases b <;> rfl
  have manual : ∀ u, display (countManual u leaf) = display u := fun u => by cases leaf <;> rfl
  unfold decideReseat
  refine .ite (.refl s) fun _ => .ite (.refl s) fun _ => .ite (.refl s) fun _ => ?_
  split
  · exact .refl s
  · exact .settled (.of_eq ((reseated _ _).trans ((released _ _).trans ((manual _).trans rfl))))

theorem decideLower_follows (s : State) : Follows s (decideLower s).1 := by
  unfold decideLower
  split
  · exact .refl s
  · refine .of_eq ?_ ?_
    all_goals simp [accept, display, readyCondition_eq]

theorem decideRaise_follows (s : State) : Follows s (decideRaise s).1 := by
  unfold decideRaise
  split
  · exact .refl s
  · split
    · exact .refl s
    · exact .refl s
    · exact .settled (.of_eq rfl)

theorem decideTurn_follows (d : Direction) (o : Bool) (s : State) : Follows s (decideTurn d o s).1 := by
  unfold decideTurn
  split
  · exact .refl s
  · exact .moved (.of_eq ((display_startStage _ _).trans rfl))

theorem decideTurnResume_follows (s : State) : Follows s (decideTurnResume s).1 := by
  unfold decideTurnResume
  split
  · exact .refl s
  · split
    · exact .refl s
    · exact .moved (.of_eq (by simp [display]))

theorem decideTurnAbandon_follows (s : State) : Follows s (decideTurnAbandon s).1 := by
  unfold decideTurnAbandon
  split
  · exact .refl s
  · exact .settled (.trans (.of_eq (by rfl)) (endTurn_restaged _ _))

theorem decideBankPower_follows (mask : Quad Bool) (command : Option Bool) (s : State) :
    Follows s (decideBankPower mask command s).1 := by
  have charge : ∀ u bk, readiness (startCharging u bk) = readiness u := fun u bk => by
    have charging : ∀ r, readiness (reportBank (setBank u bk r) bk (getBank u bk).state .charging .power) = readiness u :=
      fun r => (readiness_reportBank _ _ _ _ _).trans rfl
    have ended : ∀ v, readiness (endCharge v bk) = readiness v := fun v => by
      unfold endCharge
      split <;> exact (readiness_reportBank _ _ _ _ _).trans rfl
    unfold startCharging
    dsimp only
    split
    · exact (ended _).trans (charging _)
    · exact charging _
  have power : ∀ on u bk, readiness (powerBank on mask u bk) = readiness u := fun on u bk => by
    unfold powerBank
    split_ifs
    · rfl
    · exact charge u bk
    · rfl
    · exact (readiness_reportBank _ _ _ _ _).trans rfl
  unfold decideBankPower
  split
  · exact .refl s
  · exact .ite (.refl s) fun _ => .ite (.refl s) fun _ =>
      .kept (.foldl (powerBank_restaged _ mask) allBanks s) (foldl_keeps readiness _ (power _) allBanks s)

theorem decideBankSet_follows (mask : Quad Bool) (recharge : Nat) (s : State) :
    Follows s (decideBankSet mask recharge s).1 := by
  refine .settled (.foldl (fun u bk => ?_) allBanks s)
  unfold setRecharge
  dsimp only
  split_ifs
  · exact .trans (.of_eq (by rfl)) (returnReady_restaged _ _)
  · exact .of_eq rfl
  · exact .refl u

theorem decideLampCal_follows (source : Option Source) (points : List Nat) (spill : Nat) (s : State) :
    Follows s (decideLampCal source points spill s).1 := by
  have set : ∀ x c, Follows s (setCal s x c) := fun x c => by cases x <;> exact .of_eq rfl rfl
  unfold decideLampCal
  split
  · exact .refl s
  · split
    · exact .refl s
    · refine .ite (.refl s) fun _ => ?_
      split
      · exact .refl s
      · exact set _ _

theorem decideShoot_follows (t : Nat) (x : Option Sides) (r : Nat) (p : Option Purpose) (n : Option Nat) (s : State) :
    Follows s (decideShoot t x r p n s).1 := by
  unfold decideShoot
  split
  · exact .refl s
  · dsimp only
    split
    · exact .refl s
    · exact .refl s
    · exact .settled (.of_eq (by rfl))

theorem decideLineConfig_follows (line : Nat) (dir : Option LineDir) (pull : Option Pull) (drive : Option Drive)
    (sense : Option Sense) (polarity : Option Polarity) (both : Bool) (debounce : Nat) (event wake hold : Bool)
    (s : State) :
    Follows s (decideLineConfig line dir pull drive sense polarity both debounce event wake hold s).1 := by
  unfold decideLineConfig
  refine .ite (.refl s) fun _ => ?_
  split
  · exact .refl s
  · exact .ite (.refl s) fun _ => .ite (.refl s) fun passed hs =>
      configureLine_outputInv hs.shown (by simpa using passed)

/-- Lines changed but for what the output functions show on theirs. -/
theorem mapLines_follows (s : State) (f : Nat → Line → Line)
    (plain : bindingInv s → ∀ g i l, isOutputFn g = true → lineOf s g = some i → shownLine (f i l) = shownLine l) :
    Follows s { s with lines.records := mapLinesFrom f 0 s.lines.records } := fun hs =>
  (outputInv_iff _).mpr ⟨mapLines_shown hs.shown f (plain hs.1), ((outputInv_iff s).mp hs).2⟩

theorem decideLineClear_follows (mask : LineMask) (s : State) : Follows s (decideLineClear mask s).1 := by
  have cleared : ∀ u i, Follows u (clearLine u i) := fun u i hu => by
    have stands : readiness (clearLine u i) = readiness u := (readiness_offerEvent _ _ _ _).trans rfl
    simp only [readiness, Prod.mk.injEq] at stands
    exact (outputInv_iff _).mpr ⟨clearLine_shown hu.shown i, by rw [stands.1, stands.2, ((outputInv_iff u).mp hu).2]⟩
  have all : ∀ (ls : List Nat) u, Follows u (ls.foldl clearLine u) := fun ls => by
    induction ls with
    | nil => exact Follows.refl
    | cons i ls ih => exact fun u => (cleared u i).trans (ih _)
  exact all (maskedLines mask) s

theorem decideLineBind_follows (f : Option Fn) (line : Option Nat) (s : State) : Follows s (decideLineBind f line s).1 := by
  unfold decideLineBind
  split
  · exact .refl s
  · rename_i f
    split
    · exact fun hs => moved_outputInv (unbindFn_shown hs.shown f)
    · rename_i i
      split
      · exact .refl s
      · rename_i inside
        split
        · exact .refl s
        · rename_i passed
          show Follows s (if lineOf s f = some i then s else settle (runMotion (bindFn s f i)))
          split
          · exact .refl s
          · exact fun hs => moved_outputInv (bindFn_shown hs.shown (Nat.lt_of_not_le inside) passed)

/-! ### The events -/

theorem acceptDue_follows (s : State) (i : Nat) : Follows s (acceptDue s i) := by
  rcases acceptDue_cases i s with ⟨-, h⟩ | ⟨high, t, -, h⟩ <;> rw [h]
  · exact .refl s
  · exact fun hs => acceptEdge_outputInv hs.shown i high t

/-- A pin that changes leaves what is staged on its line. -/
theorem drivePin_follows (s : State) (i : Nat) (high : Bool) : Follows s (drivePin s i high) := fun hs =>
  (outputInv_iff _).mpr ⟨hs.shown.modifyLine i fun _ => (comparePin_staged _ _).trans rfl, ((outputInv_iff s).mp hs).2⟩

theorem softReset_follows (s : State) : Follows s (softReset s) := fun hs => softReset_outputInv hs.shown

theorem replySent_follows (s : State) : ∀ t, execReplySent s = .next t → Follows s t := by
  rintro t h
  cases h
  split
  · exact .refl s
  · split
    · exact softReset_follows s
    · refine .of_eq ?_ ?_
      all_goals simp [display, readyCondition_eq]

/-- The dwell timer expires: its report, and its raise at once, or one that waits (R48). -/
theorem expireDwell_follows (s : State) (d : Dwell) : Follows s (expireDwell s d) := by
  have reported : ∀ b, Restaged s (offerMajor { s with motion.dwell := none } b) := fun b =>
    .trans (.of_eq (by rfl)) (offerMajor_restaged _ b)
  have stands : ∀ b, readiness (offerMajor { s with motion.dwell := none } b) = readiness s := fun b =>
    (readiness_offerMajor _ b).trans rfl
  unfold expireDwell
  dsimp only
  split
  · exact .settled ((reported _).then_eq rfl)
  all_goals exact .kept ((reported _).then_eq rfl) (Eq.trans (by rfl) (stands _))

theorem failGrip_follows (s : State) (t : Turn) : Follows s (failGrip s t) := by
  unfold failGrip
  split
  · exact .fault (.refl s) _ _
  · refine .of_eq ?_ ?_
    all_goals
      simp [startRegrip, suctionOff, display, readyCondition_eq]

theorem captureFiring_follows (s : State) (bk : Bank) (g : Grant) : Follows s (captureFiring s bk g) := by
  have credited : ∀ u, display (creditFiring u bk) = display u := fun u => by simp [display]
  refine .settled (.of_eq ?_)
  dsimp only
  split
  · exact (display_answerAsk _ _ _).trans ((credited _).trans rfl)
  · exact (display_answerAsk _ _ _).trans rfl

theorem conditioningFlash_follows (s : State) (bk : Bank) (g : Grant) : Follows s (conditioningFlash s bk g) := by
  unfold conditioningFlash
  dsimp only
  split <;> exact .of_eq rfl rfl

theorem endAir_follows (s : State) (t : Turn) : Follows s (endAir s t) := by
  refine .moved (.of_eq ?_)
  dsimp only
  split
  · exact (display_startStage _ _).trans rfl
  · rfl

theorem endWaking_follows (s : State) (bk : Bank) : Follows s (endWaking s bk) := by
  refine .settled ?_
  split
  · exact enterReady_restaged _ _ _
  · exact enterConditioning_restaged _ _ _

theorem takeReading_restaged (s : State) (n : Nat) : Restaged s (takeReading s n) := by
  unfold takeReading
  dsimp only
  split_ifs
  · exact .trans (.of_eq (by rfl)) (raiseFault_restaged _ _ _)
  all_goals exact .of_eq rfl

theorem tick1ms_follows (s : State) (n : Nat) :
    Follows s (settle (runMotion (takeReading (periodBoundary { s with time := countMs s.time }) n))) := by
  refine .moved (.trans (.of_eq ?_) (takeReading_restaged _ n))
  simp [display]

theorem byteReceived_follows (s : State) (b : Byte) (badStop : Bool) :
    Follows s (takeByte (if gapPassed s then dropFrame s else s) b badStop) := by
  refine .of_eq ?_ ?_
  all_goals split <;> simp [display, readyCondition_eq]

theorem endCharge_follows (s : State) (bk : Bank) : Follows s (endCharge s bk) := by
  refine .kept (endCharge_restaged s bk) ?_
  unfold endCharge
  split <;> exact (readiness_reportBank _ _ _ _ _).trans rfl

theorem topUp_follows (s : State) (bk : Bank) : Follows s (topUp s bk) := by
  unfold topUp
  exact .guarded fun _ => .of_eq rfl rfl

theorem enterIdle_follows (s : State) : Follows s (enterIdle s) := fun hs =>
  (outputInv_iff _).mpr ⟨(enterIdle_restaged s).shown hs.shown, by
    simp [enterIdle, judgeReady, readyCondition_eq]⟩

theorem aimTickStart_follows (s : State) : Follows s (aimTickStart s) := by
  have guard : ∀ x notes u sd, Follows u (guardLamp s x notes u sd) := fun x notes u sd => by
    have offered : ∀ v b, display v = display u → readyCondition v = readyCondition u → Follows u (offerMinor v b) :=
      fun v b lines condition =>
        (Follows.of_eq lines condition).trans (.kept (offerMinor_restaged v b) (readiness_offerMinor v b))
    unfold guardLamp
    dsimp only
    split
    · split
      · split <;> exact .of_eq rfl rfl
      · refine offered _ _ ?_ ?_
        all_goals split <;> rfl
    · exact .refl u
  unfold aimTickStart
  dsimp only
  rw [foldl_allSides]
  refine .trans (.trans (.of_eq ?_ ?_) (guard _ _ _ .left)) (guard _ _ _ .right)
  all_goals rfl

/-! ### Every command -/

/-- Every command leaves the lines as their functions have them, and READY_LAMP as its condition has it. -/
theorem exec_follows (c : Instr) (s : State) : ∃ t, exec c s = .next t ∧ Follows s t := by
  cases c <;> refine ⟨_, rfl, ?_⟩
  case powerOnReset => exact fun _ => powerOn_outputInv s
  case softReset => exact softReset_follows s
  case byteReceived => exact byteReceived_follows s _ _
  case gapError => exact .guarded fun _ => .of_eq rfl rfl
  case conditioningFlashDue => exact .guarded fun _ => .of_eq rfl rfl
  case replySent => exact replySent_follows s _ rfl
  case fetch => exact observe_follows decideFetch_follows
  case linkSet => exact serve_follows (decideLinkSet_follows _ _ _)
  case safe => exact serve_follows (fun u => .fault (.refl u) _ _)
  case clearSafe => exact serve_follows decideClearSafe_follows
  case idleSet => exact serve_follows (fun u => .trans (.of_eq (by rfl) (by rfl)) (restartIdle_follows _))
  case volumeLoad => exact serve_follows (decideVolumeLoad_follows _ _ _ _ _ _ _ _)
  case volumeOpen => exact serve_follows (decideVolumeOpen_follows _)
  case volumeSet => exact serve_follows (decideVolumeSet_follows _ _ _ _ _)
  case volumeClose => exact serve_follows (decideVolumeClose_follows _)
  case volumeDiscard => exact serve_follows decideVolumeDiscard_follows
  case reseat => exact serve_follows (decideReseat_follows _ _)
  case leafMark =>
    refine serve_follows (fun u => ?_)
    unfold decideLeafMark
    repeat' split
    all_goals exact .of_eq rfl rfl
  case planSet =>
    refine serve_follows (fun u => ?_)
    unfold decidePlanSet
    repeat' split
    all_goals exact .of_eq rfl rfl
  case leafQuery => exact serve_follows (fun u => by unfold decideLeafQuery; split_ifs <;> exact .refl u)
  case gapsQuery => exact serve_follows (fun u => by unfold decideGapsQuery; split_ifs <;> exact .refl u)
  case planQuery => exact serve_follows (fun u => by unfold decidePlanQuery; split_ifs <;> exact .refl u)
  case recipeQuery => exact serve_follows (fun u => by unfold decideRecipeQuery; split_ifs <;> exact .refl u)
  case lineQuery => exact serve_follows (fun u => by unfold decideLineQuery; split_ifs <;> exact .refl u)
  case calQuery => exact serve_follows (fun u => by unfold decideCalQuery; split <;> exact .refl u)
  case lower => exact serve_follows decideLower_follows
  case raise => exact serve_follows decideRaise_follows
  case turn | turnBack => exact serve_follows (decideTurn_follows _ _)
  case turnResume => exact serve_follows decideTurnResume_follows
  case turnAbandon => exact serve_follows decideTurnAbandon_follows
  case motionSet | cameraSet | aimSet => exact serve_follows (fun _ => .of_eq (by rfl) (by rfl))
  case reset | volumeQuery | doseQuery | lineRead => exact serve_follows Follows.refl
  case bankPower => exact serve_follows (decideBankPower_follows _ _)
  case bankSet => exact serve_follows (decideBankSet_follows _ _)
  case recipeSet =>
    exact serve_follows (fun u => by unfold decideRecipeSet; split_ifs <;> exact .of_eq rfl rfl)
  case lampCal => exact serve_follows (decideLampCal_follows _ _ _)
  case shoot => exact serve_follows (decideShoot_follows _ _ _ _ _)
  case lineConfig => exact serve_follows (decideLineConfig_follows _ _ _ _ _ _ _ _ _ _ _)
  case lineWrite =>
    exact serve_follows (fun u => mapLines_follows u _ fun inv g i l hg bound => by
      rw [writeLine_bound inv _ _ hg bound])
  case lineCounts =>
    exact serve_follows (fun u => mapLines_follows u _ fun _ g i l _ _ => by unfold clearCount; split <;> rfl)
  case lineClear => exact serve_follows (decideLineClear_follows _)
  case lineBind => exact serve_follows (decideLineBind_follows _ _)
  case pinLevelChange line high =>
    exact ((acceptDue_follows s line).trans (drivePin_follows _ line high)).trans (acceptDue_follows _ line)
  case acceptedEdge => exact acceptDue_follows s _
  case chargeGood =>
    split
    · exact .trans (.of_eq (by rfl) (by rfl)) (endCharge_follows _ _)
    · exact .of_eq rfl rfl
  case tick1ms => exact .guarded fun _ => tick1ms_follows s _
  case linkSilent | loweringTimeout | pressingTimeout | raiseTimeout | plateTimeout =>
    exact .guarded fun _ => .fault (.of_eq (by rfl)) _ _
  case aimTick => exact .guarded fun _ => .trans (.of_eq (by rfl) (by rfl)) (aimTickStart_follows _)
  case idleTimerExpiry =>
    refine .guarded fun _ => ?_
    split
    · exact restartIdle_follows s
    · exact enterIdle_follows s
  case dwellExpiry =>
    split
    · exact .refl s
    · exact .guarded fun _ => expireDwell_follows s _
  case platesAtTarget => exact .guarded fun _ => .moved (.of_eq rfl)
  case airTimeEnd => exact .expired fun t => .guarded fun _ => endAir_follows s t
  case armTimeout | releaseTimeout | verifyTimeout =>
    exact .expired fun t => .guarded fun _ => .fault (.refl s) _ _
  case gripTimeout => exact .expired fun t => .guarded fun _ => failGrip_follows s t
  case bankChargeTimeout => exact .guarded fun _ => .fault (reportBank_restaged (by rfl) _ _ _ _) _ _
  case conditioningFlash =>
    split
    · exact .refl s
    · exact conditioningFlash_follows s _ _
  case conditioningComplete =>
    exact .guarded fun _ => .settled (.trans (.of_eq (by rfl)) (enterReady_restaged _ _ _))
  case captureFiring =>
    split
    · exact .refl s
    · exact captureFiring_follows s _ _
  case flashEnd | notBeforeTime | syncWindowClose | storedTimeout =>
    exact .guarded fun _ => .settled (.of_eq rfl)
  case recoveryEnd | topUpEnd => exact .guarded fun _ => .settled (returnReady_restaged s _)
  case topUpStart => exact topUp_follows s _
  case wakingEnd => exact .guarded fun _ => endWaking_follows s _
  case hoodTravelEnd hood => exact .guarded fun _ => .settled (.of_eq (by cases hood <;> rfl))
  case armingTimeout =>
    split
    · exact .refl s
    · exact .settled (.of_eq rfl)
  case triggerPulseEnd sd =>
    exact .guarded fun _ => .kept (pulse_restaged s sd none) ((readiness_driveFn _ _ _).trans rfl)
  case ident | status | time | motionQuery | lampQuery | captureQuery => exact observe_follows Follows.refl

theorem step_follows {s t : State} (h : step s = .next t) : Follows s t := by
  unfold step at h
  split at h
  · cases h
    unfold idleStep passMicrosecond
    split
    · split <;> exact .of_eq rfl rfl
    · exact .of_eq rfl rfl
  · rename_i c rest _
    obtain ⟨u, hu, follows⟩ := exec_follows c { s with pending := rest }
    obtain rfl := Host.Outcome.next.inj (hu.symm.trans h)
    exact .trans (t := { s with pending := rest }) (.of_eq rfl rfl) follows

end Sys2Proof.Machine

namespace Sys2Proof
open Machine

/-- Settles O13: every operation that changes the state of an output function drives it, no other changes what is staged
on the lines, and every event that can change READY_LAMP's condition ends by judging it. -/
theorem outputLinesShowTheirFunctions : Obligations.OutputLinesShowTheirFunctions := by
  intro s t hs h
  exact step_follows h hs

end Sys2Proof
end

