-- ==== Sys2Proof/Proofs/LineReads.lean ====
section
/-! LINE_READ, LINE_COUNTS and LINE_QUERY (R154). -/
namespace Sys2Proof.Machine

theorem lineView_eq (l : Line) :
    lineView l = ⟨l.dir, if l.dir = .inp then l.level else l.staged, l.raw, l.raw && l.event⟩ := by
  cases hd : l.dir <;> simp [lineView, lineValue, lineMasked, hd]

/-- LINE_QUERY by its table of checks. -/
theorem decideLineQuery_chosen (i : Nat) (a : State) :
    decideLineQuery i a = chosen [orField (decide (32 ≤ i)) .line] a a
      (.lineQuery (lineRecord (getLine a i)) (fnOf a i)) :=
  chosen_orField (by simp [Config.lineCount]) fun _ => rfl

end Sys2Proof.Machine

namespace Sys2Proof
open Machine

/-- Settles O24: each of the three requests leaves what its owner decides in the part awake. -/
theorem lineReadsAnswerAndChangeNoConfiguration : Obligations.LineReadsAnswerAndChangeNoConfiguration := by
  intro tag s
  refine ⟨?_, ?_, ?_⟩
  · rintro a rfl
    refine congrArg _ (serve_accepted (owner := fun s => accept s (.lineRead (s.lines.records.map lineView)))
      (congrArg (fun v => accept _ (.lineRead v)) ?_))
    exact List.map_congr_left fun l _ => lineView_eq l
  · rintro clear a rfl
    show Host.Outcome.next (serve 0x4B#8 tag (decideLineCounts clear) s) = _
    rw [serve, restartIdle_wakeIfIdle, decideLineCounts, mapLinesFrom_eq]
    rfl
  · rintro i a l rfl rfl
    exact congrArg _ (serve_decided (decideLineQuery_chosen i _))

end Sys2Proof
end

