-- ==== Sys2Proof/Proofs/ReportsFetched.lean ====
section
/-! FETCH (R184), with the first FAULT report that it lets in (R165). -/
namespace Sys2Proof.Machine

/-- The reports that a FETCH removes fit in the space. -/
theorem fetchCount_fits (rs : List Report) (space : Nat) :
    ((rs.take (fetchCount rs space)).map reportLength).sum ≤ space := by
  induction rs generalizing space with
  | nil => simp
  | cons r rs ih =>
    unfold fetchCount
    split
    · have := ih (space - reportLength r)
      simp only [List.take_succ_cons, List.map_cons, List.sum_cons]
      omega
    · simp

/-- The report behind the ones that a FETCH removes does not fit with them. -/
theorem fetchCount_full (rs : List Report) (space : Nat) (more : fetchCount rs space < rs.length) :
    space < ((rs.take (fetchCount rs space + 1)).map reportLength).sum := by
  induction rs generalizing space with
  | nil => simp [fetchCount] at more
  | cons r rs ih =>
    unfold fetchCount at more ⊢
    split at more
    next fits =>
      have := ih (space - reportLength r) (by simpa using more)
      rw [if_pos fits]
      simp only [List.take_succ_cons, List.map_cons, List.sum_cons] at this ⊢
      omega
    next tight =>
      rw [if_neg tight]
      simpa using tight

/-- A pending first FAULT report enters where the queue has room (R165). -/
theorem reofferFirst_room {s : State} {f : FaultReport} (pending : s.safe.pendingFirst = some f)
    (room : s.queue.reports.length + s.queue.reserved < 64) :
    reofferFirst s = enqueue { s with safe.pendingFirst := none } (.fault f) 0 := by
  rw [reofferFirst, pending]
  exact if_pos ((hasRoom_iff s).mpr room)

theorem reofferFirst_waits {s : State}
    (none_or_full : s.safe.pendingFirst = none ∨ 64 ≤ s.queue.reports.length + s.queue.reserved) :
    reofferFirst s = s := by
  unfold reofferFirst
  split
  · rfl
  next f pending =>
    rcases none_or_full with none | full
    · rw [none] at pending; cases pending
    · exact if_neg (by rw [hasRoom_iff]; omega)

/-- What a FETCH leaves as it is: all but the reports, their numbers, the pending FAULT report and the lines. -/
def besideReports (s : State) :
    Timebase × Link × Volume × List Leaf × List Segment × Motion × Lamps × Dose × Sequencer × Nat × Nat :=
  (s.time, s.link, s.volume, s.leaves, s.plan, s.motion, s.lamps, s.dose, s.seq, s.queue.reserved, s.queue.missed)

theorem besideReports_reofferFirst (s : State) : besideReports (reofferFirst s) = besideReports s := by
  unfold reofferFirst
  split
  · rfl
  · split <;> simp [besideReports]

/-- The queue as a FETCH leaves it: the oldest reports removed, ATTENTION by what waits (R157, R184). -/
def emptied (s : State) : State :=
  driveFn (fetched s (fetchCount s.queue.reports 236)) .attention
    (!(fetched s (fetchCount s.queue.reports 236)).queue.reports.isEmpty)

theorem besideReports_emptied (s : State) : besideReports (emptied s) = besideReports s := by
  simp [besideReports, emptied, fetched]

theorem emptied_queue (s : State) :
    (emptied s).queue = { s.queue with reports := s.queue.reports.drop (fetchCount s.queue.reports 236) } := by
  simp [emptied, fetched]

theorem emptied_safe (s : State) : (emptied s).safe = s.safe := by simp [emptied, fetched]

end Sys2Proof.Machine

namespace Sys2Proof
open Machine

/-- Settles O26: the reports that leave by induction on the queue, and the first FAULT report by the room they leave. -/
theorem fetchRemovesTheOldestReports : Obligations.FetchRemovesTheOldestReports := by
  intro tag s
  have beside := (besideReports_reofferFirst (emptied s)).trans (besideReports_emptied s)
  have clock : (emptied s).time = s.time := congrArg (·.1) (besideReports_emptied s)
  simp only [besideReports, Prod.mk.injEq] at beside
  obtain ⟨time, link, volume, leaves, plan, motion, lamps, dose, seq, reserved, missed⟩ := beside
  refine ⟨_, reofferFirst (emptied s), rfl, fetchCount_fits _ _, fetchCount_full _ _, rfl, reserved, missed,
    fun f pending room => ?_, fun none_or_full => ?_, time, volume, leaves, motion, lamps, dose, seq, link, plan⟩
  · rw [reofferFirst_room (f := f) (by rw [emptied_safe, pending]) (by rw [emptied_queue]; exact room)]
    simp [emptied_queue, count, stamp, timebaseModulus, clock]
  · rw [reofferFirst_waits (by rw [emptied_safe, emptied_queue]; exact none_or_full), emptied_queue, emptied_safe]
    exact ⟨rfl, rfl, rfl⟩

end Sys2Proof
end

