-- ==== Sys2Proof/Proofs/LinesReworked.lean ====
section
/-! What an event may change of the lines, and the hold group over it (R146 to R149, R158). -/
namespace Sys2Proof.Machine

/-! ### The record of one line -/

/-- Line `i` with another record. -/
def withLine (s : State) (i : Nat) (l : Line) : State := { s with lines.records := s.lines.records.set i l }

theorem modifyLine_eq (s : State) (i : Nat) (f : Line → Line) : modifyLine s i f = withLine s i (f (getLine s i)) := by
  have records : s.lines.records.modify i f = s.lines.records.set i (f (getLine s i)) := by
    refine List.ext_getElem (by simp) fun j _ inside => ?_
    have : j < s.lines.records.length := by simpa using inside
    rw [List.getElem_modify, List.getElem_set]
    split
    next own => subst own; simp [getLine, List.getD_eq_getElem?_getD, this]
    next => rfl
  rw [modifyLine, records, withLine]

theorem getLine_withLine {s : State} {i : Nat} (inside : i < s.lines.records.length) (l : Line) :
    getLine (withLine s i l) i = l := by
  simp [getLine, withLine, List.getD_eq_getElem?_getD, inside]

theorem getLine_withLine_ne {i j : Nat} (h : j ≠ i) (s : State) (l : Line) :
    getLine (withLine s i l) j = getLine s j := by
  simp [getLine, withLine, List.getD_eq_getElem?_getD, List.getElem?_set_ne h.symm]

theorem withLine_withLine (s : State) (i : Nat) (l m : Line) : withLine (withLine s i l) i m = withLine s i m := by
  simp [withLine, List.set_set]

theorem fnOf_withLine (s : State) (i j : Nat) (l : Line) : fnOf (withLine s i l) j = fnOf s j := rfl

/-- A LINE_EVENT is offered with the latch set, where the masked status is set and not latched (R149). -/
theorem offerEvent_withLine {s : State} {i : Nat} (inside : i < s.lines.records.length) (l : Line) (c : EventCause)
    (t : Nat) :
    offerEvent (withLine s i l) i c t =
      if lineMasked l && !l.latch then
        offerMinor (withLine s i { l with latch := true }) (.lineEvent i (fnOf s i) l.sense c l.level l.count t)
      else withLine s i l := by
  rw [offerEvent, modifyLine_eq, getLine_withLine inside, withLine_withLine, fnOf_withLine]

/-! ### What an event leaves of the lines -/

/-- Line `x` as far as its configuration and its pin go, with the levels, the status and the count of `y`. -/
def underConfig (x y : Line) : Line :=
  { x with
    staged := y.staged, level := y.level, change := y.change, raw := y.raw, latch := y.latch, count := y.count }

/-- The bindings stand, line `i` keeps its configuration, and the other lines all but what is staged on them. -/
structure Reworked (i : Nat) (s t : State) : Prop where
  binding : t.lines.binding = s.lines.binding
  length : t.lines.records.length = s.lines.records.length
  own : getLine t i = underConfig (getLine s i) (getLine t i)
  others : ∀ j, j ≠ i → getLine t j = { getLine s j with staged := (getLine t j).staged }

namespace Reworked
variable {i : Nat} {s t u : State}

theorem of_restaged (h : Restaged s t) : Reworked i s t :=
  ⟨h.binding, h.length, by rw [h.getLine_eq i]; rfl, fun j _ => h.getLine_eq j⟩

theorem trans (h : Reworked i s t) (g : Reworked i t u) : Reworked i s u :=
  ⟨g.binding.trans h.binding, g.length.trans h.length, by rw [g.own, h.own]; rfl, fun j away => by
    rw [g.others j away, h.others j away]⟩

theorem restaged (h : Reworked i s t) (g : Restaged t u) : Reworked i s u := h.trans (.of_restaged g)

/-- A change of line `i` that leaves its configuration. -/
theorem modifyLine {f : Line → Line} (plain : ∀ l, f l = underConfig l (f l)) :
    Reworked i s (Machine.modifyLine s i f) := by
  refine ⟨rfl, modifyLine_length i f s, ?_, fun j away => by rw [getLine_modifyLine_ne away]⟩
  by_cases inside : i < s.lines.records.length
  · rw [getLine_modifyLine i f s inside]
    exact plain _
  · have none : ∀ u : State, u.lines.records.length = s.lines.records.length → getLine u i = default := fun u h => by
      simp [getLine, List.getD_eq_getElem?_getD, h ▸ inside]
    rw [none _ (modifyLine_length i f s), none s rfl]
    rfl

end Reworked

theorem offerEvent_reworked (s : State) (i : Nat) (c : EventCause) (t : Nat) : Reworked i s (offerEvent s i c t) := by
  rcases offerEvent_cases i c t s with same | ⟨-, -, offered⟩
  · rw [same]; exact .of_restaged (.refl s)
  · rw [offered]; exact (Reworked.modifyLine fun _ => rfl).restaged (offerMinor_restaged _ _)

/-- The steps of an accepted edge before it is handed to its owner (R148). -/
def edgeTaken (s : State) (i : Nat) (high : Bool) (t : Nat) : State :=
  offerEvent (modifyLine s i (takeEdge high)) i .edge t

/-- The hold group re-evaluated for a line that carries the hold flag (R148, R158). -/
def edgeHeld (s : State) (i : Nat) (high : Bool) (t : Nat) : State :=
  if (getLine s i).hold then evalHold (edgeTaken s i high t) i t else edgeTaken s i high t

/-- The part woken by an event edge of a line that carries the wake flag (R144, R148). -/
def edgeWoken (s : State) (i : Nat) (high : Bool) (t : Nat) : State :=
  if eventEdge (getLine s i) high && (getLine s i).wake then wakeIfIdle (edgeHeld s i high t) (.line i)
  else edgeHeld s i high t

theorem acceptEdge_eq (s : State) (i : Nat) (high : Bool) (t : Nat) :
    acceptEdge s i high t =
      settle (runMotion (handLine (edgeWoken s i high t) i (activeEdge (getLine s i) high) t)) := rfl

theorem edgeTaken_reworked (s : State) (i : Nat) (high : Bool) (t : Nat) : Reworked i s (edgeTaken s i high t) :=
  (Reworked.modifyLine fun _ => rfl).trans (offerEvent_reworked _ i _ t)

theorem edgeHeld_restaged (s : State) (i : Nat) (high : Bool) (t : Nat) :
    Restaged (edgeTaken s i high t) (edgeHeld s i high t) := by
  unfold edgeHeld
  split
  · exact evalHold_restaged _ _ _
  · exact .refl _

/-- Once its hold is judged, an accepted edge changes of the lines only what is staged on them. -/
theorem acceptEdge_restaged (s : State) (i : Nat) (high : Bool) (t : Nat) :
    Restaged (edgeHeld s i high t) (acceptEdge s i high t) := by
  have woken : Restaged (edgeHeld s i high t) (edgeWoken s i high t) := by
    unfold edgeWoken
    split
    · exact wakeIfIdle_restaged _ _
    · exact .refl _
  exact (woken.trans (handLine_restaged _ _ _ _)).moved

theorem acceptEdge_reworked (s : State) (i : Nat) (high : Bool) (t : Nat) : Reworked i s (acceptEdge s i high t) :=
  (edgeTaken_reworked s i high t).restaged ((edgeHeld_restaged s i high t).trans (acceptEdge_restaged s i high t))

/-! ### The hold group -/

/-- The hold is in force as the group has it (R158). -/
def holdJudged (s : State) : Prop := s.lines.hold.isSome = groupActive s

theorem Restaged.groupActive {s t : State} (h : Restaged s t) : groupActive t = groupActive s := by
  have lasts : ∀ u : State, Machine.groupActive u = (u.lines.records.map lastingLine).any lineHolds := fun u => by
    rw [List.any_map]; rfl
  rw [lasts, lasts, h.lines]

theorem Restaged.holdJudged {s t : State} (h : Restaged s t) (hold : t.lines.hold = s.lines.hold)
    (judged : holdJudged s) : holdJudged t := by
  rw [Machine.holdJudged, hold, h.groupActive]
  exact judged

theorem evalHold_holdJudged (s : State) (i t : Nat) : holdJudged (evalHold s i t) := by
  rw [holdJudged, (evalHold_restaged s i t).groupActive, evalHold]
  cases hold : s.lines.hold <;> cases active : groupActive s <;> simp [hold, holdOn, holdOff]

/-- A change of one line that leaves whether it holds. -/
theorem groupActive_modifyLine {s : State} {i : Nat} {f : Line → Line}
    (same : lineHolds (f (getLine s i)) = lineHolds (getLine s i)) : groupActive (modifyLine s i f) = groupActive s := by
  have holds : (modifyLine s i f).lines.records.map lineHolds = s.lines.records.map lineHolds := by
    rw [modifyLine_eq]
    refine List.ext_getElem (by simp [withLine]) fun j _ inside => ?_
    have : j < s.lines.records.length := by simpa using inside
    rw [List.getElem_map, List.getElem_map]
    simp only [withLine, List.getElem_set]
    split
    next own => subst own; rw [same]; simp [getLine, List.getD_eq_getElem?_getD, this]
    next => rfl
  have group : ∀ u : State, groupActive u = (u.lines.records.map lineHolds).any id := fun u => by
    rw [List.any_map]; rfl
  rw [group, group, holds]

theorem offerEvent_groupActive (s : State) (i : Nat) (c : EventCause) (t : Nat) :
    groupActive (offerEvent s i c t) = groupActive s := by
  rcases offerEvent_cases i c t s with same | ⟨-, -, offered⟩
  · rw [same]
  · rw [offered, (offerMinor_restaged _ _).groupActive, groupActive_modifyLine rfl]

/-- An accepted edge leaves the hold judged: its line carries the hold flag and has it re-evaluated, or stands outside the
group (R148, R158). -/
theorem acceptEdge_holdJudged {s : State} (h : holdJudged s) (i : Nat) (high : Bool) (t : Nat) :
    holdJudged (acceptEdge s i high t) := by
  have judged : holdJudged (edgeHeld s i high t) := by
    unfold edgeHeld
    split
    next => exact evalHold_holdJudged _ i t
    next outside =>
      have free : ∀ l : Line, l.hold = (getLine s i).hold → lineHolds l = false := fun l hl => by
        simp [lineHolds, hl, outside]
      rw [holdJudged, edgeTaken, offerEvent_groupActive,
        groupActive_modifyLine ((free _ (by simp [takeEdge])).trans (free _ rfl).symm)]
      simpa [holdJudged] using h
  refine (acceptEdge_restaged s i high t).holdJudged ?_ judged
  have woken : (edgeWoken s i high t).lines.hold = (edgeHeld s i high t).lines.hold := by
    unfold edgeWoken
    split <;> simp
  rw [acceptEdge_eq]
  simp [woken]

end Sys2Proof.Machine
end

