-- ==== Sys2Proof/Proofs/LineConfigured.lean ====
section
/-! LINE_CONFIG (R146 to R149, R152, R158), in the order of log 45. -/
namespace Sys2Proof.Machine

/-! ### The record -/

theorem activeLevel_eq (l : Line) : activeLevel l = levelActive l := by
  rw [activeLevel, levelActive, lineActive_if]

/-- A line under another configuration: one that becomes IN is sampled, one that stays IN compared with its pin
(R147, R152). -/
def recompared (t : Nat) (l : Line) (c : LineSettings) : Line :=
  { setConfig l c with
    level := if c.dir = .inp ∧ l.dir = .out then pinLevel (setConfig l c) else l.level
    change :=
      if c.dir = .out ∨ l.dir = .out ∨ pinLevel (setConfig l c) = l.level then none
      else some (l.change.getD (pinLevel (setConfig l c), t)) }

/-- The raw status, and the latch, that a line keeps under another configuration (R152). -/
def keptRaw (l : Line) (c : LineSettings) : Bool := l.raw && !dropsStatus l c

def keptLatch (l : Line) (c : LineSettings) : Bool := l.latch && !dropsStatus l c

/-- The raw status of a line under another configuration (R149, R152). -/
def rawUnder (t : Nat) (l : Line) (c : LineSettings) : Bool := keptRaw l c || activeLevel (recompared t l c)

theorem configured_eq (t : Nat) (l : Line) (c : LineSettings) :
    configured t l c = { recompared t l c with raw := rawUnder t l c, latch := keptLatch l c && c.event } := by
  have compared : (if l.dir = .out ∨ c.dir = .out then sampleLine (setConfig l c) else comparePin t (setConfig l c)) =
      recompared t l c := by
    unfold recompared
    cases hd : c.dir with
    | out => simp [sampleLine, setConfig, hd]
    | inp =>
      cases ho : l.dir with
      | out => simp [sampleLine, setConfig, hd]
      | inp =>
        by_cases same : pinLevel (setConfig l c) = l.level
        · simp [comparePin, setConfig, hd] at same ⊢
          simp [same]
        · cases hc : l.change <;> simp [comparePin, setConfig, hd, hc] at same ⊢ <;> simp [same]
  unfold configured
  dsimp only
  rw [compared, rawUnder, activeLevel_eq]
  rfl

/-- What is staged on line `i` under another configuration: an output function's state under a new polarity (R152). -/
def stagedUnder (s : State) (i : Nat) (c : LineSettings) : Bool :=
  (fnOf s i).elim (getLine s i).staged fun f =>
    if decide ((getLine s i).polarity ≠ c.polarity) && isOutputFn f then drivenValue c.polarity (outputState s f)
    else (getLine s i).staged

theorem lineOf_of_fnOf {s : State} {i : Nat} {f : Fn} (h : fnOf s i = some f) : lineOf s f = some i := by
  simpa using List.find?_some h

/-- A line bound to an output function shows the function's state afresh. -/
theorem restage_withLine {s : State} {i : Nat} (inside : i < s.lines.records.length) (l : Line) :
    restage (withLine s i l) i = withLine s i
      { l with
        staged := (fnOf s i).elim l.staged fun f =>
          if isOutputFn f then drivenValue l.polarity (outputState s f) else l.staged } := by
  unfold restage
  rw [fnOf_withLine]
  cases found : fnOf s i with
  | none => rfl
  | some f =>
    have bound : lineOf (withLine s i l) f = some i := lineOf_of_fnOf found
    have state : outputState (withLine s i l) f = outputState s f := by cases f <;> rfl
    dsimp only
    split
    next output =>
      rw [driveFn, bound]
      dsimp only
      rw [modifyLine_eq, getLine_withLine inside, withLine_withLine, state]
      simp [output]
    next input => simp [input]

/-- The record of line `i` under another configuration. -/
def configuredRecord (s : State) (i : Nat) (c : LineSettings) : Line :=
  { recompared (now s) (getLine s i) c with
    raw := rawUnder (now s) (getLine s i) c
    latch := c.event && (rawUnder (now s) (getLine s i) c || keptLatch (getLine s i) c)
    staged := stagedUnder s i c }

/-- The staged value, as the statement writes it. -/
theorem stagedUnder_eq (s : State) (i : Nat) (c : LineSettings) :
    stagedUnder s i c = (match allFns.find? fun f => decide (lineOf s f = some i) with
      | some f =>
        if decide ((getLine s i).polarity ≠ c.polarity) && decide (16 ≤ fnCode f) then
          (if c.polarity = .risingHigh then shownState s f else !shownState s f)
        else (getLine s i).staged
      | none => (getLine s i).staged) := by
  unfold stagedUnder fnOf
  cases allFns.find? fun f => decide (lineOf s f = some i) with
  | none => rfl
  | some f =>
    simp only [Option.elim_some, isOutputFn_eq, drivenValue_if, shownState_eq_outputState]

/-! ### The steps -/

/-- The record replaced, and the LINE_EVENT where the masked status is set and not latched (R149, R152). -/
def eventStep (s : State) (i : Nat) (c : LineSettings) : State :=
  if rawUnder (now s) (getLine s i) c && c.event && !keptLatch (getLine s i) c then
    offerMinor (withLine s i (configuredRecord s i c))
      (.lineEvent i (fnOf s i) c.sense (configCause (getLine s i) c) (recompared (now s) (getLine s i) c).level
        (getLine s i).count (now s))
  else withLine s i (configuredRecord s i c)

/-- The hold re-evaluated when the hold flag changes, or the polarity of a line that holds (R152, R158). -/
def holdStep (s : State) (i : Nat) (c : LineSettings) : State :=
  if (getLine s i).hold ≠ c.hold ∨ (c.hold = true ∧ (getLine s i).polarity ≠ c.polarity) then
    evalHold (eventStep s i c) i (now s)
  else eventStep s i c

/-- A pending change that the new debounce time or pull makes due is accepted at once (R147, R152). -/
def changeStep (s : State) (i : Nat) (c : LineSettings) : State :=
  (recompared (now s) (getLine s i) c).change.elim (holdStep s i c) fun x =>
    if x.2 + c.debounce * 1000 ≤ now s
        ∧ ¬ ((getLine s i).debounce = c.debounce ∧ pinLevel (getLine s i) = pinLevel (setConfig (getLine s i) c)) then
      acceptEdge (holdStep s i c) i x.1 (now s)
    else holdStep s i c

section
variable {s : State} {i : Nat} {c : LineSettings}

/-- The staged value follows the record, and the event both. -/
theorem eventStep_eq (inside : i < s.lines.records.length) :
    offerEvent (if (getLine s i).polarity = c.polarity then modifyLine s i fun l => configured (now s) l c
      else restage (modifyLine s i fun l => configured (now s) l c) i) i (configCause (getLine s i) c) (now s)
      = eventStep s i c := by
  have staged : (if (getLine s i).polarity = c.polarity then modifyLine s i fun l => configured (now s) l c
      else restage (modifyLine s i fun l => configured (now s) l c) i) =
      withLine s i { configured (now s) (getLine s i) c with staged := stagedUnder s i c } := by
    rw [modifyLine_eq, configured_eq, restage_withLine inside]
    unfold stagedUnder
    split
    next same => cases fnOf s i <;> simp [same] <;> rfl
    next turned => cases fnOf s i <;> simp [turned] <;> rfl
  rw [staged, offerEvent_withLine inside, eventStep, configuredRecord, configured_eq]
  generalize rawUnder (now s) (getLine s i) c = raw, keptLatch (getLine s i) c = kept
  cases event : c.event <;> cases raw <;> cases kept <;> simp [lineMasked, recompared, setConfig, event]

theorem eventStep_restaged (s : State) (i : Nat) (c : LineSettings) :
    Restaged (withLine s i (configuredRecord s i c)) (eventStep s i c) := by
  unfold eventStep
  split
  · exact offerMinor_restaged _ _
  · exact .refl _

theorem holdStep_restaged (s : State) (i : Nat) (c : LineSettings) :
    Restaged (withLine s i (configuredRecord s i c)) (holdStep s i c) := by
  unfold holdStep
  split
  · exact (eventStep_restaged s i c).trans (evalHold_restaged _ _ _)
  · exact eventStep_restaged s i c

theorem holdStep_clock (s : State) (i : Nat) (c : LineSettings) : now (holdStep s i c) = now s := by
  have event : (eventStep s i c).time = s.time := by
    unfold eventStep
    split <;> simp [withLine]
  unfold holdStep now
  split <;> simp [event]

/-- A line that becomes OUT has no pending change (R147, R152). -/
theorem recompared_out (t : Nat) (l : Line) {c : LineSettings} (out : c.dir = .out) : (recompared t l c).change = none := by
  simp [recompared, out]

/-- The pending change of the line, once its hold is judged, is the one that its new configuration left it. -/
theorem dueChange_holdStep (inside : i < s.lines.records.length) :
    dueChange (holdStep s i c) (getLine (holdStep s i c) i) =
      (recompared (now s) (getLine s i) c).change.bind fun x =>
        if x.2 + c.debounce * 1000 ≤ now s then some (x.1, x.2 + c.debounce * 1000) else none := by
  have record := (holdStep_restaged s i c).getLine_eq i
  rw [getLine_withLine inside] at record
  rw [record]
  unfold dueChange
  rw [holdStep_clock]
  show (match c.dir, (recompared (now s) (getLine s i) c).change with
    | .inp, some (high, t) => if t + ms c.debounce ≤ now s then some (high, t + ms c.debounce) else none
    | _, _ => none) = _
  cases dir : c.dir with
  | out => rw [recompared_out _ _ dir]; rfl
  | inp => cases (recompared (now s) (getLine s i) c).change <;> rfl

theorem configureLine_eq (inside : i < s.lines.records.length) :
    configureLine s i c = settle (runMotion (changeStep s i c)) := by
  have held : (if (getLine s i).hold ≠ c.hold ∨ (c.hold = true ∧ (getLine s i).polarity ≠ c.polarity) then
      evalHold (eventStep s i c) i (now s) else eventStep s i c) = holdStep s i c := rfl
  unfold configureLine
  dsimp only
  rw [eventStep_eq inside, held, dueChange_holdStep inside, changeStep]
  congr 2
  cases (recompared (now s) (getLine s i) c).change with
  | none => simp
  | some x =>
    by_cases due : x.2 + c.debounce * 1000 ≤ now s
    · simp [due, -not_and, ite_not]
    · simp [due]

/-! ### What it leaves of the lines -/

theorem changeStep_reworked (s : State) (i : Nat) (c : LineSettings) :
    Reworked i (withLine s i (configuredRecord s i c)) (changeStep s i c) := by
  have held : Reworked i (withLine s i (configuredRecord s i c)) (holdStep s i c) := .of_restaged (holdStep_restaged s i c)
  unfold changeStep
  cases (recompared (now s) (getLine s i) c).change with
  | none => exact held
  | some x =>
    simp only [Option.elim_some]
    split
    · exact held.trans (acceptEdge_reworked _ _ _ _)
    · exact held

theorem changeStep_holdJudged (changed : (getLine s i).hold ≠ c.hold) : holdJudged (changeStep s i c) := by
  have held : holdJudged (holdStep s i c) := by
    rw [holdStep, if_pos (.inl changed)]
    exact evalHold_holdJudged _ _ _
  unfold changeStep
  cases (recompared (now s) (getLine s i) c).change with
  | none => exact held
  | some x =>
    simp only [Option.elim_some]
    split
    · exact acceptEdge_holdJudged held _ _ _
    · exact held

end

/-! ### The checks -/

theorem chosen_failed {c : Check} (failed : c.1 = true) {cs : List Check} {a u : State} {f : Fields} :
    chosen (c :: cs) a u f = (a, c.2) := by rw [chosen_cons, if_pos failed]

theorem mem_allFns (f : Fn) : f ∈ allFns := by cases f <;> decide

/-- No line carries two functions, so that what holds of a function on a line holds of the line's function (R155). -/
theorem any_bound {s : State} (inv : bindingInv s) (i : Nat) (p : Fn → Bool) :
    (allFns.any fun f => decide (lineOf s f = some i) && p f) = (fnOf s i).any p := by
  cases found : fnOf s i with
  | none =>
    rw [Option.any_none, List.any_eq_false]
    exact fun f _ => by simp [fnOf_none found f]
  | some f =>
    have bound := lineOf_of_fnOf found
    rw [Option.any_some, Bool.eq_iff_iff, List.any_eq_true]
    constructor
    · rintro ⟨g, -, hg⟩
      obtain ⟨own, holds⟩ := Bool.and_eq_true_iff.mp hg
      obtain rfl := inv.2.2.2 g f i (of_decide_eq_true own) bound
      exact holds
    · exact fun holds => ⟨f, mem_allFns f, by simp [bound, holds]⟩

theorem directionRefusal_eq {s : State} (inv : bindingInv s) (i : Nat) (c : LineSettings) :
    directionRefusal s i c =
      if c.dir = .out then c.hold || allFns.any fun f => decide (lineOf s f = some i) && decide (fnCode f < 16)
      else allFns.any fun f => decide (lineOf s f = some i) && decide (16 ≤ fnCode f) := by
  rw [any_bound inv, any_bound inv]
  have outputs : isOutputFn = fun f => decide (16 ≤ fnCode f) := funext isOutputFn_eq
  have inputs : (fun f => !isOutputFn f) = fun f => decide (fnCode f < 16) := by
    funext f
    rw [isOutputFn_eq, Bool.eq_iff_iff]
    simp
  unfold directionRefusal
  rw [inputs, outputs]
  cases c.dir <;> rfl

/-- LINE_CONFIG by its table of checks, the fields in the order of the request. -/
theorem decideLineConfig_chosen {a : State} (inv : bindingInv a) (i : Nat) (dir : Option LineDir) (pull : Option Pull)
    (drive : Option Drive) (sense : Option Sense) (polarity : Option Polarity) (both : Bool) (debounce : Nat)
    (event wake hold : Bool) {c : LineSettings}
    (hc : c = lineSettings dir pull drive sense polarity both debounce event wake hold) :
    decideLineConfig i dir pull drive sense polarity both debounce event wake hold a =
      chosen
        [ orField (decide (31 < i)) .line,
          orField dir.isNone .direction, orField pull.isNone .pull, orField drive.isNone .drive,
          orField sense.isNone .sense, orField polarity.isNone .polarity,
          orField (both && decide (sense = some .level)) .bothEdges,
          orElse (if dir.getD .inp = .out then
              hold || allFns.any fun f => decide (lineOf a f = some i) && decide (fnCode f < 16)
            else allFns.any fun f => decide (lineOf a f = some i) && decide (16 ≤ fnCode f)) .directionMismatch ]
        a (configureLine a i c)
        (.lineConfig (lineRecord (getLine (configureLine a i c) i)) (decide (50 < debounce))) := by
  refine chosen_orField (by simp [Config.lineCount]; omega) fun _ => ?_
  cases dir with
  | none => rfl
  | some dir =>
  cases pull with
  | none => rfl
  | some pull =>
  cases drive with
  | none => rfl
  | some drive =>
  cases sense with
  | none => rfl
  | some sense =>
  cases polarity with
  | none => rfl
  | some polarity =>
  subst hc
  refine chosen_orField (by simp [lineSettings]) fun _ => chosen_orElse ?_ fun _ => ?_
  · rw [directionRefusal_eq inv]
    rfl
  · rw [chosen_nil, Bool.eq_iff_iff.mpr (above_iff debounce 50)]

end Sys2Proof.Machine

namespace Sys2Proof
open Machine

/-- Settles O57: the model's steps are those of the statement one by one, and after the record is replaced each of them leaves
the configuration of the line and all of the others but what is staged on them. -/
theorem lineConfigReplacesAConfiguration : Obligations.LineConfigReplacesAConfiguration := by
  intro tag i dir pull drive sense polarity both debounce event wake hold s a d l l1 l2 x drop raw turned cause v1 v2 v3 v4 u
    ha hd hl inv hdrop hturned hl1 hl2 hraw hcause hv1 hv2 hv3 hv4 hu hx
  obtain ⟨c, hc⟩ : ∃ c, c = lineSettings dir pull drive sense polarity both debounce event wake hold := ⟨_, rfl⟩
  have clamped : min debounce 50 = c.debounce := by
    rw [hc]
    simp only [lineSettings, clamp]
    split_ifs <;> omega
  have turned_eq : turned = decide ((getLine a i).polarity ≠ c.polarity) := by
    subst hc; rw [hturned, hl]; exact decide_eq_decide.mpr ne_comm
  have drop_eq : drop = dropsStatus (getLine a i) c := by
    subst hc
    rw [hdrop, hl, hd, dropsStatus, decide_eq_decide.mpr (ne_comm (a := polarity.getD _)),
      decide_eq_decide.mpr (ne_comm (a := sense.getD _))]
    rfl
  have l1_eq : l1 = setConfig (getLine a i) c := by
    rw [hl1, clamped, hl, hd, hc]; rfl
  have l2_eq : l2 = recompared (now a) (getLine a i) c := by
    rw [hl2, l1_eq, hl, hd, hc]; rfl
  have raw_eq : raw = rawUnder (now a) (getLine a i) c := by rw [hraw, l2_eq, drop_eq, hl]; rfl
  have v1_eq : v1 = withLine a i (configuredRecord a i c) := by
    rw [hv1, withLine, configuredRecord, stagedUnder_eq, l2_eq, raw_eq, turned_eq, drop_eq, l1_eq, hl, hc]
    rfl
  have v2_eq : v2 = eventStep a i c := by
    rw [hv2, v1_eq, eventStep, raw_eq, l2_eq, l1_eq, drop_eq, hcause, drop_eq, hl, hc]
    rfl
  have v3_eq : v3 = holdStep a i c := by
    rw [hv3, v2_eq, holdStep, turned_eq, hl, hc]
    simp only [decide_eq_true_eq]
    rfl
  have v4_eq : v4 = changeStep a i c := by
    rw [hv4, v3_eq, changeStep, l1_eq, l2_eq, clamped, hl]
    cases (recompared (now a) (getLine a i) c).change <;> rfl
  have inside : i < 32 → i < a.lines.records.length := fun h => by rw [inv.1]; exact h
  have reworked : Reworked i (withLine a i (configuredRecord a i c)) u := by
    rw [hu, v4_eq]
    exact (changeStep_reworked a i c).restaged (Restaged.refl _).moved
  have own : i < 32 → getLine u i = underConfig l2 (getLine u i) := fun h => by
    rw [reworked.own, getLine_withLine (inside h), l2_eq]
    rfl
  refine ⟨?_, reworked.binding, fun j away => ⟨(getLine u j).staged, ?_⟩, fun h => ⟨_, _, _, _, _, _, own h⟩,
    fun _ changed => ?_⟩
  · have owner := decideLineConfig_chosen inv i dir pull drive sense polarity both debounce event wake hold hc
    subst ha hd
    refine congrArg _ (serve_decided (owner.trans ?_))
    by_cases h : i < 32
    · rw [configureLine_eq (inside h), ← v4_eq, ← hu, ← hx]
      rfl
    · have outside : (orField (decide (31 < i)) .line).1 = true := decide_eq_true (by omega)
      exact (chosen_failed outside).trans (chosen_failed outside).symm
  · rw [reworked.others j away, getLine_withLine_ne away]
  · rw [← groupActive_eq, hu, v4_eq]
    refine (Restaged.refl (changeStep a i c)).moved.holdJudged (by simp) (changeStep_holdJudged ?_)
    rw [hl, hc] at *
    exact changed

end Sys2Proof
end

