-- ==== Sys2Proof/Proofs/LinesCleared.lean ====
section
/-! LINE_WRITE, LINE_CLEAR and LINE_BIND (R149, R150, R151, R153, R156). -/
namespace Sys2Proof.Machine

/-! ### LINE_WRITE -/

theorem boundOutput_eq {s : State} (inv : bindingInv s) (i : Nat) :
    boundOutput s i = allFns.any fun f => decide (lineOf s f = some i) && decide (16 ≤ fnCode f) := by
  have outputs : isOutputFn = fun f => decide (16 ≤ fnCode f) := funext isOutputFn_eq
  rw [any_bound inv, boundOutput, outputs]

/-! ### Reports and the lines -/

/-- A change of a line that has nothing to do with what is staged on it. -/
structure BesideStaged (g : Line → Line) : Prop where
  staged : ∀ l v, g { l with staged := v } = { g l with staged := v }
  polarity : ∀ l, (g l).polarity = l.polarity

theorem modify_comm {g h : Line → Line} (comm : ∀ l, g (h l) = h (g l)) (i j : Nat) (ls : List Line) :
    (ls.modify i h).modify j g = (ls.modify j g).modify i h := by
  refine List.ext_getElem (by simp) fun k _ _ => ?_
  simp only [List.getElem_modify]
  split_ifs <;> simp [comm]

section
variable {g : Line → Line}

theorem BesideStaged.driveFn (h : BesideStaged g) (s : State) (i : Nat) (f : Fn) (v : Bool) :
    modifyLine (Machine.driveFn s f v) i g = Machine.driveFn (modifyLine s i g) f v := by
  have bound : lineOf (modifyLine s i g) f = lineOf s f := rfl
  rw [Machine.driveFn, Machine.driveFn, bound]
  cases lineOf s f with
  | none => rfl
  | some k =>
    show modifyLine (modifyLine s k _) i g = modifyLine (modifyLine s i g) k _
    unfold modifyLine
    rw [modify_comm fun l => (h.staged l _).trans
      (congrArg (fun p => { g l with staged := drivenValue p v }) (h.polarity l).symm)]

theorem BesideStaged.offerMinor (h : BesideStaged g) (s : State) (i : Nat) (b : Body) :
    modifyLine (Machine.offerMinor s b) i g = Machine.offerMinor (modifyLine s i g) b := by
  have room : hasMinorRoom (modifyLine s i g) = hasMinorRoom s := rfl
  rw [Machine.offerMinor, Machine.offerMinor, room]
  split
  · exact h.driveFn _ i .attention true
  · rfl

/-! ### LINE_CLEAR -/

/-- A line cleared: an active LEVEL line sets raw status and latch again (R149, R150). -/
def statusCleared (l : Line) : Line := { l with raw := activeLevel l, latch := activeLevel l && l.event }

theorem statusCleared_beside : BesideStaged statusCleared := ⟨fun _ _ => rfl, fun _ => rfl⟩

/-- The LINE_EVENT that a LINE_CLEAR offers for line `i`, and whether it does (R149, R150). -/
def clearEvent (s : State) (i : Nat) : Body :=
  .lineEvent i (fnOf s i) (getLine s i).sense .level (getLine s i).level (getLine s i).count (now s)

def clearFinds (s : State) (i : Nat) : Bool := activeLevel (getLine s i) && (getLine s i).event

theorem clearLine_eq {s : State} {i : Nat} (inside : i < s.lines.records.length) :
    clearLine s i =
      if clearFinds s i then Machine.offerMinor (modifyLine s i statusCleared) (clearEvent s i)
      else modifyLine s i statusCleared := by
  have masked : (lineMasked (clearStatus (getLine s i)) && !(clearStatus (getLine s i)).latch) = clearFinds s i := by
    simp [lineMasked, clearStatus, clearFinds, activeLevel_eq]
  rw [clearLine, modifyLine_eq, modifyLine_eq, offerEvent_withLine inside, masked]
  cases active : activeLevel (getLine s i) <;> cases event : (getLine s i).event <;>
    simp [clearFinds, clearStatus, statusCleared, clearEvent, ← activeLevel_eq, active, event]

theorem clearLine_reworked (s : State) (i : Nat) : Reworked i s (clearLine s i) :=
  (Reworked.modifyLine fun _ => rfl).trans (offerEvent_reworked _ i _ _)

/-- Clearing one line leaves what the others are cleared to. -/
theorem clearLine_away (s : State) {i j : Nat} (away : j ≠ i) :
    clearFinds (clearLine s i) j = clearFinds s j ∧ clearEvent (clearLine s i) j = clearEvent s j := by
  have reworked := clearLine_reworked s i
  have line := reworked.others j away
  have clock : now (clearLine s i) = now s := by simp [now]
  rw [clearFinds, clearEvent, fnOf_of_binding reworked.binding, clock, line]
  exact ⟨rfl, rfl⟩

/-- All lines of a list cleared, before any report. -/
def clearAll (s : State) (is : List Nat) : State := is.foldl (fun u i => modifyLine u i statusCleared) s

theorem clearAll_offerMinor (s : State) (b : Body) (is : List Nat) :
    clearAll (Machine.offerMinor s b) is = Machine.offerMinor (clearAll s is) b := by
  unfold clearAll
  induction is generalizing s with
  | nil => rfl
  | cons i is ih => rw [List.foldl_cons, List.foldl_cons, statusCleared_beside.offerMinor, ih]

/-- The reports of the lines cleared may be offered behind all of the clearing, in line order (R150, log 49). -/
theorem foldl_clearLine {s : State} {is : List Nat} (inside : ∀ i ∈ is, i < s.lines.records.length) (once : is.Nodup) :
    is.foldl clearLine s =
      ((is.filter (clearFinds s)).map (clearEvent s)).foldl Machine.offerMinor (clearAll s is) := by
  induction is generalizing s with
  | nil => rfl
  | cons i is ih =>
    obtain ⟨own, once⟩ := List.nodup_cons.mp once
    obtain ⟨insideI, inside⟩ := List.forall_mem_cons.mp inside
    have away : ∀ j ∈ is, j ≠ i := fun j hj same => own (same ▸ hj)
    have finds : is.filter (clearFinds (clearLine s i)) = is.filter (clearFinds s) :=
      List.filter_congr fun j hj => (clearLine_away s (away j hj)).1
    have events : (is.filter (clearFinds s)).map (clearEvent (clearLine s i)) =
        (is.filter (clearFinds s)).map (clearEvent s) :=
      List.map_congr_left fun j hj => (clearLine_away s (away j (List.mem_of_mem_filter hj))).2
    have length : (clearLine s i).lines.records.length = s.lines.records.length :=
      (clearLine_reworked s i).length
    rw [List.foldl_cons, ih (fun j hj => length ▸ inside j hj) once, finds, events, clearLine_eq insideI]
    cases found : clearFinds s i with
    | true => simp [found, clearAll_offerMinor]; rfl
    | false => simp [found]; rfl

theorem clearAll_records (s : State) (is : List Nat) (j : Nat) :
    (clearAll s is).lines.records[j]? =
      s.lines.records[j]?.map fun l => if j ∈ is then statusCleared l else l := by
  unfold clearAll
  induction is generalizing s with
  | nil => simp
  | cons i is ih =>
    have twice : ∀ l, statusCleared (statusCleared l) = statusCleared l := fun _ => rfl
    rw [List.foldl_cons, ih, modifyLine_records, List.getElem?_modify, Option.map_eq_map,
      Option.map_map]
    congr 1
    funext l
    rcases eq_or_ne j i with rfl | own
    · by_cases later : j ∈ is <;> simp [later, twice]
    · simp [own, own.symm]

theorem clearAll_eq (s : State) (is : List Nat) :
    clearAll s is = { s with lines.records := (clearAll s is).lines.records } := by
  unfold clearAll
  induction is generalizing s with
  | nil => rfl
  | cons i is ih => rw [List.foldl_cons, ih]; rfl

/-- The lines of a mask cleared, in one. -/
theorem clearAll_maskedLines {s : State} (inv : bindingInv s) (mask : LineMask) :
    clearAll s (maskedLines mask) = { s with
      lines.records := s.lines.records.zipIdx.map fun x =>
        if mask.getLsbD x.2 then statusCleared x.1 else x.1 } := by
  rw [clearAll_eq]
  refine congrArg (fun rs : List Line => { s with lines.records := rs }) (List.ext_getElem? fun j => ?_)
  rw [clearAll_records, List.getElem?_map, List.getElem?_zipIdx, Option.map_map]
  refine Option.map_congr fun l hl => ?_
  have inside : j < 32 := inv.1 ▸ (List.getElem?_eq_some_iff.mp hl).1
  simp [maskedLines, Config.lineCount, inside]

theorem foldl_offerMinor_restaged (bs : List Body) (s : State) : Restaged s (bs.foldl Machine.offerMinor s) :=
  .foldl offerMinor_restaged bs s

/-- Reports change the queue and what is staged on the lines. -/
theorem apart_offerMinor (s : State) (b : Body) : apart (Machine.offerMinor s b) = apart s := by
  unfold Machine.offerMinor
  split
  · exact apart_enqueue _ _ _
  · rfl

theorem eq_of_apart {s t : State} (h : apart t = apart s) :
    t = { s with lines.records := t.lines.records, queue := t.queue } := by
  have whole : ∀ u v : State, u = { apart u with lines.records := u.lines.records, queue := u.queue } := fun _ _ => rfl
  rw [whole t s, h]
  rfl

/-! ### LINE_BIND -/

theorem lineValue_eq (l : Line) : lineValue l = if l.dir = .inp then l.level else l.staged := by
  cases dir : l.dir <;> simp [lineValue, dir]

theorem unbindFn_eq (s : State) (f : Fn) : unbindFn s f = { s with
    lines.binding := s.lines.binding.set (fnCode f) none
    lines.records := match lineOf s f with
      | none => s.lines.records
      | some i => if fnCode f < 16 then s.lines.records else s.lines.records.modify i fun l =>
        { l with staged := decide (l.polarity = .fallingLow) } } := by
  have inactive : ∀ p : Polarity, drivenValue p false = decide (p = .fallingLow) := fun p => by cases p <;> rfl
  unfold unbindFn driveFn
  rw [isOutputFn_eq]
  by_cases output : 16 ≤ fnCode f
  · have : ¬ fnCode f < 16 := by omega
    cases lineOf s f <;> simp [output, this, setBinding, modifyLine, inactive]
  · have : fnCode f < 16 := by omega
    cases lineOf s f <;> simp [output, this, setBinding]

theorem bindFn_eq {s : State} (inv : bindingInv s) (f : Fn) (i : Nat) : bindFn s f i = { s with
    lines.binding := s.lines.binding.set (fnCode f) (some i)
    lines.records := if fnCode f < 16 then s.lines.records else s.lines.records.modify i fun l =>
      { l with staged := if l.polarity = .risingHigh then shownState s f else !shownState s f } } := by
  have bound : lineOf (setBinding s f (some i)) f = some i := (lineOf_setBinding inv f _ f).trans (if_pos rfl)
  have state : outputState (setBinding s f (some i)) f = shownState s f := by cases f <;> rfl
  unfold bindFn
  rw [isOutputFn_eq]
  by_cases output : 16 ≤ fnCode f
  · have : ¬ fnCode f < 16 := by omega
    rw [if_pos (decide_eq_true output), driveFn, bound, if_neg this, state]
    simp only [drivenValue_if]
    rfl
  · have : fnCode f < 16 := by omega
    simp [output, this]
    rfl

/-- LINE_BIND to a line by its table of checks. -/
theorem decideLineBind_chosen {a : State} (inv : bindingInv a) (f : Fn) (i : Nat) :
    decideLineBind (some f) (some i) a =
      chosen
        [ orField (decide (31 < i)) .line,
          orElse ((lineOf a f).isSome && decide (lineOf a f ≠ some i)) .boundElsewhere,
          orElse (allFns.any fun g => decide (g ≠ f) && decide (lineOf a g = some i)) .lineInUse,
          orElse (if fnCode f < 16 then decide ((getLine a i).dir = .out) else decide ((getLine a i).dir = .inp))
            .directionMismatch ]
        a (rebind a f (some i)) (.lineBind f (some i) (lineValue (getLine (rebind a f (some i)) i))) := by
  refine chosen_orField (by simp [Config.lineCount]; omega) fun _ => ?_
  show afterCheck a _ (bindRefusal a f i) = _
  refine chosen_checkOr ?_ fun _ => chosen_checkOr ?_ fun _ => chosen_checkOr ?_ fun _ => rfl
  · cases lineOf a f <;> simp
  · rw [← any_bound inv]
    simp [and_comm]
  · rw [isOutputFn_eq]
    cases dir : (getLine a i).dir <;> simp


end
end Sys2Proof.Machine

namespace Sys2Proof
open Machine

/-- Settles O58: a line's bound function decides LINE_WRITE, the reports of a LINE_CLEAR may follow all of its clearing, and
LINE_BIND ends in the binding and the staged value written out. -/
theorem linesAreWrittenClearedAndBound : Obligations.LinesAreWrittenClearedAndBound := by
  intro tag s carries hcarries
  have carried : ∀ a, bindingInv a → ∀ i, boundOutput a i = carries a i := fun a inv i =>
    (boundOutput_eq inv i).trans (hcarries a i).symm
  refine ⟨?_, ?_, ?_, ?_, ?_⟩
  · intro mask values a rs ha inv hrs
    subst ha
    show Host.Outcome.next (serve 0x49#8 tag (decideLineWrite mask values) s) = _
    rw [serve, restartIdle_wakeIfIdle, decideLineWrite, mapLinesFrom_eq]
    simp only [writeLine, carried _ inv]
    rw [hrs]
    rfl
  · intro mask a ha inv cleared events hcleared hevents
    have cleared_eq : cleared = clearAll a (maskedLines mask) := by
      rw [hcleared, clearAll_maskedLines inv]
      rfl
    have events_eq : events = ((maskedLines mask).filter (clearFinds a)).map (clearEvent a) := by
      rw [hevents, maskedLines, List.filter_filter]
      refine congrArg (List.map (clearEvent a)) (List.filter_congr fun i _ => ?_)
      rw [clearFinds, Bool.and_assoc, Bool.and_comm]
    have inside : ∀ i ∈ maskedLines mask, i < a.lines.records.length := fun i hi => by
      rw [inv.1]
      exact List.mem_range.mp (List.mem_of_mem_filter hi)
    have lines := foldl_clearLine inside (List.Nodup.filter _ List.nodup_range)
    rw [← cleared_eq, ← events_eq] at lines
    have beside : apart (events.foldl offerMinor cleared) = apart a :=
      (foldl_keeps apart _ apart_offerMinor events cleared).trans (by rw [hcleared]; rfl)
    have reserved : (events.foldl offerMinor cleared).queue.reserved = a.queue.reserved :=
      (foldl_keeps (fun u => u.queue.reserved) _ (fun u b => by simp) events cleared).trans (by rw [hcleared])
    refine ⟨events.foldl offerMinor cleared, rfl, ?_, eq_of_apart beside, reserved,
      fun i hi => ⟨(getLine (events.foldl offerMinor cleared) i).staged, ?_⟩⟩
    · subst ha
      show Host.Outcome.next (serve 0x4D#8 tag (decideLineClear mask) s) = _
      rw [serve, restartIdle_wakeIfIdle, decideLineClear, lines]
      rfl
    · have line : getLine cleared i = if mask.getLsbD i then statusCleared (getLine a i) else getLine a i := by
        rw [hcleared]
        exact (congrArg (fun rs => rs.getD i default) (mapLinesFrom_eq
          (fun i l => if mask.getLsbD i then statusCleared l else l) 0 a.lines.records).symm).trans
          (getD_mapLinesFrom _ (by rw [inv.1]; exact hi))
      rw [(foldl_offerMinor_restaged events cleared).getLine_eq i, line]
      split <;> rfl
  · rintro line a rfl
    show Host.Outcome.next (serve 0x4E#8 tag (decideLineBind none line) s) = _
    rw [serve, restartIdle_wakeIfIdle]
    rfl
  · intro f a w ha inv hw
    have left : unbindFn a f = w := (unbindFn_eq a f).trans hw.symm
    refine ⟨_, _, rfl, rfl, ?_⟩
    subst ha
    show Host.Outcome.next (serve 0x4E#8 tag (decideLineBind (some f) none) s) = _
    rw [serve, restartIdle_wakeIfIdle, decideLineBind, rebind, left]
    simp only [lineValue_eq]
    rfl
  · intro f i a w ha inv hw
    refine ⟨_, rfl, ?_⟩
    have owner := decideLineBind_chosen inv f i
    rw [rebind, (bindFn_eq inv f i).trans hw.symm, lineValue_eq] at owner
    subst ha
    exact congrArg _ (serve_decided owner)

end Sys2Proof
end

