-- ==== Sys2Proof/Proofs/PinsAndEdges.lean ====
section
/-! The level at a pin, pin changes, and accepted edges (R146 to R149, R151, R158, R159). -/
namespace Sys2Proof.Machine

/-! ### The level at a pin -/

/-- A pin that its line does not drive: the outside, else the pull (R151, log 3). -/
theorem undriven_eq (l : Line) : (l.pin.or (pulledPin l)).getD false = l.pin.getD (decide (l.pull = .up)) := by
  cases l.pin with
  | some _ => rfl
  | none => cases pull : l.pull <;> cases dir : l.dir <;> simp [pulledPin, pull, dir]

theorem pinLevel_eq (l : Line) : pinLevel l =
    if l.dir = .inp then l.pin.getD (decide (l.pull = .up))
    else match l.drive with
      | .pushPull => l.staged
      | .openLow => l.staged && l.pin.getD (decide (l.pull = .up))
      | .openHigh => l.staged || l.pin.getD (decide (l.pull = .up)) := by
  rw [← undriven_eq]
  unfold pinLevel drivenPin
  rw [Option.or_assoc]
  cases l.dir with
  | inp => rfl
  | out => cases l.drive <;> cases l.staged <;> simp

/-! ### Pin changes -/

/-- The change pending on a line, if any, has not stood for the debounce time (R147). -/
def waits (s : State) (l : Line) : Prop :=
  l.dir = .out ∨ l.change = none ∨ ∃ v t, l.change = some (v, t) ∧ s.time.clock < t + l.debounce * 1000

theorem dueChange_waits {s : State} {l : Line} (h : waits s l) : dueChange s l = none := by
  unfold dueChange
  rcases h with out | free | ⟨v, t, change, early⟩
  · rw [out]
  · rw [free]; cases l.dir <;> rfl
  · rw [change]
    cases l.dir with
    | out => rfl
    | inp => exact if_neg (Nat.not_le.mpr early)

theorem dueChange_due {s : State} {l : Line} {new : Bool} {t : Nat} (dir : l.dir = .inp)
    (change : l.change = some (new, t)) (due : t + l.debounce * 1000 ≤ s.time.clock) :
    dueChange s l = some (new, t + l.debounce * 1000) := by
  unfold dueChange
  rw [dir, change]
  exact if_pos due

theorem acceptDue_waits {s : State} {i : Nat} (h : waits s (getLine s i)) : acceptDue s i = s := by
  rw [acceptDue, dueChange_waits h]

theorem acceptDue_due {s : State} {i : Nat} {new : Bool} {t : Nat} (dir : (getLine s i).dir = .inp)
    (change : (getLine s i).change = some (new, t)) (due : t + (getLine s i).debounce * 1000 ≤ s.time.clock) :
    acceptDue s i = acceptEdge s i new (t + (getLine s i).debounce * 1000) := by
  rw [acceptDue, dueChange_due dir change due]

/-- The pin of an IN line compared with its accepted level: the pending change starts, goes on or is dropped (R147). -/
theorem comparePin_inp {t : Nat} {l : Line} {high : Bool} (dir : l.dir = .inp) (level : pinLevel l = high) :
    comparePin t l = { l with change := if high = l.level then none else some (l.change.getD (high, t)) } := by
  unfold comparePin
  rw [level]
  split
  next out => rw [out] at dir; cases dir
  next =>
    split
    next => rfl
    next => cases change : l.change with
      | none => rfl
      | some x =>
        exact congrArg (fun c => { l with change := c }) change

/-- A line whose pin the outside drives to another level (R147). -/
def pinDriven (t : Nat) (high : Bool) (l : Line) : Line :=
  { l with
    pin := some high
    change := if l.dir = .out then l.change else if high = l.level then none else some (l.change.getD (high, t)) }

theorem comparePin_pinDriven (t : Nat) (high : Bool) (l : Line) :
    comparePin t { l with pin := some high } = pinDriven t high l := by
  have level := pinLevel_inp { l with pin := some high }
  unfold pinDriven
  split
  next out => simp [comparePin, out]
  next inp =>
    have dir : l.dir = .inp := by cases h : l.dir with
      | inp => rfl
      | out => exact absurd h inp
    exact comparePin_inp (l := { l with pin := some high }) dir (level dir)

theorem drivePin_eq (s : State) (i : Nat) (high : Bool) :
    drivePin s i high = withLine s i (pinDriven (now s) high (getLine s i)) := by
  rw [drivePin, modifyLine_eq, comparePin_pinDriven]

/-- A pin that changes on a line whose pending change still waits (R147): the new change is due at once with debounce 0. -/
theorem acceptDue_pinDriven {s : State} {i : Nat} (inside : i < s.lines.records.length)
    (h : waits s (getLine s i)) (high : Bool) :
    acceptDue (withLine s i (pinDriven (now s) high (getLine s i))) i =
      if (getLine s i).dir = .inp ∧ high ≠ (getLine s i).level ∧ (getLine s i).change = none
          ∧ (getLine s i).debounce = 0
      then acceptEdge (withLine s i (pinDriven (now s) high (getLine s i))) i high s.time.clock
      else withLine s i (pinDriven (now s) high (getLine s i)) := by
  have line := getLine_withLine inside (pinDriven (now s) high (getLine s i))
  split
  next fresh =>
    obtain ⟨dir, moved, free, debounce⟩ := fresh
    have change : (pinDriven (now s) high (getLine s i)).change = some (high, s.time.clock) := by
      simp [pinDriven, dir, moved, free, now]
    have due := acceptDue_due (i := i) (line.symm ▸ dir) (line.symm ▸ change)
      (by rw [line]; simp [pinDriven, debounce, withLine])
    rw [due, line]
    simp [pinDriven, debounce]
  next settled =>
    refine acceptDue_waits ?_
    rw [line]
    rcases h with out | free | ⟨v, t, change, early⟩
    · exact .inl out
    · cases dir : (getLine s i).dir with
      | out => exact .inl dir
      | inp =>
        by_cases same : high = (getLine s i).level
        · exact .inr (.inl (by simp [pinDriven, dir, same]))
        · have debounce : (getLine s i).debounce ≠ 0 := fun zero => settled ⟨dir, same, free, zero⟩
          refine .inr (.inr ⟨high, s.time.clock, by simp [pinDriven, dir, same, free, now], ?_⟩)
          show s.time.clock < s.time.clock + (getLine s i).debounce * 1000
          omega
    · by_cases gone : (pinDriven (now s) high (getLine s i)).change = none
      · exact .inr (.inl gone)
      · refine .inr (.inr ⟨v, t, ?_, early⟩)
        revert gone
        simp only [pinDriven, change]
        split_ifs <;> simp

/-! ### Accepted edges -/

/-- Line `i` right after an accepted edge, its LINE_EVENT offered (R147 to R149). -/
theorem edgeTaken_eq {s : State} {i : Nat} (inside : i < s.lines.records.length) (high : Bool) (t : Nat) :
    edgeTaken s i high t =
      if lineMasked (takeEdge high (getLine s i)) && !(getLine s i).latch then
        offerMinor (withLine s i { takeEdge high (getLine s i) with latch := true })
          (.lineEvent i (fnOf s i) (getLine s i).sense .edge high (takeEdge high (getLine s i)).count t)
      else withLine s i (takeEdge high (getLine s i)) := by
  rw [edgeTaken, modifyLine_eq, offerEvent_withLine inside]
  rfl

theorem edgeTaken_change {s : State} {i : Nat} (inside : i < s.lines.records.length) (high : Bool) (t : Nat) :
    (getLine (edgeTaken s i high t) i).change = none := by
  rw [edgeTaken_eq inside]
  split
  · rw [(offerMinor_restaged _ _).getLine_eq i, getLine_withLine inside]
    rfl
  · rw [getLine_withLine inside]
    rfl

/-- An accepted edge leaves its line no pending change, so that nothing is accepted a second time. -/
theorem acceptDue_acceptEdge {s : State} {i : Nat} (inside : i < s.lines.records.length) (high : Bool) (t : Nat) :
    acceptDue (acceptEdge s i high t) i = acceptEdge s i high t := by
  refine acceptDue_waits (.inr (.inl ?_))
  rw [((edgeHeld_restaged s i high t).trans (acceptEdge_restaged s i high t)).getLine_eq i]
  exact edgeTaken_change inside high t

/-- An edge, as the statement writes it. -/
theorem activeEdge_eq (l : Line) (high : Bool) : activeEdge l high = if l.polarity = .risingHigh then high else !high := by
  unfold activeEdge
  cases l.polarity <;> rfl

theorem takeEdge_eq (high : Bool) (l : Line) : takeEdge high l =
    { l with
      level := high, change := none
      count := if eventEdge l high then (l.count + 1) % 65536 else l.count
      raw := l.raw || (if l.sense = .edge then eventEdge l high else activeEdge l high) } := by
  unfold takeEdge
  cases l.sense <;> rfl

theorem edgeWoken_eq (s : State) (i : Nat) (high : Bool) (t : Nat) :
    edgeWoken s i high t =
      if eventEdge (getLine s i) high && (getLine s i).wake && s.time.idle then wake (edgeHeld s i high t) (.line i)
      else edgeHeld s i high t := by
  have time : (edgeHeld s i high t).time = s.time := by
    unfold edgeHeld edgeTaken
    split <;> simp
  unfold edgeWoken wakeIfIdle
  rw [time]
  cases eventEdge (getLine s i) high && (getLine s i).wake <;> simp

end Sys2Proof.Machine
end

