-- ==== Sys2Proof/Proofs/EdgesHanded.lean ====
section
/-! Accepted edges handed to the owners of their functions, the keys by their tables of checks (R51, R112, R148). -/
namespace Sys2Proof.Machine

/-! ### The checks of the keys -/

/-- What a decision by checks says of the first check that fails, where no refusal carries the fields of an acceptance. -/
theorem failed_of_chosen {cs : List Check} {a u : State} {f : Fields} {d : Option Result} {g : Result → Fields}
    (h : (d.elim (accept u f) fun r => (a, r, g r)) = chosen cs a u f)
    (table : ∀ c ∈ cs, c.2.2 ≠ f) (refusal : ∀ r, g r ≠ f) :
    d = (cs.find? fun c => c.1).map fun c => c.2.1 := by
  unfold chosen at h
  cases found : cs.find? fun c => c.1 with
  | none =>
    rw [found] at h
    cases d with
    | none => rfl
    | some r => exact absurd (congrArg (fun x => x.2.2) h) (refusal r)
  | some c =>
    rw [found] at h
    cases d with
    | none => exact absurd (congrArg (fun x => x.2.2) h).symm (table c (List.mem_of_find?_eq_some found))
    | some r => exact congrArg some (congrArg (fun x => x.2.1) h)

/-- The turn's checks are those of its table (R51). -/
theorem turnCheck_eq {s : State} (active : s.time.idle = false) (d : Direction) (o : Bool) :
    turnCheck s d o = ((turnChecks s d o).find? fun c => c.1).map fun c => c.2.1 := by
  have byTable := decideTurn_chosen active d o
  rw [← acceptTurn_eq active] at byTable
  refine failed_of_chosen (g := fun _ => .none) (Eq.trans ?_ byTable) (by simp [turnChecks, orElse])
    (fun _ => nofun)
  unfold decideTurn
  cases turnCheck s d o <;> rfl

/-- An order's checks are those of its table (R111). -/
theorem orderCheck_eq (s : State) :
    orderCheck s .both 0 = ((orderChecks s .both 0).find? fun c => c.1).map fun c => c.2.1 := by
  have byTable := decideShoot_chosen 0 (some .both) 0 (some .normal) none s
  rw [List.cons_append, List.cons_append, List.cons_append, List.nil_append, chosen_cons, chosen_cons, chosen_cons] at byTable
  refine failed_of_chosen (g := fun r => if r = .badField then .badField .recipe else .none)
    (Eq.trans ?_ byTable) (by simp [orderChecks, orElse, orField]) (fun r => by split <;> nofun)
  show _ = afterOrder s _ (orderCheck s .both 0)
  unfold afterOrder
  cases orderCheck s .both 0 with
  | none => rfl
  | some r => cases r <;> rfl

/-! ### The owners -/

section
variable {s : State} {i : Nat} {f : Fn} {t : Nat}

theorem handLine_bound (inv : bindingInv s) (bound : lineOf s f = some i) (active : Bool) :
    handLine s i active t = if active then handEdge s f t else s := by
  rw [handLine, (fnOf_iff inv).mpr bound]

theorem handLine_inactive (s : State) (i t : Nat) : handLine s i false t = s := by
  unfold handLine
  split <;> rfl

theorem handLine_unbound (free : ∀ f, lineOf s f ≠ some i) (active : Bool) : handLine s i active t = s := by
  unfold handLine
  split
  · rfl
  next f found => exact absurd (lineOf_of_fnOf found) (free f)

/-- Functions whose edges no owner takes: sensors read as levels, and outputs (R148). -/
theorem handEdge_level (h : 4 ≤ fnCode f ∧ fnCode f ≤ 9 ∨ fnCode f = 12 ∨ 16 ≤ fnCode f) :
    handEdge s f t = s := by
  cases f with
  | platenTop | platenContact | armHome | armLeft | armRight | vacuumOk | doubleLeaf => rfl
  | camLTrigger | camRTrigger | attention | readyLamp => rfl
  | _ => exact absurd h (by decide)

theorem noteLeaf_eq (s : State) {d : Direction} (h : f = .leafSeenL ∧ d = .forward ∨ f = .leafSeenR ∧ d = .backward) :
    noteLeaf s f = { s with
      motion.turn := s.motion.turn.map fun x =>
        if x.direction = d ∧ (x.stage = .release ∨ x.stage = .verify) then { x with noted := true } else x } := by
  have verifies : ∀ x : Direction, verifyFn x = f ↔ x = d := by
    rcases h with ⟨rfl, rfl⟩ | ⟨rfl, rfl⟩ <;> intro x <;> cases x <;> decide
  simp only [noteLeaf, modifyTurn, verifies]

end

/-- The state in which an ACTIVE part decides a key (R51, R112). -/
def keyed (s : State) : State :=
  { s with time.idleStart := if s.time.idleSetting = 0 then none else some s.time.clock }

theorem keyShoot_eq {s : State} (active : s.time.idle = false) : keyShoot s =
    match (orderChecks (keyed s) .both 0).find? fun c => c.1 with
    | some c => offerMinor (keyed s) (.keyRefused .keyShoot c.2.1)
    | none => orderAccepted (keyed s)
      { tag := 0, origin := .key, sides := .both, recipe := 0, purpose := .normal, notBefore := none
        accepted := (keyed s).time.clock } := by
  have restarted : restartIdle s = keyed s := by rw [restartIdle, active]; rfl
  rw [keyShoot, restarted, orderCheck_eq]
  cases (orderChecks (keyed s) .both 0).find? fun c => c.1 <;> rfl

theorem keyTurn_eq {s : State} (active : s.time.idle = false) (key : Fn) (d : Direction) : keyTurn s key d =
    match (turnChecks (keyed s) d false).find? fun c => c.1 with
    | some c => offerMinor (keyed s) (.keyRefused key c.2.1)
    | none => settle (turnAccepted (keyed s) d .key false) := by
  have restarted : restartIdle s = keyed s := by rw [restartIdle, active]; rfl
  rw [keyTurn, restarted, turnCheck_eq (s := keyed s) active, acceptTurn_eq (s := keyed s) active]
  cases (turnChecks (keyed s) d false).find? fun c => c.1 <;> rfl

/-! ### The edge before it is handed over -/

/-- An accepted edge leaves the clock and the idle setting, whatever it wakes. -/
theorem edgeWoken_time (s : State) (i : Nat) (high : Bool) (t : Nat) :
    (edgeWoken s i high t).time.idleSetting = s.time.idleSetting ∧ (edgeWoken s i high t).time.clock = s.time.clock := by
  have held : (edgeHeld s i high t).time = s.time := by
    unfold edgeHeld edgeTaken
    split <;> simp
  unfold edgeWoken
  split
  · have setting : (wakeIfIdle (edgeHeld s i high t) (.line i)).time.idleSetting = (edgeHeld s i high t).time.idleSetting :=
      congrArg (fun l => l.time.idleSetting) (lasting_wakeIfIdle _ _)
    exact ⟨by rw [setting, held], by simp [held]⟩
  · rw [held]
    exact ⟨rfl, rfl⟩

theorem edgeWoken_reworked (s : State) (i : Nat) (high : Bool) (t : Nat) : Reworked i s (edgeWoken s i high t) := by
  have held := (edgeTaken_reworked s i high t).restaged (edgeHeld_restaged s i high t)
  unfold edgeWoken
  split
  · exact held.restaged (wakeIfIdle_restaged _ _)
  · exact held

end Sys2Proof.Machine

namespace Sys2Proof
open Machine

/-- Settles O59: a pending change is due or waits, and an accepted edge is taken, held and woken before it is handed to the
owner of its function. -/
theorem pinsAndAcceptedEdges : Obligations.PinsAndAcceptedEdges := by
  refine ⟨fun l outside h => ?_, fun s i l inside hl inv => ⟨?_, ?_, ?_, ?_⟩⟩
  · subst h
    exact pinLevel_eq l
  · intro high w hwaits hw
    subst hl
    have driven : drivePin s i high = w := (drivePin_eq s i high).trans hw.symm
    show Host.Outcome.next (acceptDue (drivePin (acceptDue s i) i high) i) = _
    rw [acceptDue_waits hwaits, drivePin_eq, acceptDue_pinDriven inside hwaits, ← drivePin_eq, driven]
  · intro hwaits
    subst hl
    exact congrArg _ (acceptDue_waits hwaits)
  · intro high new t0 dir change due
    subst hl
    have accepted := acceptDue_due dir change due
    refine ⟨congrArg _ accepted, ?_⟩
    show Host.Outcome.next (acceptDue (drivePin (acceptDue s i) i high) i) =
      .next (acceptDue (drivePin (acceptDue (acceptEdge s i new _) i) i high) i)
    rw [accepted, acceptDue_acceptEdge inside]
  · intro high ev active t x v1 v2 v hactive hev hx hv1 hv2 hv
    subst hl
    have active_eq : activeEdge (getLine s i) high = active := (activeEdge_eq _ _).trans hactive.symm
    have ev_eq : eventEdge (getLine s i) high = ev := by rw [eventEdge, active_eq, hev]
    have x_eq : takeEdge high (getLine s i) = x := by rw [takeEdge_eq, ev_eq, active_eq, hx]
    have v1_eq : edgeTaken s i high t = v1 := by
      rw [edgeTaken_eq inside, x_eq, hv1, hx]
      rfl
    have v2_eq : edgeHeld s i high t = v2 := by rw [edgeHeld, v1_eq, hv2]
    have v_eq : edgeWoken s i high t = v := by rw [edgeWoken_eq, v2_eq, ev_eq, hv]
    have edge : acceptEdge s i high t = settle (runMotion (handLine v i active t)) := by
      rw [acceptEdge_eq, v_eq, active_eq]
    have reworked : Reworked i s v := v_eq ▸ edgeWoken_reworked s i high t
    have bound : ∀ f, lineOf s f = some i → active = true → handLine v i active t = handEdge v f t := fun f hf on => by
      rw [handLine_bound (bindingInv_of_binding reworked.binding reworked.length inv)
        ((lineOf_of_binding reworked.binding f).trans hf), on, if_pos rfl]
    have handed : ∀ f, active = true → lineOf s f = some i →
        acceptEdge s i high t = settle (runMotion (handEdge v f t)) := fun f on hf => by rw [edge, bound f hf on]
    refine ⟨?_, handed .camLSync, handed .camRSync, handed .camLStored, handed .camRStored, ?_, ?_, ?_⟩
    · rintro (off | free | ⟨f, hf, level⟩)
      · rw [edge, off, handLine_inactive]
      · rw [edge, handLine_unbound fun f hf => free f ((lineOf_of_binding reworked.binding f).symm.trans hf)]
      · cases on : active with
        | false => rw [edge, on, handLine_inactive]
        | true => rw [handed f on hf, handEdge_level level]
    · intro f d on hf seen
      rw [handed f on hf, ← noteLeaf_eq v seen]
      rcases seen with ⟨rfl, -⟩ | ⟨rfl, -⟩ <;> rfl
    · intro on idle key
      have asleep : ∀ f, f = .keyShoot ∨ f = .keyTurn ∨ f = .keyBack → handEdge v f t = v := by
        rintro f (rfl | rfl | rfl) <;> exact if_pos idle
      rcases key with hf | hf | hf <;> rw [handed _ on hf, asleep _ (by simp)]
    · intro w on idle hw
      have keyed_eq : keyed v = w := by
        obtain ⟨setting, clock⟩ := v_eq ▸ edgeWoken_time s i high t
        rw [keyed, setting, clock, hw]
      have asked : ∀ f u, lineOf s f = some i → handEdge v f t = u → acceptEdge s i high t = settle (runMotion u) :=
        fun f u hf owner => by rw [handed f on hf, owner]
      refine ⟨fun hf => asked _ _ hf ?_, fun hf => asked _ _ hf ?_, fun hf => asked _ _ hf ?_⟩
      · exact (if_neg (by simp [idle])).trans (keyed_eq ▸ keyShoot_eq idle)
      · exact (if_neg (by simp [idle])).trans (keyed_eq ▸ keyTurn_eq idle _ _)
      · exact (if_neg (by simp [idle])).trans (keyed_eq ▸ keyTurn_eq idle _ _)

end Sys2Proof
end
